-- ==== Sys2Proof/Word.lean ====
section
/-! DEFINITION. Words of the Glixa 960 and the shape of sparse data: bytes, 32-bit words, 64-bit dwords (R1, R2), lane masks,
and association lists keyed by a natural number. -/
namespace Sys2Proof

/-- A byte of any memory. -/
abbrev Byte := BitVec 8
/-- A 32-bit word: one lane's register, a uniform register, an instruction word. -/
abbrev Word := BitVec 32
/-- A 64-bit dword: an address pair, a work identifier, a special register pair. -/
abbrev DWord := BitVec 64
/-- One bit a lane of a group (R72). -/
abbrev Mask := BitVec 64

/-- Sparse data: pairs of a key and a value, keys strictly rising (the canonical form that `Machine.KeysRise` states). -/
abbrev AMap (α : Type) := List (Nat × α)

end Sys2Proof
end

