-- ==== Sys2Proof/Machine/Flags.lean ====
section
/-! DEFINITION. The sticky float flags (R128, R60): [4] NX, [3] UF, [2] OF, [1] DZ, [0] NV. -/
namespace Sys2Proof.Machine

/-- A set of float flags in FSTAT's order (R60). -/
abbrev Flags := BitVec 5

def flagNV : Flags := 1
def flagDZ : Flags := 2
def flagOF : Flags := 4
def flagUF : Flags := 8
def flagNX : Flags := 16
/-- An overflow raises OF and NX (R128). -/
def flagOver : Flags := 20

/-- A flag raised when a condition holds. -/
def flagIf (c : Bool) (f : Flags) : Flags := if c then f else 0

/-- The flags of a rounding: NX when inexact, UF when also tiny before rounding (R122), OF on overflow (R118). -/
def roundFlags (inexact tiny ovf : Bool) : Flags :=
  if ovf then flagOver else flagIf inexact flagNX ||| flagIf (inexact && tiny) flagUF

end Sys2Proof.Machine
end

