-- ==== Sys2Proof/Syntax.lean ====
section
/-! DEFINITION. The instructions and the other steps of the part: one constructor of `Instr` per row of spec/opcode_table.json.
Operand types follow R52 to R59; a step of another agent (a row without bits) carries operands that name its subject. -/
namespace Sys2Proof

/-- A 32-bit per-lane source (R52); a literal carries its word (R48). -/
inductive LSrc where
  | v (r : Fin 112) | b (i : Fin 4) | zero | lane | widLo | widHi | g (i : Fin 6) | lit (w : Word)
  deriving DecidableEq, Repr, Inhabited

/-- A 32-bit per-lane destination (R53): W = 0 names a register, W = 1 writes the latch only. -/
inductive LDst where
  | v (r : Fin 112) | latch
  deriving DecidableEq, Repr, Inhabited

/-- A per-lane pair, quad or block field used as a source (R54): a register, or 116 read as zero. -/
inductive LPair where
  | v (r : Fin 112) | zero
  deriving DecidableEq, Repr, Inhabited

/-- A uniform source (R57). -/
inductive USrc where
  | g (r : Fin 56) | zero | wbaseLo | wbaseHi | role | frame | gang | cyc | lit (w : Word)
  deriving DecidableEq, Repr, Inhabited

/-- A uniform destination (R57): a register, or 56 discards. -/
inductive UDst where
  | g (r : Fin 56) | zero
  deriving DecidableEq, Repr, Inhabited

/-- Integer comparison conditions (R56, op 0x05; R59, op 0x02), fn 0 to 7. -/
inductive ICond where
  | eq | ne | ltS | leS | ltN | leN | gtS | gtN
  deriving DecidableEq, Repr, Inhabited

/-- Float comparison conditions (R141), fn 0 to 7. -/
inductive FCond where
  | eq | ne | lt | le | gt | ge | un | ord
  deriving DecidableEq, Repr, Inhabited

/-- Rounding modes (R118), codes 0 to 5. -/
inductive Rnd where
  | rne | rtz | rdn | rup | rna | rsr
  deriving DecidableEq, Repr, Inhabited

/-- The four modes of FADD to FMA, FDIV and FRND (R138, R142, R144). -/
inductive Rnd4 where
  | rne | rtz | rdn | rup
  deriving DecidableEq, Repr, Inhabited

/-- Sources and targets of CVTQ and CVTDQ (R149, R150), fn 0 to 6. -/
inductive QFmt where
  | e4m3 | e5m2 | e3m2 | e2m3 | e2m1 | lns6 | s8
  deriving DecidableEq, Repr, Inhabited

/-- Conversion codes of CVT (R148). -/
inductive CvtCode where
  | f32s32 | f32n32 | s32f32 | n32f32 | f32f16 | f16f32 | f32bf16 | bf16f32
  | f32f16x2 | f32bf16x2 | f16x2f32 | bf16x2f32
  | toQ (t : QFmt) | fromQ (t : QFmt)   -- 0x10-0x15 and 0x18-0x1D; s8 is no code of these (R148)
  | f32s16 | f32s8 | s64f32 | f32s64
  deriving DecidableEq, Repr, Inhabited

/-- Load sizes (R180). -/
inductive LdSize where
  | n8 | s8 | n16 | s16 | b32 | b64 | b128
  deriving DecidableEq, Repr, Inhabited

/-- Store sizes (R180). -/
inductive StSize where
  | b8 | b16 | b32 | b64 | b128
  deriving DecidableEq, Repr, Inhabited

/-- Sizes of LDO and STO (R184). -/
inductive OSize where
  | b32 | b64 | b128
  deriving DecidableEq, Repr, Inhabited

/-- Atomic operations (R182), aop 0 to 10. -/
inductive Aop where
  | add | minS | minN | maxS | maxN | and | or | xor | swap | cas | fadd
  deriving DecidableEq, Repr, Inhabited

/-- Scopes (R287), codes 0 to 6. -/
inductive Scope where
  | thr | grp | wkg | clu | die | dev | sys
  deriving DecidableEq, Repr, Inhabited

/-- The order field of atomics (R182): relaxed, acquire, release, both. -/
inductive Ord4 where
  | rlx | acq | rel | ar
  deriving DecidableEq, Repr, Inhabited

/-- MMAR formats (R56, R228), fmt 0 to 7. -/
inductive MFmt where
  | bf16 | fp16 | e4m3 | e5m2 | e2m1 | lns6 | e3m2 | e2m3
  deriving DecidableEq, Repr, Inhabited

/-- Conditions of BRC (R58). -/
inductive BCond where
  | eqz | nez | ltz | gez | gtz | lez
  deriving DecidableEq, Repr, Inhabited

/-- Resources of GIVE and CLAIM (R101). -/
inductive Resource where
  | reg | ls | ob
  deriving DecidableEq, Repr, Inhabited

/-- Comparisons of MWAIT (R295). -/
inductive WCond where
  | ge | eq | ne
  deriving DecidableEq, Repr, Inhabited

/-- Special registers by their index (R60). -/
inductive SReg where
  | tags | fstat | progress | errst | readcount | core | cluster | die | part | vdev | gen | cutgen | seedkey
  deriving DecidableEq, Repr, Inhabited

/-- Where an uncorrectable check-code error struck (R167 to R171). -/
inductive ErrSite where
  /-- HBM or a last-level slice: no clean copy; the sector's physical address. -/
  | sector (pa : Nat)
  /-- The L1 of a core; the sector's physical address: clean data is fetched again, dirty data is poisoned. -/
  | l1 (core pa : Nat)
  /-- The sampler cache of a core: discarded and fetched again. -/
  | sampler (core pa : Nat)
  /-- A 128-byte unit of a core's local store. -/
  | ls (core unit : Nat)
  /-- A byte of a core's operand buffer. -/
  | ob (core byte : Nat)
  /-- A vector register of a lane of a group (parity, R171). -/
  | vreg (group lane reg : Nat)
  /-- A uniform register of a group (parity, R171). -/
  | greg (group reg : Nat)
  /-- A line of a cluster cache; the sector's physical address: clean data is fetched again, dirty data is poisoned. -/
  | line (cluster pa : Nat)
  /-- A line of the last-level cache, in the same way. -/
  | slice (pa : Nat)
  /-- A byte of a cluster's SRAM. -/
  | sram (cluster byte : Nat)
  /-- An entry of a core's spawn buffer, by its arrival order. -/
  | spawn (core order : Nat)
  deriving DecidableEq, Repr, Inhabited

/-- What another part asks of this part's memory (R183, R342). -/
inductive InAcc where
  | read | write
  | atomic (op : Aop) (wide : Bool)
  deriving DecidableEq, Repr, Inhabited

/-- One constructor per row of spec/opcode_table.json: 189 encoded instructions, then 112 steps of the other agents. -/
inductive Instr where
  -- integer and logical, b0 (R133 to R137)
  | iadd (d : LDst) (a b : LSrc) | isub (d : LDst) (a b : LSrc) | imul (d : LDst) (a b : LSrc)
  | imulhS (d : LDst) (a b : LSrc) | imulhN (d : LDst) (a b : LSrc) | imad (d : Fin 112) (a b : LSrc)
  | iminS (d : LDst) (a b : LSrc) | iminN (d : LDst) (a b : LSrc)
  | imaxS (d : LDst) (a b : LSrc) | imaxN (d : LDst) (a b : LSrc)
  | iabs (d : LDst) (a : LSrc) | ineg (d : LDst) (a : LSrc) | popc (d : LDst) (a : LSrc) | clz (d : LDst) (a : LSrc)
  | brev (d : LDst) (a : LSrc) | idiffN (d : LDst) (a b : LSrc)
  | and (d : LDst) (a b : LSrc) | or (d : LDst) (a b : LSrc) | xor (d : LDst) (a b : LSrc) | andn (d : LDst) (a b : LSrc)
  | not (d : LDst) (a : LSrc) | mov (d : LDst) (a : LSrc) | sel (d : Fin 112) (a b : LSrc)
  | shl (d : LDst) (a b : LSrc) | shr (d : LDst) (a b : LSrc) | sar (d : LDst) (a b : LSrc) | rotl (d : LDst) (a b : LSrc)
  | bfeN (d : LDst) (a b : LSrc) | bfeS (d : LDst) (a b : LSrc) | bfi (d : Fin 112) (a b : LSrc) | fshr (d : Fin 112) (a b : LSrc)
  | icmp (cc : ICond) (d : LDst) (a b : LSrc)
  | iadd64 (d : Fin 112) (a : LPair) (b : LSrc) | isub64 (d : Fin 112) (a : LPair) (b : LSrc)
  | shl64 (d : Fin 112) (a : LPair) (b : LSrc) | shr64 (d : Fin 112) (a : LPair) (b : LSrc)
  | imadwN (d : Fin 112) (a b : LSrc) | imadwS (d : Fin 112) (a b : LSrc)
  | icmp64Eq (d : LDst) (a : LPair) (b : LSrc) | icmp64LtN (d : LDst) (a : LPair) (b : LSrc)
  | iaddi (d : LDst) (a : LSrc) (imm : BitVec 10) | andi (d : LDst) (a : LSrc) (imm : BitVec 10)
  | ori (d : LDst) (a : LSrc) (imm : BitVec 10) | shli (d : LDst) (a : LSrc) (n : Fin 32) | shri (d : LDst) (a : LSrc) (n : Fin 32)
  | movi (d : LDst) (imm : BitVec 10)
  | wfld (k : Fin 6) (d : LDst)
  -- FP32, b1 and b3 (R138 to R144)
  | fadd (rm : Rnd4) (d : LDst) (a b : LSrc) | fsub (rm : Rnd4) (d : LDst) (a b : LSrc) | fmul (rm : Rnd4) (d : LDst) (a b : LSrc)
  | fma (rm : Rnd4) (d : Fin 112) (a b : LSrc)
  | fmin (d : LDst) (a b : LSrc) | fmax (d : LDst) (a b : LSrc) | fabs (d : LDst) (a : LSrc) | fneg (d : LDst) (a : LSrc)
  | fcopysign (d : LDst) (a b : LSrc) | fclass (d : LDst) (a : LSrc) | fsat (d : LDst) (a : LSrc)
  | fcmp (cc : FCond) (d : LDst) (a b : LSrc) | frnd (rm : Rnd4) (d : LDst) (a : LSrc) | ffract (d : LDst) (a : LSrc)
  | frcp (d : LDst) (a : LSrc) | frsq (d : LDst) (a : LSrc) | fsqrt (d : LDst) (a : LSrc) | fexp2 (d : LDst) (a : LSrc)
  | flog2 (d : LDst) (a : LSrc) | fsin (d : LDst) (a : LSrc) | fcos (d : LDst) (a : LSrc) | ftanh (d : LDst) (a : LSrc)
  | fdiv (rm : Rnd4) (d : LDst) (a b : LSrc)
  -- packed 16-bit (R145, R146); bf selects BF16
  | pkadd (bf : Bool) (d : LDst) (a b : LSrc) | pkmul (bf : Bool) (d : LDst) (a b : LSrc) | pkfma (bf : Bool) (d : Fin 112) (a b : LSrc)
  | pkmax (bf : Bool) (d : LDst) (a b : LSrc) | pkmin (bf : Bool) (d : LDst) (a b : LSrc) | pkdot (bf : Bool) (d : Fin 112) (a b : LSrc)
  -- conversions and exchange, b2 (R147 to R154)
  | cvt (c : CvtCode) (rm : Rnd) (d : LDst) (a : LSrc)
  | cvtq (t : QFmt) (d : LDst) (a : LPair) (b : LSrc) | cvtdq (t : QFmt) (d : Fin 112) (a b : LSrc)
  | hadm (inv : Bool) (d : LDst) (a : LSrc) (b : LPair)
  | shfl (mode : Fin 4) (d : LDst) (a b : LSrc)
  | ballot (d : Fin 112) (a : LSrc) | vany (d : LDst) (a : LSrc) | vall (d : LDst) (a : LSrc) | match_ (d : Fin 112) (a : LSrc)
  | pfxadd (d : LDst) (a : LSrc) | rdcadd (d : LDst) (a : LSrc) | rdcmax (d : LDst) (a : LSrc) | rdcmin (d : LDst) (a : LSrc)
  -- memory and records (R176 to R192)
  | ld (sz : LdSize) (ch : Fin 4) (d : Fin 112) (a : LPair) (off : BitVec 6)
  | st (sz : StSize) (ch : Fin 4) (d : LSrc) (a : LPair) (off : BitVec 6)
  | ldl (sz : LdSize) (d : Fin 112) (a : LSrc) (off : BitVec 6) | stl (sz : StSize) (d a : LSrc) (off : BitVec 6)
  | ldp (sz : LdSize) (win : Fin 4) (d : Fin 112) (a : LSrc) (off : BitVec 6)
  | smp (sz : LdSize) (ch : Fin 4) (d : Fin 112) (a : LPair) (off : BitVec 6)
  | atom (op : Aop) (wide : Bool) (sc : Scope) (o : Ord4) (d : Fin 112) (a : LPair)
  | red (op : Aop) (wide : Bool) (sc : Scope) (o : Ord4) (d : LSrc) (a : LPair)
  | atoml (op : Aop) (wide : Bool) (sc : Scope) (o : Ord4) (d : Fin 112) (a : LSrc)
  | ldo (sz : OSize) (d : Fin 112) (a : LSrc) (off : BitVec 6) | sto (sz : OSize) (d a : LSrc) (off : BitVec 6)
  | emit (d a : Fin 112) (e : Fin 64) | resv (d : Fin 112) (e : Fin 64) | wrec (d a : Fin 112) (e : Fin 64)
  | publ (d : Fin 112) (e : Fin 64) | spawn (d a : Fin 112) (e : Fin 64)
  | mmar (f : MFmt) (ru : Bool) (d a : Fin 112) (g : Fin 54) (z : Bool)
  -- per-lane branches (R91)
  | brd (c : Fin 112) (j : Fin 8) (off : BitVec 15) | brs (c : Fin 112) (off : BitVec 15) | brxd (c : Fin 112) (j : Fin 8)
  -- uniform arithmetic (R84 to R86)
  | uadd (d : UDst) (a b : USrc) | usub (d : UDst) (a b : USrc) | umul (d : UDst) (a b : USrc) | uand (d : UDst) (a b : USrc)
  | uor (d : UDst) (a b : USrc) | uxor (d : UDst) (a b : USrc) | uminS (d : UDst) (a b : USrc) | umaxS (d : UDst) (a b : USrc)
  | ushl (d : UDst) (a b : USrc) | ushr (d : UDst) (a b : USrc) | usar (d : UDst) (a b : USrc) | uminN (d : UDst) (a b : USrc)
  | umaxN (d : UDst) (a b : USrc) | usel (d : UDst) (a b : USrc) | umov (d : UDst) (a : USrc)
  | ucmp (cc : ICond) (d : UDst) (a b : USrc)
  | uaddi (d : UDst) (a : USrc) (imm : BitVec 13) | uandi (d : UDst) (a : USrc) (imm : BitVec 13) | umovi (d : UDst) (imm : BitVec 13)
  | uadd64 (d a b : UDst) | usub64 (d a b : UDst) | ushl64 (d a : UDst) (b : USrc) | ushr64 (d a : UDst) (b : USrc) | umul64 (d a b : UDst)
  -- uniform memory (R87, R88)
  | uld (sz : LdSize) (d : UDst) (a : UDst) (off : BitVec 10) | ust (sz : StSize) (d : USrc) (a : UDst) (off : BitVec 10)
  | uldp (wide : Bool) (d : UDst) (win : Fin 4) (off : BitVec 14)
  -- control (R89 to R98)
  | bra (off : BitVec 25) | call (off : BitVec 25) | ret | brc (cc : BCond) (a : USrc) (off : BitVec 16) | jmpi (a : UDst) | join (j : Fin 8)
  | dispatch (n : Fin 4) (d a b : UDst) | exit | yield | acq
  -- sharing, launch, special registers (R101 to R107)
  | give (res : Resource) (d : UDst) (a b : USrc) | claim (res : Resource) (d : UDst) (a : USrc)
  | mtokPass (d : UDst) (a : USrc) | mtokTake (d : UDst) | launch (p t : Fin 56)
  | rdsr (d : UDst) (r : SReg) | wrsr (r : SReg) (a : USrc)
  -- synchronisation (R294 to R298, R201, R307)
  | bar (sc : Scope) (d : UDst) (a b : USrc) | bara (sc : Scope) (d : UDst) (a b : USrc) | barw (sc : Scope) (d : UDst) (a b : USrc)
  | fence (sc : Scope) | fenceX (sc : Scope) (f t : BitVec 8) | efence
  | mwait (cc : WCond) (wide : Bool) (sc : Scope) (d : UDst) (a : UDst) (b : USrc)
  | tagwAny (d : UDst) (a : UDst) | tagwAll (d : UDst) (a : UDst) | tagwFirst (d : UDst) (a : UDst) | tagwClear (d : UDst) (a : UDst)
  -- engines (R193 to R255, R280)
  | copyLin (p t : Fin 56) | copyTile (p t : Fin 56) | copyCb (p t : Fin 56) | copyGath (p t : Fin 56) | hread (p t : Fin 56)
  | gridRestrict (p t : Fin 56) | gridProlong (p t : Fin 56) | gridConvert (p t : Fin 56) | mtile (p t : Fin 56)
  | obresRsv (p t : Fin 56) | obresRel (p t : Fin 56) | obresQry (p t : Fin 56)
  | ruleLoad (p t : Fin 56) | ruleStep (p t : Fin 56) | ruleXch (p t : Fin 56) | ruleQuery (p t : Fin 56)
  | edgeFrame (p t : Fin 56) | edgeCutmove (p t : Fin 56) | edgeStatus (p t : Fin 56) | edgeFlush (p t : Fin 56)
  -- conditions, traps, padding, banks (R106, R304, R108, R185)
  | cond (sc : Scope) (a b : USrc) | trap (code : BitVec 13) | bkpt (code : BitVec 13) | unop (x : BitVec 25) | bank (d : UDst) (a b : USrc)
  -- steps of the other agents
  | illegalWord (w : Word)
  | controlRegisterWrite (off size : Nat) (val : DWord) (hyp : Bool)
  | partitionEnable (fe : Nat) (val : Word) (hyp : Bool) | partitionDisable (fe : Nat) (val : Word) (hyp : Bool)
  | fewatchWrite (fe : Nat) (val : DWord) (hyp : Bool) | feload (fe : Nat) (val : Word) (hyp : Bool)
  | startStamp (fe : Nat)
  | launchNode (fe : Nat) | condNode (fe : Nat) | whileNode (fe : Nat) | waitNode (fe : Nat) | waitNodePoll (fe : Nat) | waitTimeout (fe : Nat)
  | signalNode (fe : Nat) | frameNode (fe : Nat) | cutmoveNode (fe : Nat) | endNode (fe : Nat) | endComplete (fe : Nat) | walkerFence (fe : Nat)
  | launchAdmission (fe : Nat) | stageClose (stage : Nat) | gangPlacement (fe : Nat) | backfillTimeout (fe : Nat)
  | slotHandover (stage seq : Nat) | deliveryBatch (stage : Nat)
  | epochStart | heatIndexChange (die value : Nat)
  | starvationPromotion (group : Nat) | resultWriteback (group entry : Nat) | yieldExpiry (group : Nat)
  | acqGrant (core : Nat) | claimGrant (group : Nat) | tokenTakeGrant (wg : Nat)
  | binLaunch (core bin : Nat) | formWindowExpiry (core bin : Nat) | binStarvationTimeout (core : Nat)
  | bankreqWrite (cluster : Nat) (val : Word) (hyp : Bool) | bankDrainComplete (cluster : Nat) | bankZeroComplete (cluster : Nat)
  | uncorrectableError (site : ErrSite)
  | pageWalk (core vdev va access : Nat) | loadReturn (group req : Nat) | memoryFaultDetect (group req : Nat)
  | edgeHomeReserve (group req : Nat) | slotReclaim (edge : Nat)
  | engineOpStart (op : Nat) | engineUnit (op : Nat) | engineCompletion (op : Nat)
  | hreadBurstReturn (op burst : Nat) | lastBurstEvent (op : Nat) | cbTableWait (op : Nat) | tagwWake (group : Nat)
  | mmarQuarter (core : Nat) | mtileUnit (core : Nat) | obresRelComplete (group : Nat)
  | ruleStart (core : Nat) | ruleComplete (core : Nat)
  | slotDrain (edge : Nat) | packWindowExpiry (edge : Nat)
  | dataDatagram (codec : Nat) (payload : List Byte) | parityDatagram (codec : Nat) (payload : List Byte)
  | ackMessage (codec : Nat) (payload : List Byte) | reliableResend (codec sid : Nat)
  | stateMessage (codec : Nat) (payload : List Byte) | moveMessage (codec : Nat) (payload : List Byte)
  | takeMessage (codec : Nat) (payload : List Byte) | stoppedMessage (codec : Nat) (payload : List Byte)
  | closeMessage (codec : Nat) (payload : List Byte)
  | frameDeadline (edge frame : Nat) | recordPlacement (edge : Nat) | edgeClose (edge : Nat)
  | mwaitWake (group : Nat) | fenceComplete (group : Nat) | efenceComplete (group : Nat)
  | frespRetry (vdev token : Nat) (hyp : Bool) | frespAbort (vdev token : Nat) (hyp : Bool)
  | frespContinue (vdev token : Nat) (hyp : Bool) | frespKill (vdev token : Nat) (hyp : Bool)
  | invalidatePage (val : Word) (hyp : Bool) | invalidateAsid (val : Word) (hyp : Bool) | invalidateGuestPage (val : Word) (hyp : Bool)
  | invalidateVmid (val : Word) (hyp : Bool) | invalidateAll (val : Word) (hyp : Bool) | invalidationAck
  | create (vdev : Nat) (hyp : Bool) | save (vdev : Nat) (hyp : Bool) | restore (vdev : Nat) (hyp : Bool)
  | reset (vdev : Nat) (hyp : Bool) | destroy (vdev : Nat) (hyp : Bool)
  | saveComplete (vdev : Nat) | restoreComplete (vdev : Nat) | resetComplete (vdev : Nat) | eventHeldRelease (vdev : Nat)
  | workgroupComplete (wg : Nat) | gridComplete (grid : Nat)
  | vectorRouteWrite (n : Nat) (val : Word) | domainEnable (val : Word)
  | flitRetry (port : Nat) | ivmarPortDown (port : Nat) | ivmarRequest (src pa : Nat) (acc : InAcc) (data : List Byte)
  | pcieInboundRequest (endpoint addr : Nat) (write : Bool) (data : List Byte)
  | mcStandbyStart | mainPowerOn | measurementExtend (reg : Nat) (digest : List Byte) | quoteRequest (byMc : Bool) (nonce : List Byte)
  | mainPowerOff | moduleReset | firmwareUpdate (addr : Nat) (image : List Byte) | computeCapSet (c : Nat)
  | thermalTrip (die : Nat) | coolantAlarm (inlet flow : Nat) | ivmarPortUp (port : Nat)
  deriving DecidableEq, Repr, Inhabited

end Sys2Proof
end

