-- ==== Sys2Proof/Machine/Exact.lean ====
section
/-! DEFINITION. Number formats and exact arithmetic (06): exact values, the formats of R110 to R115, rnd (R118 to R122), E8M0
scaling (R123), the keyed mixer (R117). Sums and products are formed exactly and rounded once. -/
namespace Sys2Proof.Machine

/-- An exact value: a NaN, an infinity, or (-1)^neg * m * 2^e. A zero keeps its sign. -/
inductive Ex where
  | nan
  | inf (neg : Bool)
  | fin (neg : Bool) (m : Nat) (e : Int)
  deriving DecidableEq, Repr, Inhabited

/-- How the top exponent of a format is used (R110): infinities and NaNs, one NaN code (E4M3), or numbers only. -/
inductive TopExp where
  | ieee | oneNan | numbers
  deriving DecidableEq, Repr

/-- A binary floating-point format (R110). -/
structure Fmt where
  eb : Nat
  mb : Nat
  bias : Int
  top : TopExp
  deriving DecidableEq, Repr

def fmtF32 : Fmt := ⟨8, 23, 127, .ieee⟩
def fmtF16 : Fmt := ⟨5, 10, 15, .ieee⟩
def fmtBF16 : Fmt := ⟨8, 7, 127, .ieee⟩
def fmtE4M3 : Fmt := ⟨4, 3, 7, .oneNan⟩
def fmtE5M2 : Fmt := ⟨5, 2, 15, .ieee⟩
def fmtE3M2 : Fmt := ⟨3, 2, 3, .numbers⟩
def fmtE2M3 : Fmt := ⟨2, 3, 1, .numbers⟩
def fmtE2M1 : Fmt := ⟨2, 1, 1, .numbers⟩

/-- The format of code 0 to 7 (R21, R110). -/
def fmtOfCode : Nat → Fmt
  | 1 => fmtF16
  | 2 => fmtBF16
  | 3 => fmtE4M3
  | 4 => fmtE5M2
  | 5 => fmtE3M2
  | 6 => fmtE2M3
  | 7 => fmtE2M1
  | _ => fmtF32

/-- Bits of a format: sign, exponent and mantissa. -/
def Fmt.bits (f : Fmt) : Nat := 1 + f.eb + f.mb

/-- The value an encoding stands for (R110, R111). -/
def Fmt.value (f : Fmt) (w : Nat) : Ex :=
  let neg := w / 2 ^ (f.eb + f.mb) % 2 = 1
  let ef := w / 2 ^ f.mb % 2 ^ f.eb
  let m := w % 2 ^ f.mb
  let allOnes := ef = 2 ^ f.eb - 1
  match f.top with
  | .ieee => if allOnes then (if m = 0 then .inf neg else .nan) else num neg ef m
  | .oneNan => if allOnes ∧ m = 2 ^ f.mb - 1 then .nan else num neg ef m
  | .numbers => num neg ef m
where
  num (neg : Bool) (ef m : Nat) : Ex :=
    if ef = 0 then .fin neg m (1 - f.bias - f.mb) else .fin neg (2 ^ f.mb + m) (ef - f.bias - f.mb)

/-- The encoding of the largest finite magnitude (R110). -/
def Fmt.maxMag (f : Fmt) : Nat :=
  match f.top with
  | .ieee => (2 ^ f.eb - 1) * 2 ^ f.mb - 1
  | .oneNan => 2 ^ (f.eb + f.mb) - 2
  | .numbers => 2 ^ (f.eb + f.mb) - 1

/-- The default NaN of a format (R111); E3M2, E2M3 and E2M1 have none and take +0 (R120). -/
def Fmt.defaultNan (f : Fmt) : Nat :=
  match f.top with
  | .ieee => (2 ^ f.eb - 1) * 2 ^ f.mb + 2 ^ (f.mb - 1)
  | .oneNan => 2 ^ (f.eb + f.mb) - 1
  | .numbers => 0

/-- A magnitude with its sign bit. -/
def Fmt.signed (f : Fmt) (neg : Bool) (mag : Nat) : Nat := mag + neg.toNat * 2 ^ (f.eb + f.mb)

/-- Number of bits of a natural number: 0 for 0. -/
def bitLen (n : Nat) : Nat := if n = 0 then 0 else Nat.log2 n + 1

/-- Whether a discarded part `r` of 2^sh, above a kept part `k`, rounds away from zero (R118, R119). -/
def roundsUp (mode : Rnd) (neg : Bool) (k r sh u : Nat) : Bool :=
  match mode with
  | .rne => decide (2 * r > 2 ^ sh) || (decide (2 * r = 2 ^ sh) && decide (k % 2 = 1))
  | .rtz => false
  | .rdn => neg && decide (r ≠ 0)
  | .rup => !neg && decide (r ≠ 0)
  | .rna => decide (2 * r ≥ 2 ^ sh)
  | .rsr => decide (u * 2 ^ sh < r * 2 ^ 32)

/-- An overflow or infinity met by a target: the largest finite value or an infinity (R120). -/
def Fmt.overflow (f : Fmt) (mode : Rnd) (sat neg : Bool) : Nat :=
  match f.top with
  | .ieee =>
    let inf := f.signed neg ((2 ^ f.eb - 1) * 2 ^ f.mb)
    let max := f.signed neg f.maxMag
    if sat then max else
      match mode with
      | .rtz => max
      | .rdn => if neg then inf else max
      | .rup => if neg then max else inf
      | _ => inf
  | _ => f.signed neg f.maxMag

/-- The kept part, the discarded part and its width when a magnitude m * 2^e is cut at quantum 2^q. -/
def cutAt (m : Nat) (e q : Int) : Nat × Nat × Nat :=
  if q ≤ e then (m * 2 ^ (e - q).toNat, 0, 0)
  else let sh := (q - e).toNat; (m / 2 ^ sh, m % 2 ^ sh, sh)

/-- rnd (R118 to R120, R122): an exact value to an encoding of a format of R110, with the flags raised. `sat` marks a saturating
conversion; `u` is the random word of R119, used under RSR only. -/
def Fmt.rnd (f : Fmt) (mode : Rnd) (sat : Bool) (u : Nat) (x : Ex) : Nat × Flags :=
  match x with
  | .nan => (f.defaultNan, flagIf (f.top = .numbers) flagNV)
  | .inf neg =>
    match f.top with
    | .ieee => (f.signed neg ((2 ^ f.eb - 1) * 2 ^ f.mb), 0)
    | _ => (f.signed neg f.maxMag, flagOver)
  | .fin neg m e =>
    if m = 0 then (f.signed neg 0, 0)
    else
      let top : Int := e + bitLen m - 1
      let emin : Int := 1 - f.bias
      let q : Int := max top emin - f.mb
      let (k, r, sh) := cutAt m e q
      let mag (up : Bool) : Nat := (q - (emin - f.mb)).toNat * 2 ^ f.mb + k + up.toNat
      let beyond := decide (f.maxMag < mag false) || (decide (mag false = f.maxMag) && decide (r ≠ 0))
      let up := roundsUp (if mode = .rsr && beyond then .rne else mode) neg k r sh u
      if f.maxMag < mag up then (f.overflow mode sat neg, flagOver)
      else (f.signed neg (mag up), roundFlags (r ≠ 0) (top < emin) false)

/-- Rounding to an integral value: sign and magnitude, and whether it was inexact. -/
def roundInt (mode : Rnd) (u : Nat) (neg : Bool) (m : Nat) (e : Int) : Nat × Bool :=
  let (k, r, sh) := cutAt m e 0
  (k + (roundsUp mode neg k r sh u).toNat, decide (r ≠ 0))

/-- rnd to an integer target with range lo to hi (R120). Under RSR a magnitude beyond the largest of its sign takes RNE's outcome (R119; DEDUCED,
log 92). -/
def rndInt (lo hi : Int) (mode : Rnd) (u : Nat) (x : Ex) : Int × Flags :=
  match x with
  | .nan => (0, flagNV)
  | .inf neg => (if neg then lo else hi, flagNV)
  | .fin neg m e =>
    let most := if neg && decide (lo < 0) then lo.natAbs else hi.natAbs
    let (t, r, _) := cutAt m e 0
    let beyond := decide (most < t) || (decide (t = most) && decide (r ≠ 0))
    let (k, inex) := roundInt (if mode = .rsr && beyond then .rne else mode) u neg m e
    let v : Int := if neg then -(k : Int) else k
    if v < lo then (lo, flagNV) else if hi < v then (hi, flagNV) else (v, flagIf inex flagNX)

/-! ## LNS6 (R113, R114, R121) -/

/-- 2^(f/4) in Q1.15 (R114). -/
def lnsTab (f : Nat) : Nat := match f with | 0 => 32768 | 1 => 38968 | 2 => 46341 | _ => 55109

/-- The signed logarithm of an LNS6 code. -/
def lnsLog (w : Nat) : Int := if w % 32 < 16 then (w % 32 : Nat) else (w % 32 : Nat) - 32

/-- The magnitude of a logarithm with two fraction bits (R114). -/
def lnsMag (neg : Bool) (l : Int) : Ex := .fin neg (lnsTab (l % 4).toNat) (l / 4 - 15)

/-- The value the part computes with for an LNS6 code (R114). -/
def lnsValue (w : Nat) : Ex :=
  let w := w % 64
  if w = 0x10 then .fin false 0 0 else if w = 0x30 then .nan else lnsMag (decide (w / 32 = 1)) (lnsLog w)

/-- The product of two LNS6 values (R114). -/
def lnsMul (a b : Nat) : Ex :=
  let a := a % 64
  let b := b % 64
  if a = 0x30 ∨ b = 0x30 then .nan
  else if a = 0x10 ∨ b = 0x10 then .fin false 0 0
  else lnsMag (decide (a / 32 ≠ b / 32)) (lnsLog a + lnsLog b)

/-- floor(2^n * log2 y) for y = a / 2^p in [1, 2), by repeated squaring of a lower bound with p fraction bits. -/
def log2Bits : Nat → Nat → Nat → Nat
  | 0, _, _ => 0
  | n + 1, p, a =>
    let s := a * a / 2 ^ p
    if 2 ^ (p + 1) ≤ s then 2 ^ n + log2Bits n p (s / 2) else log2Bits n p s

/-- Conversion into LNS6 (R121): the logarithm is rounded. Under RSR the comparison of u with p * 2^32 takes the first 32 bits of the
logarithm's fraction, from a 160-bit lower bound (DESIGN CHOICE, log 8). (DESIGN CHOICE, log 37) -/
def lnsRnd (mode : Rnd) (u : Nat) (x : Ex) : Nat × Flags :=
  match x with
  | .nan => (0x30, 0)
  | .inf neg => (0x0F + 32 * neg.toNat, flagOver)
  | .fin neg m e =>
    if m = 0 then (0x10, 0)
    else
      let m4 := m * m * m * m
      let fl : Int := 4 * e + (bitLen m4 : Int) - 1
      let exact := decide (m4 = 2 ^ (bitLen m4 - 1))
      let half := decide (2 ^ (2 * (bitLen m4 - 1) + 1) ≤ m4 * m4)
      let frac := log2Bits 32 160 (m4 * 2 ^ 160 / 2 ^ (bitLen m4 - 1))
      let up := !exact && (match mode with
        | .rne | .rna => half
        | .rtz => false
        | .rdn => neg
        | .rup => !neg
        | .rsr => if 15 ≤ fl then half else decide (u ≤ frac))
      let l : Int := fl + up.toNat
      let sign := 32 * neg.toNat
      if 15 < l then (0x0F + sign, flagOver)
      else if l < -15 then
        let away := match mode with
          | .rup => !neg
          | .rdn => neg
          | .rsr => up
          | _ => false
        if away then (0x11 + sign, flagNX) else (0x10, flagUF ||| flagNX)
      else ((l % 32).toNat + sign, flagIf (!exact) flagNX)

/-! ## Exact arithmetic -/

/-- An exact value with its sign changed. -/
def Ex.neg : Ex → Ex
  | .nan => .nan
  | .inf s => .inf (!s)
  | .fin s m e => .fin (!s) m e

/-- Whether an exact value is a zero. -/
def Ex.isZero : Ex → Bool
  | .fin _ m _ => m = 0
  | _ => false

/-- Whether a value is an infinity or a NaN. -/
def Ex.special : Ex → Bool
  | .fin .. => false
  | _ => true

/-- A product (R126, R138): 0 times an infinity is NaN with NV. -/
def Ex.mul : Ex → Ex → Ex × Flags
  | .nan, _ => (.nan, 0)
  | _, .nan => (.nan, 0)
  | .inf s, .inf t => (.inf (s != t), 0)
  | .inf s, .fin t m _ => if m = 0 then (.nan, flagNV) else (.inf (s != t), 0)
  | .fin s m _, .inf t => if m = 0 then (.nan, flagNV) else (.inf (s != t), 0)
  | .fin s m e, .fin t n f => (.fin (s != t) (m * n) (e + f), 0)

/-- The signed integer a finite value is at quantum 2^q, q at most its exponent. -/
def scaledInt (s : Bool) (m : Nat) (e q : Int) : Int :=
  let v : Int := (m * 2 ^ (e - q).toNat : Nat)
  if s then -v else v

/-- A sum (R126, R138). A zero sum of operands with one sign keeps it; any other zero sum is +0, or −0 when `down` (RDN). -/
def Ex.add (down : Bool) : Ex → Ex → Ex × Flags
  | .nan, _ => (.nan, 0)
  | _, .nan => (.nan, 0)
  | .inf s, .inf t => if s = t then (.inf s, 0) else (.nan, flagNV)
  | .inf s, .fin _ _ _ => (.inf s, 0)
  | .fin _ _ _, .inf t => (.inf t, 0)
  | .fin s m e, .fin t n f =>
    let q := min e f
    let v := scaledInt s m e q + scaledInt t n f q
    if v = 0 then (.fin (if s = t then s else down) 0 q, 0) else (.fin (decide (v < 0)) v.natAbs q, 0)

/-- A value times 2^k (R123). -/
def Ex.scale : Ex → Int → Ex
  | .fin s m e, k => .fin s m (e + k)
  | x, _ => x

/-- A value times an E8M0 scale 2^(e − 127), or divided by it; 0xFF gives NaN (R112, R123). -/
def Ex.e8m0 (x : Ex) (e : Nat) (divide : Bool) : Ex :=
  if e = 255 then .nan else x.scale (if divide then 127 - (e : Int) else (e : Int) - 127)

/-- An integer as an exact value. -/
def Ex.ofInt (v : Int) : Ex := .fin (decide (v < 0)) v.natAbs 0

/-- Comparison of exact values that are not NaN: −1, 0 or 1. Zeros are equal. -/
def Ex.cmp : Ex → Ex → Int
  | .inf s, .inf t => if s = t then 0 else if s then -1 else 1
  | .inf s, _ => if s then -1 else 1
  | _, .inf t => if t then 1 else -1
  | .fin s m e, .fin t n f =>
    let q := min e f
    let v := scaledInt s m e q - scaledInt t n f q
    if v < 0 then -1 else if v = 0 then 0 else 1
  | _, _ => 0

/-- A quotient of magnitudes with a sticky last bit: n / d to at least `bits` bits. -/
def quotSticky (n d : Nat) (bits : Nat) : Nat × Int :=
  let sh := bits + bitLen d
  let v := n * 2 ^ sh
  (2 * (v / d) + (if v % d = 0 then 0 else 1), -(sh : Int) - 1)

/-- floor(sqrt n), one bit a step from bit `k` down. -/
def isqrtFrom : Nat → Nat → Nat → Nat
  | 0, _, r => r
  | k + 1, n, r => let c := r + 2 ^ k; isqrtFrom k n (if c * c ≤ n then c else r)

/-- floor(sqrt n). -/
def isqrt (n : Nat) : Nat := isqrtFrom (bitLen n / 2 + 1) n 0

/-- The default NaN of F32 (R111). -/
def nan32 : Word := 0x7FC00000

/-- The exact value of an F32 pattern. -/
def f32 (w : Word) : Ex := fmtF32.value w.toNat

/-- rnd(F32, mode, x) (R118). -/
def rnd32 (mode : Rnd) (x : Ex) : Word × Flags := let (v, f) := fmtF32.rnd mode false 0 x; (BitVec.ofNat 32 v, f)

/-- rne32 (R118). -/
def rne32 (x : Ex) : Word × Flags := rnd32 .rne x

/-- The rounding mode of an arithmetic instruction. -/
def rnd4 : Rnd4 → Rnd
  | .rne => .rne
  | .rtz => .rtz
  | .rdn => .rdn
  | .rup => .rup

/-- An exact sum rounded to F32: the flags of the sum and of the rounding. -/
def add32 (mode : Rnd) (a b : Ex) : Word × Flags :=
  let (s, f) := Ex.add (mode = .rdn) a b
  let (w, g) := rnd32 mode s
  (w, f ||| g)

/-! ## The keyed mixer -/

/-- KMIX64 (R117). -/
def kmix64 (k x : DWord) : DWord :=
  let z := x + k * 0x9E3779B97F4A7C15
  let z := (z ^^^ (z >>> 30)) * 0xBF58476D1CE4E5B9
  let z := (z ^^^ (z >>> 27)) * 0x94D049BB133111EB
  z ^^^ (z >>> 31)

/-- The random word of R119: bits 63:32 of the mixer. -/
def rsrWord (k s : DWord) : Nat := (kmix64 k s).toNat / 2 ^ 32

/-! ## Formats by code (R21) -/

/-- Element width in bits by format code (R21). -/
def codeBits : Nat → Nat
  | 0 => 32 | 1 => 16 | 2 => 16 | 3 => 8 | 4 => 8 | 5 => 6 | 6 => 6 | 7 => 4 | 8 => 6 | 9 => 8 | 10 => 16 | 11 => 32 | 12 => 8
  | 13 => 3 | 14 => 8 | _ => 0

/-- The exact value of an element of a format code (R110, R112 to R115). -/
def codeValue (c w : Nat) : Ex :=
  if c ≤ 7 then (fmtOfCode c).value w
  else if c = 8 then lnsValue w
  else if c = 9 then Ex.ofInt (BitVec.ofNat 8 w).toInt
  else if c = 10 then Ex.ofInt (BitVec.ofNat 16 w).toInt
  else if c = 11 then Ex.ofInt (BitVec.ofNat 32 w).toInt
  else if c = 14 then (if w = 255 then .nan else .fin false 1 ((w : Int) - 127))
  else Ex.ofInt w

/-- rnd to a format code (R118 to R121): encoding and flags. -/
def codeRnd (c : Nat) (mode : Rnd) (sat : Bool) (u : Nat) (x : Ex) : Nat × Flags :=
  let int (lo hi : Int) (n : Nat) : Nat × Flags := let (v, f) := rndInt lo hi mode u x; ((v % (2 ^ n : Nat)).toNat, f)
  if c ≤ 7 then (fmtOfCode c).rnd mode sat u x
  else if c = 8 then lnsRnd mode u x
  else if c = 9 then int (-128) 127 8
  else if c = 10 then int (-32768) 32767 16
  else if c = 11 then int (-(2 ^ 31 : Nat)) (2 ^ 31 - 1) 32
  else int 0 255 8

/-- The format code of a conversion format (R149). -/
def qcode : QFmt → Nat
  | .e4m3 => 3 | .e5m2 => 4 | .e3m2 => 5 | .e2m3 => 6 | .e2m1 => 7 | .lns6 => 8 | .s8 => 9

end Sys2Proof.Machine
end

