-- ==== Sys2Proof/Config.lean ====
section
/-! DEFINITION. What an implementation fixes and the values the manual leaves open. An `opaque` constant has no body: nothing
in Lean can evaluate it, so a statement about it holds for every value (DESIGN CHOICE, log 6, log 7). -/
namespace Sys2Proof.Config

/-- The result the part delivers for a special function (R143: "which such value is delivered is the part's choice, and the
choice is a fixed function of the input"): function number, operand. The machine keeps it only where it lies within an outer
enclosure of the bound of R143 (DESIGN CHOICE, log 7). -/
opaque specialChoice : Nat → Word → Word

/-- A free choice of the part, for example a cache victim or the row at which a save finds Lyre; the argument is the tick. -/
opaque freeNat : Nat → Nat

/-- What a device behind a PCIe window or an IO page answers to a read: tick, physical address, byte index (DESIGN CHOICE, log 16). -/
opaque deviceByte : Nat → Nat → Nat → Byte

/-- What a read of another part's memory answers when no answer stands in the state: tick, physical address, byte index (DESIGN CHOICE, log 17). -/
opaque remoteByte : Nat → Nat → Nat → Byte

/-- The Ethernet address of a far port, byte by byte: port, index (R260; DESIGN CHOICE, log 60). -/
opaque portMac : Nat → Nat → Byte

/-- The RISC-V IOMMU of the system die (R340): tick, endpoint, endpoint address; none where it refuses (DESIGN CHOICE, log 18). -/
opaque iommu : Nat → Nat → Nat → Option Nat

/-- Falcon-1024 verification under the vendor key fused into the part (R343): digest, signature (DESIGN CHOICE, log 19). -/
opaque falconVerify : List Byte → List Byte → Bool

/-- The Falcon-1024 signature of a digest under the part's own key (R344) (DESIGN CHOICE, log 19). -/
opaque falconSign : List Byte → List Byte

end Sys2Proof.Config
end

