-- ==== Sys2Proof/WellFormed.lean ====
section
/-! DEFINITION. Which operands an instruction may hold: the checks of R48, R49 and R54 to R59 that no single operand type states.
A word whose fields break one of them is illegal. A misaligned register is none of these: it traps when executed (R50). -/
namespace Sys2Proof

/-- The literal word an operand carries, if it is the literal code (R48, R52). -/
def LSrc.lits : LSrc → List Word
  | .lit w => [w]
  | _ => []

/-- The literal word a uniform operand carries (R48, R57). -/
def USrc.lits : USrc → List Word
  | .lit w => [w]
  | _ => []

/-- A per-lane single field that must act as a pair or quad field: a register or zero (R54). -/
def LSrc.block : LSrc → Bool
  | .v _ | .zero => true
  | _ => false

/-- A uniform single field that must act as a pair field (R57). -/
def USrc.block : USrc → Bool
  | .g _ | .zero => true
  | _ => false

/-- A destination with W = 0 (R53). -/
def LDst.isReg : LDst → Bool
  | .v _ => true
  | .latch => false

/-- A uniform pair with an even register, or 56 (R57); an odd one is misaligned (R50 condition 4). -/
def UDst.even : UDst → Bool
  | .g r => r.val % 2 = 0
  | .zero => true

/-- Whether the block of `m` registers that starts at `p` is one a UE word may name (R58). -/
def ueBlock (m : Nat) (p : Fin 56) : Bool :=
  (if m = 8 then p.val % 8 = 0 else p.val % 2 = 0) && decide (p.val + m ≤ 56)

/-- The registers a store size moves: single, pair or quad (R55). -/
def StSize.regs : StSize → Nat
  | .b8 | .b16 | .b32 => 1
  | .b64 => 2
  | .b128 => 4

/-- The registers a load size fills (R55). -/
def LdSize.regs : LdSize → Nat
  | .n8 | .s8 | .n16 | .s16 | .b32 => 1
  | .b64 => 2
  | .b128 => 4

/-- The registers LDO and STO move (R184). -/
def OSize.regs : OSize → Nat
  | .b32 => 1
  | .b64 => 2
  | .b128 => 4

/-- Conversion codes whose A is a pair (R148). -/
def CvtCode.pairSrc : CvtCode → Bool
  | .f32f16x2 | .f32bf16x2 | .s64f32 => true
  | _ => false

/-- Conversion codes whose D is a pair (R148). -/
def CvtCode.pairDst : CvtCode → Bool
  | .f16x2f32 | .bf16x2f32 | .f32s64 => true
  | _ => false

/-- Codes that exist: 0x16, 0x17, 0x1E and 0x1F name no conversion (R148). -/
def CvtCode.assigned : CvtCode → Bool
  | .toQ .s8 | .fromQ .s8 => false
  | _ => true

/-- Special registers that occupy a pair (R60). -/
def SReg.wide : SReg → Bool
  | .tags | .seedkey => true
  | _ => false

/-- Special registers WRSR may name (R60). -/
def SReg.writable : SReg → Bool
  | .fstat | .readcount | .seedkey => true
  | _ => false

/-- Scopes that COND may name (R106). -/
def Scope.atDevice : Scope → Bool
  | .dev | .sys => true
  | _ => false

/-- Scopes that ATOML may name (R56). -/
def Scope.inCore : Scope → Bool
  | .thr | .grp | .wkg => true
  | _ => false

/-- The single per-lane source fields of an instruction, in field order (R52). -/
def Instr.lsrcs : Instr → List LSrc
  | .iadd _ a b | .isub _ a b | .imul _ a b | .imulhS _ a b | .imulhN _ a b | .imad _ a b | .iminS _ a b | .iminN _ a b
  | .imaxS _ a b | .imaxN _ a b | .idiffN _ a b | .and _ a b | .or _ a b | .xor _ a b | .andn _ a b | .sel _ a b
  | .shl _ a b | .shr _ a b | .sar _ a b | .rotl _ a b | .bfeN _ a b | .bfeS _ a b | .bfi _ a b | .fshr _ a b
  | .icmp _ _ a b | .imadwN _ a b | .imadwS _ a b | .fadd _ _ a b | .fsub _ _ a b | .fmul _ _ a b | .fma _ _ a b
  | .fmin _ a b | .fmax _ a b | .fcopysign _ a b | .fcmp _ _ a b | .fdiv _ _ a b | .pkadd _ _ a b | .pkmul _ _ a b
  | .pkfma _ _ a b | .pkmax _ _ a b | .pkmin _ _ a b | .pkdot _ _ a b | .cvtdq _ _ a b | .shfl _ _ a b
  | .stl _ a b _ | .sto _ a b _ => [a, b]
  | .iabs _ a | .ineg _ a | .popc _ a | .clz _ a | .brev _ a | .not _ a | .mov _ a | .iaddi _ a _ | .andi _ a _ | .ori _ a _
  | .shli _ a _ | .shri _ a _ | .fabs _ a | .fneg _ a | .fclass _ a | .fsat _ a | .frnd _ _ a | .ffract _ a | .frcp _ a
  | .frsq _ a | .fsqrt _ a | .fexp2 _ a | .flog2 _ a | .fsin _ a | .fcos _ a | .ftanh _ a | .cvt _ _ _ a | .hadm _ _ a _
  | .ballot _ a | .vany _ a | .vall _ a | .match_ _ a | .pfxadd _ a | .rdcadd _ a | .rdcmax _ a | .rdcmin _ a
  | .ldl _ _ a _ | .ldp _ _ _ a _ | .atoml _ _ _ _ _ a | .ldo _ _ a _
  | .iadd64 _ _ a | .isub64 _ _ a | .shl64 _ _ a | .shr64 _ _ a | .icmp64Eq _ _ a | .icmp64LtN _ _ a | .cvtq _ _ _ a
  | .st _ _ a _ _ | .red _ _ _ _ a _ => [a]
  | _ => []

/-- The single uniform source fields of an instruction, in field order (R57). -/
def Instr.usrcs : Instr → List USrc
  | .uadd _ a b | .usub _ a b | .umul _ a b | .uand _ a b | .uor _ a b | .uxor _ a b | .uminS _ a b | .umaxS _ a b
  | .ushl _ a b | .ushr _ a b | .usar _ a b | .uminN _ a b | .umaxN _ a b | .usel _ a b | .ucmp _ _ a b
  | .give _ _ a b | .bar _ _ a b | .bara _ _ a b | .barw _ _ a b | .cond _ a b | .bank _ a b => [a, b]
  | .umov _ a | .uaddi _ a _ | .uandi _ a _ | .ushl64 _ _ a | .ushr64 _ _ a | .ust _ a _ _ | .brc _ a _ | .claim _ _ a
  | .mtokPass _ a | .wrsr _ a | .mwait _ _ _ _ _ a => [a]
  | _ => []

/-- The literal words an instruction carries, in field order (R48). -/
def Instr.lits (i : Instr) : List Word := i.lsrcs.flatMap LSrc.lits ++ i.usrcs.flatMap USrc.lits

/-- The checks of one instruction beyond its operand types. -/
def Instr.fieldsOk : Instr → Bool
  | .cvt c _ d a => c.assigned && (!c.pairDst || d.isReg) && (!c.pairSrc || a.block)
  | .cvtq t d _ _ => if t = .e2m1 then d.isReg else true
  | .st sz _ d _ _ => decide (sz.regs = 1) || d.block
  | .stl sz d _ _ => decide (sz.regs = 1) || d.block
  | .sto sz d _ _ => decide (sz.regs = 1) || d.block
  | .smp _ ch _ _ _ => decide (ch.val ≠ 2)
  | .atom op wide _ _ _ _ => !(decide (op = .fadd) && wide)
  | .atoml op wide sc _ _ _ => !(decide (op = .fadd) && wide) && sc.inCore
  | .red op wide _ _ d _ => !(decide (op = .fadd) && wide) && decide (op ≠ .swap) && decide (op ≠ .cas) && (!wide || d.block)
  | .uld sz _ _ _ => decide (sz ≠ .b128)
  | .ust sz d _ _ => decide (sz ≠ .b128) && (decide (sz.regs = 1) || d.block)
  | .dispatch n _ a _ => match a with
    | .g r => decide (r.val + n.val ≤ 55)
    | .zero => false
  | .wrsr r a => r.writable && (!r.wide || a.block)
  | .fenceX _ f t => decide (f ≠ 0) && decide (t ≠ 0)
  | .mwait _ wide _ _ _ b => !wide || b.block
  | .cond sc _ _ => sc.atDevice
  | .launch p _ => ueBlock 6 p
  | .copyLin p _ | .copyTile p _ | .copyCb p _ | .copyGath p _ | .hread p _ | .gridRestrict p _ | .gridProlong p _
  | .gridConvert p _ | .mtile p _ | .obresRsv p _ | .obresRel p _ | .obresQry p _ => ueBlock 8 p
  | .ruleLoad p _ | .ruleStep p _ | .ruleXch p _ | .ruleQuery p _ | .edgeFrame p _ | .edgeCutmove p _ | .edgeStatus p _
  | .edgeFlush p _ => ueBlock 4 p
  | _ => true

/-- A well-formed instruction: at most one field holds the literal code (R48) and its fields hold permitted values. -/
def Instr.wellFormed (i : Instr) : Bool := decide (i.lits.length ≤ 1) && i.fieldsOk

end Sys2Proof
end

