-- ==== Sys2Proof/Decode.lean ====
section
/-! DEFINITION. The decoder (R48 to R60): from the two words at an address to an instruction, or none for an illegal word; then the
encoder, written from the same tables. Fields are taken as numbers, `w / 2^lo % 2^n`, so that arithmetic decides the round trip. -/
namespace Sys2Proof

/-- The `n` bits of `w` from bit `lo` up (R1). -/
def fld (w lo n : Nat) : Nat := w / 2 ^ lo % 2 ^ n

/-! ## Operand codes -/

/-- A number below `n`, if it is one. -/
def fin? (n c : Nat) : Option (Fin n) := if h : c < n then some ⟨c, h⟩ else none

/-- A per-lane source (R52). -/
def lsrc? (c : Nat) (lit : Word) : Option LSrc :=
  if h : c < 112 then some (.v ⟨c, h⟩)
  else if h : c - 112 < 4 then some (.b ⟨c - 112, h⟩)
  else if c = 116 then some .zero
  else if c = 117 then some .lane
  else if c = 118 then some .widLo
  else if c = 119 then some .widHi
  else if h : c - 120 < 6 then some (.g ⟨c - 120, h⟩)
  else if c = 127 then some (.lit lit)
  else none

/-- The code of a per-lane source (R52). -/
def lsrcCode : LSrc → Nat
  | .v r => r.val
  | .b i => 112 + i.val
  | .zero => 116
  | .lane => 117
  | .widLo => 118
  | .widHi => 119
  | .g i => 120 + i.val
  | .lit _ => 127

/-- A per-lane destination from W and D (R53). -/
def ldst? (w c : Nat) : Option LDst :=
  if w = 0 then (if h : c < 112 then some (.v ⟨c, h⟩) else none)
  else if c = 116 then some .latch else none

/-- W of a destination (R53). -/
def ldstW : LDst → Nat
  | .v _ => 0
  | .latch => 1

/-- The code of a destination (R53). -/
def ldstCode : LDst → Nat
  | .v r => r.val
  | .latch => 116

/-- A pair or quad source (R54). -/
def lpair? (c : Nat) : Option LPair :=
  if h : c < 112 then some (.v ⟨c, h⟩) else if c = 116 then some .zero else none

/-- The code of a pair source (R54). -/
def lpairCode : LPair → Nat
  | .v r => r.val
  | .zero => 116

/-- A uniform source (R57). -/
def usrc? (c : Nat) (lit : Word) : Option USrc :=
  if h : c < 56 then some (.g ⟨c, h⟩)
  else if c = 56 then some .zero
  else if c = 57 then some .wbaseLo
  else if c = 58 then some .wbaseHi
  else if c = 59 then some .role
  else if c = 60 then some .frame
  else if c = 61 then some .gang
  else if c = 62 then some .cyc
  else if c = 63 then some (.lit lit)
  else none

/-- The code of a uniform source (R57). -/
def usrcCode : USrc → Nat
  | .g r => r.val
  | .zero => 56
  | .wbaseLo => 57
  | .wbaseHi => 58
  | .role => 59
  | .frame => 60
  | .gang => 61
  | .cyc => 62
  | .lit _ => 63

/-- A uniform destination, or a uniform pair field (R57). -/
def udst? (c : Nat) : Option UDst :=
  if h : c < 56 then some (.g ⟨c, h⟩) else if c = 56 then some .zero else none

/-- The code of a uniform destination (R57). -/
def udstCode : UDst → Nat
  | .g r => r.val
  | .zero => 56

/-- ICMP and UCMP conditions (R56). -/
def icond? (c : Nat) : Option ICond :=
  match c with
  | 0 => some .eq | 1 => some .ne | 2 => some .ltS | 3 => some .leS | 4 => some .ltN | 5 => some .leN | 6 => some .gtS
  | 7 => some .gtN | _ => none
def icondCode : ICond → Nat
  | .eq => 0 | .ne => 1 | .ltS => 2 | .leS => 3 | .ltN => 4 | .leN => 5 | .gtS => 6 | .gtN => 7

/-- FCMP conditions (R56). -/
def fcond? (c : Nat) : Option FCond :=
  match c with
  | 0 => some .eq | 1 => some .ne | 2 => some .lt | 3 => some .le | 4 => some .gt | 5 => some .ge | 6 => some .un
  | 7 => some .ord | _ => none
def fcondCode : FCond → Nat
  | .eq => 0 | .ne => 1 | .lt => 2 | .le => 3 | .gt => 4 | .ge => 5 | .un => 6 | .ord => 7

/-- Rounding modes of CVT (R147). -/
def rnd? (c : Nat) : Option Rnd :=
  match c with
  | 0 => some .rne | 1 => some .rtz | 2 => some .rdn | 3 => some .rup | 4 => some .rna | 5 => some .rsr | _ => none
def rndCode : Rnd → Nat
  | .rne => 0 | .rtz => 1 | .rdn => 2 | .rup => 3 | .rna => 4 | .rsr => 5

/-- Rounding modes of the FP32 arithmetic (R56). -/
def rnd4? (c : Nat) : Option Rnd4 :=
  match c with
  | 0 => some .rne | 1 => some .rtz | 2 => some .rdn | 3 => some .rup | _ => none
def rnd4Code : Rnd4 → Nat
  | .rne => 0 | .rtz => 1 | .rdn => 2 | .rup => 3

/-- Formats of CVTQ and CVTDQ (R149). -/
def qfmt? (c : Nat) : Option QFmt :=
  match c with
  | 0 => some .e4m3 | 1 => some .e5m2 | 2 => some .e3m2 | 3 => some .e2m3 | 4 => some .e2m1 | 5 => some .lns6 | 6 => some .s8
  | _ => none
def qfmtCode : QFmt → Nat
  | .e4m3 => 0 | .e5m2 => 1 | .e3m2 => 2 | .e2m3 => 3 | .e2m1 => 4 | .lns6 => 5 | .s8 => 6

/-- Conversion codes (R148). -/
def cvt? (c : Nat) : Option CvtCode :=
  match c with
  | 0x00 => some .f32s32 | 0x01 => some .f32n32 | 0x02 => some .s32f32 | 0x03 => some .n32f32 | 0x04 => some .f32f16
  | 0x05 => some .f16f32 | 0x06 => some .f32bf16 | 0x07 => some .bf16f32 | 0x08 => some .f32f16x2 | 0x09 => some .f32bf16x2
  | 0x0A => some .f16x2f32 | 0x0B => some .bf16x2f32
  | 0x10 => some (.toQ .e4m3) | 0x11 => some (.toQ .e5m2) | 0x12 => some (.toQ .e3m2) | 0x13 => some (.toQ .e2m3)
  | 0x14 => some (.toQ .e2m1) | 0x15 => some (.toQ .lns6)
  | 0x18 => some (.fromQ .e4m3) | 0x19 => some (.fromQ .e5m2) | 0x1A => some (.fromQ .e3m2) | 0x1B => some (.fromQ .e2m3)
  | 0x1C => some (.fromQ .e2m1) | 0x1D => some (.fromQ .lns6)
  | 0x20 => some .f32s16 | 0x21 => some .f32s8 | 0x22 => some .s64f32 | 0x23 => some .f32s64
  | _ => none
def cvtCode : CvtCode → Nat
  | .f32s32 => 0x00 | .f32n32 => 0x01 | .s32f32 => 0x02 | .n32f32 => 0x03 | .f32f16 => 0x04 | .f16f32 => 0x05
  | .f32bf16 => 0x06 | .bf16f32 => 0x07 | .f32f16x2 => 0x08 | .f32bf16x2 => 0x09 | .f16x2f32 => 0x0A | .bf16x2f32 => 0x0B
  | .toQ q => 0x10 + qfmtCode q | .fromQ q => 0x18 + qfmtCode q
  | .f32s16 => 0x20 | .f32s8 => 0x21 | .s64f32 => 0x22 | .f32s64 => 0x23

/-- Load sizes (R56, R180). -/
def ldsize? (c : Nat) : Option LdSize :=
  match c with
  | 0 => some .n8 | 1 => some .s8 | 2 => some .n16 | 3 => some .s16 | 4 => some .b32 | 5 => some .b64 | 6 => some .b128
  | _ => none
def ldsizeCode : LdSize → Nat
  | .n8 => 0 | .s8 => 1 | .n16 => 2 | .s16 => 3 | .b32 => 4 | .b64 => 5 | .b128 => 6

/-- Store sizes (R56, R180). -/
def stsize? (c : Nat) : Option StSize :=
  match c with
  | 0 => some .b8 | 1 => some .b16 | 4 => some .b32 | 5 => some .b64 | 6 => some .b128 | _ => none
def stsizeCode : StSize → Nat
  | .b8 => 0 | .b16 => 1 | .b32 => 4 | .b64 => 5 | .b128 => 6

/-- Sizes of LDO and STO (R184). -/
def osize? (c : Nat) : Option OSize :=
  match c with
  | 4 => some .b32 | 5 => some .b64 | 6 => some .b128 | _ => none
def osizeCode : OSize → Nat
  | .b32 => 4 | .b64 => 5 | .b128 => 6

/-- Atomic operations (R182). -/
def aop? (c : Nat) : Option Aop :=
  match c with
  | 0 => some .add | 1 => some .minS | 2 => some .minN | 3 => some .maxS | 4 => some .maxN | 5 => some .and | 6 => some .or
  | 7 => some .xor | 8 => some .swap | 9 => some .cas | 10 => some .fadd | _ => none
def aopCode : Aop → Nat
  | .add => 0 | .minS => 1 | .minN => 2 | .maxS => 3 | .maxN => 4 | .and => 5 | .or => 6 | .xor => 7 | .swap => 8 | .cas => 9
  | .fadd => 10

/-- Scopes (R287); 7 is illegal. -/
def scope? (c : Nat) : Option Scope :=
  match c with
  | 0 => some .thr | 1 => some .grp | 2 => some .wkg | 3 => some .clu | 4 => some .die | 5 => some .dev | 6 => some .sys
  | _ => none
def scopeCode : Scope → Nat
  | .thr => 0 | .grp => 1 | .wkg => 2 | .clu => 3 | .die => 4 | .dev => 5 | .sys => 6

/-- Orders of atomics (R182). -/
def ord4? (c : Nat) : Option Ord4 :=
  match c with
  | 0 => some .rlx | 1 => some .acq | 2 => some .rel | 3 => some .ar | _ => none
def ord4Code : Ord4 → Nat
  | .rlx => 0 | .acq => 1 | .rel => 2 | .ar => 3

/-- MMAR formats (R56). -/
def mfmt? (c : Nat) : Option MFmt :=
  match c with
  | 0 => some .bf16 | 1 => some .fp16 | 2 => some .e4m3 | 3 => some .e5m2 | 4 => some .e2m1 | 5 => some .lns6 | 6 => some .e3m2
  | 7 => some .e2m3 | _ => none
def mfmtCode : MFmt → Nat
  | .bf16 => 0 | .fp16 => 1 | .e4m3 => 2 | .e5m2 => 3 | .e2m1 => 4 | .lns6 => 5 | .e3m2 => 6 | .e2m3 => 7

/-- BRC conditions (R58). -/
def bcond? (c : Nat) : Option BCond :=
  match c with
  | 0 => some .eqz | 1 => some .nez | 2 => some .ltz | 3 => some .gez | 4 => some .gtz | 5 => some .lez | _ => none
def bcondCode : BCond → Nat
  | .eqz => 0 | .nez => 1 | .ltz => 2 | .gez => 3 | .gtz => 4 | .lez => 5

/-- Resources (R101). -/
def resource? (c : Nat) : Option Resource :=
  match c with
  | 0 => some .reg | 1 => some .ls | 2 => some .ob | _ => none
def resourceCode : Resource → Nat
  | .reg => 0 | .ls => 1 | .ob => 2

/-- Special registers (R60). -/
def sreg? (c : Nat) : Option SReg :=
  match c with
  | 0 => some .tags | 1 => some .fstat | 2 => some .progress | 3 => some .errst | 4 => some .readcount | 5 => some .core
  | 6 => some .cluster | 7 => some .die | 8 => some .part | 9 => some .vdev | 10 => some .gen | 11 => some .cutgen
  | 12 => some .seedkey | _ => none
def sregCode : SReg → Nat
  | .tags => 0 | .fstat => 1 | .progress => 2 | .errst => 3 | .readcount => 4 | .core => 5 | .cluster => 6 | .die => 7
  | .part => 8 | .vdev => 9 | .gen => 10 | .cutgen => 11 | .seedkey => 12

/-! ## Formats: one reader each (R55, R58) -/

/-- VR with two single sources. -/
def rdVR2 (k : LDst → LSrc → LSrc → Instr) (w : Nat) (lit : Word) : Option Instr := do
  some (k (← ldst? (fld w 21 1) (fld w 14 7)) (← lsrc? (fld w 7 7) lit) (← lsrc? (fld w 0 7) lit))

/-- VR with one single source; B holds 116. -/
def rdVR1 (k : LDst → LSrc → Instr) (w : Nat) (lit : Word) : Option Instr := do
  if fld w 0 7 = 116 then some (k (← ldst? (fld w 21 1) (fld w 14 7)) (← lsrc? (fld w 7 7) lit)) else none

/-- VR whose destination must be a register: W = 0 (R53, R131). -/
def rdVR2r (k : Fin 112 → LSrc → LSrc → Instr) (w : Nat) (lit : Word) : Option Instr := do
  if fld w 21 1 = 0 then some (k (← fin? 112 (fld w 14 7)) (← lsrc? (fld w 7 7) lit) (← lsrc? (fld w 0 7) lit)) else none

/-- VR with a register destination and one source. -/
def rdVR1r (k : Fin 112 → LSrc → Instr) (w : Nat) (lit : Word) : Option Instr := do
  if fld w 21 1 = 0 ∧ fld w 0 7 = 116 then some (k (← fin? 112 (fld w 14 7)) (← lsrc? (fld w 7 7) lit)) else none

/-- VR with a pair A, a single B and a register destination (op 0x06). -/
def rdVRp (k : Fin 112 → LPair → LSrc → Instr) (w : Nat) (lit : Word) : Option Instr := do
  if fld w 21 1 = 0 then some (k (← fin? 112 (fld w 14 7)) (← lpair? (fld w 7 7)) (← lsrc? (fld w 0 7) lit)) else none

/-- VR with a pair or quad A and a single B. -/
def rdVRpl (k : LDst → LPair → LSrc → Instr) (w : Nat) (lit : Word) : Option Instr := do
  some (k (← ldst? (fld w 21 1) (fld w 14 7)) (← lpair? (fld w 7 7)) (← lsrc? (fld w 0 7) lit))

/-- VI (R55). -/
def rdVI (k : LDst → LSrc → Nat → Option Instr) (w : Nat) (lit : Word) : Option Instr := do
  k (← ldst? (fld w 24 1) (fld w 17 7)) (← lsrc? (fld w 10 7) lit) (fld w 0 10)

/-- VM (R55): size code, hint, D code, A code, offset. -/
def rdVM (k : Nat → Fin 4 → Nat → Nat → BitVec 6 → Option Instr) (w : Nat) : Option Instr :=
  k (fld w 22 3) ⟨fld w 20 2, Nat.mod_lt _ (by decide)⟩ (fld w 13 7) (fld w 6 7) (BitVec.ofNat 6 (fld w 0 6))

/-- VA (R55): operation, width, scope, order, D code, A code. -/
def rdVA (k : Aop → Bool → Scope → Ord4 → Nat → Nat → Option Instr) (w : Nat) : Option Instr := do
  if fld w 0 2 < 2 then
    k (← aop? (fld w 21 4)) (decide (fld w 0 2 = 1)) (← scope? (fld w 18 3)) (← ord4? (fld w 16 2)) (fld w 9 7) (fld w 2 7)
  else none

/-- UR with scope and X zero. -/
def rdUR (k : UDst → USrc → USrc → Instr) (w : Nat) (lit : Word) : Option Instr := do
  if fld w 0 4 = 0 then some (k (← udst? (fld w 16 6)) (← usrc? (fld w 10 6) lit) (← usrc? (fld w 4 6) lit)) else none

/-- UR with one source; B holds 56. -/
def rdUR1 (k : UDst → USrc → Instr) (w : Nat) (lit : Word) : Option Instr := do
  if fld w 0 4 = 0 ∧ fld w 4 6 = 56 then some (k (← udst? (fld w 16 6)) (← usrc? (fld w 10 6) lit)) else none

/-- UR with a pair A and B unused. -/
def rdURp (k : UDst → UDst → Instr) (w : Nat) : Option Instr := do
  if fld w 0 4 = 0 ∧ fld w 4 6 = 56 then some (k (← udst? (fld w 16 6)) (← udst? (fld w 10 6))) else none

/-- UR with three pairs. -/
def rdURppp (k : UDst → UDst → UDst → Instr) (w : Nat) : Option Instr := do
  if fld w 0 4 = 0 then some (k (← udst? (fld w 16 6)) (← udst? (fld w 10 6)) (← udst? (fld w 4 6))) else none

/-- UR with pairs D and A and a single B. -/
def rdURpps (k : UDst → UDst → USrc → Instr) (w : Nat) (lit : Word) : Option Instr := do
  if fld w 0 4 = 0 then some (k (← udst? (fld w 16 6)) (← udst? (fld w 10 6)) (← usrc? (fld w 4 6) lit)) else none

/-- UR of the barriers: a scope, X zero. -/
def rdURs (k : Scope → UDst → USrc → USrc → Instr) (w : Nat) (lit : Word) : Option Instr := do
  if fld w 0 1 = 0 then
    some (k (← scope? (fld w 1 3)) (← udst? (fld w 16 6)) (← usrc? (fld w 10 6) lit) (← usrc? (fld w 4 6) lit)) else none

/-- UE (R58): the block and T, with the block length the instruction has. -/
def rdUE (m : Nat) (k : Fin 56 → Fin 56 → Instr) (w : Nat) : Option Instr := do
  if fld w 0 2 = 0 ∧ fld w 2 8 = m then some (k (← fin? 56 (fld w 16 6)) (← fin? 56 (fld w 10 6))) else none

/-! ## The opcode maps (R56, R59) -/

/-- The per-lane set. -/
def decodeLane (w : Nat) (lit : Word) : Option Instr :=
  match fld w 25 6, fld w 22 3 with
  | 0x01, 0 => rdVR2 .iadd w lit | 0x01, 1 => rdVR2 .isub w lit | 0x01, 2 => rdVR2 .imul w lit | 0x01, 3 => rdVR2 .imulhS w lit
  | 0x01, 4 => rdVR2 .imulhN w lit | 0x01, 5 => rdVR2r .imad w lit | 0x01, 6 => rdVR2 .iminS w lit | 0x01, 7 => rdVR2 .iminN w lit
  | 0x02, 0 => rdVR2 .imaxS w lit | 0x02, 1 => rdVR2 .imaxN w lit | 0x02, 2 => rdVR1 .iabs w lit | 0x02, 3 => rdVR1 .ineg w lit
  | 0x02, 4 => rdVR1 .popc w lit | 0x02, 5 => rdVR1 .clz w lit | 0x02, 6 => rdVR1 .brev w lit | 0x02, 7 => rdVR2 .idiffN w lit
  | 0x03, 0 => rdVR2 .and w lit | 0x03, 1 => rdVR2 .or w lit | 0x03, 2 => rdVR2 .xor w lit | 0x03, 3 => rdVR2 .andn w lit
  | 0x03, 4 => rdVR1 .not w lit | 0x03, 5 => rdVR1 .mov w lit | 0x03, 6 => rdVR2r .sel w lit
  | 0x04, 0 => rdVR2 .shl w lit | 0x04, 1 => rdVR2 .shr w lit | 0x04, 2 => rdVR2 .sar w lit | 0x04, 3 => rdVR2 .rotl w lit
  | 0x04, 4 => rdVR2 .bfeN w lit | 0x04, 5 => rdVR2 .bfeS w lit | 0x04, 6 => rdVR2r .bfi w lit | 0x04, 7 => rdVR2r .fshr w lit
  | 0x05, c => (icond? c).bind fun cc => rdVR2 (.icmp cc) w lit
  | 0x06, 0 => rdVRp .iadd64 w lit | 0x06, 1 => rdVRp .isub64 w lit | 0x06, 2 => rdVRp .shl64 w lit | 0x06, 3 => rdVRp .shr64 w lit
  | 0x06, 4 => rdVR2r .imadwN w lit | 0x06, 5 => rdVR2r .imadwS w lit
  | 0x06, 6 => rdVRpl .icmp64Eq w lit | 0x06, 7 => rdVRpl .icmp64LtN w lit
  | 0x07, _ => rdVI (fun d a i => some (.iaddi d a (BitVec.ofNat 10 i))) w lit
  | 0x08, _ => rdVI (fun d a i => some (.andi d a (BitVec.ofNat 10 i))) w lit
  | 0x09, _ => rdVI (fun d a i => some (.ori d a (BitVec.ofNat 10 i))) w lit
  | 0x0A, _ => rdVI (fun d a i => (fin? 32 i).map (.shli d a)) w lit
  | 0x0B, _ => rdVI (fun d a i => (fin? 32 i).map (.shri d a)) w lit
  | 0x0C, _ => rdVI (fun d a i => if a = .zero then some (.movi d (BitVec.ofNat 10 i)) else none) w lit
  | 0x0D, k => if fld w 0 14 = 116 * 128 + 116 then
      (fin? 6 k).bind fun k => (ldst? (fld w 21 1) (fld w 14 7)).map (.wfld k) else none
  | 0x10, m => (rnd4? m).bind fun m => rdVR2 (.fadd m) w lit
  | 0x11, m => (rnd4? m).bind fun m => rdVR2 (.fsub m) w lit
  | 0x12, m => (rnd4? m).bind fun m => rdVR2 (.fmul m) w lit
  | 0x13, m => (rnd4? m).bind fun m => rdVR2r (.fma m) w lit
  | 0x14, 0 => rdVR2 .fmin w lit | 0x14, 1 => rdVR2 .fmax w lit | 0x14, 2 => rdVR1 .fabs w lit | 0x14, 3 => rdVR1 .fneg w lit
  | 0x14, 4 => rdVR2 .fcopysign w lit | 0x14, 5 => rdVR1 .fclass w lit | 0x14, 6 => rdVR1 .fsat w lit
  | 0x15, c => (fcond? c).bind fun cc => rdVR2 (.fcmp cc) w lit
  | 0x16, 4 => rdVR1 .ffract w lit
  | 0x16, m => (rnd4? m).bind fun m => rdVR1 (.frnd m) w lit
  | 0x17, 0 => rdVR1 .frcp w lit | 0x17, 1 => rdVR1 .frsq w lit | 0x17, 2 => rdVR1 .fsqrt w lit | 0x17, 3 => rdVR1 .fexp2 w lit
  | 0x17, 4 => rdVR1 .flog2 w lit | 0x17, 5 => rdVR1 .fsin w lit | 0x17, 6 => rdVR1 .fcos w lit | 0x17, 7 => rdVR1 .ftanh w lit
  | 0x18, m => (rnd4? m).bind fun m => rdVR2 (.fdiv m) w lit
  | 0x19, 0 => rdVR2 (.pkadd false) w lit | 0x19, 1 => rdVR2 (.pkadd true) w lit
  | 0x19, 2 => rdVR2 (.pkmul false) w lit | 0x19, 3 => rdVR2 (.pkmul true) w lit
  | 0x19, 4 => rdVR2r (.pkfma false) w lit | 0x19, 5 => rdVR2r (.pkfma true) w lit
  | 0x19, 6 => rdVR2 (.pkmax false) w lit | 0x19, 7 => rdVR2 (.pkmax true) w lit
  | 0x1A, 0 => rdVR2 (.pkmin false) w lit | 0x1A, 1 => rdVR2 (.pkmin true) w lit
  | 0x1A, 2 => rdVR2r (.pkdot false) w lit | 0x1A, 3 => rdVR2r (.pkdot true) w lit
  | 0x1C, m => do
      some (.cvt (← cvt? (fld w 0 7)) (← rnd? m) (← ldst? (fld w 21 1) (fld w 14 7)) (← lsrc? (fld w 7 7) lit))
  | 0x1D, t => (qfmt? t).bind fun t => rdVRpl (.cvtq t) w lit
  | 0x1E, t => (qfmt? t).bind fun t => rdVR2r (.cvtdq t) w lit
  | 0x1F, i => do
      if i < 2 then
        some (.hadm (decide (i = 1)) (← ldst? (fld w 21 1) (fld w 14 7)) (← lsrc? (fld w 7 7) lit) (← lpair? (fld w 0 7)))
      else none
  | 0x20, m => (fin? 4 m).bind fun m => rdVR2 (.shfl m) w lit
  | 0x21, 0 => rdVR1r .ballot w lit | 0x21, 1 => rdVR1 .vany w lit | 0x21, 2 => rdVR1 .vall w lit | 0x21, 3 => rdVR1r .match_ w lit
  | 0x21, 4 => rdVR1 .pfxadd w lit | 0x21, 5 => rdVR1 .rdcadd w lit | 0x21, 6 => rdVR1 .rdcmax w lit | 0x21, 7 => rdVR1 .rdcmin w lit
  | 0x24, _ => rdVM (fun sz ch d a o => do some (.ld (← ldsize? sz) ch (← fin? 112 d) (← lpair? a) o)) w
  | 0x25, _ => rdVM (fun sz ch d a o => do some (.st (← stsize? sz) ch (← lsrc? d lit) (← lpair? a) o)) w
  | 0x26, _ => rdVM (fun sz ch d a o => do if ch = 0 then some (.ldl (← ldsize? sz) (← fin? 112 d) (← lsrc? a lit) o) else none) w
  | 0x27, _ => rdVM (fun sz ch d a o => do if ch = 0 then some (.stl (← stsize? sz) (← lsrc? d lit) (← lsrc? a lit) o) else none) w
  | 0x28, _ => rdVM (fun sz ch d a o => do some (.ldp (← ldsize? sz) ch (← fin? 112 d) (← lsrc? a lit) o)) w
  | 0x29, _ => rdVM (fun sz ch d a o => do some (.smp (← ldsize? sz) ch (← fin? 112 d) (← lpair? a) o)) w
  | 0x2A, _ => rdVA (fun p wd sc o d a => do some (.atom p wd sc o (← fin? 112 d) (← lpair? a))) w
  | 0x2B, _ => rdVA (fun p wd sc o d a => do some (.red p wd sc o (← lsrc? d lit) (← lpair? a))) w
  | 0x2C, _ => rdVA (fun p wd sc o d a => do some (.atoml p wd sc o (← fin? 112 d) (← lsrc? a lit))) w
  | 0x2D, _ => rdVM (fun sz ch d a o => do if ch = 0 then some (.ldo (← osize? sz) (← fin? 112 d) (← lsrc? a lit) o) else none) w
  | 0x2E, _ => rdVM (fun sz ch d a o => do if ch = 0 then some (.sto (← osize? sz) (← lsrc? d lit) (← lsrc? a lit) o) else none) w
  | 0x30, f => do
      if fld w 21 1 = 0 then
        let d ← fin? 112 (fld w 14 7)
        let e ← fin? 64 (fld w 0 7)
        match f with
        | 0 => some (.emit d (← fin? 112 (fld w 7 7)) e)
        | 1 => if fld w 7 7 = 116 then some (.resv d e) else none
        | 2 => some (.wrec d (← fin? 112 (fld w 7 7)) e)
        | 3 => if fld w 7 7 = 116 then some (.publ d e) else none
        | 4 => some (.spawn d (← fin? 112 (fld w 7 7)) e)
        | _ => none
      else none
  | 0x31, f => do
      some (.mmar (← mfmt? f) (decide (fld w 21 1 = 1)) (← fin? 112 (fld w 14 7)) (← fin? 112 (fld w 7 7)) (← fin? 54 (fld w 1 6))
        (decide (fld w 0 1 = 1)))
  | 0x34, _ => do some (.brd (← fin? 112 (fld w 18 7)) ⟨fld w 15 3, Nat.mod_lt _ (by decide)⟩ (BitVec.ofNat 15 (fld w 0 15)))
  | 0x35, _ => do
      if fld w 15 3 = 0 then some (.brs (← fin? 112 (fld w 18 7)) (BitVec.ofNat 15 (fld w 0 15))) else none
  | 0x36, _ => do
      if fld w 0 15 = 0 then some (.brxd (← fin? 112 (fld w 18 7)) ⟨fld w 15 3, Nat.mod_lt _ (by decide)⟩) else none
  | _, _ => none

/-- The group-uniform set. -/
def decodeUni (w : Nat) (lit : Word) : Option Instr :=
  match fld w 25 6, fld w 22 3 with
  | 0x00, 0 => rdUR .uadd w lit | 0x00, 1 => rdUR .usub w lit | 0x00, 2 => rdUR .umul w lit | 0x00, 3 => rdUR .uand w lit
  | 0x00, 4 => rdUR .uor w lit | 0x00, 5 => rdUR .uxor w lit | 0x00, 6 => rdUR .uminS w lit | 0x00, 7 => rdUR .umaxS w lit
  | 0x01, 0 => rdUR .ushl w lit | 0x01, 1 => rdUR .ushr w lit | 0x01, 2 => rdUR .usar w lit | 0x01, 3 => rdUR .uminN w lit
  | 0x01, 4 => rdUR .umaxN w lit | 0x01, 5 => rdUR .usel w lit | 0x01, 7 => rdUR1 .umov w lit
  | 0x02, c => (icond? c).bind fun cc => rdUR (.ucmp cc) w lit
  | 0x03, _ => do some (.uaddi (← udst? (fld w 19 6)) (← usrc? (fld w 13 6) lit) (BitVec.ofNat 13 (fld w 0 13)))
  | 0x04, _ => do some (.uandi (← udst? (fld w 19 6)) (← usrc? (fld w 13 6) lit) (BitVec.ofNat 13 (fld w 0 13)))
  | 0x05, _ => do if fld w 13 6 = 56 then some (.umovi (← udst? (fld w 19 6)) (BitVec.ofNat 13 (fld w 0 13))) else none
  | 0x06, 0 => rdURppp .uadd64 w | 0x06, 1 => rdURppp .usub64 w | 0x06, 2 => rdURpps .ushl64 w lit
  | 0x06, 3 => rdURpps .ushr64 w lit | 0x06, 4 => rdURppp .umul64 w
  | 0x07, sz => do some (.uld (← ldsize? sz) (← udst? (fld w 16 6)) (← udst? (fld w 10 6)) (BitVec.ofNat 10 (fld w 0 10)))
  | 0x08, sz => do some (.ust (← stsize? sz) (← usrc? (fld w 16 6) lit) (← udst? (fld w 10 6)) (BitVec.ofNat 10 (fld w 0 10)))
  | 0x09, sz => do
      if sz = 4 ∨ sz = 5 then
        some (.uldp (decide (sz = 5)) (← udst? (fld w 16 6)) ⟨fld w 14 2, Nat.mod_lt _ (by decide)⟩ (BitVec.ofNat 14 (fld w 0 14)))
      else none
  | 0x10, _ => some (.bra (BitVec.ofNat 25 (fld w 0 25)))
  | 0x11, _ => some (.call (BitVec.ofNat 25 (fld w 0 25)))
  | 0x12, _ => if fld w 0 25 = 0 then some .ret else none
  | 0x13, c => do some (.brc (← bcond? c) (← usrc? (fld w 16 6) lit) (BitVec.ofNat 16 (fld w 0 16)))
  | 0x14, 0 => do if fld w 16 6 = 56 ∧ fld w 0 10 = 56 * 16 then some (.jmpi (← udst? (fld w 10 6))) else none
  | 0x15, j => do if fld w 0 22 = 0 then some (.join (← fin? 8 j)) else none
  | 0x16, n => do
      if fld w 0 4 = 0 then
        some (.dispatch (← fin? 4 n) (← udst? (fld w 16 6)) (← udst? (fld w 10 6)) (← udst? (fld w 4 6))) else none
  | 0x17, _ => if fld w 0 25 = 0 then some .exit else none
  | 0x18, _ => if fld w 0 25 = 0 then some .yield else none
  | 0x19, _ => if fld w 0 25 = 0 then some .acq else none
  | 0x1A, r => (resource? r).bind fun r => rdUR (.give r) w lit
  | 0x1B, r => (resource? r).bind fun r => rdUR1 (.claim r) w lit
  | 0x1C, 0 => rdUR1 .mtokPass w lit
  | 0x1C, 1 => do if fld w 0 16 = 56 * 1024 + 56 * 16 then some (.mtokTake (← udst? (fld w 16 6))) else none
  | 0x1D, 0 => rdUE 6 .launch w
  | 0x1E, _ => do if fld w 13 6 = 56 then some (.rdsr (← udst? (fld w 19 6)) (← sreg? (fld w 0 13))) else none
  | 0x1F, _ => do if fld w 19 6 = 56 then some (.wrsr (← sreg? (fld w 0 13)) (← usrc? (fld w 13 6) lit)) else none
  | 0x20, 0 => rdURs .bar w lit | 0x20, 1 => rdURs .bara w lit | 0x20, 2 => rdURs .barw w lit
  | 0x21, s => do
      if fld w 0 6 = 0 then
        if fld w 6 16 = 0 then some (.fence (← scope? s))
        else some (.fenceX (← scope? s) (BitVec.ofNat 8 (fld w 14 8)) (BitVec.ofNat 8 (fld w 6 8)))
      else none
  | 0x22, _ => if fld w 0 25 = 0 then some .efence else none
  | 0x23, c => do
      let cc ← match c with
        | 0 => some WCond.ge | 1 => some WCond.eq | 2 => some WCond.ne | _ => none
      some (.mwait cc (decide (fld w 0 1 = 1)) (← scope? (fld w 1 3)) (← udst? (fld w 16 6)) (← udst? (fld w 10 6))
        (← usrc? (fld w 4 6) lit))
  | 0x24, 0 => rdURp .tagwAny w | 0x24, 1 => rdURp .tagwAll w | 0x24, 2 => rdURp .tagwFirst w | 0x24, 3 => rdURp .tagwClear w
  | 0x28, 0 => rdUE 8 .copyLin w | 0x28, 1 => rdUE 8 .copyTile w | 0x28, 2 => rdUE 8 .copyCb w | 0x28, 3 => rdUE 8 .copyGath w
  | 0x29, 0 => rdUE 8 .hread w
  | 0x2A, 0 => rdUE 8 .gridRestrict w | 0x2A, 1 => rdUE 8 .gridProlong w | 0x2A, 2 => rdUE 8 .gridConvert w
  | 0x2B, 0 => rdUE 8 .mtile w
  | 0x2C, 0 => rdUE 8 .obresRsv w | 0x2C, 1 => rdUE 8 .obresRel w | 0x2C, 2 => rdUE 8 .obresQry w
  | 0x2D, 0 => rdUE 4 .ruleLoad w | 0x2D, 1 => rdUE 4 .ruleStep w | 0x2D, 2 => rdUE 4 .ruleXch w | 0x2D, 3 => rdUE 4 .ruleQuery w
  | 0x2E, 0 => rdUE 4 .edgeFrame w | 0x2E, 1 => rdUE 4 .edgeCutmove w | 0x2E, 2 => rdUE 4 .edgeStatus w
  | 0x2E, 3 => rdUE 4 .edgeFlush w
  | 0x2F, 0 => do
      if fld w 0 1 = 0 ∧ fld w 16 6 = 56 then
        some (.cond (← scope? (fld w 1 3)) (← usrc? (fld w 10 6) lit) (← usrc? (fld w 4 6) lit)) else none
  | 0x30, _ => if fld w 13 12 = 56 * 64 + 56 then some (.trap (BitVec.ofNat 13 (fld w 0 13))) else none
  | 0x31, _ => if fld w 13 12 = 56 * 64 + 56 then some (.bkpt (BitVec.ofNat 13 (fld w 0 13))) else none
  | 0x32, _ => some (.unop (BitVec.ofNat 25 (fld w 0 25)))
  | 0x33, 0 => rdUR .bank w lit
  | _, _ => none

/-- A word and the word after it, as an instruction; none for an illegal word (R49). The second word is used only where a source
field of the first holds the literal code (R48). -/
def decodeWord (w lit : Word) : Option Instr :=
  let r := if w.toNat / 2 ^ 31 = 0 then decodeLane w.toNat lit else decodeUni w.toNat lit
  r.bind fun i => if i.wellFormed then some i else none

/-- The bytes an instruction occupies: 8 with a literal word, else 4 (R48). -/
def Instr.size (i : Instr) : Nat := if i.lits = [] then 4 else 8

/-- The little-endian value of bytes (R2). -/
def leNat : List Byte → Nat
  | [] => 0
  | b :: r => b.toNat + 256 * leNat r

/-- The `n` bytes of a number, the least significant first (R2). -/
def leBytes : Nat → Nat → List Byte
  | 0, _ => []
  | n + 1, v => BitVec.ofNat 8 v :: leBytes n (v / 256)

/-- The instruction at the start of a list of bytes and the bytes after it; none where they hold an illegal word or end too soon. -/
def decode (bs : List Byte) : Option (Instr × List Byte) :=
  if bs.length < 4 then none
  else
    (decodeWord (BitVec.ofNat 32 (leNat (bs.take 4))) (BitVec.ofNat 32 (leNat ((bs.drop 4).take 4)))).bind fun i =>
      if bs.length < i.size then none else some (i, bs.drop i.size)

/-- The instruction the decoder reads from the bits `w` of an opcode-table row; an operand word the row gives no bits is zero. -/
def decodeTableWord (nbits w : Nat) : Option Instr := (decode (leBytes 8 (w % 2 ^ nbits))).map (·.1)

/-! ## The encoder -/

def encVR (op fn w d a b : Nat) : Nat := op * 2 ^ 25 + fn * 2 ^ 22 + w * 2 ^ 21 + d * 2 ^ 14 + a * 2 ^ 7 + b
def encVI (op w d a i : Nat) : Nat := op * 2 ^ 25 + w * 2 ^ 24 + d * 2 ^ 17 + a * 2 ^ 10 + i
def encVM (op sz ch d a off : Nat) : Nat := op * 2 ^ 25 + sz * 2 ^ 22 + ch * 2 ^ 20 + d * 2 ^ 13 + a * 2 ^ 6 + off
def encVA (op p s r d a w : Nat) : Nat := op * 2 ^ 25 + p * 2 ^ 21 + s * 2 ^ 18 + r * 2 ^ 16 + d * 2 ^ 9 + a * 2 ^ 2 + w
def encVB (op c j off : Nat) : Nat := op * 2 ^ 25 + c * 2 ^ 18 + j * 2 ^ 15 + off
def encVQ (op f r d a g z : Nat) : Nat := op * 2 ^ 25 + f * 2 ^ 22 + r * 2 ^ 21 + d * 2 ^ 14 + a * 2 ^ 7 + g * 2 + z
def encUR (op fn d a b s x : Nat) : Nat := 2 ^ 31 + op * 2 ^ 25 + fn * 2 ^ 22 + d * 2 ^ 16 + a * 2 ^ 10 + b * 2 ^ 4 + s * 2 + x
def encUI (op d a i : Nat) : Nat := 2 ^ 31 + op * 2 ^ 25 + d * 2 ^ 19 + a * 2 ^ 13 + i
def encUW (op sz d win off : Nat) : Nat := 2 ^ 31 + op * 2 ^ 25 + sz * 2 ^ 22 + d * 2 ^ 16 + win * 2 ^ 14 + off
def encUB (op off : Nat) : Nat := 2 ^ 31 + op * 2 ^ 25 + off
def encUC (op c a off : Nat) : Nat := 2 ^ 31 + op * 2 ^ 25 + c * 2 ^ 22 + a * 2 ^ 16 + off
def encUM (op sz d a off : Nat) : Nat := 2 ^ 31 + op * 2 ^ 25 + sz * 2 ^ 22 + d * 2 ^ 16 + a * 2 ^ 10 + off
def encUE (op fn p t m : Nat) : Nat := 2 ^ 31 + op * 2 ^ 25 + fn * 2 ^ 22 + p * 2 ^ 16 + t * 2 ^ 10 + m * 2 ^ 2
def encUX (op s f t : Nat) : Nat := 2 ^ 31 + op * 2 ^ 25 + s * 2 ^ 22 + f * 2 ^ 14 + t * 2 ^ 6
def encUJ (op j : Nat) : Nat := 2 ^ 31 + op * 2 ^ 25 + j * 2 ^ 22

/-- VR with two single sources. -/
def enc2 (op fn : Nat) (d : LDst) (a b : LSrc) : Nat := encVR op fn (ldstW d) (ldstCode d) (lsrcCode a) (lsrcCode b)
/-- VR with one source. -/
def enc1 (op fn : Nat) (d : LDst) (a : LSrc) : Nat := encVR op fn (ldstW d) (ldstCode d) (lsrcCode a) 116
/-- VR with a register destination. -/
def enc2r (op fn : Nat) (d : Fin 112) (a b : LSrc) : Nat := encVR op fn 0 d.val (lsrcCode a) (lsrcCode b)
/-- UR without scope. -/
def encU (op fn : Nat) (d : UDst) (a b : USrc) : Nat := encUR op fn (udstCode d) (usrcCode a) (usrcCode b) 0 0

/-- The first word of an encoded instruction, as a number; none for a step of another agent, which has no word. -/
def encodeNat : Instr → Option Nat
  | .iadd d a b => some (enc2 0x01 0 d a b) | .isub d a b => some (enc2 0x01 1 d a b) | .imul d a b => some (enc2 0x01 2 d a b)
  | .imulhS d a b => some (enc2 0x01 3 d a b) | .imulhN d a b => some (enc2 0x01 4 d a b) | .imad d a b => some (enc2r 0x01 5 d a b)
  | .iminS d a b => some (enc2 0x01 6 d a b) | .iminN d a b => some (enc2 0x01 7 d a b)
  | .imaxS d a b => some (enc2 0x02 0 d a b) | .imaxN d a b => some (enc2 0x02 1 d a b) | .iabs d a => some (enc1 0x02 2 d a)
  | .ineg d a => some (enc1 0x02 3 d a) | .popc d a => some (enc1 0x02 4 d a) | .clz d a => some (enc1 0x02 5 d a)
  | .brev d a => some (enc1 0x02 6 d a) | .idiffN d a b => some (enc2 0x02 7 d a b)
  | .and d a b => some (enc2 0x03 0 d a b) | .or d a b => some (enc2 0x03 1 d a b) | .xor d a b => some (enc2 0x03 2 d a b)
  | .andn d a b => some (enc2 0x03 3 d a b) | .not d a => some (enc1 0x03 4 d a) | .mov d a => some (enc1 0x03 5 d a)
  | .sel d a b => some (enc2r 0x03 6 d a b)
  | .shl d a b => some (enc2 0x04 0 d a b) | .shr d a b => some (enc2 0x04 1 d a b) | .sar d a b => some (enc2 0x04 2 d a b)
  | .rotl d a b => some (enc2 0x04 3 d a b) | .bfeN d a b => some (enc2 0x04 4 d a b) | .bfeS d a b => some (enc2 0x04 5 d a b)
  | .bfi d a b => some (enc2r 0x04 6 d a b) | .fshr d a b => some (enc2r 0x04 7 d a b)
  | .icmp cc d a b => some (enc2 0x05 (icondCode cc) d a b)
  | .iadd64 d a b => some (encVR 0x06 0 0 d.val (lpairCode a) (lsrcCode b))
  | .isub64 d a b => some (encVR 0x06 1 0 d.val (lpairCode a) (lsrcCode b))
  | .shl64 d a b => some (encVR 0x06 2 0 d.val (lpairCode a) (lsrcCode b))
  | .shr64 d a b => some (encVR 0x06 3 0 d.val (lpairCode a) (lsrcCode b))
  | .imadwN d a b => some (enc2r 0x06 4 d a b) | .imadwS d a b => some (enc2r 0x06 5 d a b)
  | .icmp64Eq d a b => some (encVR 0x06 6 (ldstW d) (ldstCode d) (lpairCode a) (lsrcCode b))
  | .icmp64LtN d a b => some (encVR 0x06 7 (ldstW d) (ldstCode d) (lpairCode a) (lsrcCode b))
  | .iaddi d a i => some (encVI 0x07 (ldstW d) (ldstCode d) (lsrcCode a) i.toNat)
  | .andi d a i => some (encVI 0x08 (ldstW d) (ldstCode d) (lsrcCode a) i.toNat)
  | .ori d a i => some (encVI 0x09 (ldstW d) (ldstCode d) (lsrcCode a) i.toNat)
  | .shli d a n => some (encVI 0x0A (ldstW d) (ldstCode d) (lsrcCode a) n.val)
  | .shri d a n => some (encVI 0x0B (ldstW d) (ldstCode d) (lsrcCode a) n.val)
  | .movi d i => some (encVI 0x0C (ldstW d) (ldstCode d) 116 i.toNat)
  | .wfld k d => some (encVR 0x0D k.val (ldstW d) (ldstCode d) 116 116)
  | .fadd m d a b => some (enc2 0x10 (rnd4Code m) d a b) | .fsub m d a b => some (enc2 0x11 (rnd4Code m) d a b)
  | .fmul m d a b => some (enc2 0x12 (rnd4Code m) d a b) | .fma m d a b => some (enc2r 0x13 (rnd4Code m) d a b)
  | .fmin d a b => some (enc2 0x14 0 d a b) | .fmax d a b => some (enc2 0x14 1 d a b) | .fabs d a => some (enc1 0x14 2 d a)
  | .fneg d a => some (enc1 0x14 3 d a) | .fcopysign d a b => some (enc2 0x14 4 d a b) | .fclass d a => some (enc1 0x14 5 d a)
  | .fsat d a => some (enc1 0x14 6 d a)
  | .fcmp cc d a b => some (enc2 0x15 (fcondCode cc) d a b) | .frnd m d a => some (enc1 0x16 (rnd4Code m) d a)
  | .ffract d a => some (enc1 0x16 4 d a)
  | .frcp d a => some (enc1 0x17 0 d a) | .frsq d a => some (enc1 0x17 1 d a) | .fsqrt d a => some (enc1 0x17 2 d a)
  | .fexp2 d a => some (enc1 0x17 3 d a) | .flog2 d a => some (enc1 0x17 4 d a) | .fsin d a => some (enc1 0x17 5 d a)
  | .fcos d a => some (enc1 0x17 6 d a) | .ftanh d a => some (enc1 0x17 7 d a)
  | .fdiv m d a b => some (enc2 0x18 (rnd4Code m) d a b)
  | .pkadd bf d a b => some (enc2 0x19 (0 + bf.toNat) d a b) | .pkmul bf d a b => some (enc2 0x19 (2 + bf.toNat) d a b)
  | .pkfma bf d a b => some (enc2r 0x19 (4 + bf.toNat) d a b) | .pkmax bf d a b => some (enc2 0x19 (6 + bf.toNat) d a b)
  | .pkmin bf d a b => some (enc2 0x1A (0 + bf.toNat) d a b) | .pkdot bf d a b => some (enc2r 0x1A (2 + bf.toNat) d a b)
  | .cvt c m d a => some (encVR 0x1C (rndCode m) (ldstW d) (ldstCode d) (lsrcCode a) (cvtCode c))
  | .cvtq t d a b => some (encVR 0x1D (qfmtCode t) (ldstW d) (ldstCode d) (lpairCode a) (lsrcCode b))
  | .cvtdq t d a b => some (enc2r 0x1E (qfmtCode t) d a b)
  | .hadm inv d a b => some (encVR 0x1F inv.toNat (ldstW d) (ldstCode d) (lsrcCode a) (lpairCode b))
  | .shfl m d a b => some (enc2 0x20 m.val d a b)
  | .ballot d a => some (encVR 0x21 0 0 d.val (lsrcCode a) 116) | .vany d a => some (enc1 0x21 1 d a)
  | .vall d a => some (enc1 0x21 2 d a) | .match_ d a => some (encVR 0x21 3 0 d.val (lsrcCode a) 116)
  | .pfxadd d a => some (enc1 0x21 4 d a) | .rdcadd d a => some (enc1 0x21 5 d a) | .rdcmax d a => some (enc1 0x21 6 d a)
  | .rdcmin d a => some (enc1 0x21 7 d a)
  | .ld sz ch d a o => some (encVM 0x24 (ldsizeCode sz) ch.val d.val (lpairCode a) o.toNat)
  | .st sz ch d a o => some (encVM 0x25 (stsizeCode sz) ch.val (lsrcCode d) (lpairCode a) o.toNat)
  | .ldl sz d a o => some (encVM 0x26 (ldsizeCode sz) 0 d.val (lsrcCode a) o.toNat)
  | .stl sz d a o => some (encVM 0x27 (stsizeCode sz) 0 (lsrcCode d) (lsrcCode a) o.toNat)
  | .ldp sz win d a o => some (encVM 0x28 (ldsizeCode sz) win.val d.val (lsrcCode a) o.toNat)
  | .smp sz ch d a o => some (encVM 0x29 (ldsizeCode sz) ch.val d.val (lpairCode a) o.toNat)
  | .atom p wd sc o d a => some (encVA 0x2A (aopCode p) (scopeCode sc) (ord4Code o) d.val (lpairCode a) wd.toNat)
  | .red p wd sc o d a => some (encVA 0x2B (aopCode p) (scopeCode sc) (ord4Code o) (lsrcCode d) (lpairCode a) wd.toNat)
  | .atoml p wd sc o d a => some (encVA 0x2C (aopCode p) (scopeCode sc) (ord4Code o) d.val (lsrcCode a) wd.toNat)
  | .ldo sz d a o => some (encVM 0x2D (osizeCode sz) 0 d.val (lsrcCode a) o.toNat)
  | .sto sz d a o => some (encVM 0x2E (osizeCode sz) 0 (lsrcCode d) (lsrcCode a) o.toNat)
  | .emit d a e => some (encVR 0x30 0 0 d.val a.val e.val) | .resv d e => some (encVR 0x30 1 0 d.val 116 e.val)
  | .wrec d a e => some (encVR 0x30 2 0 d.val a.val e.val) | .publ d e => some (encVR 0x30 3 0 d.val 116 e.val)
  | .spawn d a e => some (encVR 0x30 4 0 d.val a.val e.val)
  | .mmar f ru d a g z => some (encVQ 0x31 (mfmtCode f) ru.toNat d.val a.val g.val z.toNat)
  | .brd c j o => some (encVB 0x34 c.val j.val o.toNat) | .brs c o => some (encVB 0x35 c.val 0 o.toNat)
  | .brxd c j => some (encVB 0x36 c.val j.val 0)
  | .uadd d a b => some (encU 0x00 0 d a b) | .usub d a b => some (encU 0x00 1 d a b) | .umul d a b => some (encU 0x00 2 d a b)
  | .uand d a b => some (encU 0x00 3 d a b) | .uor d a b => some (encU 0x00 4 d a b) | .uxor d a b => some (encU 0x00 5 d a b)
  | .uminS d a b => some (encU 0x00 6 d a b) | .umaxS d a b => some (encU 0x00 7 d a b)
  | .ushl d a b => some (encU 0x01 0 d a b) | .ushr d a b => some (encU 0x01 1 d a b) | .usar d a b => some (encU 0x01 2 d a b)
  | .uminN d a b => some (encU 0x01 3 d a b) | .umaxN d a b => some (encU 0x01 4 d a b) | .usel d a b => some (encU 0x01 5 d a b)
  | .umov d a => some (encUR 0x01 7 (udstCode d) (usrcCode a) 56 0 0)
  | .ucmp cc d a b => some (encU 0x02 (icondCode cc) d a b)
  | .uaddi d a i => some (encUI 0x03 (udstCode d) (usrcCode a) i.toNat)
  | .uandi d a i => some (encUI 0x04 (udstCode d) (usrcCode a) i.toNat)
  | .umovi d i => some (encUI 0x05 (udstCode d) 56 i.toNat)
  | .uadd64 d a b => some (encUR 0x06 0 (udstCode d) (udstCode a) (udstCode b) 0 0)
  | .usub64 d a b => some (encUR 0x06 1 (udstCode d) (udstCode a) (udstCode b) 0 0)
  | .ushl64 d a b => some (encUR 0x06 2 (udstCode d) (udstCode a) (usrcCode b) 0 0)
  | .ushr64 d a b => some (encUR 0x06 3 (udstCode d) (udstCode a) (usrcCode b) 0 0)
  | .umul64 d a b => some (encUR 0x06 4 (udstCode d) (udstCode a) (udstCode b) 0 0)
  | .uld sz d a o => some (encUM 0x07 (ldsizeCode sz) (udstCode d) (udstCode a) o.toNat)
  | .ust sz d a o => some (encUM 0x08 (stsizeCode sz) (usrcCode d) (udstCode a) o.toNat)
  | .uldp wide d win o => some (encUW 0x09 (4 + wide.toNat) (udstCode d) win.val o.toNat)
  | .bra o => some (encUB 0x10 o.toNat) | .call o => some (encUB 0x11 o.toNat) | .ret => some (encUB 0x12 0)
  | .brc c a o => some (encUC 0x13 (bcondCode c) (usrcCode a) o.toNat)
  | .jmpi a => some (encUR 0x14 0 56 (udstCode a) 56 0 0) | .join j => some (encUJ 0x15 j.val)
  | .dispatch n d a b => some (encUR 0x16 n.val (udstCode d) (udstCode a) (udstCode b) 0 0)
  | .exit => some (encUB 0x17 0) | .yield => some (encUB 0x18 0) | .acq => some (encUB 0x19 0)
  | .give r d a b => some (encU 0x1A (resourceCode r) d a b)
  | .claim r d a => some (encUR 0x1B (resourceCode r) (udstCode d) (usrcCode a) 56 0 0)
  | .mtokPass d a => some (encUR 0x1C 0 (udstCode d) (usrcCode a) 56 0 0) | .mtokTake d => some (encUR 0x1C 1 (udstCode d) 56 56 0 0)
  | .launch p t => some (encUE 0x1D 0 p.val t.val 6)
  | .rdsr d r => some (encUI 0x1E (udstCode d) 56 (sregCode r)) | .wrsr r a => some (encUI 0x1F 56 (usrcCode a) (sregCode r))
  | .bar sc d a b => some (encUR 0x20 0 (udstCode d) (usrcCode a) (usrcCode b) (scopeCode sc) 0)
  | .bara sc d a b => some (encUR 0x20 1 (udstCode d) (usrcCode a) (usrcCode b) (scopeCode sc) 0)
  | .barw sc d a b => some (encUR 0x20 2 (udstCode d) (usrcCode a) (usrcCode b) (scopeCode sc) 0)
  | .fence sc => some (encUX 0x21 (scopeCode sc) 0 0) | .fenceX sc f t => some (encUX 0x21 (scopeCode sc) f.toNat t.toNat)
  | .efence => some (encUB 0x22 0)
  | .mwait c wide sc d a b => some (encUR 0x23 (match c with | .ge => 0 | .eq => 1 | .ne => 2) (udstCode d) (udstCode a) (usrcCode b)
      (scopeCode sc) wide.toNat)
  | .tagwAny d a => some (encUR 0x24 0 (udstCode d) (udstCode a) 56 0 0)
  | .tagwAll d a => some (encUR 0x24 1 (udstCode d) (udstCode a) 56 0 0)
  | .tagwFirst d a => some (encUR 0x24 2 (udstCode d) (udstCode a) 56 0 0)
  | .tagwClear d a => some (encUR 0x24 3 (udstCode d) (udstCode a) 56 0 0)
  | .copyLin p t => some (encUE 0x28 0 p.val t.val 8) | .copyTile p t => some (encUE 0x28 1 p.val t.val 8)
  | .copyCb p t => some (encUE 0x28 2 p.val t.val 8) | .copyGath p t => some (encUE 0x28 3 p.val t.val 8)
  | .hread p t => some (encUE 0x29 0 p.val t.val 8)
  | .gridRestrict p t => some (encUE 0x2A 0 p.val t.val 8) | .gridProlong p t => some (encUE 0x2A 1 p.val t.val 8)
  | .gridConvert p t => some (encUE 0x2A 2 p.val t.val 8) | .mtile p t => some (encUE 0x2B 0 p.val t.val 8)
  | .obresRsv p t => some (encUE 0x2C 0 p.val t.val 8) | .obresRel p t => some (encUE 0x2C 1 p.val t.val 8)
  | .obresQry p t => some (encUE 0x2C 2 p.val t.val 8)
  | .ruleLoad p t => some (encUE 0x2D 0 p.val t.val 4) | .ruleStep p t => some (encUE 0x2D 1 p.val t.val 4)
  | .ruleXch p t => some (encUE 0x2D 2 p.val t.val 4) | .ruleQuery p t => some (encUE 0x2D 3 p.val t.val 4)
  | .edgeFrame p t => some (encUE 0x2E 0 p.val t.val 4) | .edgeCutmove p t => some (encUE 0x2E 1 p.val t.val 4)
  | .edgeStatus p t => some (encUE 0x2E 2 p.val t.val 4) | .edgeFlush p t => some (encUE 0x2E 3 p.val t.val 4)
  | .cond sc a b => some (encUR 0x2F 0 56 (usrcCode a) (usrcCode b) (scopeCode sc) 0)
  | .trap c => some (encUI 0x30 56 56 c.toNat) | .bkpt c => some (encUI 0x31 56 56 c.toNat) | .unop x => some (encUB 0x32 x.toNat)
  | .bank d a b => some (encU 0x33 0 d a b)
  | _ => none

/-- The words of an instruction: one, or two with a literal (R48); none for a step of another agent. -/
def encode (i : Instr) : List Word :=
  match encodeNat i with
  | none => []
  | some w => BitVec.ofNat 32 w :: i.lits

/-- The instruction that a list of words holds, as bytes in memory. -/
def wordBytes : List Word → List Byte
  | [] => []
  | w :: r => leBytes 4 w.toNat ++ wordBytes r

end Sys2Proof
end

