-- ==== Sys2Proof/Machine/Maps.lean ====
section
/-! DEFINITION. Sparse maps: reading, writing and erasing in association lists with strictly rising keys. `dset` drops an entry
that equals the default, so that equal contents are equal data; memory is such a map with default 0. -/
namespace Sys2Proof.Machine

variable {α : Type}

/-- The value listed at `k`, if any. -/
def find? (m : AMap α) (k : Nat) : Option α :=
  match m with
  | [] => none
  | (j, v) :: r => if j = k then some v else find? r k

/-- The value at `k`, or the default `d` where nothing is listed. -/
def mget (d : α) (m : AMap α) (k : Nat) : α := (find? m k).getD d

/-- Take what is listed at `k` out. -/
def merase (m : AMap α) (k : Nat) : AMap α :=
  match m with
  | [] => []
  | (j, v) :: r => if j = k then merase r k else (j, v) :: merase r k

/-- Put `v` at `k`, keeping the keys rising. -/
def mset (m : AMap α) (k : Nat) (v : α) : AMap α :=
  match m with
  | [] => [(k, v)]
  | (j, w) :: r => if k < j then (k, v) :: (j, w) :: r else if j = k then (k, v) :: r else (j, w) :: mset r k v

/-- Put `v` at `k`; a value equal to the default `d` is not listed. -/
def dset [DecidableEq α] (d : α) (m : AMap α) (k : Nat) (v : α) : AMap α :=
  if v = d then merase m k else mset m k v

/-- The map with `f` applied to the value at `k`, if one is listed. -/
def mupd (m : AMap α) (k : Nat) (f : α → α) : AMap α :=
  match m with
  | [] => []
  | (j, w) :: r => if j = k then (j, f w) :: r else (j, w) :: mupd r k f

/-- `f` applied to every value, with its key. -/
def mmapv (m : AMap α) (f : Nat → α → α) : AMap α :=
  match m with
  | [] => []
  | (j, w) :: r => (j, f j w) :: mmapv r f

/-- The entries whose key and value satisfy `p`. -/
def mfilter (m : AMap α) (p : Nat → α → Bool) : AMap α :=
  match m with
  | [] => []
  | (j, w) :: r => if p j w then (j, w) :: mfilter r p else mfilter r p

/-- The entries of `n` put over those of `m`. -/
def mjoin (m n : AMap α) : AMap α := n.foldl (fun m x => mset m x.1 x.2) m

/-- Keys strictly rise: the canonical form. -/
abbrev KeysRise (m : AMap α) : Prop := m.Pairwise (fun a b => a.1 < b.1)

/-- The canonical form of a map with default `d`: keys rise and no entry equals the default. -/
abbrev Canonical (d : α) (m : AMap α) : Prop := KeysRise m ∧ ∀ e ∈ m, e.2 ≠ d

end Sys2Proof.Machine
end

