-- ==== Sys2Proof/Machine/State.lean ====
section
/-! DEFINITION. The state of the part (00 to 22): plain data, every piece of state the manual names, and State.reset. Numbers that
the manual bounds but that only name or count something (identifiers, addresses held by an engine, counts) are natural numbers;
register contents are bit vectors. Cores are numbered cluster * 4 + core. -/
namespace Sys2Proof.Machine

/-! ## What stops the machine -/

/-- Behaviour the manual leaves undefined without naming any effect. Safe: a claim about such a run cannot be proved. -/
inductive Fault where
  /-- Raised by exec of an instruction, or of a codec's placement, that reserves on an edge whose indices or slot headers were not R12's initial values (R12). Safe. -/
  | edgeInitial
  deriving DecidableEq, Repr, Inhabited

/-- Instructions the model gives no meaning. -/
inductive Refusal where
  /-- Raised by exec's arm of an instruction not modelled yet. Safe. -/
  | notModelled (mnemonic : String)
  deriving DecidableEq, Repr, Inhabited

/-! ## Groups (03 to 05, 18) -/

/-- The state of a path table entry (R72); an ARRIVED entry keeps the JOIN's own address in `pc`. -/
inductive PathSt where
  | run | wait | arrived (j : Nat) | parked
  deriving DecidableEq, Repr, Inhabited

/-- A path table entry (R72). -/
structure PathEntry where
  pc : Nat
  mask : Mask
  st : PathSt
  stamp : Nat
  deriving DecidableEq, Repr, Inhabited

/-- An open join record (R72). -/
structure JoinRec where
  expect : Mask
  arrived : Mask
  deriving DecidableEq, Repr, Inhabited

/-- A latch chain in progress (R70): per-lane instructions so far and latches written. A chain is not firm while its only
instruction has W = 0 and the next word is not yet known to name a latch. -/
structure Chain where
  len : Nat
  wrote : BitVec 4
  firm : Bool
  deriving DecidableEq, Repr, Inhabited

/-- A scoreboard entry (R69): the registers it covers, the flags that reach FSTAT when it is written back, and the cc at which
the result becomes readable, none while a request or an engine decides it. `fp` marks an instruction that can raise a flag: of pipes b1,
b2, b3, or MMAR (R107). -/
structure Pend where
  vregs : List Nat
  gregs : List Nat
  flags : BitVec 5
  fp : Bool
  ready : Option Nat
  deriving DecidableEq, Repr, Inhabited

/-- A mark on a register (R305): the cause code, the packet a replay would fill it from (0: none), the skid of its fault and the virtual
address that faulted (0: none). -/
structure Mark where
  code : Nat
  req : Nat
  skid : Nat
  va : Nat
  deriving DecidableEq, Repr, Inhabited

/-- A fatal mark of a lane (R305, R306, R320): cause code, skid, and the virtual address that faulted (0: none). -/
structure FMark where
  code : Nat
  skid : Nat
  va : Nat
  deriving DecidableEq, Repr, Inhabited

/-- A memory, record, launch or matrix request in flight (R176, R305, R315): its instruction, the lanes it still owns, the address
and data each lane supplied at issue, uniform operands, its scoreboard entry, the cc before which its data cannot return (R179),
younger instructions issued until its fault was detected (R309), the token once it is a parked packet (0: in flight), and the number under which a packet was
in flight, which keeps its place in program order (0: it never was, or still is). A global access makes one request for each line its lanes
touch (R177): `line` counts them from 0, `sent` says that this one has been sent, `part` that a save left the access before it; `younger` counts the younger instructions issued so far,
from which a replay that faults again takes its skid. -/
structure Req where
  instr : Instr
  pc : Nat
  lanes : Mask
  addr : AMap Nat
  data : AMap (List Word)
  ops : List Nat
  entry : Nat
  early : Nat
  skid : Nat
  token : Nat
  gen : Nat
  tag : Nat
  issuedAs : Nat
  line : Nat
  sent : Bool
  part : Bool
  younger : Nat
  deriving DecidableEq, Repr, Inhabited

/-- What a group waits for besides the scoreboard (R97, R98, R102, R103, R201, R226, R243, R280, R294, R295, R298, R304, R307). -/
inductive Wait where
  | none
  | yielding (until_ : Nat)
  | acq
  | claim (res : Resource) (n : Nat) (d : UDst)
  | take (d : UDst)
  | tagw (all first : Bool) (m : DWord) (d : UDst)
  | mwait (c : WCond) (wide : Bool) (sc : Scope) (d : UDst) (va : Nat) (v : DWord)
  | bar (obj : Nat) (phase : Nat) (sc : Scope) (d : UDst) (observe : Bool)
  | fence (sc : Scope) (f t : BitVec 8)
  | efence
  | obrel (slot : Nat)
  | rule
  | edge (t : Nat)
  | trapped (token code : Nat)
  | spawnFull
  deriving DecidableEq, Repr, Inhabited

/-- A launch header as admitted (R15, R20), with the stage entry it was read for (R7). -/
structure Program where
  hdr : Nat
  entry : Nat
  width : Nat
  pro : Nat
  full : Nat
  prio : Nat
  lsz : Nat
  obz : Nat
  csz : Nat
  wbar : Nat
  cbar : Nat
  pgs : Nat
  fgs : Nat
  e1 : Nat
  ext : List Nat
  lim : List Nat
  fields : List Nat
  roles : List Nat
  wins : List (Nat × Nat)
  graph : Nat
  stage : Nat
  side : Nat
  inEdge : Nat
  outs : List Nat
  deriving DecidableEq, Repr, Inhabited

/-- What a group was built from (R76). Edges are named by context and descriptor address, handler reads by operation. -/
inductive Source where
  | launched
  | record (edge : Nat)
  | task (edge : Nat)
  | handler (op : Nat)
  | split
  deriving DecidableEq, Repr, Inhabited

/-- Who counts a thread before it is complete (R192, R329). -/
inductive Owner where
  | grid (id : Nat)
  | stage (edge : Nat)
  | handler (op : Nat)
  deriving DecidableEq, Repr, Inhabited

/-- What a thread keeps where the threads of a group of the former differ in it (R75, R77, R99, R109, R181, R192): who counts it, its workgroup, the
launch whose windows and outputs it reads, the widths of its work identifier, the role of the group it left. -/
structure Home where
  owner : Owner
  wg : Nat
  prog : Program
  fields : List Nat
  role : Nat
  deriving DecidableEq, Repr, Inhabited

/-- What a group is, fixed at its birth or resume (R42, R65 to R68, R99). -/
structure GInfo where
  vdev : Nat
  core : Nat
  slot : Nat
  age : Nat
  width : Nat
  born : Mask
  wg : Nat
  f1 : Nat
  source : Source
  parent : Nat
  prog : Program
  fields : List Nat
  prio : Nat
  owner : Owner
  role : Nat
  gang : Option Nat
  gangSize : Nat
  frame : Nat
  gen : Nat
  deriving DecidableEq, Repr, Inhabited

/-- A group's registers (03, R305). Vector registers and their marks are keyed lane * 128 + register, latches lane * 4 + latch;
`recs` gives the sequence number of each lane that is a record thread, `home` what each lane keeps where the threads of a group
of the former differ in it (R75, R77). -/
structure GRegs where
  v : AMap Word
  g : AMap Word
  vmark : AMap Mark
  gmark : AMap Mark
  latch : AMap Word
  wid : AMap DWord
  recs : AMap Nat
  home : AMap Home
  stack : AMap (List Nat)
  laneWin : AMap (Nat × Nat)
  fstat : BitVec 5
  readcount : BitVec 8
  seedkey : DWord
  rsr : Word
  errst : Word
  progress : Word
  deriving DecidableEq, Repr, Inhabited

/-- A group's control state (04, 05, 18). `packed` lists the groups packed with it at its chain's first instruction (R68, R71), `stray` the
requests that a save overtook and that still await their answer, with their tags (R315); `stored` the lanes of its last ST that have been performed,
with the physical address each stored to (R178); the group was ready without a break since `readyCc` (R67). -/
structure GCtl where
  paths : List PathEntry
  nextStamp : Nat
  joins : AMap JoinRec
  chain : Option Chain
  alloc : Nat
  lsBase : Nat
  lsLen : Nat
  lsQuota : Nat
  obQuota : Nat
  obUsed : Nat
  sb : AMap Pend
  reqs : AMap Req
  fatal : AMap FMark
  tag : Nat
  wait : Wait
  readyCc : Nat
  slots : List (Nat × Nat × Nat)
  packed : List Nat
  stray : AMap Nat
  stored : List (Nat × Nat)
  deriving DecidableEq, Repr, Inhabited

/-- A resident group. -/
structure Group where
  info : GInfo
  r : GRegs
  c : GCtl
  deriving DecidableEq, Repr, Inhabited

/-! ## Workgroups, gangs, grids, stages, edges (01, 02, 05, 16, 21) -/

/-- A barrier object (R296); `dflt` says that the open phase took the default count (R298). -/
structure Barrier where
  exp : Nat
  arr : Nat
  ph : Nat
  brk : Bool
  dflt : Bool
  deriving DecidableEq, Repr, Inhabited

/-- A workgroup: where its LS window and OB region lie (units of 256 bytes for the OB), its barrier objects (AMap by number), the
transfer boxes of its groups by f1 (registers, LS, OB: R100), the matrix token's holder (none: free), and whether the former built it
(R38, R78, R103, R329). -/
structure Wg where
  vdev : Nat
  core : Nat
  owner : Owner
  prog : Program
  gang : Option Nat
  rank : Nat
  coords : List Nat
  lsBase : Nat
  lsLen : Nat
  obBase : Nat
  obLen : Nat
  former : Bool
  bars : AMap Barrier
  boxes : AMap (List Nat)
  token : Option Nat
  tokenWait : List Nat
  killed : Bool
  deriving DecidableEq, Repr, Inhabited

/-- A gang: cluster, first scratch unit of 4 KiB (an offset in the cluster's scratch banks) and count, barrier objects, live workgroups. -/
structure Gang where
  vdev : Nat
  cluster : Nat
  units : List Nat
  cbar : Nat
  size : Nat
  bars : AMap Barrier
  deriving DecidableEq, Repr, Inhabited

/-- A grid: next unplaced workgroup in linear order, for R40 the cc at which its wait for a gang began, and the walk that launched it (0:
a LAUNCH instruction). -/
structure Grid where
  vdev : Nat
  fe : Nat
  prog : Program
  next : Nat
  waitFrom : Option Nat
  blocked : Bool
  walk : Nat
  deriving DecidableEq, Repr, Inhabited

/-- The cut-independent state the hardware keeps of an edge (01, 09, 13): the descriptor's fields as checked at admission, the frame
of each reserved sequence, published, delivered, finished and voided sequences, keys alive, the core that last held each key (`keyCore`,
R41), the batch handed over, the graph that first brought the edge (`born`), and whether the consuming stage runs on this part, as the last
admission that read the graph decided (`runs`, R257), and while a cut move sends its records a second time the next sequence to send (`second`,
R278). -/
structure Edge where
  vdev : Nat
  desc : Nat
  pa : Nat
  graph : Nat
  base : Nat
  capl : Nat
  rs : Nat
  ord : Nat
  loc : Bool
  rmt : Bool
  late : Nat
  nf : Nat
  consumer : Nat
  nprod : Nat
  producers : List Nat
  role : Nat
  runs : Bool
  opened : Bool
  fe : Nat
  walk : Nat
  prodDone : List Nat
  frames : AMap Nat
  ready : List Nat
  given : List Nat
  alive : AMap Nat
  keyCore : AMap Nat
  finished : List Nat
  voided : List Nat
  rr : Nat
  batch : Option Nat
  undef : Bool
  born : Nat
  parkedAt : List Nat
  second : Option Nat
  deriving DecidableEq, Repr, Inhabited

/-- A field descriptor of a remote edge (R261): TYPE, POL, DLT, WB, RFR, STEP, DEFAULT. -/
structure FieldDesc where
  type_ : Nat
  pol : Nat
  dlt : Bool
  wb : Nat
  rfr : Nat
  step : Word
  dflt : Word
  deriving DecidableEq, Repr, Inhabited

/-- A record as it came over the wire (R265): key, ABS, RDIST, the raw bits of each field, its frame and the datagram's CG. -/
structure WireRec where
  key : Nat
  abs : Nat
  rdist : Nat
  raws : List Nat
  frame : Nat
  cg : Nat
  deriving DecidableEq, Repr, Inhabited

/-- The decision for a settled wire sequence (R270). -/
inductive Decision where
  | received (r : WireRec)
  | void
  | subst (key frame : Nat)
  deriving DecidableEq, Repr, Inhabited

/-- A remote edge's codec state (13): what its descriptor fixes, the sender's side, the receiver's side, counters 0 to 13 of R283. -/
structure Remote where
  codec : Nat
  peer : Nat
  eid : Nat
  lb : Nat
  pw : Nat
  rwl : Nat
  kcl : Nat
  kht : Nat
  fields : List FieldDesc
  admFrame : Nat
  admAt : Nat
  dseq : Nat
  next : Nat
  packFrom : Nat
  packFrame : Nat
  packAt : Nat
  pack : List (List Byte)
  sentSince : Bool
  members : List (List Byte)
  sentKeys : AMap (Nat × Nat)
  sentVoids : List Nat
  closeSent : Bool
  np : Nat
  known : AMap Nat
  keys : AMap Nat
  decided : AMap Decision
  top : Option (Nat × Nat)
  fin : Option (Nat × Nat)
  seen : List Nat
  rx : AMap (List Byte)
  par : AMap (List Byte)
  lastKey : AMap Nat
  late : List (Nat × WireRec)
  closed : Bool
  cnt : AMap Nat
  deriving DecidableEq, Repr, Inhabited

/-- A checked graph of a context (R7, R35): its stage entries. -/
structure Graph where
  stages : List Program
  deriving DecidableEq, Repr, Inhabited

/-! ## Engines (10, 11, 12) -/

/-- Where an engine operation stands. -/
inductive OpSt where
  | queued | running | parked (token : Nat) | waitTag | done
  deriving DecidableEq, Repr, Inhabited

/-- A COPY, HREAD, GRID or MTILE operation (10, 11): its instruction, block, issuer, progress and status. `unit_` counts units done: bytes
for COPY LIN, TILE and GATH, blocks for CB, rows for GRID, requested bursts for HREAD. `lim` is what the issuer may name (LS window base,
its length, most LS bytes; OB region base, its length, most OB bytes), `resvs` the reservation slots it names with their words in `recs`,
`cfg` and `tab` what it read at its start; `rc` is its issuer's READCOUNT (R159), `gang` the gang whose cluster scratch it may name (R155); `bursts` lists an HREAD's bursts not yet read, `parkedBursts` the tokens of the parked ones. -/
structure EngOp where
  instr : Instr
  pc : Nat
  block : List Word
  group : Nat
  wg : Nat
  vdev : Nat
  core : Nat
  slot : Nat
  prio : Nat
  owner : Owner
  prog : Program
  gen : Nat
  st : OpSt
  unit_ : Nat
  units : Nat
  lim : List Nat
  resvs : List Nat
  recs : List (List Word)
  cfg : List Nat
  tab : List Nat
  status : Nat
  flags : BitVec 5
  bursts : List Nat
  parkedBursts : AMap Nat
  abort : Bool
  stampPending : Bool
  rc : Nat
  gang : Option Nat
  deriving DecidableEq, Repr, Inhabited

/-- A reservation slot in use (R225): words 0 to 4 of the record, workgroup, owner's group and f1, and whether its release has issued. -/
structure Resv where
  words : List Word
  wg : Nat
  owner : Nat
  f1 : Nat
  released : Bool
  deriving DecidableEq, Repr, Inhabited

/-- A fragment held in a slot's B latch (R232). -/
structure BLatch where
  group : Nat
  gval : Word
  fmt : MFmt
  words : List Word
  frag : List Byte
  scales : List Byte
  units : List Nat
  deriving DecidableEq, Repr, Inhabited

/-- An MMAR in the engine (R233): group, request, the reservation slot it reads, next quarter, the fragment once read, whether that may still be
latched (R232), and the cc and issue slot of its issue. -/
structure Mmar where
  group : Nat
  req : Nat
  slot : Nat
  quarter : Nat
  frag : Option BLatch
  keep : Bool
  cc : Nat
  gslot : Nat
  deriving DecidableEq, Repr, Inhabited

/-- A STEP that Lyre runs (R252, R253): where its header stands and the generations it asks for; header and table as read at its start, whether
the header and which units of the table were poisoned; GEN, the generations done, the phase, the next row (none: the pass is still to be filled),
what the row above held when the pass began, and whether poison was read. -/
structure StepRun where
  base : Nat
  off : Nat
  n : Nat
  hdr : List Byte
  hbad : Bool
  table : List Byte
  tbad : List Nat
  gen : Nat
  gdone : Nat
  ph : Nat
  row : Option Nat
  save : List (Nat × Bool)
  bad : Bool
  deriving DecidableEq, Repr, Inhabited

/-- A RULE that Lyre runs or that waits for it (R243): group, block, mode 0 to 3, whether Lyre has taken it, units done, the token it is
parked under (0: none), whether poison was met, the STEP it runs, and whether a save left it part-way (R253, R328). -/
structure RuleRun where
  group : Nat
  req : Nat
  pc : Nat
  mode : Nat
  p : Nat
  t : Nat
  block : List Word
  started : Bool
  unit_ : Nat
  token : Nat
  bad : Bool
  step : Option StepRun
  part : Bool
  deriving DecidableEq, Repr, Inhabited

/-! ## The former (04) -/

/-- A former entry (R76): what it was built from, the program it will run, its payload and the moment it arrived. -/
structure FEntry where
  source : Source
  vdev : Nat
  pc : Nat
  alloc : Nat
  width : Nat
  g : List Word
  prio : Nat
  owner : Owner
  prog : Program
  fields : List Nat
  wg : Nat
  parent : Nat
  role : Nat
  f1 : Nat
  frame : Nat
  wid : DWord
  seq : Option Nat
  key : Nat
  regs : AMap Word
  marks : AMap Mark
  gmarks : AMap Mark
  stack : List Nat
  win : Nat × Nat
  at_ : Nat
  order : Nat
  batch : Nat
  bytes : Nat
  overflow : Bool
  gen : Nat
  due : Bool
  slots : List (Nat × Nat)
  pkts : AMap Req
  fatal : Option FMark
  deriving DecidableEq, Repr, Inhabited

/-! ## Cores, clusters, dies (08, 11, 12) -/

/-- A 128-byte sector held in an L1 (R158): its bytes (byte i in bits 8i+7 to 8i), which are valid, which are dirty, and its poison. -/
structure L1Sector where
  data : BitVec 1024
  valid : BitVec 128
  dirty : BitVec 128
  poison : Bool
  deriving DecidableEq, Repr, Inhabited

/-- A sector held in a sampler cache (R166): never dirty. -/
structure SmpSector where
  data : BitVec 1024
  poison : Bool
  deriving DecidableEq, Repr, Inhabited

/-- A combined translation (R174): pages in bytes, permissions R = 1, W = 2, X = 4, memory type 0 normal, 1 NC, 2 IO; the pages of the
two stages it was built from are kept for R311. -/
structure Tlb where
  asid : Nat
  vmid : Nat
  glob : Bool
  va : Nat
  size : Nat
  gpa : Nat
  pa : Nat
  perms : Nat
  mtype : Nat
  s1 : Nat
  s2 : Nat
  deriving DecidableEq, Repr, Inhabited

/-- A core (08, 10, 11, 12). `l1Order` and `smpOrder` list the lines its caches used, most recent first (R158, R159, R166). `tagLsu` marks the
set tags whose completion released LSU as well (R323); `oldestBlocked` is the starved bin that younger ones wait for, `blockedSince` the oldest ready
bin that cannot be admitted, with the cc since which it waits (R77). -/
structure Core where
  l1 : AMap L1Sector
  l1Order : List Nat
  smp : AMap SmpSector
  smpOrder : List Nat
  tlb : List Tlb
  ls : AMap Byte
  lsPoison : List Nat
  lsOwner : AMap Nat
  ob : AMap Byte
  obTag : AMap Nat
  obPoison : List Nat
  resv : AMap Resv
  resvGen : AMap Nat
  tags : DWord
  tagLsu : DWord
  blatch : AMap BLatch
  mmars : List Mmar
  rules : List RuleRun
  entries : List FEntry
  oldestBlocked : Option Nat
  blockedSince : Option (Nat × Nat)
  deriving DecidableEq, Repr, Inhabited

/-- A request to change a bank (R164): bank, mode, where the answer goes (a group's register, or BANKSTAT), and its stage
(0 queued, 1 draining, 2 zeroing, 3 zeroing and answered); `since` is the cc at which zeroing began. -/
structure BankReq where
  bank : Nat
  mode : Nat
  group : Option (Nat × Nat)
  stage : Nat
  since : Nat
  deriving DecidableEq, Repr, Inhabited

/-- A line of a cluster cache or of the last-level cache (R26, R158, R160): the bank or slice that holds it, which of its two sectors are valid
and which dirty, and the read count if one is attached. What it holds is the memory below, with which these caches are coherent (R289). -/
structure CcLine where
  bank : Nat
  valid : BitVec 2
  dirty : BitVec 2
  count : Option Nat
  deriving DecidableEq, Repr, Inhabited

/-- A cluster (08, 02): bank modes by bank (unlisted: CACHE), SRAM bytes, its poisoned 128-byte sectors, the context that last held each 4 KiB
unit, energy in pJ, and the allowance given for the current epoch (R46). -/
structure Cluster where
  bankMode : AMap Nat
  bankReqs : List BankReq
  bankBusy : Bool
  bankStatus : Nat
  sram : AMap Byte
  sramPoison : List Nat
  sramOwner : AMap Nat
  lines : AMap CcLine
  tlb : List Tlb
  energy : Int
  given : Nat
  deriving DecidableEq, Repr, Inhabited

/-- A die (R47, R167): heat index, the conditions entered at 190, 200 and 210, soft errors. Dies 0 to 3 compute; 4 is the system die. -/
structure Die where
  heat : Nat
  c190 : Bool
  c200 : Bool
  c210 : Bool
  softErrors : Nat
  deriving DecidableEq, Repr, Inhabited

/-! ## Front ends (02) -/

/-- A launch that waits for admission (R35): issuer, and what it names. A LAUNCH instruction waits as a request of its group. -/
structure LaunchReq where
  vdev : Nat
  walk : Bool
  group : Nat
  req : Nat
  graph : Nat
  hdr : Nat
  stage : Nat
  bad : Bool
  deriving DecidableEq, Repr, Inhabited

/-- States of a graph walker (R24). -/
inductive GwSt where
  | idle | walk | wait | halt
  deriving DecidableEq, Repr, Inhabited

/-- A front end with its walker (R24 to R35); `walks` numbers its walks, `stampBad` says that the poison met at its start stamp has been
logged (R347). -/
structure FrontEnd where
  base : Nat
  limit : Nat
  en : Bool
  color : DWord
  watch : DWord
  graph : DWord
  cwb : DWord
  power : Option Nat
  st : GwSt
  node : Nat
  err : Nat
  collapsed : Nat
  vdevV : Bool
  vdev : Nat
  nodes : AMap (List Word)
  accepted : Nat
  walks : Nat
  pending : Option DWord
  counts : AMap Nat
  deadline : Option Nat
  fenced : Bool
  parked : Nat
  queue : List LaunchReq
  endWait : Bool
  launchWait : Bool
  stampBad : Bool
  deriving DecidableEq, Repr, Inhabited

/-! ## Virtual devices and contexts (18) -/

/-- States of a virtual device (R318). -/
inductive DevSt where
  | free | live | saving | saved | restoring | resetting
  deriving DecidableEq, Repr, Inhabited

/-- What a token answers for (R304, R310, R198, R80): packets of a page whose walks on one die
merged, those in flight before `before` (R174), a stopped group, an engine unit, a ring slot, a launch or
walker read, a RULE or EDGE unit, a spawn fault. -/
inductive TokKind where
  | packets (page die before : Nat)
  | trap (group : Nat)
  | unit_ (op : Nat)
  | bursts (op : Nat) (page : Nat)
  | slot (edge : Nat) (seq : Nat)
  | walker (fe : Nat)
  | wait (group : Nat)
  | stamp (op : Nat)
  | spawn
  deriving DecidableEq, Repr, Inhabited

/-- A token of a device (R305, R310). `note` is for a stopped group the stamp of the path that stopped (R304), for a slot the core whose former read
it (R334, R348). -/
structure Token where
  kind : TokKind
  gen : Nat
  note : Nat
  deriving DecidableEq, Repr, Inhabited

/-- An event record's words, held for want of room (R321). -/
structure Event where
  words : List Word
  gen : Nat
  deriving DecidableEq, Repr, Inhabited

/-- A cut move of a context (R277 to R279): state blocks by frame * 2^16 + stage; `mine` and `theirs` are the two MOVE
messages (Fs and size), `early` one for the move after, `added` the edges that the context had not had before it. -/
structure Move where
  state : Nat
  fs : Nat
  cut : List Nat
  graph : Nat
  oldGraph : Nat
  codec : Nat
  peer : Nat
  losing : Bool
  mine : Option (Nat × Nat)
  theirs : Option (Nat × Nat)
  early : Option (Nat × Nat)
  blocks : AMap (AMap Byte)
  blockLen : AMap Nat
  taken : Option Nat
  learned : Option Nat
  stopped : Option Nat
  stopAcked : Bool
  oldCg : Nat
  added : List Nat
  deriving DecidableEq, Repr, Inhabited

/-- What a save holds of a context (R314 to R316): cores and clusters are offsets from BASE. (DESIGN CHOICE, log 48) -/
structure Saved where
  groups : AMap Group
  wgs : AMap Wg
  gangs : AMap Gang
  ops : AMap EngOp
  cores : AMap Core
  sram : AMap Cluster
  queue : List LaunchReq
  grids : AMap Grid
  maxOffset : Nat
  walker : Option FrontEnd
  deriving DecidableEq, Repr, Inhabited

/-- A virtual-device control entry with its context (R317, R5, R6): `maxcl` holds MAXCL - 1, `image` what the hardware-owned areas of the
region held when the context was created (R319), `remoteUndef` that VSIDE changed while it was in use, which leaves its remote edges undefined
until RESET (R257), `cut` the current graph descriptor: the one that the last admission read or that a move switched to (R277). -/
structure VDev where
  crb : DWord
  maxcl : Nat
  crsz : Nat
  hgatp : DWord
  gen : Nat
  st : DevSt
  status : Nat
  ien : Bool
  vector : Nat
  window : Nat
  vside : Nat
  frame : Nat
  cutgen : Nat
  frameAt : AMap Nat
  graphs : AMap Graph
  tokens : AMap Token
  heldEvents : List Event
  pendFresp : List (Nat × Nat)
  move : Option Move
  saved : Option Saved
  image : AMap Byte
  spawnUsed : Nat
  remoteUndef : Bool
  cut : Nat
  deriving DecidableEq, Repr, Inhabited

/-! ## Koto (13) -/

/-- The reliable lane of a session (R268): next RSEQ, unacknowledged messages with resend time and interval, next expected, messages out of order. -/
structure Session where
  next : Nat
  unacked : List (Nat × List Byte × Nat × Nat)
  expect : Nat
  store : AMap (List Byte)
  deriving DecidableEq, Repr, Inhabited

/-- A codec (R259, R260): peer table bytes, sessions by peer entry, port counters, the frames handed to each far port. -/
structure Codec where
  peers : AMap Byte
  sessions : AMap Session
  malformed : Nat
  dropped : Nat
  wire : List (Nat × List Byte)
  deriving DecidableEq, Repr, Inhabited

/-! ## The system die (18, 22) -/

/-- An invalidation that is not yet acknowledged (R311, R312). -/
structure Inval where
  kind : Nat
  asid : Nat
  vmid : Nat
  addr : Nat
  deriving DecidableEq, Repr, Inhabited

/-- An Ivmar port (R341): 0 down, 1 training, 2 up; retries of the current flit; flit counters. -/
structure Port where
  st : Nat
  retries : Nat
  sent : Nat
  received : Nat
  deriving DecidableEq, Repr, Inhabited

/-- A request that has left the part (R340, R342): the port it took (16 + p: root port p), whether it is an atomic, its address and data. -/
structure OutReq where
  port : Nat
  atomic : Bool
  pa : Nat
  bytes : List Byte
  deriving DecidableEq, Repr, Inhabited

/-- The management controller, boot and root of trust (R343 to R346), invalidation block, vectors and the domain; `rails` holds the power of the
module (0) and of its rails as the MC reads them (R345), `answers` lists what the application cores' reads of physical addresses returned (R338),
`cycBase` is the cc at which the compute dies last left reset (R336). -/
structure Sys where
  powered : Bool
  mcUp : Bool
  hartsReleased : Bool
  refusal : Nat
  cap : Option Nat
  rails : AMap Nat
  flash : AMap Byte
  fusedSvn : Nat
  serial : Nat
  meas : AMap (List Byte)
  quotes : List (List Byte)
  log : List (Nat × Nat)
  invaddr : DWord
  invdone : Nat
  invals : List Inval
  routes : AMap Word
  vecPending : List Nat
  msis : List (Nat × Nat)
  partno : Nat
  den : Bool
  portRoutes : AMap Nat
  ports : AMap Port
  outbox : List OutReq
  replies : List (List Byte)
  answers : List (Nat × List Byte)
  cycBase : Nat
  deriving DecidableEq, Repr, Inhabited

/-! ## The machine -/

/-- Who acts next (DESIGN CHOICE, log 3): a group issues; groups issue packed in one cc (R68); a core sends the next line request of a group
(R177); another agent takes a step; time passes; an application core stores to or reads physical memory; a check code corrects an error on a die
(R167); the power of the module or of a rail is measured (R345); a cache or TLB gives up what it holds: a sector of a core's L1 (0), of its sampler cache (1), a page of its TLB (2), a line of a cluster's
cache (3), a page of a cluster's TLB (4), a line of the last-level cache (5) (DESIGN CHOICE, log 9). -/
inductive Act where
  | issue (group : Nat)
  | packed (groups : List Nat)
  | line (group req : Nat)
  | event (i : Instr)
  | advance (cc : Nat)
  | hostStore (pa : Nat) (bytes : List Byte)
  | hostLoad (pa n : Nat)
  | corrected (die : Nat)
  | measured (rail power : Nat)
  | evict (core what sector : Nat)
  deriving DecidableEq, Repr, Inhabited

/-- The whole machine. `agenda`, `cur`, `tick` and `nextId` are the model's own (DESIGN CHOICE, log 3, log 6); the rest is the manual's. `breaking`
lists the workgroups, with their gangs, whose barrier objects a kill of this cc breaks once the arrivals of the cc are in (R333). `otherClass` lists
the 4-byte units of local memory whose last write went through another class than LSU (R291, R295), `llc` the lines of the last-level cache
(R26, R158). -/
structure State where
  now : Nat
  epoch : Nat
  tick : Nat
  nextId : Nat
  nextTok : Nat
  agenda : List Act
  cur : Option Nat
  breaking : List (Nat × Option Nat)
  mem : List Host.Cell
  memPoison : List Nat
  otherClass : List Nat
  llc : AMap CcLine
  cores : AMap Core
  clusters : AMap Cluster
  dies : AMap Die
  fes : AMap FrontEnd
  groups : AMap Group
  wgs : AMap Wg
  gangs : AMap Gang
  grids : AMap Grid
  edges : AMap Edge
  remotes : AMap Remote
  ops : AMap EngOp
  vdevs : AMap VDev
  codecs : AMap Codec
  sys : Sys
  deriving DecidableEq, Repr, Inhabited

/-! ## Reset -/

/-- A core after reset: empty caches and engines, storage at the values that the log names (DESIGN CHOICE, log 1, log 2). -/
def Core.initial : Core where
  l1 := []
  l1Order := []
  smp := []
  smpOrder := []
  tlb := []
  ls := []
  lsPoison := []
  lsOwner := []
  ob := []
  obTag := []
  obPoison := []
  resv := []
  resvGen := []
  tags := 0
  tagLsu := 0
  blatch := []
  mmars := []
  rules := []
  entries := []
  oldestBlocked := none
  blockedSince := none

/-- A cluster after reset: every bank CACHE (R163). -/
def Cluster.initial : Cluster where
  bankMode := []
  bankReqs := []
  bankBusy := false
  bankStatus := 0
  sram := []
  sramPoison := []
  sramOwner := []
  lines := []
  tlb := []
  energy := 0
  given := 0

/-- A compute die after reset. -/
def Die.initial : Die where
  heat := 0
  c190 := false
  c200 := false
  c210 := false
  softErrors := 0

/-- A front end after reset: FEWATCH is 0 and the walker watches no address (R28); FEPOWER at its default (R44). -/
def FrontEnd.initial : FrontEnd where
  base := 0
  limit := 0
  en := false
  color := 0
  watch := 0
  graph := 0
  cwb := 0
  power := none
  st := .idle
  node := 0
  err := 0
  collapsed := 0
  vdevV := false
  vdev := 0
  nodes := []
  accepted := 0
  walks := 0
  pending := none
  counts := []
  deadline := none
  fenced := false
  parked := 0
  queue := []
  endWait := false
  launchWait := false
  stampBad := false

/-- A virtual device after reset: VSIDE is 0 (R257, R317); the form window is its default of 64 cc (R77). -/
def VDev.initial : VDev where
  crb := 0
  maxcl := 0
  crsz := 0
  hgatp := 0
  gen := 0
  st := .free
  status := 0
  ien := false
  vector := 0
  window := 64
  vside := 0
  frame := 0
  cutgen := 0
  frameAt := []
  graphs := []
  tokens := []
  heldEvents := []
  pendFresp := []
  move := none
  saved := none
  image := []
  spawnUsed := 0
  remoteUndef := false
  cut := 0

/-- A codec after reset. -/
def Codec.initial : Codec where
  peers := []
  sessions := []
  malformed := 0
  dropped := 0
  wire := []

/-- The system die after a passed boot (DESIGN CHOICE, log 10): INVDONE counts since reset (R311). -/
def Sys.initial : Sys where
  powered := true
  mcUp := true
  hartsReleased := true
  refusal := 0
  cap := none
  rails := []
  flash := []
  fusedSvn := 0
  serial := 0
  meas := []
  quotes := []
  log := []
  invaddr := 0
  invdone := 0
  invals := []
  routes := []
  vecPending := []
  msis := []
  partno := 0
  den := false
  portRoutes := []
  ports := []
  outbox := []
  replies := []
  answers := []
  cycBase := 0

/-- The machine right after reset: nothing runs, the cc counters start together (R336), maps list nothing, so that each core,
cluster, die, front end, virtual device and codec stands at its `initial` value (DESIGN CHOICE, log 1, log 2, log 10). -/
def State.reset : State where
  now := 0
  epoch := 0
  tick := 0
  nextId := 1
  nextTok := 1
  agenda := []
  cur := none
  breaking := []
  mem := []
  memPoison := []
  otherClass := []
  llc := []
  cores := []
  clusters := []
  dies := []
  fes := []
  groups := []
  wgs := []
  gangs := []
  grids := []
  edges := []
  remotes := []
  ops := []
  vdevs := []
  codecs := []
  sys := Sys.initial

end Sys2Proof.Machine
end

