-- ==== Sys2Proof/Machine/Access.lean ====
section
/-! DEFINITION. Reading and writing the parts of the state: one accessor for each kind of object, physical memory with its poison
(R158, R169, R170, R175, R337), the lines of the coherent caches (R26, R158 to R160), the L1s and sampler caches (R158, R159, R166, R289), local
store, operand buffer and cluster SRAM. -/
namespace Sys2Proof.Machine

/-! ## Objects -/

def State.core (s : State) (c : Nat) : Core := mget Core.initial s.cores c
def State.setCore (s : State) (c : Nat) (v : Core) : State := { s with cores := mset s.cores c v }
def State.updCore (s : State) (c : Nat) (f : Core → Core) : State := s.setCore c (f (s.core c))

def State.cluster (s : State) (c : Nat) : Cluster := mget Cluster.initial s.clusters c
def State.setCluster (s : State) (c : Nat) (v : Cluster) : State := { s with clusters := mset s.clusters c v }
def State.updCluster (s : State) (c : Nat) (f : Cluster → Cluster) : State := s.setCluster c (f (s.cluster c))

def State.die (s : State) (d : Nat) : Die := mget Die.initial s.dies d
def State.setDie (s : State) (d : Nat) (v : Die) : State := { s with dies := mset s.dies d v }

def State.fe (s : State) (f : Nat) : FrontEnd := mget FrontEnd.initial s.fes f
def State.setFe (s : State) (f : Nat) (v : FrontEnd) : State := { s with fes := mset s.fes f v }
def State.updFe (s : State) (f : Nat) (g : FrontEnd → FrontEnd) : State := s.setFe f (g (s.fe f))

def State.vdev (s : State) (v : Nat) : VDev := mget VDev.initial s.vdevs v
def State.setVdev (s : State) (v : Nat) (d : VDev) : State := { s with vdevs := mset s.vdevs v d }
def State.updVdev (s : State) (v : Nat) (f : VDev → VDev) : State := s.setVdev v (f (s.vdev v))

def State.codec (s : State) (c : Nat) : Codec := mget Codec.initial s.codecs c
def State.setCodec (s : State) (c : Nat) (v : Codec) : State := { s with codecs := mset s.codecs c v }
def State.updCodec (s : State) (c : Nat) (f : Codec → Codec) : State := s.setCodec c (f (s.codec c))

def State.group? (s : State) (g : Nat) : Option Group := find? s.groups g
def State.setGroup (s : State) (g : Nat) (v : Group) : State := { s with groups := mset s.groups g v }
def State.updGroup (s : State) (g : Nat) (f : Group → Group) : State := { s with groups := mupd s.groups g f }

def State.wg? (s : State) (w : Nat) : Option Wg := find? s.wgs w
def State.updWg (s : State) (w : Nat) (f : Wg → Wg) : State := { s with wgs := mupd s.wgs w f }
def State.updGang (s : State) (g : Nat) (f : Gang → Gang) : State := { s with gangs := mupd s.gangs g f }
def State.updGrid (s : State) (g : Nat) (f : Grid → Grid) : State := { s with grids := mupd s.grids g f }
def State.updEdge (s : State) (e : Nat) (f : Edge → Edge) : State := { s with edges := mupd s.edges e f }
def State.updRemote (s : State) (e : Nat) (f : Remote → Remote) : State := { s with remotes := mupd s.remotes e f }
def State.updOp (s : State) (o : Nat) (f : EngOp → EngOp) : State := { s with ops := mupd s.ops o f }

def Group.updC (g : Group) (f : GCtl → GCtl) : Group := { g with c := f g.c }
def Group.updR (g : Group) (f : GRegs → GRegs) : Group := { g with r := f g.r }

/-- Whether a write of the application cores reaches the control space: in hypervisor mode, out of reset (R24, R343). -/
def State.host (s : State) (hyp : Bool) : Bool := hyp && s.sys.hartsReleased

/-- A fresh identifier of the model (DESIGN CHOICE, log 6). -/
def State.fresh (s : State) : State × Nat := ({ s with nextId := s.nextId + 1 }, s.nextId)

/-- The cluster a core lies in (R336). -/
def clusterOf (core : Nat) : Nat := core / 4
/-- The compute die a cluster lies on (R336). -/
def dieOf (cluster : Nat) : Nat := cluster / 50

/-- PART (R60, R341): PARTNO once the domain is enabled, else 0. -/
def State.part (s : State) : Nat := if s.sys.den then s.sys.partno else 0

/-! ## Sorted sets of numbers -/

/-- A number put into a rising list. -/
def nins (l : List Nat) (n : Nat) : List Nat :=
  match l with
  | [] => [n]
  | a :: r => if n < a then n :: a :: r else if n = a then a :: r else a :: nins r n

/-- A number taken out. -/
def ndel (l : List Nat) (n : Nat) : List Nat := l.filter (fun a => decide (a ≠ n))

/-! ## Physical memory -/

/-- What stands at a physical address (R175, R337). -/
inductive Region where
  | hbm
  | pcie
  | control
  | reserved
  | remote
  deriving DecidableEq, Repr

/-- The ports towards a part whose link is up (R341, R342). -/
def upPorts (s : State) (part : Nat) : List Nat :=
  (List.range 16).filter fun p => decide (mget 0 s.sys.portRoutes part / 2 ^ p % 2 = 1)
    && decide ((mget (⟨0, 0, 0, 0⟩ : Port) s.sys.ports p).st = 2)

/-- The port that a request to another part, or to a window of a root port, takes (R337, R342). -/
def outPort (s : State) (pa : Nat) : Nat :=
  let l := upPorts s (pa / 2 ^ 44 % 4096)
  if pa / 2 ^ 44 % 4096 = s.part then 16 + (pa % 2 ^ 44 - 0xE0000000000) / 2 ^ 37 else l.getD (pa / 256 % 256 % max 1 l.length) 0

/-- The address within a part that a physical address names: bits 43:0 (R175). -/
def loc (pa : Nat) : Nat := pa % 2 ^ 44

/-- Decoding a physical address (R175, R337, R342). -/
def region (s : State) (pa : Nat) : Region :=
  let part := pa / 2 ^ 44 % 4096
  let off := loc pa
  if part = s.part then
    if off < 0xC000000000 then .hbm
    else if 0xE0000000000 ≤ off ∧ off < 0xF0000000000 then .pcie
    else if 0xF0000000000 ≤ off ∧ off < 0xF0010000000 then .control
    else .reserved
  else if s.part = 0 ∨ part = 0 ∨ 3072 < part ∨ upPorts s part = [] then .reserved
  else .remote

/-- Local memory is in its canonical form: addresses rise and no listed byte is 0 (DESIGN CHOICE, log 2). -/
abbrev Memory.wf (m : List Host.Cell) : Prop := Canonical (0 : Byte) m

/-- A byte of local memory by its address within the part; unlisted bytes read 0 (DESIGN CHOICE, log 2). -/
def State.byte (s : State) (a : Nat) : Byte := mget 0 s.mem a

/-- Store a byte in local memory. -/
def State.setByte (s : State) (a : Nat) (b : Byte) : State := { s with mem := dset 0 s.mem a b }

/-- A byte below the L1s: local memory, or a free value where a device or another part answers (DESIGN CHOICE, log 16, log 17). -/
def State.below (s : State) (pa : Nat) : Byte :=
  match region s pa with
  | .pcie => Config.deviceByte s.tick (pa / 16) (pa % 16)
  | .remote => Config.remoteByte s.tick (pa / 16) (pa % 16)
  | _ => s.byte (loc pa)

/-- Bytes from an address up, written one after another. -/
def State.setBytes (s : State) (a : Nat) : List Byte → State
  | [] => s
  | b :: r => (s.setByte a b).setBytes (a + 1) r

/-- A port's counters after a request left it: its flit has passed, so no retry counts any longer (R341; one request is one flit:
DESIGN CHOICE, log 66). -/
def sentOn (ports : AMap Port) (p : Nat) : AMap Port :=
  let k := mget (⟨0, 0, 0, 0⟩ : Port) ports p
  mset ports p { k with retries := 0, sent := k.sent + 1 }

/-- The 256-byte lines that `n` bytes at `a` touch, by their first address in the range. -/
def linesOf (a n : Nat) : List Nat :=
  if n = 0 then [] else (List.range ((a + n - 1) / 256 + 1 - a / 256)).map fun i => max a ((a / 256 + i) * 256)

/-- A request that leaves the part towards a device or another part (R337, R340, R342). -/
def State.sendOut (s : State) (pa : Nat) (atomic : Bool) (bs : List Byte) : State :=
  let p := outPort s pa
  { s with
    tick := s.tick + 1
    sys := { s.sys with outbox := s.sys.outbox ++ [⟨p, atomic, pa, bs⟩], ports := if p < 16 then sentOn s.sys.ports p else s.sys.ports } }

/-- The tick after a read of `pa`: each read that a device or another part answers is answered anew (DESIGN CHOICE, log 16, log 17), and
leaves over the port it takes (R341). -/
def State.asked (s : State) (pa : Nat) : State :=
  match region s pa with
  | .pcie => { s with tick := s.tick + 1 }
  | .remote => { s with tick := s.tick + 1, sys := { s.sys with ports := sentOn s.sys.ports (outPort s pa) } }
  | _ => s

/-- A write that leaves the part, one request for each line it touches, each over the path of its line (R342). -/
def State.sendLines (s : State) (pa : Nat) (bs : List Byte) : State :=
  (linesOf pa bs.length).foldl (fun s a => s.sendOut a false ((bs.drop (a - pa)).take (256 - a % 256))) s

/-- Write below the L1s: local memory, or requests that leave the part (R340, R342). -/
def State.writeBelow (s : State) (pa : Nat) (bs : List Byte) : State :=
  match region s pa with
  | .hbm => s.setBytes (loc pa) bs
  | .pcie | .remote => s.sendLines pa bs
  | _ => s

/-- `n` bytes of local memory from `a` up. -/
def State.bytes (s : State) (a n : Nat) : List Byte := (List.range n).map fun i => s.byte (a + i)

/-- A little-endian number of `n` bytes in local memory (R2). -/
def State.num (s : State) (a n : Nat) : Nat := leNat (s.bytes a n)

/-- Store a little-endian number of `n` bytes in local memory. -/
def State.setNum (s : State) (a n v : Nat) : State := s.setBytes a (leBytes n v)

/-- Whether the sector of a physical address is poisoned (R169): poison of another part's memory is not seen here (DESIGN CHOICE, log 17). -/
def State.poisoned (s : State) (pa : Nat) : Bool := decide (region s pa = .hbm) && s.memPoison.contains (loc pa / 128)

def State.setPoison (s : State) (pa : Nat) : State :=
  { s with memPoison := if region s pa = .hbm then nins s.memPoison (loc pa / 128) else s.memPoison }
def State.clearPoison (s : State) (pa : Nat) : State :=
  { s with memPoison := if region s pa = .hbm then ndel s.memPoison (loc pa / 128) else s.memPoison }

/-- The poisoned 128-byte units after a write of `n` bytes at `a` (R169): poisoned data poisons every unit it touches; a unit written
whole is clean; a unit written in part stays as it was. -/
def poisonAfter (l : List Nat) (a n : Nat) (poison : Bool) : List Nat :=
  (List.range ((a + n + 127) / 128 - a / 128)).foldl (fun l i =>
    let u := a / 128 + i
    if poison then nins l u else if a ≤ u * 128 ∧ (u + 1) * 128 ≤ a + n then ndel l u else l) l

/-- Note the class of a write of `n` bytes at `pa`: LSU, or another (R291, R295). -/
def State.wroteAs (s : State) (lsu : Bool) (pa n : Nat) : State :=
  let a := loc pa
  { s with otherClass :=
      if region s pa = .hbm then
        (List.range ((a + n + 3) / 4 - a / 4)).foldl (fun l i => if lsu then ndel l (a / 4 + i) else nins l (a / 4 + i)) s.otherClass
      else s.otherClass }

/-- A write below the L1s with its poison (R169, R170); it counts as one of LSU unless its writer notes another class. -/
def State.storeBelow (s : State) (pa : Nat) (bs : List Byte) (poison : Bool) : State :=
  let s := (s.writeBelow pa bs).wroteAs true pa bs.length
  { s with memPoison := if region s pa = .hbm then poisonAfter s.memPoison (loc pa) bs.length poison else s.memPoison }

/-! ## Sectors -/

/-- Byte i of a sector's data. -/
def secByte (d : BitVec 1024) (i : Nat) : Byte := (d >>> (8 * i)).setWidth 8

/-- Byte i of a sector's data replaced. -/
def secSet (d : BitVec 1024) (i : Nat) (b : Byte) : BitVec 1024 :=
  (d &&& ~~~((0xFF : BitVec 1024) <<< (8 * i))) ||| ((b.setWidth 1024) <<< (8 * i))

/-- The sector as it stands below the L1s. -/
def State.sectorBelow (s : State) (sec : Nat) : BitVec 1024 :=
  BitVec.ofNat 1024 (leNat ((List.range 128).map fun i => s.below (sec * 128 + i)))

/-- The bytes of `mask`, first to last, as runs (index, byte). -/
def maskedBytes (d : BitVec 1024) (mask : BitVec 128) : List (Nat × Byte) :=
  (List.range 128).filterMap fun i => if mask.getLsbD i then some (i, secByte d i) else none

/-- Write listed bytes of a sector below the L1s. -/
def State.writeSector (s : State) (sec : Nat) : List (Nat × Byte) → State
  | [] => s
  | (i, b) :: r => ((s.writeBelow (sec * 128 + i) [b]).wroteAs true (sec * 128 + i) 1).writeSector sec r

/-- Debit a cluster's allowance (R45). -/
def debit (s : State) (cl : Nat) (pj : Nat) : State := s.updCluster cl fun k => { k with energy := k.energy - pj }

/-- The charge of `n` 128-byte sectors moved (R45; DESIGN CHOICE, log 28). -/
def State.moved (s : State) (cl n : Nat) : State := debit s cl (48 * n)

/-! ## The coherent caches: which lines they hold (R26, R158 to R160, R164, R289) -/

/-- The sector of a line that a physical address lies in, as a bit. -/
def sectorBit (pa : Nat) : BitVec 2 := 1 <<< (pa / 128 % 2)

/-- The place of the `i`-th set bit of a mask of 64. -/
def nthBit (m : DWord) (i : Nat) : Nat := ((List.range 64).filter fun b => m.getLsbD b).getD i 0

/-- The last-level cache slice of a physical address under a colour mask (R26), none for the empty mask. -/
def sliceOf (color : DWord) (pa : Nat) : Option Nat :=
  let h := (pa / 2 ^ 8 % 4096) ^^^ (pa / 2 ^ 20 % 4096) ^^^ (pa / 2 ^ 32 % 4096) ^^^ (pa / 2 ^ 44 % 4096)
  let n := (List.range 64).countP fun b => color.getLsbD b
  if n = 0 then none else some (5 * nthBit color (h % n) + h / n % 5)

/-- The colour mask of the partition a cluster belongs to (R25, R26), 0 for a cluster of none. -/
def State.colorOf (s : State) (cl : Nat) : DWord :=
  match s.fes.find? fun e => e.2.en && decide (e.2.base ≤ cl) && decide (cl ≤ e.2.limit) with
  | some e => e.2.color
  | none => 0

/-- A line of a cache with the sector of `pa` valid, dirty after a write; a write cancels a count (R160). -/
def CcLine.fill (l : CcLine) (pa : Nat) (write : Bool) : CcLine :=
  { l with
    valid := l.valid ||| sectorBit pa
    dirty := if write then l.dirty ||| sectorBit pa else l.dirty
    count := if write then none else l.count }

/-- The last-level cache takes or uses the line of `pa` in the slice that R26 gives (R158); a line that stands in another slice, chosen under
another colour mask, is written back and leaves it; a full slice of 4,096 lines gives one up. (DESIGN CHOICE, log 75) -/
def State.llcUse (s : State) (cl pa : Nat) (write : Bool) : State :=
  match region s pa, sliceOf (s.colorOf cl) pa with
  | .hbm, some sl =>
    let line := pa / 256
    match (find? s.llc line).filter fun l => decide (l.bank = sl) with
    | some l => { s with llc := mset s.llc line (l.fill pa write) }
    | none =>
      let m := merase s.llc line
      let here := m.filter fun e => decide (e.2.bank = sl)
      let m := if here.length < 4096 then m else merase m ((here.getD (Config.freeNat s.tick % here.length) default).1)
      { s with llc := mset m line ((⟨sl, 0, 0, none⟩ : CcLine).fill pa write) }
  | _, _ => s

/-- Lines in slices of colours that a partition gave up are written back and invalidated (R26). -/
def State.dropColors (s : State) (given : DWord) : State :=
  { s with llc := mfilter s.llc fun _ l => !given.getLsbD (l.bank / 5) }

/-- Whether no request is changing a bank now (R164). -/
def Cluster.steady (k : Cluster) (b : Nat) : Bool := k.bankReqs.all fun r => decide (r.bank ≠ b) || decide (r.stage = 0)

/-- The banks that may take a line: in CACHE mode and not draining (R158, R164). -/
def cacheBanks (k : Cluster) : List Nat := (List.range 32).filter fun b => decide (mget 0 k.bankMode b = 0) && k.steady b

/-- The set of a line in each bank (R158): address bits 15:8 xor 23:16. -/
def ccSet (line : Nat) : Nat := (line % 256) ^^^ (line / 256 % 256)

/-- A cluster cache gives a line up; what it held dirty goes to the last-level cache (R158). -/
def State.ccDrop (s : State) (cl line : Nat) : State :=
  match find? (s.cluster cl).lines line with
  | none => s
  | some l =>
    let s := s.updCluster cl fun k => { k with lines := merase k.lines line }
    let s := if l.dirty.getLsbD 0 then (s.moved cl 1).llcUse cl (line * 256) true else s
    if l.dirty.getLsbD 1 then (s.moved cl 1).llcUse cl (line * 256 + 128) true else s

/-- Room for a line in a cluster cache: a bank whose way of the line's set is free, else one whose line gives way. (DESIGN CHOICE, log 33) -/
def State.ccRoom (s : State) (cl line : Nat) : State × Option Nat :=
  let k := s.cluster cl
  let here (b : Nat) : List Nat := (k.lines.filter fun e => decide (e.2.bank = b) && decide (ccSet e.1 = ccSet line)).map (·.1)
  match cacheBanks k with
  | [] => (s, none)
  | b :: bs =>
    match (b :: bs).find? fun c => (here c).isEmpty with
    | some c => (s, some c)
    | none => let c := (b :: bs).getD (Config.freeNat s.tick % (bs.length + 1)) b
      ((here c).foldl (fun s l => s.ccDrop cl l) s, some c)

/-- Put a line into a cluster cache that has room for it. -/
def State.ccAlloc (s : State) (cl pa : Nat) (write : Bool) (count : Option Nat) : State :=
  match s.ccRoom cl (pa / 256) with
  | (s, none) => s
  | (s, some b) => s.updCluster cl fun k => { k with lines := mset k.lines (pa / 256) ((⟨b, 0, 0, count⟩ : CcLine).fill pa write) }

/-- The hint of an access to a page of a memory type: NC and IO pages take every access as hint 3 and allocate nowhere (R159, R173), which
is hint 4. -/
def typeHint (mtype ch : Nat) : Nat := if mtype = 0 then ch else 4

/-- The last-level cache below a request: one with hint 4 uses a line but takes none (R159). -/
def State.llcAsk (s : State) (cl pa ch : Nat) (write : Bool) : State :=
  if ch = 4 && !(find? s.llc (pa / 256)).any fun l => decide (sliceOf (s.colorOf cl) pa = some l.bank) then s else s.llcUse cl pa write

/-- A read request of the line of `pa` at the cluster cache, under hint `ch` with read count `n` (R159, R160); a sector that it takes from the
last-level cache is a move (R45). Lines of another part and of devices are not held (R289). -/
def State.ccRead (s : State) (cl pa ch n : Nat) : State :=
  if region s pa ≠ .hbm then s
  else
    match find? (s.cluster cl).lines (pa / 256) with
    | some l =>
      let s := if l.valid &&& sectorBit pa = 0 then (s.llcUse cl pa false).moved cl 1 else s
      match l.count with
      | none => s.updCluster cl fun k => { k with lines := mset k.lines (pa / 256) (l.fill pa false) }
      | some c => s.updCluster cl fun k =>
        { k with lines := if c ≤ 1 then merase k.lines (pa / 256) else mset k.lines (pa / 256) { l.fill pa false with count := some (c - 1) } }
    | none =>
      let s := s.llcAsk cl pa ch false
      if 3 ≤ ch ∨ (cacheBanks (s.cluster cl)).isEmpty then s
      else
        let t := (s.moved cl 1).ccAlloc cl pa false (if ch = 2 ∧ n ≠ 0 then some (n - 1) else none)
        if ch = 1 ∨ (ch = 2 ∧ n = 1) then t.updCluster cl fun k => { k with lines := merase k.lines (pa / 256) } else t

/-- A further sector of a read request (R158, R160): a line that the cluster cache holds is filled with it. -/
def State.ccFill (s : State) (cl pa ch : Nat) : State :=
  if region s pa ≠ .hbm then s
  else
    match find? (s.cluster cl).lines (pa / 256) with
    | some l =>
      if l.valid &&& sectorBit pa ≠ 0 then s
      else ((s.llcUse cl pa false).moved cl 1).updCluster cl fun k => { k with lines := mset k.lines (pa / 256) (l.fill pa false) }
    | none => s.llcAsk cl pa ch false

/-- The one read request that a line request makes at the cluster cache, whatever number of lanes and sectors it takes (R159, R160): physical
addresses in one line. -/
def State.askLine (s : State) (cl ch rc : Nat) : List Nat → State
  | [] => s
  | pa :: t => t.foldl (fun s p => s.ccFill cl p ch) (s.ccRead cl pa ch rc)

/-- A store, atomic or engine write to the line of `pa` at the cluster cache: it cancels a count and dirties the sector, or allocates
unless the hint is 3; what the cluster cache does not take goes to the last-level cache (R158 to R160). -/
def State.ccWrite (s : State) (cl pa ch : Nat) : State :=
  if region s pa ≠ .hbm then s
  else
    match find? (s.cluster cl).lines (pa / 256) with
    | some l => s.updCluster cl fun k => { k with lines := mset k.lines (pa / 256) (l.fill pa true) }
    | none => if decide (3 ≤ ch) || (cacheBanks (s.cluster cl)).isEmpty then s.llcAsk cl pa ch true else s.ccAlloc cl pa true none

/-- 128-byte sectors that `n` bytes at `a` touch. -/
def sectorsOf (a n : Nat) : Nat := if n = 0 then 0 else (a + n - 1) / 128 + 1 - a / 128

/-- The 128-byte sectors that `n` bytes at `a` touch, by their first address in the range. -/
def sectorAddrs (a n : Nat) : List Nat :=
  if n = 0 then [] else (List.range ((a + n - 1) / 128 + 1 - a / 128)).map fun i => max a ((a / 128 + i) * 128)

/-! ## The L1s (R158, R159, R289) -/

/-- Write an L1 sector's dirty bytes back (R289): poison travels with the data; a whole clean-coded sector clears it (R169). -/
def State.writeBack (s : State) (cl sec : Nat) (l : L1Sector) : State :=
  if l.dirty = 0 then s
  else
    let s := (s.ccWrite cl (sec * 128) 0).writeSector sec (maskedBytes l.data l.dirty)
    if l.poison then s.setPoison (sec * 128) else if l.dirty = BitVec.allOnes 128 then s.clearPoison (sec * 128) else s

/-- Write every dirty sector of a core's L1 back and keep it clean (R289). -/
def State.writeBackAll (s : State) (c : Nat) : State :=
  let l1 := (s.core c).l1
  let s := s.moved (clusterOf c) (l1.countP fun e => decide (e.2.dirty ≠ 0))
  let s := l1.foldl (fun s e => s.writeBack (clusterOf c) e.1 e.2) s
  s.updCore c fun k => { k with l1 := mmapv k.l1 fun _ l => { l with dirty := 0 } }

/-- Invalidate the clean bytes of a core's L1; dirty bytes are kept (R289, R292). -/
def State.dropClean (s : State) (c : Nat) : State :=
  s.updCore c fun k => { k with l1 := mmapv (mfilter k.l1 fun _ l => decide (l.dirty ≠ 0)) fun _ l => { l with valid := l.dirty } }

/-- Invalidate a core's sampler cache (R166). -/
def State.dropSmp (s : State) (c : Nat) : State := s.updCore c fun k => { k with smp := [], smpOrder := [] }

/-- Write one sector of an L1 back and invalidate it there, as an atomic performed below the L1 does (R289). -/
def State.flushSector (s : State) (c sec : Nat) : State :=
  match find? (s.core c).l1 sec with
  | none => s
  | some l => ((s.moved (clusterOf c) (if l.dirty = 0 then 0 else 1)).writeBack (clusterOf c) sec l).updCore c
      fun k => { k with l1 := merase k.l1 sec }

/-- Whether a core's L1 holds a valid sector of a line. -/
def Core.l1Holds (k : Core) (line : Nat) : Bool := (find? k.l1 (2 * line)).isSome || (find? k.l1 (2 * line + 1)).isSome

/-- The lines that must give way before a line enters a cache of 64 sets and `ways` ways, by the order of use `held` (R158). The set is that
of address bits 13:8. (DEDUCED, log 76) -/
def wayVictims (held : List Nat) (line ways : Nat) : List Nat :=
  (held.filter fun l => decide (l ≠ line) && decide (l % 64 = line % 64)).drop (ways - 1)

/-- An order of use after a line is used: the line comes first, or last where it enters at the least-recent position (R159). -/
def useOrder (held : List Nat) (line : Nat) (last : Bool) : List Nat :=
  let rest := held.filter fun l => decide (l ≠ line)
  if last then rest ++ [line] else line :: rest

/-- A core's L1 is about to use or to take the line of a sector: a line not held finds a way, whose least recent line is written back and
leaves; a stream access takes the least-recent position (R158, R159). -/
def State.l1Use (s : State) (c sec : Nat) (stream : Bool) : State :=
  let line := sec / 2
  let k := s.core c
  let held := k.l1Order.filter k.l1Holds
  if k.l1Holds line then s.updCore c fun k => { k with l1Order := useOrder held line false }
  else
    let out := wayVictims held line 8
    let s := out.foldl (fun s l => (s.flushSector c (2 * l)).flushSector c (2 * l + 1)) s
    s.updCore c fun k => { k with l1Order := useOrder (held.filter fun l => !out.contains l) line stream }

/-! ## The LSU path -/

/-- Fill the sector of `pa` into a core's L1: bytes not yet valid come from below (R158). -/
def State.fillL1 (s : State) (c pa : Nat) (stream : Bool) : State :=
  let s := s.l1Use c (pa / 128) stream
  let sec := pa / 128
  let d := s.sectorBelow sec
  let p := s.poisoned pa
  ((s.asked pa).moved (clusterOf c) 1).updCore c fun k =>
    let l := match find? k.l1 sec with
      | none => (⟨d, BitVec.allOnes 128, 0, p⟩ : L1Sector)
      | some l => ⟨BitVec.ofNat 1024 (leNat ((List.range 128).map fun i => if l.valid.getLsbD i then secByte l.data i else secByte d i)),
          BitVec.allOnes 128, l.dirty, l.poison || p⟩
    { k with l1 := mset k.l1 sec l }

/-- The bits `lo` to `lo + n - 1` of a byte mask. -/
def byteMask (lo n : Nat) : BitVec 128 := (BitVec.ofNat 128 (2 ^ n - 1)) <<< lo

/-- Whether `n` bytes at `pa` stand valid in a core's L1. -/
def State.l1Hit (s : State) (c pa n : Nat) : Bool :=
  match find? (s.core c).l1 (pa / 128) with
  | some l => decide (l.valid &&& byteMask (pa % 128) n = byteMask (pa % 128) n)
  | none => false

/-- `n` aligned bytes through the LSU path of core `c`; none when the data is poisoned (R169). `ch` is the hint, `cached` is false on
an NC or IO page (R159). What the line request does at the cluster cache is `ccRead`'s, once for all its lanes (R160), as is the charge of sectors
that pass the L1 by (R45). -/
def State.lsuRead (s : State) (c pa n ch : Nat) (cached : Bool) : State × Option (List Byte) :=
  let sec := pa / 128
  let lo := pa % 128
  let direct (s : State) : State × Option (List Byte) :=
    if s.poisoned pa then (s, none) else (s.asked pa, some ((List.range n).map fun i => s.below (pa + i)))
  let fromL1 (s : State) : State × Option (List Byte) :=
    match find? (s.core c).l1 sec with
    | some l => if l.poison then (s, none) else (s, some ((List.range n).map fun i => secByte l.data (lo + i)))
    | none => direct s
  if !cached then direct s
  else if s.l1Hit c pa n then fromL1 (s.l1Use c sec false)
  else if ch = 3 && (find? (s.core c).l1 sec).isNone then direct s
  else fromL1 (s.fillL1 c pa (decide (ch = 1)))

/-- The L1 sector after a store of bytes at index `lo` (R158, R169): a store that covers part of a poisoned sector leaves it poisoned. -/
def L1Sector.store (l : L1Sector) (lo : Nat) (bs : List Byte) (poison : Bool) : L1Sector :=
  let d := (bs.zipIdx).foldl (fun d e => secSet d (lo + e.2) e.1) l.data
  let m := byteMask lo bs.length
  ⟨d, l.valid ||| m, l.dirty ||| m, poison || (l.poison && decide (m ≠ BitVec.allOnes 128))⟩

/-- Store aligned bytes through the LSU path (R158, R159): into the L1, or below it for an NC or IO page or a hint 3 that misses. -/
def State.lsuWrite (s : State) (c pa ch : Nat) (cached : Bool) (bs : List Byte) (poison : Bool) : State :=
  let sec := pa / 128
  if !cached then (s.ccWrite (clusterOf c) pa 4).storeBelow pa bs poison
  else if ch = 3 && (find? (s.core c).l1 sec).isNone then (s.ccWrite (clusterOf c) pa 3).storeBelow pa bs poison
  else (s.l1Use c sec (decide (ch = 1))).updCore c fun k =>
    { k with l1 := mset k.l1 sec ((mget (⟨0, 0, 0, false⟩ : L1Sector) k.l1 sec).store (pa % 128) bs poison) }

/-- A byte as a core's LSU path finds it: in its L1, or below it (R158). -/
def State.seen (s : State) (c pa : Nat) : Byte :=
  match find? (s.core c).l1 (pa / 128) with
  | some l => if l.valid.getLsbD (pa % 128) then secByte l.data (pa % 128) else s.below pa
  | none => s.below pa

/-! ## The sampler path (R166) -/

/-- Whether a core's sampler cache holds a valid sector of a line. -/
def Core.smpHolds (k : Core) (line : Nat) : Bool := (find? k.smp (2 * line)).isSome || (find? k.smp (2 * line + 1)).isSome

/-- The sampler cache after it used or took a sector's line: 4 ways, the least recently used leaves (R158, R166). -/
def State.smpUse (s : State) (c sec : Nat) (take : Option SmpSector) : State :=
  s.updCore c fun k =>
    let line := sec / 2
    let held := k.smpOrder.filter k.smpHolds
    let out := if k.smpHolds line then [] else wayVictims held line 4
    let m := mfilter k.smp fun i _ => !out.contains (i / 2)
    { k with
      smp := match take with
        | some l => mset m sec l
        | none => m
      smpOrder := useOrder (held.filter fun l => !out.contains l) line false }

/-- `n` aligned bytes through the sampler cache (R166): filled from below, never from an L1, and only with local memory (R289); none when
poisoned. -/
def State.smpRead (s : State) (c pa n ch : Nat) (cached : Bool) : State × Option (List Byte) :=
  let sec := pa / 128
  let direct (s : State) : State × Option (List Byte) :=
    if s.poisoned pa then (s, none) else (s.asked pa, some ((List.range n).map fun i => s.below (pa + i)))
  let give (s : State) (l : SmpSector) : State × Option (List Byte) :=
    if l.poison then (s, none) else (s, some ((List.range n).map fun i => secByte l.data (pa % 128 + i)))
  match cached && decide (region s pa = .hbm), find? (s.core c).smp sec with
  | false, _ => direct s
  | true, some l => give (s.smpUse c sec none) l
  | true, none =>
    if ch = 3 then direct s
    else
      let l : SmpSector := ⟨s.sectorBelow sec, s.poisoned pa⟩
      give ((s.moved (clusterOf c) 1).smpUse c sec (some l)) l

/-! ## Engine accesses: below the L1s (R196) -/

/-- The read requests of an engine for `n` bytes at `pa`, one a line, each with the sectors it takes (R158 to R160). -/
def State.askRange (s : State) (cl pa n ch rc : Nat) : State :=
  (linesOf pa n).foldl (fun s a => (s.askLine cl ch rc ((sectorAddrs pa n).filter fun p => decide (p / 256 = a / 256))).asked a) s

/-- Bytes as an engine of cluster `cl` reads them under hint `ch` with read count `rc`, one request a line (R159, R160), and whether some of
them are poisoned (R169). -/
def State.engRead (s : State) (cl pa n : Nat) (ch : Nat := 0) (rc : Nat := 0) : State × List Byte × Bool :=
  let p := (sectorAddrs pa n).any s.poisoned
  ((s.askRange cl pa n ch rc).moved cl (sectorAddrs pa n).length,
    (List.range n).map fun i => s.below (pa + i), p)

/-- Bytes as an engine writes them: poisoned when derived from poison (R169). -/
def State.engWrite (s : State) (cl pa : Nat) (bs : List Byte) (poison : Bool) (ch : Nat := 0) : State :=
  let s := (sectorAddrs pa bs.length).foldl (fun s a => s.ccWrite cl a ch) s
  ((s.moved cl (sectorAddrs pa bs.length).length).storeBelow pa bs poison).wroteAs false pa bs.length

/-! ## Local store, operand buffer, cluster SRAM -/

def Core.lsByte (k : Core) (a : Nat) : Byte := mget 0 k.ls a
def Core.lsBytes (k : Core) (a n : Nat) : List Byte := (List.range n).map fun i => k.lsByte (a + i)

/-- Whether some 128-byte unit of an LS range is poisoned (R167). -/
def Core.lsBad (k : Core) (a n : Nat) : Bool := (List.range n).any fun i => k.lsPoison.contains ((a + i) / 128)

/-- Write LS bytes. -/
def Core.lsSet (k : Core) (a : Nat) : List Byte → Core
  | [] => k
  | b :: r => ({ k with ls := dset 0 k.ls a b } : Core).lsSet (a + 1) r

/-- Write LS bytes with their poison (R169). -/
def Core.lsStore (k : Core) (a : Nat) (bs : List Byte) (poison : Bool) : Core :=
  let k := k.lsSet a bs
  { k with lsPoison := poisonAfter k.lsPoison a bs.length poison }

def Core.obByte (k : Core) (a : Nat) : Byte := mget 0 k.ob a
def Core.obBytes (k : Core) (a n : Nat) : List Byte := (List.range n).map fun i => k.obByte (a + i)

/-- Whether some 128-byte sector of an OB range is poisoned (R167). -/
def Core.obBad (k : Core) (a n : Nat) : Bool := (List.range n).any fun i => k.obPoison.contains ((a + i) / 128)

/-- Write OB bytes. -/
def Core.obSet (k : Core) (a : Nat) : List Byte → Core
  | [] => k
  | b :: r => ({ k with ob := dset 0 k.ob a b } : Core).obSet (a + 1) r

/-- Write OB bytes with their poison (R169). -/
def Core.obStore (k : Core) (a : Nat) (bs : List Byte) (poison : Bool) : Core :=
  let k := k.obSet a bs
  { k with obPoison := poisonAfter k.obPoison a bs.length poison }

/-- Drop the B latches that `p` picks; a fragment that an MMAR is still using is not latched after it (R232). -/
def Core.dropLatch (k : Core) (p : BLatch → Bool) : Core :=
  { k with blatch := mfilter k.blatch fun _ b => !p b
           mmars := k.mmars.map fun m => { m with keep := m.keep && !m.frag.any p } }

/-- Tag the 256-byte unit of an OB byte address; a B latch that holds the unit is dropped (R221, R222, R232). -/
def Core.obMark (k : Core) (a tag : Nat) : Core :=
  ({ k with obTag := dset 0 k.obTag (a / 256) tag } : Core).dropLatch fun b => b.units.contains (a / 256)

/-- Whether some 128-byte sector of a cluster SRAM range is poisoned (R167). -/
def Cluster.sramBad (k : Cluster) (a n : Nat) : Bool := (List.range n).any fun i => k.sramPoison.contains ((a + i) / 128)

def Cluster.sramByte (k : Cluster) (a : Nat) : Byte := mget 0 k.sram a
def Cluster.sramBytes (k : Cluster) (a n : Nat) : List Byte := (List.range n).map fun i => k.sramByte (a + i)

/-- Write cluster SRAM bytes. -/
def Cluster.sramSet (k : Cluster) (a : Nat) : List Byte → Cluster
  | [] => k
  | b :: r => ({ k with sram := dset 0 k.sram a b } : Cluster).sramSet (a + 1) r

/-- Write cluster SRAM bytes with their poison (R169). -/
def Cluster.sramStore (k : Cluster) (a : Nat) (bs : List Byte) (poison : Bool) : Cluster :=
  let k := k.sramSet a bs
  { k with sramPoison := poisonAfter k.sramPoison a bs.length poison }

end Sys2Proof.Machine
end

