-- ==== Sys2Proof/Machine/Translate.lean ====
section
/-! DEFINITION. Global addresses and their translation (R156, R172 to R175, R324, R347): address classes, the two-stage page walk, and the
TLBs of cores and clusters. -/
namespace Sys2Proof.Machine

/-- What a 64-bit global address names (R156). -/
inductive AddrClass where
  | translated
  | scratch (off : Nat)
  | bad
  deriving DecidableEq, Repr

/-- The class of a global address (R156). -/
def addrClass (a : Nat) : AddrClass :=
  let top := a / 2 ^ 56 % 2 ^ 8
  if top = 0 then .translated
  else if a / 2 ^ 32 % 2 ^ 32 = 0xFFFFFFFF then .scratch (a % 2 ^ 32)
  else .bad

/-- The outcome of a walk: a leaf (base, page size, permissions R 1 W 2 X 4, memory type, global), a translation fault, an entry in
a poisoned sector (R173, R347), or one in a range that no walk may read (R337). -/
inductive WalkR where
  | leaf (base size perms mtype : Nat) (glob : Bool)
  | fault
  | bad
  | poison (pa : Nat)
  deriving DecidableEq, Repr

/-- A page-table entry as read: its value, a fault of its own address, an address of no memory, or a poisoned sector. -/
inductive PteR where
  | val (v : Nat)
  | fault
  | bad
  | poison (pa : Nat)
  deriving DecidableEq, Repr

/-- Bit `i` of a number. -/
def bit (v i : Nat) : Bool := decide (v / 2 ^ i % 2 = 1)

/-- A page-table entry at a physical address, read through SYS (R172), from local memory or from another part's over Ivmar (R175); a table in
a reserved range, in control space or at a device is an access that R337 refuses. -/
def pteAt (s : State) (pa : Nat) : PteR :=
  match region s pa with
  | .hbm => if s.poisoned pa then .poison pa else .val (s.num (loc pa) 8)
  | .remote => .val (leNat ((List.range 8).map fun i => s.below (pa + i)))
  | _ => .bad

/-- A leaf entry at a level, checked by R173. -/
def leafOf (level pte : Nat) : WalkR :=
  let ppn := pte / 2 ^ 10 % 2 ^ 44
  let size := 4096 * 512 ^ level
  if (bit pte 2 && !bit pte 1) || decide (pte / 2 ^ 61 % 4 = 3) || decide (pte / 2 ^ 54 % 2 ^ 7 ≠ 0) || !bit pte 4 || !bit pte 6
      || decide (2 < level) then .fault
  else
    let perms := (bit pte 1).toNat + 2 * (bit pte 2 && bit pte 7).toNat + 4 * (bit pte 3).toNat
    if bit pte 63 then
      if level = 0 ∧ ppn % 16 = 8 then .leaf (ppn / 16 * 65536) 65536 perms (pte / 2 ^ 61 % 4) (bit pte 5) else .fault
    else if ppn * 4096 % size ≠ 0 then .fault
    else .leaf (ppn * 4096) size perms (pte / 2 ^ 61 % 4) (bit pte 5)

/-- A leaf whose G is also set by a non-leaf entry above it, as the privileged architecture has it (R172, R173). -/
def WalkR.orGlobal (g : Bool) : WalkR → WalkR
  | .leaf b s p m g2 => .leaf b s p m (g || g2)
  | r => r

/-- A walk from a table at `level` down (R173): `rd` reads an entry, `top` is the number of index bits at this level. -/
def walkFrom (rd : Nat → PteR) (va : Nat) : Nat → Nat → Nat → WalkR
  | level, top, table =>
    let idx := va / 2 ^ (12 + 9 * level) % 2 ^ top
    match rd (table + 8 * idx) with
    | .fault => .fault
    | .bad => .bad
    | .poison pa => .poison pa
    | .val pte =>
      if !bit pte 0 then .fault
      else if bit pte 1 || bit pte 2 || bit pte 3 then leafOf level pte
      else if bit pte 4 || bit pte 6 || bit pte 7 || decide (pte / 2 ^ 54 ≠ 0) then .fault
      else match level with
        | 0 => .fault
        | l + 1 => (walkFrom rd va l 9 (pte / 2 ^ 10 % 2 ^ 44 * 4096)).orGlobal (bit pte 5)
termination_by structural level => level

/-- The second stage: a guest physical address under HGATP (R172). -/
def stage2 (s : State) (hgatp gpa : Nat) : WalkR :=
  if hgatp / 2 ^ 60 ≠ 10 ∨ 2 ^ 59 ≤ gpa then .fault
  else walkFrom (pteAt s) gpa 4 11 (hgatp % 2 ^ 44 / 4 * 4 * 4096)

/-- A first-stage table entry: its address is a guest physical address (R172). -/
def pteGuest (s : State) (hgatp gpa : Nat) : PteR :=
  match stage2 s hgatp gpa with
  | .fault => .fault
  | .bad => .bad
  | .poison pa => .poison pa
  | .leaf base size perms _ _ => if perms % 2 = 1 then pteAt s (base + gpa % size) else .fault

/-- SATP of a context (R172, R319). -/
def satpOf (s : State) (vdev : Nat) : Nat := s.num (loc (s.vdev vdev).crb.toNat + 8) 8

/-- Whether a context translates at all: both roots have MODE 10 (R172). -/
def translates (s : State) (vdev : Nat) : Bool :=
  decide (satpOf s vdev / 2 ^ 60 = 10) && decide ((s.vdev vdev).hgatp.toNat / 2 ^ 60 = 10)

/-- A whole walk of a virtual address of a context: the combined entry, a translation fault, an entry where no walk may read (R337), or a
poisoned entry. -/
inductive TrWalk where
  | entry (t : Tlb)
  | fault
  | bad
  | poison (pa : Nat)
  deriving DecidableEq, Repr

/-- Both stages (R172, R173): permissions are those both grant, the page is the smaller, the memory type the more restrictive. -/
def walkVa (s : State) (vdev va : Nat) : TrWalk :=
  let satp := satpOf s vdev
  let hgatp := (s.vdev vdev).hgatp.toNat
  if satp / 2 ^ 60 ≠ 10 then .fault
  else match walkFrom (pteGuest s hgatp) va 4 9 (satp % 2 ^ 44 * 4096) with
    | .fault => .fault
    | .bad => .bad
    | .poison pa => .poison pa
    | .leaf base size perms mt g =>
      let gpa := base + va % size
      match stage2 s hgatp gpa with
      | .fault => .fault
      | .bad => .bad
      | .poison pa => .poison pa
      | .leaf b2 sz2 p2 mt2 _ =>
        let sz := min size sz2
        let pa := b2 + gpa % sz2
        .entry ⟨satp / 2 ^ 44 % 2 ^ 16, vdev, g, va - va % sz, sz, gpa - gpa % sz, pa - pa % sz, perms &&& p2, max mt mt2, size, sz2⟩

/-! ## The ports that a walk uses (R175, R342) -/

/-- The addresses of the entries that a walk from a table at `level` down reads (R172, R173). -/
def tableReads (rd : Nat → PteR) (va : Nat) : Nat → Nat → Nat → List Nat
  | level, top, table =>
    let a := table + 8 * (va / 2 ^ (12 + 9 * level) % 2 ^ top)
    a :: match rd a with
      | .val pte =>
        if !bit pte 0 || bit pte 1 || bit pte 2 || bit pte 3 then []
        else match level with
          | 0 => []
          | l + 1 => tableReads rd va l 9 (pte / 2 ^ 10 % 2 ^ 44 * 4096)
      | _ => []
termination_by structural level => level

/-- The physical addresses that the second stage reads for a guest physical address, and the address that it gives. -/
def stage2Reads (s : State) (hgatp gpa : Nat) : List Nat :=
  if hgatp / 2 ^ 60 ≠ 10 ∨ 2 ^ 59 ≤ gpa then [] else tableReads (pteAt s) gpa 4 11 (hgatp % 2 ^ 44 / 4 * 4 * 4096)
def stage2Pa (s : State) (hgatp gpa : Nat) : List Nat := match stage2 s hgatp gpa with
  | .leaf base size _ _ _ => [base + gpa % size]
  | _ => []

/-- The physical addresses that a whole walk reads (R172). -/
def walkReads (s : State) (vdev va : Nat) : List Nat :=
  let satp := satpOf s vdev
  let hgatp := (s.vdev vdev).hgatp.toNat
  if satp / 2 ^ 60 ≠ 10 then []
  else
    (tableReads (pteGuest s hgatp) va 4 9 (satp % 2 ^ 44 * 4096)).flatMap (fun a => stage2Reads s hgatp a ++ stage2Pa s hgatp a)
      ++ match walkFrom (pteGuest s hgatp) va 4 9 (satp % 2 ^ 44 * 4096) with
        | .leaf base size _ _ _ => stage2Reads s hgatp (base + va % size)
        | _ => []

/-- The state after a walk: each entry in another part's memory was read over a port (R175, R342). -/
def State.walked (s : State) (vdev va : Nat) : State :=
  if s.part = 0 then s else (walkReads s vdev va).foldl (fun t a => if region s a = .remote then t.asked a else t) s

/-- Where an address leads: a physical address with its memory type, a translation fault, a walk that R337 refuses, a poisoned entry. -/
inductive Tr where
  | ok (pa mtype : Nat)
  | fault
  | bad
  | poison (pa : Nat)
  deriving DecidableEq, Repr, Inhabited

/-- Whether a TLB entry serves a virtual address of a context with the needed permissions (R174). -/
def Tlb.hits (t : Tlb) (asid vdev va need : Nat) : Bool :=
  decide (t.vmid = vdev) && (t.glob || decide (t.asid = asid)) && decide (t.va ≤ va) && decide (va < t.va + t.size)
    && decide (t.perms &&& need = need)

/-- The address an entry gives. -/
def Tlb.result (t : Tlb) (va : Nat) : Tr := .ok (t.pa + (va - t.va)) t.mtype

/-- Translate without a TLB, as walkers, codecs and admission do. -/
def translateAt (s : State) (vdev va need : Nat) : Tr :=
  match walkVa s vdev va with
  | .fault => .fault
  | .bad => .bad
  | .poison pa => .poison pa
  | .entry t => if t.perms &&& need = need then t.result va else .fault

/-- Put a combined entry first in a TLB list of `cap` entries, dropping what it replaces (R174). -/
def tlbInstall (l : List Tlb) (t : Tlb) (cap : Nat) : List Tlb :=
  (t :: l.filter fun o => !(decide (o.vmid = t.vmid) && decide (o.asid = t.asid) && decide (o.va = t.va) && decide (o.size = t.size))).take cap

/-- The set of a combined entry in a cluster TLB of 512 sets and 8 ways (R174). (DESIGN CHOICE, log 90) -/
def Tlb.set (t : Tlb) : Nat := t.va / t.size % 512

/-- Put a combined entry into a cluster TLB: of each set the 8 most recent stay (R174). -/
def tlbInstallSet (l : List Tlb) (t : Tlb) : List Tlb :=
  let l := tlbInstall l t 4096
  let spare := (l.filter fun o => decide (o.set = t.set)).drop 8
  l.filter fun o => !spare.contains o

/-- Take a TLB entry into a core's TLB. -/
def State.coreTlb (s : State) (c : Nat) (t : Tlb) : State := s.updCore c fun k => { k with tlb := tlbInstall k.tlb t 256 }

/-- The translation that a core's TLB, or after it its cluster's, gives (R174). -/
def tlbHit (s : State) (c vdev va need : Nat) : Option (Bool × Tlb) :=
  let asid := satpOf s vdev / 2 ^ 44 % 2 ^ 16
  match (s.core c).tlb.find? (·.hits asid vdev va need) with
  | some t => some (true, t)
  | none => ((s.cluster (clusterOf c)).tlb.find? (·.hits asid vdev va need)).map fun t => (false, t)

/-- Translate for an access of core `c` (R174): its TLB, then its cluster's, then a walk, which installs nothing when it ends in a
fault (R324). A context whose SATP or HGATP has another MODE than 10 takes a translation fault at every access (R172). -/
def translate (s : State) (c vdev va need : Nat) : State × Tr :=
  if !translates s vdev then (s, .fault)
  else match tlbHit s c vdev va need with
  | some (true, t) => (s, t.result va)
  | some (false, t) => (s.coreTlb c t, t.result va)
  | none =>
    let r := walkVa s vdev va
    let s := s.walked vdev va
    match r with
    | .fault => (s, .fault)
    | .bad => (s, .bad)
    | .poison pa => (s, .poison pa)
    | .entry t =>
      if t.perms &&& need = need then
        ((s.coreTlb c t).updCluster (clusterOf c) fun k => { k with tlb := tlbInstallSet k.tlb t }, t.result va)
      else (s, .fault)

/-- A replay's access is translated from the root (R310, R324): what the TLBs of a core and its cluster hold of the page goes first. -/
def State.forgetPage (s : State) (c vdev va : Nat) : State :=
  let keep (l : List Tlb) : List Tlb := l.filter fun t => !(decide (t.vmid = vdev) && decide (t.va ≤ va) && decide (va < t.va + t.size))
  (s.updCore c fun k => { k with tlb := keep k.tlb }).updCluster (clusterOf c) fun k => { k with tlb := keep k.tlb }

end Sys2Proof.Machine
end

