-- ==== Sys2Proof/Machine/Tile.lean ====
section
/-! DEFINITION. Tiles of rule mode (12): fields of structures in memory, tile headers (R244, R245), cells (R246), indices (R247), generations (R248,
R249), and a STEP row by row: its beginning, going on, and leaving it at a row boundary (R45, R46, R252, R253). -/
namespace Sys2Proof.Machine

/-! ## Fields -/

/-- Bits [hi:lo] of a number (R1). -/
def bitsAt (v hi lo : Nat) : Nat := v / 2 ^ lo % 2 ^ (hi + 1 - lo)

/-- A little-endian field of a byte list. -/
def field (b : List Byte) (off n : Nat) : Nat := leNat ((b.drop off).take n)

/-- Element `i` of `b` bits in a byte stream (R22). -/
def elemAt (bs : List Byte) (b i : Nat) : Nat :=
  leNat ((bs.drop (i * b / 8)).take 5) / 2 ^ (i * b % 8) % 2 ^ b

/-- Numbers packed at `n` bits apart, the first lowest. -/
def packBits (n : Nat) : List Nat → Nat
  | [] => 0
  | v :: r => v + 2 ^ n * packBits n r

/-! ## Headers (R244 to R247) -/

/-- A tile header. -/
structure TileHdr where
  w : Nat
  h : Nat
  hw : Nat
  cwc : Nat
  moore : Bool
  count : Bool
  checker : Bool
  scr : Bool
  fixed : List Nat
  mode : List Nat
  cells : Nat
  cmask : Nat
  pitch : Nat
  table : Nat
  save : Nat
  gen : Nat
  prog : Nat
  key : DWord
  deriving DecidableEq, Repr

/-- The fields of a header; sides in the order N, S, W, E. -/
def tileHdr (b : List Byte) : TileHdr :=
  let g := field b 0 4
  let n := field b 4 4
  { w := bitsAt g 31 24 + 1
    h := bitsAt g 23 16 + 1
    hw := bitsAt g 11 8
    cwc := bitsAt g 5 4
    moore := bit g 3
    count := bit g 2
    checker := bit g 1
    scr := bit g 0
    fixed := [bitsAt n 31 28, bitsAt n 27 24, bitsAt n 23 20, bitsAt n 19 16]
    mode := [bitsAt n 7 6, bitsAt n 5 4, bitsAt n 3 2, bitsAt n 1 0]
    cells := field b 8 4
    cmask := field b 0xE 2
    pitch := field b 0xC 2
    table := field b 0x10 4
    save := field b 0x14 4
    gen := field b 0x18 4
    prog := field b 0x1C 4
    key := BitVec.ofNat 64 (field b 0x20 8) }

/-- Cell width, index width B, table bytes TB (R247). -/
def TileHdr.cw (x : TileHdr) : Nat := 2 ^ x.cwc
def TileHdr.nn (x : TileHdr) : Nat := if x.moore then 8 else 4
def TileHdr.cb (x : TileHdr) : Nat := if x.moore then 4 else 3
def TileHdr.counted (x : TileHdr) : List Nat := (List.range 16).filter fun v => bit x.cmask v
def TileHdr.bw (x : TileHdr) : Nat := if x.count then x.cw + x.counted.length * x.cb else (1 + x.nn) * x.cw
def TileHdr.tb (x : TileHdr) : Nat := max 1 (2 ^ (x.bw - 1))

/-- PROG's fields (R244). -/
def TileHdr.act (x : TileHdr) : Bool := bit x.prog 31
def TileHdr.gdone (x : TileHdr) : Nat := bitsAt x.prog 23 20
def TileHdr.gtot (x : TileHdr) : Nat := bitsAt x.prog 19 16
def TileHdr.ph (x : TileHdr) : Nat := bitsAt x.prog 8 8
def TileHdr.row (x : TileHdr) : Nat := bitsAt x.prog 7 0

/-- Bytes of `n` cells rounded up to 16. -/
def cellPitch (n cw : Nat) : Nat := ((n * cw + 7) / 8 + 15) / 16 * 16

/-- The validity of a header at a window offset (R245). -/
def tileHdrOk (off : Nat) (b : List Byte) : Bool :=
  let g := field b 0 4
  let x := tileHdr b
  let m (i : Nat) : Nat := x.mode.getD i 0
  decide (off % 64 = 0) && decide (bitsAt g 15 12 = 0) && decide (bitsAt g 7 6 = 0) && decide (x.cwc ≠ 3) && decide (bitsAt (field b 4 4) 15 8 = 0)
    && (List.range 4).all (fun i => decide (m i ≠ 3) && (decide (m i ≠ 1) || decide (x.fixed.getD i 0 < 2 ^ x.cw)))
    && decide (bitsAt x.prog 30 24 = 0) && decide (bitsAt x.prog 15 9 = 0) && decide (field b 0x28 24 = 0)
    && decide (1 ≤ x.hw) && decide (x.hw ≤ 8) && decide (3 * x.hw ≤ x.w) && decide (3 * x.hw ≤ x.h)
    && (!x.count || x.counted.all fun v => decide (v < 2 ^ x.cw))
    && (decide (m 0 = 2) == decide (m 1 = 2)) && (decide (m 2 = 2) == decide (m 3 = 2))
    && decide (x.bw ≤ 12) && decide (x.pitch % 16 = 0) && decide (cellPitch x.w x.cw ≤ x.pitch)
    && decide (x.cells % 16 = 0) && decide (x.table % 16 = 0) && decide (x.save % 16 = 0)

/-! ## Cells -/

/-- A cell's code and whether it derives from poison. -/
abbrev TileCell := Nat × Bool

/-- The cells of a packed row at a core address (R246). -/
def rowCells (k : Core) (a n cw : Nat) : List TileCell :=
  let bytes := k.lsBytes a ((n * cw + 7) / 8)
  (List.range n).map fun c => (elemAt bytes cw c, k.lsPoison.contains ((a + c * cw / 8) / 128))

/-- The cells of a tile. -/
def tileCells (k : Core) (base : Nat) (x : TileHdr) : List (List TileCell) :=
  (List.range x.h).map fun r => rowCells k (base + x.cells + r * x.pitch) x.w x.cw

/-- Packed bytes of a row over what stands there: bits beyond the last cell stay (R246). -/
def packRow (old : List Byte) (cw : Nat) (cs : List TileCell) : List Byte :=
  let n := cs.length * cw
  let v := packBits cw (cs.map (·.1))
  leBytes ((n + 7) / 8) (v + leNat old / 2 ^ n * 2 ^ n)

/-- Write a row one 128-byte unit after another, each piece poisoned when a cell of it is (R169). -/
def storeRow (k : Core) (a cw : Nat) (cs : List TileCell) : Core :=
  let bs := packRow (k.lsBytes a ((cs.length * cw + 7) / 8)) cw cs
  (sectorAddrs a bs.length).foldl (fun k p =>
    let n := min (128 - p % 128) (a + bs.length - p)
    k.lsStore p ((bs.drop (p - a)).take n) (((cs.drop ((p - a) * 8 / cw)).take (n * 8 / cw)).any (·.2))) k

/-- Write a tile's cells. -/
def storeTile (k : Core) (base : Nat) (x : TileHdr) (g : List (List TileCell)) : Core :=
  g.zipIdx.foldl (fun k e => storeRow k (base + x.cells + e.2 * x.pitch) x.cw e.1) k

/-- A cell of a tile. -/
def cellAt (g : List (List TileCell)) (r c : Nat) : TileCell := (g.getD r []).getD c (0, false)

/-! ## Generations (R247 to R249) -/

/-- The neighbours of a cell in the order of R247, as row and column offsets plus one. -/
def TileHdr.around (x : TileHdr) : List (Nat × Nat) :=
  if x.moore then [(0, 1), (0, 2), (1, 2), (2, 2), (2, 1), (2, 0), (1, 0), (0, 0)] else [(0, 1), (1, 2), (2, 1), (1, 0)]

/-- The index of a cell from old codes (R247); `g` is the generation being produced. -/
def cellIndex (x : TileHdr) (gen : Nat) (old : List (List TileCell)) (r c : Nat) : Nat :=
  let own := (cellAt old r c).1
  let q := x.around.map fun d => (cellAt old (r + d.1 - 1) (c + d.2 - 1)).1
  let idx := if x.count then x.counted.foldl (fun i v => i * 2 ^ x.cb + q.count v) own else q.foldl (fun i v => i * 2 ^ x.cw + v) own
  if x.scr then Nat.xor idx ((kmix64 x.key (BitVec.ofNat 64 (gen * 2 ^ 16 + r * 2 ^ 8 + c))).toNat % 2 ^ x.bw) else idx

/-- The region of generation `k` of a STEP: first and last row, first and last column (R248). -/
def region_ (x : TileHdr) (k : Nat) : Nat × Nat × Nat × Nat :=
  let lim (i : Nat) : Nat := if x.mode.getD i 0 = 0 then k else x.hw
  (lim 0, x.h - 1 - lim 1, lim 2, x.w - 1 - lim 3)

/-- Fill the halos of FIXED and WRAP sides, N, S, W, E (R249); a FIXED code is poisoned as the header is (R250). The answer says whether poison was
read or written. -/
def fillHalo (x : TileHdr) (hbad : Bool) (g : List (List TileCell)) : List (List TileCell) × Bool :=
  let h := x.hw
  let m (i : Nat) : Nat := x.mode.getD i 0
  let fx (i : Nat) : TileCell := (x.fixed.getD i 0, hbad)
  let rows (side : Nat) (dst src : Nat → Nat) (g : List (List TileCell)) : List (List TileCell) :=
    if m side = 0 then g
    else (List.range h).foldl (fun g i => g.set (dst i) (if m side = 1 then List.replicate x.w (fx side) else g.getD (src i) [])) g
  let cols (side : Nat) (dst src : Nat → Nat) (g : List (List TileCell)) : List (List TileCell) :=
    if m side = 0 then g
    else g.map fun row => (List.range h).foldl (fun row i => row.set (dst i) (if m side = 1 then fx side else row.getD (src i) (0, false))) row
  let halo (side : Nat) (dst : Nat → Nat) (i : Nat) : Bool := decide (m side ≠ 0) && (List.range h).any fun j => decide (dst j = i)
  let g := rows 1 (x.h - h + ·) (h + ·) (rows 0 id (x.h - 2 * h + ·) g)
  let bad := g.zipIdx.any fun e => (halo 0 id e.2 || halo 1 (x.h - h + ·) e.2) && e.1.any (·.2)
  let g := cols 3 (x.w - h + ·) (h + ·) (cols 2 id (x.w - 2 * h + ·) g)
  (g, bad || g.any fun row => row.zipIdx.any fun e => (halo 2 id e.2 || halo 3 (x.w - h + ·) e.2) && e.1.2)

/-- Whether a pass computes a column of a row (R248): one of the region, under CHECKER of the pass's colour. -/
def computes (x : TileHdr) (k ph r c : Nat) : Bool :=
  decide ((region_ x k).2.2.1 ≤ c) && decide (c ≤ (region_ x k).2.2.2) && (!x.checker || decide ((r + c) % 2 = ph))

/-- A row after a pass (R247, R248): the cells that it computes take their table entries. -/
def newRow (x : TileHdr) (tab : Nat → TileCell) (gen k ph : Nat) (old : List (List TileCell)) (r : Nat) : List TileCell :=
  (old.getD r []).zipIdx.map fun e =>
    if computes x k ph r e.2 then
      let t := tab (cellIndex x gen old r e.2)
      (t.1 % 2 ^ x.cw, t.2 || e.1.2 || x.around.any fun d => (cellAt old (r + d.1 - 1) (e.2 + d.2 - 1)).2)
    else e.1

/-- Rows of a pass, one after another, at most `left` of them: the tile, the row at which it stopped, and whether poison was met (R250). -/
def passRows (x : TileHdr) (tab : Nat → TileCell) (gen k ph : Nat) (old : List (List TileCell)) :
    List Nat → Nat → List (List TileCell) → Bool → List (List TileCell) × Option Nat × Nat × Bool
  | [], left, g, bad => (g, none, left, bad)
  | r :: _, 0, g, bad => (g, some r, 0, bad)
  | r :: rs, left + 1, g, bad =>
    let row := newRow x tab gen k ph old r
    passRows x tab gen k ph old rs left (g.set r row) (bad || row.zipIdx.any fun e => computes x k ph r e.2 && e.1.2)

/-- Where a STEP stands after some rows: the tile, whether poison was met, GEN, the cc of rows left, and if it stopped, GDONE, PH, ROW and what row
ROW - 1 held when the pass began. -/
structure StepEnd where
  g : List (List TileCell)
  bad : Bool
  gen : Nat
  left : Nat
  stop : Option (Nat × Nat × Nat × List TileCell)
  deriving DecidableEq, Repr

/-- Run passes (generation, phase): at most `rows` rows, and two rows of a pass in each of at most `cc` cc. `resume` gives the row and the saved row
of a pass that is continued without its fill (R252, R253). -/
def runPasses (x : TileHdr) (tab : Nat → TileCell) (hbad : Bool) :
    List (Nat × Nat) → Option (Nat × List TileCell) → Nat → Nat → Nat → List (List TileCell) → Bool → StepEnd
  | [], _, _, cc, gen, g, bad => ⟨g, bad, gen, cc, none⟩
  | (k, ph) :: t, resume, rows, cc, gen, g, bad =>
    let reg := region_ x k
    let (cur, fbad) := match resume with
      | some _ => (g, false)
      | none => fillHalo x hbad g
    let first := match resume with
      | some (r, _) => r
      | none => reg.1
    let old := match resume with
      | some (r, save) => if r = 0 then cur else cur.set (r - 1) save
      | none => cur
    let most := min rows (2 * cc)
    let p := passRows x tab ((gen + 1) % 2 ^ 32) k ph old ((List.range (reg.2.1 + 1 - first)).map (first + ·)) most cur (bad || fbad)
    let done := most - p.2.2.1
    let cc := cc - (done + 1) / 2
    match p.2.1 with
    | some r => ⟨p.1, p.2.2.2, gen, cc, some (k - 1, ph, r, old.getD (r - 1) [])⟩
    | none => runPasses x tab hbad t none (rows - done) cc (if x.checker && decide (ph = 0) then gen else (gen + 1) % 2 ^ 32) p.1 p.2.2.2

/-- The passes a STEP still has to make after `gdone` generations and from phase `ph` (R252). -/
def stepPasses (x : TileHdr) (gdone gtot ph : Nat) : List (Nat × Nat) :=
  (List.range (gtot - gdone)).flatMap fun i =>
    let k := gdone + 1 + i
    if !x.checker then [(k, 0)] else if i = 0 ∧ ph = 1 then [(k, 1)] else [(k, 0), (k, 1)]

/-! ## STEP (R252, R253) -/

/-- Write GEN and PROG of a header. -/
def putHdr (k : Core) (a gen prog : Nat) (bad : Bool) : Core := k.lsStore (a + 0x18) (leBytes 4 gen ++ leBytes 4 prog) bad

/-- A STEP as Lyre takes it: header and table, and with ACT = 1 the save row, are read once; with ACT = 1 it goes on where the tile stands (R252, R253). -/
def stepBegin (k : Core) (base off n : Nat) : StepRun :=
  let b := k.lsBytes (base + off) 64
  let x := tileHdr b
  let a := base + x.table
  let tbad := ((sectorAddrs a x.tb).map (· / 128)).filter k.lsPoison.contains
  let save := if x.act then rowCells k (base + x.save) x.w x.cw else []
  let hbad := k.lsBad (base + off) 64
  { base := base
    off := off
    n := n
    hdr := b
    hbad := hbad
    table := k.lsBytes a x.tb
    tbad := tbad
    gen := x.gen
    gdone := if x.act then x.gdone else 0
    ph := if x.act then x.ph else 0
    row := if x.act then some x.row else none
    save := save
    bad := hbad || !tbad.isEmpty || save.any (·.2) }

/-- A table entry as a STEP read it, poisoned when its unit or the header was. -/
def StepRun.entry (t : StepRun) (i : Nat) : TileCell :=
  ((t.table.getD (i / 2) 0).toNat / 2 ^ (4 * (i % 2)) % 16, t.hbad || t.tbad.contains ((t.base + (tileHdr t.hdr).table + i / 2) / 128))

/-- Rows that a STEP still has to compute. -/
def StepRun.rowsLeft (t : StepRun) : Nat :=
  let x := tileHdr t.hdr
  let l := (stepPasses x t.gdone t.n t.ph).map fun p => (region_ x p.1).2.1 + 1 - (region_ x p.1).1
  match t.row with
  | none => l.foldl (· + ·) 0
  | some r => l.foldl (· + ·) 0 - (r - (region_ x (t.gdone + 1)).1)

/-- Go on with a STEP for at most `rows` rows and `cc` cc of rows: the core, where the STEP stands (none once it is complete), the cc used, and
whether it has met poison by now (R250). -/
def stepOn (k : Core) (t : StepRun) (rows cc : Nat) : Core × Option StepRun × Nat × Bool :=
  let x := tileHdr t.hdr
  let e := runPasses x t.entry t.hbad (stepPasses x t.gdone t.n t.ph) (t.row.map fun r => (r, t.save)) rows cc t.gen (tileCells k t.base x) t.bad
  let k := storeTile k t.base x e.g
  match e.stop with
  | none => (putHdr k (t.base + t.off) e.gen 0 t.hbad, none, cc - e.left, e.bad)
  | some (gd, p, r, save) => (k, some { t with gen := e.gen, gdone := gd, ph := p, row := some r, save := save, bad := e.bad }, cc - e.left, e.bad)

/-- PROG bits 23:0 of a STEP that stands at a row boundary (R253). -/
def StepRun.progress (t : StepRun) : Nat := t.gdone * 2 ^ 20 + t.n * 2 ^ 16 + t.ph * 2 ^ 8 + t.row.getD 0

/-- Leave a STEP at its row boundary: the save row, PROG with ACT = 1 and GEN (R253). -/
def stepLeave (k : Core) (t : StepRun) : Core :=
  let x := tileHdr t.hdr
  putHdr (storeRow k (t.base + x.save) x.cw t.save) (t.base + t.off) t.gen (2 ^ 31 + t.progress) t.hbad

/-- The cc of rows that may start before a cluster's allowance is spent, at 20 pJ each (R45, R46). -/
def stepCc (s : State) (cl : Nat) : Nat := ((s.cluster cl).energy.toNat + 19) / 20

/-- A pre-emption or a kill finds a STEP that Lyre runs at a row boundary (R253), which one is the part's choice: what it leaves in the tile,
its PROGRESS, and whether it has met poison. -/
def stopStep (s : State) (core : Nat) (t : StepRun) : State × Nat × Bool :=
  let cl := clusterOf core
  let r := stepOn (s.core core) t (Config.freeNat s.tick % max 1 t.rowsLeft) (stepCc s cl)
  let u := debit { s with tick := s.tick + 1 } cl (20 * r.2.2.1)
  match r.2.1 with
  | none => (u.setCore core r.1, 0, r.2.2.2)
  | some t => (u.setCore core (stepLeave r.1 t), t.progress, t.bad)

/-- The STEPs of a killed group (R253). -/
def killSteps (s : State) (core gid : Nat) : State :=
  ((s.core core).rules.filter fun r => decide (r.group = gid)).foldl (fun s r => match r.step with
    | some t => (stopStep s core t).1
    | none => s) s

end Sys2Proof.Machine
end

