-- ==== Sys2Proof/Machine/Ops.lean ====
section
/-! DEFINITION. The operations that instructions and events share: events and vectors (R320, R321, R339), the sticky error (R334, R335),
releases and acquires (R289), energy (R45), the path table (R72 to R74), threads that leave for the former (R75, R76, R80), barriers
(R296 to R298), the end of threads, groups and workgroups (R329 to R332), and taking a trap or a memory fault (R303 to R306). -/
namespace Sys2Proof.Machine

/-! ## Vectors, events, the sticky error -/

/-- Raise a vector to the application cores (R339): delivered as an MSI of identity n + 1 when its route is enabled, else pending. -/
def raiseVector (s : State) (n : Nat) : State :=
  let r := mget (0 : Word) s.sys.routes n
  if r.getLsbD 31 then { s with sys := { s.sys with msis := s.sys.msis ++ [(r.toNat % 64, n + 1)] } }
  else { s with sys := { s.sys with vecPending := nins s.sys.vecPending n } }

/-- Event types (R320). -/
def evXlate : Nat := 1
def evMemfault : Nat := 2
def evTrap : Nat := 3
def evKill : Nat := 4
def evSpawnx : Nat := 5
def evPoison : Nat := 6
def evThermal : Nat := 7
def evState : Nat := 8
def evMovefail : Nat := 9

/-- The physical base of a context region (R319). -/
def crb (s : State) (vdev : Nat) : Nat := loc (s.vdev vdev).crb.toNat

/-- Write one event record at EVPROD and raise the device's vector (R320, R321). -/
def putEvent (s : State) (vdev : Nat) (ws : List Word) : State :=
  let base := crb s vdev
  let prod := s.num (base + 0x20) 4
  let s := s.setBytes (base + 0x1000 + 32 * (prod % 1920)) (wordBytes ws)
  let s := s.setNum (base + 0x20) 4 ((prod + 1) % 2 ^ 32)
  let d := s.vdev vdev
  if d.st = .live ∧ d.ien then raiseVector s d.vector else s

/-- Whether the event log has room (R321). -/
def evRoom (s : State) (vdev : Nat) : Bool :=
  decide ((s.num (crb s vdev + 0x20) 4 + 2 ^ 32 - s.num (crb s vdev + 0x24) 4) % 2 ^ 32 < 1920)

/-- Log an event of a source created under generation `gen` (R321): dropped when the generation is old; held (XLATE, SPAWNX) or
counted in EVLOST when the log is full. -/
def logEvent (s : State) (vdev type code skid lane gen : Nat) (addr pc : Nat) (core slot : Nat) (token : Nat) : State :=
  if gen ≠ (s.vdev vdev).gen then s
  else
    let ws : List Word := [BitVec.ofNat 32 (type * 2 ^ 24 + code * 2 ^ 16 + min skid 255 * 2 ^ 8 + lane), BitVec.ofNat 32 gen,
      BitVec.ofNat 32 addr, BitVec.ofNat 32 (addr / 2 ^ 32), BitVec.ofNat 32 pc, BitVec.ofNat 32 (pc / 2 ^ 32),
      BitVec.ofNat 32 (clusterOf core * 2 ^ 16 + core % 4 * 2 ^ 14 + slot * 2 ^ 12), BitVec.ofNat 32 (token * 2 ^ 16)]
    if evRoom s vdev then putEvent s vdev ws
    else if type = evXlate ∨ type = evSpawnx then
      s.updVdev vdev fun d => { d with heldEvents := d.heldEvents ++ [⟨ws, gen⟩] }
    else s.setNum (crb s vdev + 0x28) 4 ((s.num (crb s vdev + 0x28) 4 + 1) % 2 ^ 32)

/-- The first-error record's fields (R334). -/
structure ErrRec where
  src : Nat
  code : Nat
  place : Nat
  pc : Nat
  word : Nat
  wid : Nat
  aux : Nat
  aux2 : Nat

/-- The front end a virtual device is bound to (R25, R334), 0 where none is. -/
def deviceFe (s : State) (vdev : Nat) : Nat := ((s.fes.find? fun e => e.2.vdevV && decide (e.2.vdev = vdev)).map (·.1)).getD 0

/-- Set the sticky error (R335): ERRCNT rises, saturating, and the whole record is written when S is 0, the front end's number with its
place (R334). -/
def stickyError (s : State) (vdev : Nat) (e : ErrRec) : State :=
  let a := crb s vdev + 0x80
  let w := s.num a 4
  let cnt := if w / 2 ^ 31 % 2 = 0 then 0 else w % 2 ^ 16
  let s := s.setNum a 4 (2 ^ 31 + min (cnt + 1) 65535)
  if w / 2 ^ 31 % 2 = 1 then s
  else
    let s := s.setNum (a + 4) 4 (e.src * 2 ^ 24 + e.code * 2 ^ 16)
    let s := s.setNum (a + 8) 4 (s.vdev vdev).gen
    let s := s.setNum (a + 0xC) 4 (e.place + deviceFe s vdev)
    let s := s.setNum (a + 0x10) 8 e.pc
    let s := s.setNum (a + 0x18) 8 (e.word % 2 ^ 32)
    let s := s.setNum (a + 0x20) 8 e.wid
    let s := s.setNum (a + 0x28) 8 e.aux
    s.setNum (a + 0x30) 80 (e.aux2 % 2 ^ 32)

/-- The place field of a group (R334): cluster, core, slot. -/
def placeOf (core slot : Nat) : Nat := clusterOf core * 2 ^ 16 + core % 4 * 2 ^ 14 + slot * 2 ^ 12

/-- A new token of a device (R305), 1 to 65,535. -/
def newToken (s : State) (vdev : Nat) (k : TokKind) (note : Nat := 0) : State × Nat :=
  let t := (s.nextTok - 1) % 65535 + 1
  ({ s with nextTok := s.nextTok + 1 }.updVdev vdev fun d => { d with tokens := mset d.tokens t ⟨k, d.gen, note⟩ }, t)

/-! ## Releases, acquires, energy -/


/-- A release on LSU at a core (R289): at .clu and wider every dirty L1 sector is written back. -/
def releaseLsu (s : State) (core : Nat) (sc : Scope) : State := if 3 ≤ scopeCode sc then s.writeBackAll core else s

/-- An acquire on LSU at a core (R289): at .clu and wider clean L1 lines are invalidated. -/
def acquireLsu (s : State) (core : Nat) (sc : Scope) : State := if 3 ≤ scopeCode sc then s.dropClean core else s

/-! ## Lanes -/

/-- The lanes of a mask, lowest first. -/
def lanesOf (m : Mask) : List Nat := (List.range 64).filter fun i => m.getLsbD i

/-- The mask of one lane. -/
def laneBit (i : Nat) : Mask := (1 : Mask) <<< i

/-- The mask of a list of lanes. -/
def maskOf (l : List Nat) : Mask := l.foldl (fun m i => m ||| laneBit i) 0

/-- The lowest lane of a mask, 127 when there is none (R320). -/
def lowLane (m : Mask) : Nat := ((lanesOf m).head?).getD 127

/-- Number of lanes. -/
def laneCount (m : Mask) : Nat := (lanesOf m).length

/-- The sets of some lanes that share a value, in order of their lowest lane (R73, R90). -/
def laneSets (v : Nat → Nat) : Nat → List Nat → List (Nat × Mask)
  | 0, _ => []
  | _, [] => []
  | fuel + 1, l :: t =>
    (v l, maskOf ((l :: t).filter fun k => decide (v k = v l))) :: laneSets v fuel (t.filter fun k => decide (v k ≠ v l))

/-- Active quarters of a mask (R45, R65). -/
def quartersOf (m : Mask) : List Nat := (List.range 4).filter fun q => decide ((m >>> (16 * q)) &&& 0xFFFF ≠ 0)

/-! ## The path table (R72 to R75) -/

/-- The place of the current entry: the first whose state is RUN or WAIT (R72). -/
def curIdx (ps : List PathEntry) : Option Nat :=
  match ps with
  | [] => none
  | p :: r => if p.st = .run ∨ p.st = .wait then some 0 else (curIdx r).map (· + 1)

/-- The current entry. -/
def curPath (ps : List PathEntry) : Option PathEntry := (curIdx ps).bind fun i => ps[i]?

/-- Exactly the current entry is RUN (R72). -/
def settle (ps : List PathEntry) : List PathEntry :=
  match curIdx ps with
  | none => ps
  | some i => ps.zipIdx.map fun (p, k) => if k = i then { p with st := .run } else if p.st = .run then { p with st := .wait } else p

/-- Change the current entry. -/
def setCur (ps : List PathEntry) (f : PathEntry → PathEntry) : List PathEntry :=
  match curIdx ps with
  | none => ps
  | some i => ps.modify i f

/-- Insert entries right after the one in RUN. -/
def insertAfterRun (new : List PathEntry) : List PathEntry → List PathEntry
  | [] => new
  | p :: r => if p.st = .run then p :: (new ++ r) else p :: insertAfterRun new r

/-- The entries ARRIVED at a join merged into the earliest of them, which runs on after a JOIN (R73): the one at `at_`, whose lanes are the last to
arrive, else, after a removal, its own. -/
def mergeAt (at_ : Option Nat) (j : Nat) : List PathEntry → List PathEntry
  | [] => []
  | p :: r =>
    if p.st = .arrived j then
      let m := r.foldl (fun m q => if q.st = .arrived j then m ||| q.mask else m) p.mask
      { p with mask := m, pc := (at_.getD p.pc + 4) % 2 ^ 64, st := .wait } :: r.filter fun q => decide (q.st ≠ .arrived j)
    else p :: mergeAt at_ j r

/-- Test every open record after lanes left it (R73). -/
def testJoins (ps : List PathEntry) (js : AMap JoinRec) : List PathEntry × AMap JoinRec :=
  js.foldl (fun (acc : List PathEntry × AMap JoinRec) e =>
    if e.2.expect = 0 then (acc.1, merase acc.2 e.1)
    else if e.2.arrived = e.2.expect then (mergeAt none e.1 acc.1, merase acc.2 e.1)
    else acc) (ps, js)

/-- A chain belongs to the path that opened it: where another entry has become current than in `old`, it is over (R70). -/
def GCtl.cutChain (old c : GCtl) : GCtl :=
  if (curPath c.paths).map (·.stamp) = (curPath old.paths).map (·.stamp) then c else { c with chain := none, packed := [] }

/-- Take lanes out of every entry and every open record, and test the records again (R73, R96). -/
def GCtl.takeOut (c : GCtl) (m : Mask) : GCtl :=
  let ps := (c.paths.map fun p => { p with mask := p.mask &&& ~~~m }).filter fun p => decide (p.mask ≠ 0)
  let x := testJoins ps (mmapv c.joins fun _ j => { j with expect := j.expect &&& ~~~m, arrived := j.arrived &&& ~~~m })
  { c with paths := x.1, joins := x.2 }

/-- The same, after which the first RUN or WAIT entry is current (R72). -/
def GCtl.dropLanes (c : GCtl) (m : Mask) : GCtl :=
  let d := c.takeOut m
  c.cutChain { d with paths := settle d.paths }

/-- Every lane that is on some path. -/
def allLanes (ps : List PathEntry) : Mask := ps.foldl (fun m p => m ||| p.mask) 0

/-- What the thread of a lane keeps (R75, R77): its own where the threads differ, else its group's. -/
def Group.laneHome (g : Group) (l : Nat) : Home := (find? g.r.home l).getD ⟨g.info.owner, g.info.wg, g.info.prog, g.info.fields, g.info.role⟩

/-- The owner of a lane's thread, its workgroup, its launch, the widths of its work identifier. -/
def Group.laneOwner (g : Group) (l : Nat) : Owner := (g.laneHome l).owner
def Group.laneWg (g : Group) (l : Nat) : Nat := (g.laneHome l).wg
def Group.laneProg (g : Group) (l : Nat) : Program := (g.laneHome l).prog
def Group.laneFields (g : Group) (l : Nat) : List Nat := (g.laneHome l).fields

/-- Whether some thread of a group has an owner, or belongs to a workgroup. -/
def Group.owned (g : Group) (o : Owner) : Bool :=
  if g.r.home = [] then decide (g.info.owner = o) else (lanesOf (allLanes g.c.paths)).any fun l => decide (g.laneOwner l = o)
def Group.member (g : Group) (w : Nat) : Bool :=
  if g.r.home = [] then decide (g.info.wg = w) else (lanesOf (allLanes g.c.paths)).any fun l => decide (g.laneWg l = w)

/-- The active lanes, lowest first (R66). -/
def Group.activeLanes (g : Group) : List Nat := lanesOf (((curPath g.c.paths).map (·.mask)).getD 0)

/-- The lane for which a uniform instruction acts: the lowest active one, as %wbase reads (R76). -/
def Group.uniLane (g : Group) : Nat := lowLane (((curPath g.c.paths).map (·.mask)).getD 0)

/-! ## Threads handed to the former (R75, R76, R80) -/

/-- Bytes an entry occupies: a 32-byte header and its payload rounded up to 32 (R76). -/
def entryBytes (payload : Nat) : Nat := 32 + (payload + 31) / 32 * 32

/-- Bytes a core's spawn buffer holds (R76). -/
def spawnUse (k : Core) : Nat := k.entries.foldl (fun n e => if e.overflow then n else n + e.bytes) 0

/-- Whether `n` entries of `bytes` bytes each find room: those that the buffer does not take must fit the context's spawn area (R80). -/
def spawnRoom (s : State) (core vdev n bytes : Nat) : Bool :=
  let rest := n - (131072 - spawnUse (s.core core)) / max 1 bytes
  decide (rest = 0) || decide ((s.vdev vdev).spawnUsed + rest * bytes ≤ s.num (crb s vdev + 0x18) 8)

/-- Put an entry into a core's former, or into the spawn area when the buffer is full (R80). -/
def addEntry (s : State) (core : Nat) (e : FEntry) : State :=
  let (s, n) := s.fresh
  if spawnUse (s.core core) + e.bytes ≤ 131072 then
    s.updCore core fun k => { k with entries := k.entries ++ [{ e with order := n, at_ := s.now }] }
  else
    (s.updVdev e.vdev fun d => { d with spawnUsed := d.spawnUsed + e.bytes }).updCore core
      fun k => { k with entries := k.entries ++ [{ e with order := n, at_ := s.now, overflow := true }] }

/-- The registers of one lane as an entry's payload. -/
def laneRegs {α : Type} (m : AMap α) (lane : Nat) : AMap α :=
  m.filterMap fun e => if e.1 / 128 = lane then some (e.1 % 128, e.2) else none

/-- Whether a packet is one that a uniform register of the group awaits (R87, R305). -/
def awaited (marks : AMap Mark) (q : Nat) : Bool := marks.any fun e => decide (e.2.req = q)

/-- The entry a thread leaves with (R75): pc, registers, identifier, window, g0 to g5; with its marks, packets and held slots, and the packets that
its g0 to g5 await. (DEDUCED, log 39) -/
def splitEntry (g : Group) (gid : Nat) (lane pc now : Nat) : FEntry where
  source := .split
  vdev := g.info.vdev
  pc := pc
  alloc := g.c.alloc
  width := g.info.width
  g := (List.range 6).map fun i => mget 0 g.r.g i
  prio := g.info.prio
  owner := g.laneOwner lane
  prog := g.laneProg lane
  fields := g.laneFields lane
  wg := g.laneWg lane
  parent := gid
  role := (g.laneHome lane).role
  f1 := g.info.f1
  frame := g.info.frame
  wid := mget 0 g.r.wid lane
  seq := find? g.r.recs lane
  key := 0
  regs := laneRegs g.r.v lane
  marks := laneRegs g.r.vmark lane
  gmarks := mfilter g.r.gmark fun i _ => decide (i < 6)
  stack := mget [] g.r.stack lane
  win := mget (g.c.lsBase, g.c.lsLen) g.r.laneWin lane
  at_ := now
  order := 0
  batch := 0
  bytes := entryBytes (g.c.alloc * 32)
  overflow := false
  gen := g.info.gen
  due := false
  slots := (g.c.slots.filter fun e => decide (e.1 = lane)).map (·.2)
  pkts := g.c.reqs.filterMap fun e =>
    if e.2.token ≠ 0 ∧ (e.2.lanes.getLsbD lane ∨ awaited (mfilter g.r.gmark fun i _ => decide (i < 6)) e.1) then
      some (e.1, { e.2 with lanes := e.2.lanes &&& laneBit lane })
    else none
  fatal := find? g.c.fatal lane

/-- Whether `n` threads of a group find room in the former or the spawn area (R80). -/
def roomFor (s : State) (g : Group) (n : Nat) : Bool := spawnRoom s g.info.core g.info.vdev n (entryBytes (g.c.alloc * 32))

/-- Enter the lanes of `m` in the former of the group's core, to run on at `pc` (R75). -/
def enterLanes (s : State) (gid : Nat) (g : Group) (m : Mask) (pc : Nat) : State :=
  (lanesOf m).foldl (fun s i => addEntry s g.info.core (splitEntry g gid i pc s.now)) s

/-- What a group forgets of lanes that left it. -/
def GRegs.forget (r : GRegs) (m : Mask) : GRegs :=
  { r with recs := mfilter r.recs fun i _ => !m.getLsbD i, stack := mfilter r.stack fun i _ => !m.getLsbD i }

/-- The requests without some lanes: a packet that no lane owns any more goes, but for one that a uniform register awaits (R87). -/
def dropPackets (reqs : AMap Req) (marks : AMap Mark) (m : Mask) : AMap Req :=
  mfilter (mmapv reqs fun _ r => if r.token = 0 then r else { r with lanes := r.lanes &&& ~~~m })
    fun q r => decide (r.token = 0) || decide (r.lanes ≠ 0) || awaited marks q

/-- What the control state forgets of lanes that left: their packets, fatal marks and held slots go with them. -/
def GCtl.forget (c : GCtl) (marks : AMap Mark) (m : Mask) : GCtl :=
  { c with
    slots := c.slots.filter fun e => !m.getLsbD e.1
    fatal := mfilter c.fatal fun i _ => !m.getLsbD i
    reqs := dropPackets c.reqs marks m }

/-- Hand the lanes of `m`, which run on at `pc`, to the former of the group's core, and take them out of the group's records (R75). -/
def handOver (s : State) (gid : Nat) (m : Mask) (pc : Nat) : State :=
  match s.group? gid with
  | none => s
  | some g => (enterLanes s gid g m pc).updGroup gid fun g => { g with c := (g.c.dropLanes m).forget g.r.gmark m, r := g.r.forget m }

/-- The oldest WAIT or ARRIVED entry, by creation stamp (R74). -/
def oldestEvictable (ps : List PathEntry) : Option PathEntry :=
  (ps.filter fun p => decide (p.st ≠ .parked) && decide (p.st ≠ .run)).foldl
    (fun (b : Option PathEntry) p => match b with
      | none => some p
      | some q => if p.stamp < q.stamp then some p else some q) none

/-- Add entries after the one in RUN (R74): each entry lacking evicts the oldest WAIT or ARRIVED entry; when only PARKED entries are
left, the last new entries leave instead. The answer lists the lanes that leave with the address they run on at: an evicted ARRIVED
entry executes its JOIN again (R75). -/
def placePaths : Nat → List PathEntry → GCtl → GCtl × List (Mask × Nat)
  | 0, _, c => (c, [])
  | fuel + 1, new, c =>
    if c.paths.length + new.length ≤ 8 then ({ c with paths := settle (insertAfterRun new c.paths) }, [])
    else match oldestEvictable c.paths with
      | some p => let x := placePaths fuel new (c.takeOut p.mask); (x.1, (p.mask, p.pc) :: x.2)
      | none => match new.getLast? with
        | none => (c, [])
        | some p => let x := placePaths fuel new.dropLast (c.takeOut p.mask); (x.1, (p.mask, p.pc) :: x.2)

/-- Add entries after the current one; the threads that must leave go to the former (R74, R75). -/
def addPaths (s : State) (gid : Nat) (new : List PathEntry) : State :=
  match s.group? gid with
  | none => s
  | some g =>
    let x := placePaths 80 new g.c
    let s := x.2.foldl (fun s e => enterLanes s gid g e.1 e.2) s
    let out := x.2.foldl (fun m e => m ||| e.1) 0
    s.updGroup gid fun g => { g with c := x.1.forget g.r.gmark out, r := g.r.forget out }

/-- Stamps for new entries, in order. -/
def stamped (c : GCtl) (new : List PathEntry) : GCtl × List PathEntry :=
  ({ c with nextStamp := c.nextStamp + new.length }, new.zipIdx.map fun (p, k) => { p with stamp := c.nextStamp + k })

/-! ## Ordinary operands of groups -/

/-- Read a uniform register. -/
def Group.ug (g : Group) (r : Nat) : Word := mget 0 g.r.g r

/-- Write a uniform register: the write clears a mark (R305). -/
def GRegs.setG (r : GRegs) (i : Nat) (v : Word) : GRegs := { r with g := dset 0 r.g i v, gmark := merase r.gmark i }

/-- Write a uniform destination: 56 discards (R57). -/
def GRegs.setU (r : GRegs) (d : UDst) (v : Word) : GRegs :=
  match d with
  | .g i => r.setG i.val v
  | .zero => r

/-- Write a 64-bit uniform destination (R2). -/
def GRegs.setU64 (r : GRegs) (d : UDst) (v : DWord) : GRegs :=
  match d with
  | .g i => (r.setG i.val (v.setWidth 32)).setG (i.val + 1) ((v >>> 32).setWidth 32)
  | .zero => r

/-- Read a vector register of a lane. -/
def GRegs.getV (r : GRegs) (lane i : Nat) : Word := mget 0 r.v (lane * 128 + i)

/-- Write a vector register of a lane: the write clears a mark (R305). -/
def GRegs.setV (r : GRegs) (lane i : Nat) (v : Word) : GRegs :=
  { r with v := dset 0 r.v (lane * 128 + i) v, vmark := merase r.vmark (lane * 128 + i) }

/-- Write consecutive registers of a lane. -/
def GRegs.setVs (r : GRegs) (lane i : Nat) : List Word → GRegs
  | [] => r
  | w :: t => (r.setV lane i w).setVs lane (i + 1) t

/-- Mark a vector register of a lane poisoned (R305). -/
def GRegs.markV (r : GRegs) (lane i : Nat) (m : Mark) : GRegs := { r with vmark := mset r.vmark (lane * 128 + i) m }

/-- A group the former built from a handler burst or split threads (R78). -/
def Group.formerBuilt (g : Group) : Bool :=
  match g.info.source with
  | .handler _ | .split => true
  | _ => false

/-- End a group's scoreboard entry, ORing its flags into FSTAT (R69, R107). -/
def Group.freeEntry (g : Group) (e : Nat) : Group :=
  match find? g.c.sb e with
  | none => g
  | some p => { g with c := { g.c with sb := merase g.c.sb e }, r := { g.r with fstat := g.r.fstat ||| p.flags } }

/-! ## Barriers (R296 to R298) -/

/-- The objects a barrier operand reaches: workgroup (C = 0) or gang (C = 1); the index is in bits 5:0 and C in bit 8 (R297). -/
def barObj (s : State) (g : Group) (obj : Nat) : Option Barrier :=
  if bit obj 8 then g.info.gang.bind fun a => (find? s.gangs a).map fun a => mget ⟨0, 0, 0, false, false⟩ a.bars (obj % 64)
  else (s.wg? g.info.wg).map fun w => mget ⟨0, 0, 0, false, false⟩ w.bars (obj % 64)

/-- Replace the object a barrier operand reaches. -/
def setBarObj (s : State) (g : Group) (obj : Nat) (b : Barrier) : State :=
  if bit obj 8 then match g.info.gang with
    | none => s
    | some a => s.updGang a fun k => { k with bars := mset k.bars (obj % 64) b }
  else s.updWg g.info.wg fun w => { w with bars := mset w.bars (obj % 64) b }

/-- The word a barrier instruction returns: phase and status (R297). -/
def barWord (phase status : Nat) : Word := BitVec.ofNat 32 (phase * 2 ^ 16 + status)

/-- Let every group waiting at a workgroup's or gang's objects go that no longer has to wait: BROKEN, or OK as an acquire (R297, R298). -/
def wakeBars (s : State) (wg : Nat) (gang : Option Nat) : State :=
  s.groups.foldl (fun s e =>
    match e.2.c.wait with
    | .bar obj ph sc d ob =>
      if e.2.info.wg = wg ∨ (gang ≠ none ∧ e.2.info.gang = gang) then
        match barObj s e.2 obj with
        | none => s
        | some b =>
          if b.brk then
            s.updGroup e.1 fun g => { g with c := { g.c with wait := .none }, r := g.r.setU d (barWord (if ob then b.ph else ph) 1) }
          else if b.ph ≠ ph then
            (acquireLsu s e.2.info.core sc).updGroup e.1
              fun g => { g with c := { g.c with wait := .none }, r := g.r.setU d (barWord (if ob then b.ph else ph) 0) }
          else s
      else s
    | _ => s) s

/-- Break every barrier object of a workgroup and of its gang (R332). -/
def breakBars (s : State) (wg : Nat) (gang : Option Nat) : State :=
  let s := s.updWg wg fun w =>
    { w with bars := (List.range w.prog.wbar).foldl (fun m i => mset m i { mget ⟨0, 0, 0, false, false⟩ m i with brk := true }) w.bars }
  let s := match gang with
    | none => s
    | some a => s.updGang a fun k =>
      { k with bars := (List.range k.cbar).foldl (fun m i => mset m i { mget ⟨0, 0, 0, false, false⟩ m i with brk := true }) k.bars }
  wakeBars s wg gang

/-- The kills of this cc break their objects now: after its arrivals, so that a phase that one of these completes has returned OK (R333). -/
def applyBreaks (s : State) : State := s.breaking.foldl (fun s h => breakBars s h.1 h.2) { s with breaking := [] }

/-- The workgroups of a group's threads, the first with the group's gang: a group that the former built from split threads may hold several (R75,
R77), and has no gang (R78). -/
def Group.homes (g : Group) : List (Nat × Option Nat) :=
  (g.info.wg, g.info.gang)
    :: (((lanesOf (allLanes g.c.paths)).map g.laneWg).eraseDups.filter fun w => decide (w ≠ g.info.wg)).map fun w => (w, none)

/-- Every open phase of some objects that took the default count expects one arrival less, and completes if that suffices (R298). -/
def lowerDefault (m : AMap Barrier) : AMap Barrier :=
  mmapv m fun _ b =>
    if b.dflt && decide (0 < b.arr) then
      if b.exp - 1 ≤ b.arr then { b with exp := b.exp - 1, arr := 0, ph := (b.ph + 1) % 2 ^ 16, dflt := false }
      else { b with exp := b.exp - 1 }
    else b

/-! ## The end of threads and groups (R329 to R332, R189) -/

/-- Void reserved slots of an edge (R189): a voided slot is reclaimed in order without a birth. -/
def voidSlot (s : State) (edge seq : Nat) : State :=
  s.updEdge edge fun e => { e with voided := nins e.voided seq, ready := ndel e.ready seq }

/-- The edge key of a descriptor of a context. -/
def edgeKey (vdev desc : Nat) : Nat := vdev * 2 ^ 64 + desc

/-- A group's part of a first-error record (R334). -/
def groupErr (g : Group) (code pc word : Nat) (m : Mask) : ErrRec where
  src := 1
  code := code
  place := placeOf g.info.core g.info.slot
  pc := pc
  word := word
  wid := if m = 0 then 0 else (mget 0 g.r.wid (lowLane m)).toNat
  aux := 0
  aux2 := 0

/-- What ends with the threads of `m` (R13, R14, R189): held slots are voided, with the sticky error on an exit; a record thread's slot
is finished, and on a KEY edge its end is a release at device scope. -/
def endThreads (s : State) (_gid : Nat) (g : Group) (m : Mask) (exit : Bool) (pc : Nat) : State :=
  let s := g.c.slots.foldl (fun s (lane, edge, seq) =>
    if m.getLsbD lane then
      let s := voidSlot s edge seq
      if exit then stickyError s g.info.vdev { groupErr g 0x24 pc 0 (laneBit lane) with
        src := 4, aux := edge % 2 ^ 64, aux2 := seq % 2 ^ ((find? s.edges edge).map (·.capl)).getD 0 } else s
    else s) s
  let done := (g.r.recs.filter fun e => m.getLsbD e.1).filterMap fun e => match g.laneOwner e.1 with
    | .stage edge => some (edge, e.2)
    | _ => none
  let key := done.any fun x => (find? s.edges x.1).any fun e => decide (e.ord = 2)
  let s := if key then s.writeBackAll g.info.core else s
  done.foldl (fun s x => s.updEdge x.1 fun k => { k with finished := nins k.finished x.2, alive := merase k.alive x.2 }) s

/-- Whether the group issued requests that a release of its reservations must wait for: MMARs still in the engine (R226). -/
def groupResvs (k : Core) (gid : Nat) : List Nat := (k.resv.filter fun e => decide (e.2.owner = gid)).map (·.1)

/-- A reservation released: its B latches are dropped at once (R226, R232). -/
def markReleased (k : Core) (slot : Nat) : Core :=
  ({ k with resv := mupd k.resv slot fun r => { r with released := true } } : Core).dropLatch
    fun b => (find? k.resv slot).any fun r => decide (b.words = r.words)

/-- Free a reservation slot: its generation rises (R225). -/
def freeSlot (k : Core) (slot : Nat) : Core :=
  { k with resv := merase k.resv slot, resvGen := mset k.resvGen slot ((mget 0 k.resvGen slot + 1) % 128) }

/-- The end of a group that has no thread left (R329, R331): its reservations are released, its token freed, its registers and quarters
returned; unless it was killed as a group, its end lowers the default counts of its barriers (R298). -/
def endGroup (s : State) (gid : Nat) (killed : Bool) : State :=
  match s.group? gid with
  | none => s
  | some g =>
    let s := killSteps { s with groups := merase s.groups gid } g.info.core gid
    let s := s.updCore g.info.core fun k =>
      let k := (groupResvs k gid).foldl markReleased k
      { k with mmars := k.mmars.filter fun m => decide (m.group ≠ gid), rules := k.rules.filter fun r => decide (r.group ≠ gid)
               blatch := mfilter k.blatch fun _ b => decide (b.group ≠ gid) }
    let s := s.updWg g.info.wg fun w =>
      { w with token := if w.token = some gid then none else w.token, tokenWait := w.tokenWait.filter fun x => decide (x ≠ gid) }
    let s := { s with cur := if s.cur = some gid then none else s.cur }
    if killed || g.formerBuilt then s
    else
      let s := s.updWg g.info.wg fun w => { w with bars := lowerDefault w.bars }
      let s := match g.info.gang with
        | none => s
        | some a => s.updGang a fun k => { k with bars := lowerDefault k.bars }
      wakeBars s g.info.wg g.info.gang

/-- Lanes leave a group for good (EXIT, a fault, a kill): R96, R73, R306. Packets that no lane owns any more go; the group ends when no
thread is left. -/
def removeLanes (s : State) (gid : Nat) (m : Mask) (exit : Bool) (pc : Nat) : State :=
  match s.group? gid with
  | none => s
  | some g =>
    let s := endThreads s gid g m exit pc
    let s := s.updGroup gid fun g => { g with
      c := { g.c.dropLanes m with
        slots := g.c.slots.filter fun e => !m.getLsbD e.1
        fatal := mfilter g.c.fatal fun i _ => !m.getLsbD i
        reqs := if exit then g.c.reqs else dropPackets g.c.reqs g.r.gmark m }
      r := { g.r with recs := mfilter g.r.recs fun i _ => !m.getLsbD i, stack := mfilter g.r.stack fun i _ => !m.getLsbD i } }
    match s.group? gid with
    | none => s
    | some g => if g.c.paths = [] then endGroup s gid false else s

/-- Kill a group (R49, R332): every thread on every path; its barriers and its gang's are broken, after the arrivals of this cc (R333); packets are
discarded. -/
def killGroup (s : State) (gid : Nat) : State :=
  match s.group? gid with
  | none => s
  | some g =>
    let s := endThreads s gid g (allLanes g.c.paths) false 0
    let s := endGroup s gid true
    { s with breaking := s.breaking ++ g.homes }

/-! ## Taking a trap (R303, R304) -/

/-- The kill of a precise trap with a cause that lanes `m` raised at `pc`, or of an illegal word (0x3F): the group is killed, the sticky error set
with the cause, and an event of type KILL logged (R49, R303; DEDUCED for the illegal word, log 11). `word` is the illegal word. -/
def takeKillAt (s : State) (gid code pc word : Nat) (m : Mask) : State :=
  match s.group? gid with
  | none => s
  | some g =>
    let s := stickyError s g.info.vdev (groupErr g code pc word m)
    let s := logEvent s g.info.vdev evKill code 0 (lowLane m) g.info.gen 0 pc g.info.core g.info.slot 0
    killGroup s gid

/-- The same for the current path. -/
def takeKill (s : State) (gid code pc word : Nat) : State :=
  takeKillAt s gid code pc word (((s.group? gid).bind fun g => (curPath g.c.paths).map (·.mask)).getD 0)

/-- TRAPMODE of a context: STOP (R304, R319). -/
def trapStops (s : State) (vdev : Nat) : Bool := bit (s.num (crb s vdev) 4) 1

/-- PRIV of a context (R319). -/
def privileged (s : State) (vdev : Nat) : Bool := bit (s.num (crb s vdev) 4) 0

/-- TRAP, BKPT and RSTACK under TRAPMODE STOP: the group stops; ERRST takes KIND 3 and the code; an event of type TRAP with a token is
logged whose ADDR is `arg` (R304). -/
def takeStop (s : State) (gid code arg pc : Nat) : State :=
  match s.group? gid with
  | none => s
  | some g =>
    let m := ((curPath g.c.paths).map (·.mask)).getD 0
    let (s, t) := newToken s g.info.vdev (.trap gid) (((curPath g.c.paths).map (·.stamp)).getD 0)
    let s := s.updGroup gid fun g =>
      { g with c := { g.c with wait := .trapped t code }, r := { g.r with errst := BitVec.ofNat 32 (3 * 2 ^ 28 + code) } }
    logEvent s g.info.vdev evTrap code 0 (lowLane m) g.info.gen arg pc g.info.core g.info.slot t

/-- TRAP (0x35), BKPT (0x36) and return-stack overflow (0x37) by TRAPMODE (R304). The answer says whether the instruction acts as UNOP. -/
def takeTrap (s : State) (gid code arg pc : Nat) : State × Bool :=
  match s.group? gid with
  | none => (s, false)
  | some g =>
    if trapStops s g.info.vdev then (takeStop s gid code arg pc, false)
    else if code = 0x36 then (s, true)
    else (takeKill s gid code pc 0, false)

/-! ## Taking a memory fault (R305, R306) -/

/-- ERRST of a memory fault (R301). -/
def errFault (code skid : Nat) : Word := BitVec.ofNat 32 (2 * 2 ^ 28 + min skid 255 * 2 ^ 8 + code)

/-- Lanes that hold a fatal mark take their fault: their threads are killed, ERRST, the sticky error and an event record it (R306). -/
def takeFaults (s : State) (gid : Nat) (m : Mask) (pc : Nat) : State :=
  match s.group? gid with
  | none => s
  | some g =>
    let fs := g.c.fatal.filter fun e => m.getLsbD e.1
    match fs with
    | [] => s
    | (lane, f) :: _ =>
      let mm := maskOf (fs.map (·.1))
      let s := s.updGroup gid fun g => { g with r := { g.r with errst := errFault f.code f.skid } }
      let s := stickyError s g.info.vdev (groupErr g f.code pc 0 (laneBit lane))
      let s := logEvent s g.info.vdev evMemfault f.code f.skid lane g.info.gen f.va pc g.info.core g.info.slot 0
      removeLanes s gid mm false pc

/-- Give each of some lanes a fatal mark (R305); an older mark stands. -/
def GCtl.addFatal (c : GCtl) (m : Mask) (f : Nat → FMark) : GCtl :=
  { c with fatal := (lanesOf m).foldl (fun a i => if (find? a i).isSome then a else mset a i (f i)) c.fatal }

/-- The address of a request in a lane; that of a uniform request has key 64. (DEDUCED, log 65) -/
def Req.va (r : Req) (lane : Nat) : Nat := (find? r.addr lane).getD (mget 0 r.addr 64)

/-- Spawn exhaustion (R80, R322): the source stalls, the part starts a SAVE of the context by itself, and an event of type SPAWNX with a
token is logged. -/
def spawnExhausted (s : State) (gid vdev core slot pc : Nat) : State :=
  let s := s.updGroup gid fun g => { g with c := { g.c with wait := .spawnFull, chain := none, packed := [] } }
  if (s.vdev vdev).st ≠ .live then s
  else
    let r := newToken (s.updVdev vdev fun d => { d with st := .saving }) vdev .spawn
    logEvent r.1 vdev evSpawnx 0x40 0 127 (s.vdev vdev).gen 0 pc core slot r.2

/-- The whole current path parks (R305, R306); the chain it was in is over. -/
def parkPath (s : State) (gid : Nat) : State :=
  s.updGroup gid fun g =>
    { g with c := { g.c with chain := none, packed := [], paths := settle (setCur g.c.paths fun p => { p with st := .parked }) } }

/-- Lanes `m` of the current path consume poison at `pc` (R306): the path parks, or those lanes split off as a PARKED entry after it;
every lane of the parked entry that holds a fatal mark takes its fault. The answer is the mask in which the instruction still executes. -/
def consume (s : State) (gid : Nat) (m : Mask) (pc : Nat) : State × Mask :=
  match s.group? gid with
  | none => (s, 0)
  | some g =>
    match curPath g.c.paths with
    | none => (s, 0)
    | some p =>
      if m = 0 then (s, p.mask)
      else
        let others := p.mask &&& ~~~m
        let full : Bool := decide (g.c.paths.length = 8)
        let evict := oldestEvictable g.c.paths
        if others = 0 || (full && evict.isNone) then
          (takeFaults (parkPath s gid) gid p.mask pc, 0)
        else if full && !roomFor s g (laneCount ((evict.map (·.mask)).getD 0)) then
          (spawnExhausted s gid g.info.vdev g.info.core g.info.slot pc, 0)
        else
          let s := s.updGroup gid fun g => { g with c := { g.c with paths := setCur g.c.paths fun p => { p with mask := others } } }
          let s := addPaths s gid [⟨pc, m, .parked, g.c.nextStamp⟩]
          let s := s.updGroup gid fun g => { g with c := { g.c with nextStamp := g.c.nextStamp + 1 } }
          (takeFaults s gid m pc, others)

end Sys2Proof.Machine
end

