-- ==== Sys2Proof/Machine/Operands.lean ====
section
/-! DEFINITION. Operand forms (R52 to R58): what each source reads, what each destination writes, and what a word needs of its group
before it issues: the registers it names, the latches it reads and writes, its scoreboard entry (R50, R54, R69, R70, R306). -/
namespace Sys2Proof.Machine

/-! ## Sources -/

/-- The local-store window of a lane: its own for a split thread (R76), its workgroup's otherwise. -/
def laneWindow (g : Group) (lane : Nat) : Nat × Nat := mget (g.c.lsBase, g.c.lsLen) g.r.laneWin lane

/-- The window that %wbase reads: that of the lowest active lane (R76). -/
def uniWindow (g : Group) : Nat × Nat := laneWindow g g.uniLane

/-- A uniform source (R57). -/
def usrc (s : State) (g : Group) : USrc → Word
  | .g r => g.ug r.val
  | .zero => 0
  | .wbaseLo => BitVec.ofNat 32 (uniWindow g).1
  | .wbaseHi => BitVec.ofNat 32 (uniWindow g).2
  | .role => BitVec.ofNat 32 (g.laneHome g.uniLane).role
  | .frame => BitVec.ofNat 32 g.info.frame
  | .gang => BitVec.ofNat 32 g.info.gangSize
  | .cyc => BitVec.ofNat 32 (s.now - s.sys.cycBase)
  | .lit w => w

/-- Two words as a dword, the low word first (R2). -/
def dword (lo hi : Word) : DWord := hi ++ lo

/-- The low and high words of a dword. -/
def loWord (x : DWord) : Word := x.setWidth 32
def hiWord (x : DWord) : Word := (x >>> 32).setWidth 32

/-- A uniform pair as a source; 56 reads as a zero pair (R54, R57). -/
def upair (g : Group) : UDst → DWord
  | .g r => dword (g.ug r.val) (g.ug (r.val + 1))
  | .zero => 0

/-- A field that a wide form reads as a pair: a register or zero (R54, R58). -/
def usrcPair (g : Group) : USrc → DWord
  | .g r => dword (g.ug r.val) (g.ug (r.val + 1))
  | _ => 0

/-- The uniform block of an engine word (R58). -/
def ublock (g : Group) (p m : Nat) : List Word := (List.range m).map fun i => g.ug (p + i)

/-- A latch of a lane. -/
def getLatch (g : Group) (lane i : Nat) : Word := mget 0 g.r.latch (lane * 4 + i)

/-- A per-lane source (R52). -/
def lsrc (g : Group) (lane : Nat) : LSrc → Word
  | .v r => g.r.getV lane r.val
  | .b i => getLatch g lane i.val
  | .zero => 0
  | .lane => BitVec.ofNat 32 lane
  | .widLo => loWord (mget 0 g.r.wid lane)
  | .widHi => hiWord (mget 0 g.r.wid lane)
  | .g i => g.ug i.val
  | .lit w => w

/-- A vector pair of a lane. -/
def getPair (g : Group) (lane r : Nat) : DWord := dword (g.r.getV lane r) (g.r.getV lane (r + 1))

/-- A per-lane pair field (R54). -/
def lpair (g : Group) (lane : Nat) : LPair → DWord
  | .v r => getPair g lane r.val
  | .zero => 0

/-- A single field as a 64-bit source: a literal is sign-extended, everything else supplies bits 31:0 (R54). -/
def lsrc64 (g : Group) (lane : Nat) : LSrc → DWord
  | .lit w => w.signExtend 64
  | a => (lsrc g lane a).setWidth 64

/-- `n` consecutive registers of a lane. -/
def getVs (g : Group) (lane r n : Nat) : List Word := (List.range n).map fun i => g.r.getV lane (r + i)

/-- `n` words of a single field that a store size widens (R55): 116 reads zero. -/
def lsrcWords (g : Group) (lane n : Nat) (a : LSrc) : List Word :=
  if n = 1 then [lsrc g lane a]
  else match a with
    | .v r => getVs g lane r.val n
    | _ => List.replicate n 0

/-! ## Destinations -/

/-- Write a latch of a lane. -/
def GRegs.setLatch (r : GRegs) (lane i : Nat) (v : Word) : GRegs := { r with latch := dset 0 r.latch (lane * 4 + i) v }

/-- The register a per-lane destination names, none for the latch alone (R53). -/
def dstReg : LDst → Option Nat
  | .v r => some r.val
  | .latch => none

/-- One lane's result: the words that go to its destination and the flags it raises. -/
structure LaneOut where
  words : List Word
  flags : Flags

/-- One lane's result written to its destination register or registers and to the latch of the pipe, which holds the first word (R53). -/
def writeLane (r : GRegs) (lane : Nat) (d : Option Nat) (pipe : Nat) (ws : List Word) : GRegs :=
  let r := match d with
    | some n => r.setVs lane n ws
    | none => r
  r.setLatch lane pipe (ws.headD 0)

/-- The results of every lane of a mask written; each lane's result is computed from the group as it issued (R66). -/
def writeLanes (r : GRegs) (d : Option Nat) (pipe : Nat) (f : Nat → LaneOut) : List Nat → GRegs
  | [] => r
  | i :: t => writeLanes (writeLane r i d pipe (f i).words) d pipe f t

/-- The flags that the lanes of a list raise together (R128). -/
def flagsOf (f : Nat → LaneOut) (l : List Nat) : Flags := l.foldl (fun a i => a ||| (f i).flags) 0

/-! ## What a word needs -/

/-- What an instruction needs before it issues. Vector blocks are (first, count, alignment), uniform blocks (first, count). -/
structure Need where
  /-- Per-lane set (R48). -/
  lane : Bool
  vsrc : List (Nat × Nat × Nat) := []
  vdst : List (Nat × Nat × Nat) := []
  /-- Registers read as store data, whose data poison is stored and not consumed (R180, R305); their block stands in `vdst`. -/
  vdata : List Nat := []
  latches : List Nat := []
  pipe : Option Nat := none
  w1 : Bool := false
  gsrc : List (Nat × Nat) := []
  gdst : List (Nat × Nat) := []
  /-- Uniform registers that must be even (R57). -/
  even : List Nat := []
  entry : Bool := false
  /-- Held while the cluster's allowance is used up (R46). -/
  fp : Bool := false
  /-- Held at a heat index of 210 too (R47). -/
  mmar : Bool := false
  /-- An access of memory that waits behind the unsent line requests of an earlier one (R177). -/
  mem : Bool := false
  priv : Bool := false
  win : Option Nat := none
  pj : Nat := 0
  deriving DecidableEq, Repr, Inhabited

/-- A per-lane instruction of a latch pipe. -/
def Need.ofPipe (p : Nat) : Need where
  lane := true
  pipe := some p
  entry := true

/-- A per-lane instruction without a latch. -/
def Need.ofLane : Need where
  lane := true

/-- A uniform instruction. -/
def Need.ofUni : Need where
  lane := false
  pj := 2

/-- A per-lane single source is read. -/
def Need.src (n : Need) : LSrc → Need
  | .v r => { n with vsrc := n.vsrc ++ [(r.val, 1, 1)] }
  | .b i => { n with latches := n.latches ++ [i.val] }
  | .g i => { n with gsrc := n.gsrc ++ [(i.val, 1)] }
  | _ => n

/-- A per-lane field is read as `k` registers. -/
def Need.srcN (n : Need) (k : Nat) (a : LSrc) : Need :=
  if k = 1 then n.src a
  else match a with
    | .v r => { n with vsrc := n.vsrc ++ [(r.val, k, k)] }
    | _ => n

/-- A per-lane field is read as `k` registers of store data that may carry data poison (R180). -/
def Need.dataN (n : Need) (k : Nat) (a : LSrc) : Need :=
  match a with
  | .v r => { n with vdst := n.vdst ++ [(r.val, k, k)], vdata := n.vdata ++ (List.range k).map (r.val + ·) }
  | _ => n.srcN k a

/-- A per-lane pair field is read. (DEDUCED, log 46) -/
def Need.pair (n : Need) : LPair → Need
  | .v r => { n with vsrc := n.vsrc ++ [(r.val, 2, 2)] }
  | .zero => n

/-- A register block is read. -/
def Need.vblk (n : Need) (r k al : Nat) : Need := { n with vsrc := n.vsrc ++ [(r, k, al)] }

/-- A destination of a latch pipe. -/
def Need.dst (n : Need) : LDst → Need
  | .v r => { n with vdst := n.vdst ++ [(r.val, 1, 1)] }
  | .latch => { n with w1 := true }

/-- A destination block. -/
def Need.dstN (n : Need) (r k al : Nat) : Need := { n with vdst := n.vdst ++ [(r, k, al)] }

/-- A uniform source is read. -/
def Need.usrc (n : Need) : USrc → Need
  | .g r => { n with gsrc := n.gsrc ++ [(r.val, 1)] }
  | _ => n

/-- A uniform field is read as a pair. -/
def Need.usrcPair (n : Need) : USrc → Need
  | .g r => { n with gsrc := n.gsrc ++ [(r.val, 2)], even := n.even ++ [r.val] }
  | _ => n

/-- A uniform pair is read. -/
def Need.upair (n : Need) : UDst → Need
  | .g r => { n with gsrc := n.gsrc ++ [(r.val, 2)], even := n.even ++ [r.val] }
  | .zero => n

/-- A uniform destination is written: 56 takes no scoreboard entry (R84). -/
def Need.udst (n : Need) : UDst → Need
  | .g r => { n with gdst := n.gdst ++ [(r.val, 1)], entry := true }
  | .zero => n

/-- A uniform destination pair is written. -/
def Need.udstPair (n : Need) : UDst → Need
  | .g r => { n with gdst := n.gdst ++ [(r.val, 2)], even := n.even ++ [r.val], entry := true }
  | .zero => n

/-- A uniform block is read. -/
def Need.ublk (n : Need) (p m : Nat) : Need := { n with gsrc := n.gsrc ++ [(p, m)] }

/-- The registers of some blocks. -/
def blockRegs (l : List (Nat × Nat)) : List Nat := l.flatMap fun b => (List.range b.2).map (b.1 + ·)

/-- The vector registers a word reads, and those it names at all. -/
def Need.vreads (n : Need) : List Nat := blockRegs (n.vsrc.map fun b => (b.1, b.2.1))
def Need.vwrites (n : Need) : List Nat := blockRegs (n.vdst.map fun b => (b.1, b.2.1))

/-- The uniform registers a word reads and writes. -/
def Need.greads (n : Need) : List Nat := blockRegs n.gsrc
def Need.gwrites (n : Need) : List Nat := blockRegs n.gdst

end Sys2Proof.Machine
end

