-- ==== Sys2Proof/Machine/Faults.lean ====
section
/-! DEFINITION. Memory faults (R305, R308, R309): packets with their tokens, fatal marks, poisoned walks (R347); fetching an instruction
and what a failing fetch does (R51, R89, R305). -/
namespace Sys2Proof.Machine

/-- Log poison met at a physical address in the context's event log and in the management controller's log (R169). -/
def logPoison (s : State) (vdev pa pc core slot : Nat) : State :=
  let s := logEvent s vdev evPoison 0x13 0 127 (s.vdev vdev).gen pa pc core slot 0
  { s with sys := { s.sys with log := s.sys.log ++ [(evPoison, pa)] } }

/-- The lanes that own a packet (R305). -/
def GCtl.owners (c : GCtl) : Mask := c.reqs.foldl (fun m e => if e.2.token = 0 then m else m ||| e.2.lanes) 0

/-- The lanes that hold a fatal mark. -/
def GCtl.fatals (c : GCtl) : Mask := c.fatal.foldl (fun m e => m ||| laneBit e.1) 0

/-- The unanswered token of a page whose walk a request joined: it was in flight, on the same die, before the fault of that walk was
detected (R174, R305). (DEDUCED, log 43) -/
def mergedToken (s : State) (vdev die page bound : Nat) : Option Nat :=
  ((s.vdev vdev).tokens.find? fun e => decide (e.2.gen = (s.vdev vdev).gen) && (match e.2.kind with
    | .packets p d b => decide (p = page) && decide (d = die) && decide (bound < b)
    | _ => false)).map (·.1)

/-- Park the lanes of `m` of a request as one packet: faults on one page whose walks merge share one token, for which one event of type
XLATE is logged (R305). `bound` is the number since which the request is in flight. The answer names the packet. -/
def parkPacket (s : State) (gid : Nat) (r : Req) (bound : Nat) (m : Mask) (va : Nat) : State × Nat :=
  match s.group? gid with
  | none => (s, 0)
  | some g =>
    let die := dieOf (clusterOf g.info.core)
    let old := mergedToken s g.info.vdev die (va / 4096) bound
    let (s, t) := match old with
      | some t => (s, t)
      | none => newToken s g.info.vdev (.packets (va / 4096) die (s.nextId + 1))
    let (s, q) := s.fresh
    let s := s.updGroup gid fun g => { g with c := { g.c with reqs := mset g.c.reqs q { r with lanes := m, token := t } } }
    (if old.isSome then s else logEvent s g.info.vdev evXlate 0x20 r.skid (lowLane m) g.info.gen va r.pc g.info.core g.info.slot t, q)

/-- The lanes of a list of (lane, address) that fault on one 4 KiB page, and the others. -/
def pageLanes (page : Nat) (l : List (Nat × Nat)) : Mask := maskOf ((l.filter fun e => decide (e.2 / 4096 = page)).map (·.1))

/-- Park lanes with a translation fault, one packet a page (R305); the answer maps each lane to its packet. -/
def parkPages (s : State) (gid : Nat) (r : Req) (bound : Nat) : Nat → List (Nat × Nat) → State × AMap Nat
  | 0, _ => (s, [])
  | _, [] => (s, [])
  | fuel + 1, (lane, va) :: t =>
    let m := pageLanes (va / 4096) ((lane, va) :: t)
    let (s, q) := parkPacket s gid r bound m va
    let (s, rest) := parkPages s gid r bound fuel (t.filter fun e => decide (e.2 / 4096 ≠ va / 4096))
    (s, (lanesOf m).foldl (fun a i => mset a i q) rest)

/-- The lanes whose address falls in the 4 KiB page of a packet that the lane owns (R308); a uniform packet's address has key 64. -/
def samePage (g : Group) (addr : Nat → Nat) (m : Mask) : Mask :=
  maskOf ((lanesOf m).filter fun i => g.c.reqs.any fun e =>
    decide (e.2.token ≠ 0) && e.2.lanes.getLsbD i && decide (e.2.va i / 4096 = addr i / 4096))

/-! ## Fetch -/

/-- What a fetch finds: the bytes of a word, a translation fault, another memory fault with its code, a poisoned entry or sector. -/
inductive FetchR where
  | bytes (b : List Byte)
  | xlate
  | fatal (code : Nat)
  | poison (pa : Nat)
  deriving DecidableEq, Repr

/-- Fetch one word at a program counter (R51, R173): from below the L1s, with X in both stages, never from an IO page. (DESIGN CHOICE, log 45) -/
def fetchWord (s : State) (core vdev pc : Nat) : State × FetchR :=
  match addrClass pc with
  | .translated =>
    match translate s core vdev pc 4 with
    | (s, .fault) => (s, .xlate)
    | (s, .bad) => (s, .fatal 0x23)
    | (s, .poison pa) => (s, .poison pa)
    | (s, .ok pa mt) =>
      if mt = 2 then (s, .fatal 0x23)
      else match region s pa with
        | .hbm => if s.poisoned pa then (s, .poison pa) else (s, .bytes (s.bytes (loc pa) 4))
        | .remote => (s.asked pa, .bytes ((List.range 4).map fun i => s.below (pa + i)))
        | _ => (s, .fatal 0x23)
  | _ => (s, .fatal 0x23)

/-- What stands at a program counter: an instruction with its size, or why none does. A word that decodes to nothing is illegal (R49). -/
inductive Fetched where
  | instr (i : Instr)
  | illegal (w : Word)
  | xlate (va : Nat)
  | fatal (code : Nat)
  | poison (pa : Nat)
  deriving DecidableEq, Repr

/-- Fetch and decode the instruction at a program counter (R48); its literal word is fetched on its own (R51). -/
def fetchInstr (s : State) (core vdev pc : Nat) : State × Fetched :=
  match fetchWord s core vdev pc with
  | (s, .xlate) => (s, .xlate pc)
  | (s, .fatal c) => (s, .fatal c)
  | (s, .poison pa) => (s, .poison pa)
  | (s, .bytes b) =>
    let w := BitVec.ofNat 32 (leNat b)
    match decode (b ++ [0, 0, 0, 0]) with
    | none => (s, .illegal w)
    | some (i, _) =>
      if i.lits = [] then (s, .instr i)
      else match fetchWord s core vdev (pc + 4) with
        | (s, .xlate) => (s, .xlate (pc + 4))
        | (s, .fatal c) => (s, .fatal c)
        | (s, .poison pa) => (s, .poison pa)
        | (s, .bytes b2) => match decode (b ++ b2) with
          | none => (s, .illegal w)
          | some (i, _) => (s, .instr i)

/-- A failing fetch (R305, R347): the whole current path parks at the fetch address with a packet, or takes a fatal memory fault; lanes of the
parked path that hold a fatal mark take their fault at once (R306). -/
def fetchFault (s : State) (gid : Nat) (f : Fetched) : State :=
  match s.group? gid with
  | none => s
  | some g =>
    match curPath g.c.paths with
    | none => s
    | some p =>
      let park (s : State) := takeFaults (parkPath s gid) gid p.mask p.pc
      let fatal (s : State) (code : Nat) := park (s.updGroup gid fun g => { g with c := g.c.addFatal p.mask fun _ => ⟨code, 0, p.pc⟩ })
      match f with
      | .xlate va =>
        let r : Req := { (default : Req) with instr := .unop 0, pc := p.pc, lanes := p.mask, addr := [(64, va)], gen := g.info.gen, tag := g.c.tag, sent := true }
        park (parkPacket s gid r s.nextId p.mask va).1
      | .fatal code => fatal s code
      | .poison pa => fatal (logPoison s g.info.vdev pa p.pc g.info.core g.info.slot) 0x13
      | _ => s

end Sys2Proof.Machine
end

