-- ==== Sys2Proof/Machine/Issue.lean ====
section
/-! DEFINITION. Issue: what keeps the current group's instruction from issuing (R46, R50, R69 to R71, R304), what issuing does whatever
the instruction (R45, R66, R70, R306, R309), and the two shapes most meanings have: a result in every active lane, a uniform result. -/
namespace Sys2Proof.Machine

/-- The instruction that issues: its group as it stood, its address, its size in bytes, the lanes it executes in, and whether it ends a latch
chain. -/
structure Ctx where
  gid : Nat
  g : Group
  pc : Nat
  size : Nat
  mask : Mask
  ends : Bool
  deriving DecidableEq, Repr, Inhabited

/-! ## Chains (R70, R71) -/

/-- Whether a source is a latch. -/
def LSrc.isLatch : LSrc → Bool
  | .b _ => true
  | _ => false

/-- The uniform instructions that end a latch chain (R70): those that can leave their group waiting or move its path. -/
def endsChain : Instr → Bool
  | .bra _ | .brc .. | .call _ | .ret | .jmpi _ | .join _ | .dispatch .. | .exit | .yield | .acq => true
  | .claim .. | .mtokPass .. | .mtokTake _ | .obresRsv .. | .obresRel .. | .obresQry .. => true
  | .bar .. | .bara .. | .barw .. | .mwait .. | .fence _ | .fenceX .. | .efence => true
  | .tagwAny .. | .tagwAll .. | .tagwFirst .. | .tagwClear .. => true
  | .ruleLoad .. | .ruleStep .. | .ruleXch .. | .ruleQuery .. => true
  | .edgeFrame .. | .edgeCutmove .. | .edgeStatus .. | .edgeFlush .. => true
  | _ => false

/-- Whether the next word of a group's path goes on with a latch chain (R70): a per-lane instruction that names a latch as a source, or, in a
chain that is open, a uniform instruction that does not end it. -/
def nextGoesOn (s : State) (g : Group) (open_ : Bool) : Bool :=
  match curPath g.c.paths with
  | none => false
  | some p => match (fetchWord s g.info.core g.info.vdev p.pc).2 with
    | .bytes b =>
      let w := BitVec.ofNat 32 (leNat b)
      match decodeWord w 0 with
      | some i => if w.getLsbD 31 then open_ && !endsChain i else i.lsrcs.any LSrc.isLatch
      | none => false
    | _ => false

/-- Whether a group is inside a latch chain (R70): one that its opener opened by W = 1 or by the word that follows it, and that the next word
goes on with. -/
def inChain (s : State) (g : Group) : Bool :=
  match g.c.chain with
  | none => false
  | some c => nextGoesOn s g c.firm

/-- Whether another group of the slot is inside a latch chain that it did not open packed with this one, so that the slot issues no other
per-lane instruction (R71). -/
def slotChained (s : State) (gid : Nat) (g : Group) : Bool :=
  s.groups.any fun e => decide (e.1 ≠ gid) && decide (e.2.info.core = g.info.core) && decide (e.2.info.slot = g.info.slot)
    && !e.2.c.packed.contains gid && inChain s e.2

/-- Whether a chain allows an instruction to read some latches (R70): written earlier in it, and at most the eighth of it. One
that writes no latch reads them all the same, and ends the chain. (DEDUCED, log 101) -/
def latchOk (c : Option Chain) (ls : List Nat) : Bool :=
  ls.isEmpty || match c with
    | none => false
    | some c => decide (c.len < 8) && ls.all fun l => c.wrote.getLsbD l

/-- The chain after an instruction has issued (R70); `ends` says that it is a uniform instruction that ends one. -/
def nextChain (c : Option Chain) (n : Need) (ends : Bool) : Option Chain :=
  if n.lane then
    match n.pipe with
    | none => none
    | some p =>
      match n.latches, c with
      | _ :: _, some c => some ⟨c.len + 1, c.wrote ||| (1 : BitVec 4) <<< p, true⟩
      | _, _ => some ⟨1, (1 : BitVec 4) <<< p, n.w1⟩
  else if ends then none
  else match c with
    | some c => if c.firm then some c else none
    | none => none

/-! ## Access classes (R178, R288) -/

/-- Access classes (R178, R288), numbered as the class bits of FENCE.X (R58). -/
def clsLSU : Nat := 0
def clsSMP : Nat := 1
def clsCPY : Nat := 2
def clsMTX : Nat := 3
def clsGRD : Nat := 4
def clsLYR : Nat := 5
def clsEDG : Nat := 6
def clsSYS : Nat := 7

/-- The class of a request (R178, R288). A parked fetch has none. -/
def reqClass : Instr → Option Nat
  | .smp .. => some clsSMP
  | .mmar .. | .ldo .. | .sto .. => some clsMTX
  | .emit .. | .resv .. | .wrec .. | .publ .. => some clsEDG
  | .launch .. | .unop _ => none
  | _ => some clsLSU

/-- Whether the group has outstanding requests, parked or in flight, of a class: a release that covers it waits for them (R289, R308). -/
def outstanding (g : Group) (classes : List Nat) : Bool :=
  g.c.reqs.any fun e => (reqClass e.2.instr).any classes.contains

/-- Whether the group has parked packets of some classes (R308). -/
def packetOut (g : Group) (classes : List Nat) : Bool :=
  g.c.reqs.any fun e => decide (e.2.token ≠ 0) && (reqClass e.2.instr).any classes.contains

/-- Whether a release that the group has issued waits behind one of its packets, so that the group is not ready (R308): the publication of an
EMIT that its edge's home has not answered, or the issue of an engine operation that has not started. -/
def releaseHeld (s : State) (gid : Nat) (g : Group) : Bool :=
  packetOut g [clsLSU, clsEDG] && (g.c.reqs.any fun e => decide (e.2.token = 0) && decide (e.2.ops = [])
      && (match e.2.instr with | .emit .. => true | _ => false))
    || s.ops.any fun e => decide (e.2.group = gid) && decide (e.2.st = .queued)
      && packetOut g (match e.2.instr with | .mtile .. => [clsLSU, clsMTX] | _ => [clsLSU])

/-! ## The gate -/

/-- Base and size of parameter window `k` of the launch whose program a lane's thread runs (R20, R181). -/
def winBase (g : Group) (lane k : Nat) : Nat := (((g.laneProg lane).wins[k]?).getD (0, 0)).1
def winSize (g : Group) (lane k : Nat) : Nat := (((g.laneProg lane).wins[k]?).getD (0, 0)).2

/-- The lanes whose windows an instruction reads: every active one, for a uniform instruction the lowest (R88, R181). -/
def winLanes (g : Group) (n : Need) : List Nat := if n.lane then g.activeLanes else [g.uniLane]

/-- The precise trap that an instruction raises (R50 conditions 2 to 6), first to last. -/
def trapOf (s : State) (g : Group) (n : Need) : Option Nat :=
  let blocks := n.vsrc ++ n.vdst
  if n.priv && !privileged s g.info.vdev then some 0x30
  else if blocks.any fun b => decide (8 * g.c.alloc < b.1 + b.2.1) then some 0x31
  else if (blocks.any fun b => decide (b.1 % b.2.2 ≠ 0)) || n.even.any fun r => decide (r % 2 ≠ 0) then some 0x32
  else if !latchOk g.c.chain n.latches then some 0x33
  else if n.win.any fun k => (winLanes g n).any fun l => decide (winSize g l k = 0) then some 0x34
  else none

/-- Whether the power rules hold an instruction (R46, R47); a chain that a save waits for issues without regard to them. -/
def powerHeld (s : State) (g : Group) (n : Need) : Bool :=
  let cl := clusterOf g.info.core
  ((n.fp || n.mmar) && decide ((s.cluster cl).energy ≤ 0) && !decide ((s.vdev g.info.vdev).st = .saving))
    || (n.mmar && (s.die (dieOf cl)).c210)

/-- Whether the scoreboard holds an instruction (R69). -/
def sbHeld (g : Group) (n : Need) : Bool :=
  (g.c.sb.any fun e => (n.vreads ++ n.vwrites).any (e.2.vregs.contains ·) || (n.greads ++ n.gwrites).any (e.2.gregs.contains ·))
    || (n.entry && decide (16 ≤ g.c.sb.length))

/-- Whether a group may run at all: its device is LIVE, or a save waits for the end of its latch chain (R313, R318); and neither
it nor a release it has issued waits. -/
def mayRun (s : State) (gid : Nat) (g : Group) : Bool :=
  decide (g.c.wait = .none) && !releaseHeld s gid g && (decide ((s.vdev g.info.vdev).st = .live)
    || (decide ((s.vdev g.info.vdev).st = .saving) && inChain s g))

/-- Whether a register of a lane carries data poison, which a store writes and does not consume (R180, R305). -/
def dataPoison (r : GRegs) (lane k : Nat) : Bool := (find? r.vmark (lane * 128 + k)).any fun m => decide (m.code = 0x13)

/-- The lanes of a mask that read a register marked poisoned (R306): a uniform register is read by every lane. -/
def poisonLanes (g : Group) (n : Need) (m : Mask) : Mask :=
  if n.greads.any fun r => (find? g.r.gmark r).isSome then m
  else maskOf ((lanesOf m).filter fun i => (n.vreads.any fun r => (find? g.r.vmark (i * 128 + r)).isSome)
    || n.vdata.any fun r => (find? g.r.vmark (i * 128 + r)).isSome && !dataPoison g.r i r)

/-- Whether some lanes still have accesses in flight; their threads end or leave only when those have been answered (R307; DEDUCED, log 21). -/
def lanesBusy (g : Group) (m : Mask) : Bool := g.c.reqs.any fun e => decide (e.2.token = 0) && decide (e.2.lanes &&& m ≠ 0)

/-- Whether `n` new entries would send threads to the former that still have accesses in flight (DEDUCED, log 21). -/
def leaveBusy (g : Group) (n : Nat) : Bool := decide (8 < g.c.paths.length + n) && lanesBusy g (allLanes g.c.paths)

/-- Whether an access of the group still has line requests to send (R177). -/
def unsentLines (g : Group) : Bool := g.c.reqs.any fun e => !e.2.sent && decide (e.2.token = 0)

/-- Whether the group has an MMAR whose last quarter has not entered the engine: it issues no per-lane instruction until then (R233). -/
def mmarPending (g : Group) : Bool := g.c.reqs.any fun e => decide (e.2.token = 0) && (match e.2.instr with | .mmar .. => true | _ => false)

/-- What stands between the current group and the issue of its instruction. -/
inductive Gate where
  /-- No group issues, or it waits. -/
  | idle
  /-- A precise trap. -/
  | trap (gid code pc : Nat)
  /-- Held by the scoreboard, a latch chain of the slot, unsent line requests, or the power rules. -/
  | held
  /-- It issues; some lanes consume poison first. -/
  | go (c : Ctx) (poison : Mask)
  deriving DecidableEq, Repr, Inhabited

/-- The gate of an instruction for the current group: decode conditions first (R50), then what holds it, then poison (R306). `extra` are
lanes that consume by R308, `wait` says that the instruction itself must wait. -/
def gate (i : Instr) (n : Need) (wait : Group → Bool) (extra : Group → Mask → Mask) (s : State) : Gate :=
  match s.cur with
  | none => .idle
  | some gid =>
    match s.group? gid with
    | none => .idle
    | some g =>
      match curPath g.c.paths with
      | none => .idle
      | some p =>
        if !mayRun s gid g then .idle
        else match trapOf s g n with
          | some code => .trap gid code p.pc
          | none =>
            let pm := poisonLanes g n p.mask ||| (extra g p.mask &&& p.mask)
            if sbHeld g n || powerHeld s g n || (n.lane && (slotChained s gid g || mmarPending g)) || (n.mem && unsentLines g) || wait g
                || (decide (pm ≠ 0) && leaveBusy g 1) then .held
            else .go ⟨gid, g, p.pc, i.size, p.mask, endsChain i⟩ pm

/-! ## What issuing does -/

/-- The charge of an instruction (R45). -/
def charge (n : Need) (m : Mask) : Nat := if n.lane then n.pj * (quartersOf m).length else n.pj

/-- The groups packed with a group at the first instruction of its chain, after an instruction has issued (R71): a new chain has none yet. -/
def nextPacked (l : List Nat) (n : Need) : Option Chain → List Nat
  | none => []
  | some k => if n.lane && decide (k.len = 1) then [] else l

/-- What every issue does: requests in flight age (R309), the chain moves on (R70), the path's program counter advances (R48), the
cluster is charged (R45). -/
def account (n : Need) (c : Ctx) (s : State) : State :=
  let s := s.updGroup c.gid fun g => { g with c := { g.c with
    reqs := mmapv g.c.reqs fun _ r => { r with skid := if r.token = 0 then r.skid + 1 else r.skid, younger := r.younger + 1 }
    chain := nextChain g.c.chain n c.ends
    packed := nextPacked g.c.packed n (nextChain g.c.chain n c.ends)
    readyCc := s.now + 1
    paths := setCur g.c.paths fun p => { p with pc := (p.pc + c.size) % 2 ^ 64 } } }
  debit { s with tick := s.tick + 1 } (clusterOf c.g.info.core) (charge n c.mask)

/-- Lanes that consume poison without owning a packet or a fatal mark take a fatal mark of the register's cause (R171, R305, R306); a
consumed uniform register's packet is owned by the consuming lanes too. (DEDUCED, log 38) -/
def settleMarks (n : Need) (m : Mask) (c : GCtl) (r : GRegs) : GCtl :=
  let c := n.greads.foldl (fun c k => match find? r.gmark k with
    | none => c
    | some mk => if mk.req = 0 then c.addFatal m fun _ => ⟨mk.code, mk.skid, mk.va⟩
        else { c with reqs := mupd c.reqs mk.req fun q => { q with lanes := q.lanes ||| m } }) c
  (lanesOf m).foldl (fun c i => (n.vreads ++ n.vdata.filter fun k => !dataPoison r i k).foldl (fun c k => match find? r.vmark (i * 128 + k) with
    | none => c
    | some mk => if mk.req = 0 then c.addFatal (laneBit i) fun _ => ⟨mk.code, mk.skid, mk.va⟩ else c) c) c

/-- Consumption by the lanes of `m` (R306): marks settle, the lanes park. The answer is the mask in which the instruction still executes. -/
def consumeAt (n : Need) (c : Ctx) (m : Mask) (s : State) : State × Mask :=
  consume (s.updGroup c.gid fun g => { g with c := settleMarks n m g.c g.r }) c.gid m c.pc

/-- Issue an instruction whose effect is `body`: through the gate, past what consumes poison, accounted for. -/
def issueW (i : Instr) (n : Need) (wait : Group → Bool) (extra : Group → Mask → Mask) (body : Ctx → State → State)
    (s : State) : Host.Outcome State Fault Refusal :=
  match gate i n wait extra s with
  | .idle | .held => .next s
  | .trap gid code pc => .next (takeKill s gid code pc 0)
  | .go c pm =>
    if pm = 0 then .next (body c (account n c s))
    else
      let r := consumeAt n c pm s
      if r.2 = 0 then .next r.1 else .next (body { c with mask := r.2 } (account n { c with mask := r.2 } r.1))

/-- Issue an instruction that neither waits by itself nor touches memory. -/
def issue (i : Instr) (n : Need) (body : Ctx → State → State) (s : State) : Host.Outcome State Fault Refusal :=
  issueW i n (fun _ => false) (fun _ _ => 0) body s

/-- A step of another agent: the state it leads to, or no change where it is not enabled (DESIGN CHOICE, log 5). -/
def ofEvent (r : Option State) (s : State) : Host.Outcome State Fault Refusal := .next (r.getD s)

/-! ## Results -/

/-- Take a scoreboard entry for registers whose result becomes readable at `ready` (R69); the answer names it. -/
def takeSb (s : State) (gid : Nat) (p : Pend) : State × Nat :=
  let r := s.fresh
  (r.1.updGroup gid fun g => { g with c := { g.c with sb := mset g.c.sb r.2 p } }, r.2)

/-- A result in every active lane: destination and latch written, the scoreboard entry taken for `lat` cc, the flags pending in it
(R53, R66, R69, R107). One that writes only a latch takes an entry too. (DESIGN CHOICE, log 93) -/
def laneResult (d : Option Nat) (cnt pipe lat : Nat) (f : Group → Nat → LaneOut) (c : Ctx) (s : State) : State :=
  let out := f c.g
  let ls := lanesOf c.mask
  let s := s.updGroup c.gid fun g => { g with r := writeLanes g.r d pipe out ls }
  (takeSb s c.gid ⟨(match d with | some r => (List.range cnt).map (r + ·) | none => []), [], flagsOf out ls, decide (pipe ≠ 0), some (s.now + lat)⟩).1

/-- A uniform result in a single register (R83): 56 takes no entry (R84). -/
def uniResult (d : UDst) (lat : Nat) (v : State → Group → Word) (c : Ctx) (s : State) : State :=
  match d with
  | .zero => s
  | .g r =>
    let s := s.updGroup c.gid fun g => { g with r := g.r.setG r.val (v s c.g) }
    (takeSb s c.gid ⟨[], [r.val], 0, false, some (s.now + lat)⟩).1

/-- A uniform result in a pair. -/
def uniResult64 (d : UDst) (lat : Nat) (v : State → Group → DWord) (c : Ctx) (s : State) : State :=
  match d with
  | .zero => s
  | .g r =>
    let s := s.updGroup c.gid fun g => { g with r := g.r.setU64 d (v s c.g) }
    (takeSb s c.gid ⟨[], [r.val, r.val + 1], 0, false, some (s.now + lat)⟩).1

end Sys2Proof.Machine
end

