-- ==== Sys2Proof/Machine/Control.lean ====
section
/-! DEFINITION. Control flow (R73 to R75, R89 to R92, R96 to R98), traps (R304), padding (R108), illegal words (R49) and the special
registers (R107). -/
namespace Sys2Proof.Machine

/-! ## Program counters -/

/-- Move the current path (R89). -/
def setPc (s : State) (gid pc : Nat) : State :=
  s.updGroup gid fun g => { g with c := { g.c with paths := setCur g.c.paths fun p => { p with pc := pc % 2 ^ 64 } } }

/-- A branch target: own address plus 4 times a signed word offset, modulo 2^64 (R58, R89). -/
def target (pc : Nat) (off : Int) : Nat := (((pc : Int) + 4 * off) % (2 ^ 64 : Nat)).toNat

/-- Whether the current path of a group satisfies a test. -/
def onPath (f : Group → PathEntry → Bool) (g : Group) : Bool := (curPath g.c.paths).any (f g)

/-- A control instruction: a uniform one without operands. -/
def needCtl : Need := Need.ofUni

/-- Undo the issue of an instruction whose threads find no room in the spawn area: it stalls and issues again when the context has
been resumed (R80). -/
def stallSpawn (c : Ctx) (s : State) : State := spawnExhausted (setPc s c.gid c.pc) c.gid c.g.info.vdev c.g.info.core c.g.info.slot c.pc

/-! ## Uniform branches (R89) -/

/-- BRA. -/
def execBra (off : BitVec 25) (s : State) : Host.Outcome State Fault Refusal :=
  issue (.bra off) needCtl (fun c s => setPc s c.gid (target c.pc off.toInt)) s

/-- Whether a condition of BRC holds for a signed value. -/
def bcond (c : BCond) (v : Word) : Bool :=
  match c with
  | .eqz => decide (v = 0)
  | .nez => decide (v ≠ 0)
  | .ltz => v.slt 0
  | .gez => !v.slt 0
  | .gtz => (0 : Word).slt v
  | .lez => !(0 : Word).slt v

/-- BRC. -/
def execBrc (cc : BCond) (a : USrc) (off : BitVec 16) (s : State) : Host.Outcome State Fault Refusal :=
  issue (.brc cc a off) (needCtl.usrc a)
    (fun c s => if bcond cc (usrc s c.g a) then setPc s c.gid (target c.pc off.toInt) else s) s

/-- JMPI: bits 1:0 and 63:57 of the target are taken as 0. -/
def execJmpi (a : UDst) (s : State) : Host.Outcome State Fault Refusal :=
  issue (.jmpi a) (needCtl.upair a) (fun c s => setPc s c.gid ((upair c.g a).toNat % 2 ^ 57 / 4 * 4)) s

/-! ## Calls (R90) -/

/-- The lanes of a mask whose return stack holds `n` entries or more. -/
def stackFull (g : Group) (m : Mask) : Bool := (lanesOf m).any fun l => decide (8 ≤ (mget [] g.r.stack l).length)

/-- CALL: pushes the address after it in every active lane; a full stack in any of them is the trap RSTACK, and nothing changes. -/
def execCall (off : BitVec 25) (s : State) : Host.Outcome State Fault Refusal :=
  match gate (.call off) needCtl (fun _ => false) (fun _ _ => 0) s with
  | .go c _ =>
    if stackFull c.g c.mask then .next (takeTrap s c.gid 0x37 0 c.pc).1
    else
      let s := account needCtl c s
      let s := s.updGroup c.gid fun g => { g with r := { g.r with
        stack := (lanesOf c.mask).foldl (fun m l => mset m l (((c.pc + 4) % 2 ^ 64) :: mget [] m l)) g.r.stack } }
      .next (setPc s c.gid (target c.pc off.toInt))
  | .trap gid code pc => .next (takeKill s gid code pc 0)
  | _ => .next s

/-- The current entry keeps the first of some sets, and each other set becomes a WAIT entry after it (R73, R90). -/
def splitSets (s : State) (gid : Nat) (sets : List (Nat × Mask)) : State :=
  match sets with
  | [] => s
  | (pc, m) :: rest =>
    let s := s.updGroup gid fun g => { g with c := { g.c with paths := setCur g.c.paths fun p => { p with pc := pc, mask := m } } }
    match s.group? gid with
    | none => s
    | some g =>
      let x := stamped g.c (rest.map fun e => ⟨e.1, e.2, .wait, 0⟩)
      addPaths (s.updGroup gid fun g => { g with c := x.1 }) gid x.2

/-- How many threads leave for the former when the current entry splits into some sets: those of the entries evicted, or of new sides
(R74, R80). -/
def splitLeavers (g : Group) : List (Nat × Mask) → Nat
  | [] => 0
  | (pc, m) :: rest =>
    let c := { g.c with paths := setCur g.c.paths fun p => { p with pc := pc, mask := m } }
    let x := stamped c (rest.map fun e => ⟨e.1, e.2, .wait, 0⟩)
    (placePaths 80 x.2 x.1).2.foldl (fun n e => n + laneCount e.1) 0

/-- The lanes that end when RET executes: those with an empty stack. -/
def retExits (g : Group) (m : Mask) : Mask := maskOf ((lanesOf m).filter fun l => decide (mget [] g.r.stack l = []))

/-- The sets of lanes that return to one address. -/
def retSets (g : Group) (m : Mask) : List (Nat × Mask) :=
  laneSets (fun l => (mget [] g.r.stack l).headD 0) 64 (lanesOf (m &&& ~~~retExits g m))

/-- The lanes of a set that own a packet or hold a fatal mark: they park or fault where they would exit (R307). -/
def exitStops (g : Group) (m : Mask) : Mask := m &&& (g.c.owners ||| g.c.fatals)

/-- Whether some lanes' exit must wait: on a KEY edge it is a release of LSU and EDG, which every packet of the group in these classes holds up
(R14, R308). -/
def exitHeld (s : State) (g : Group) (m : Mask) : Bool :=
  packetOut g [clsLSU, clsEDG] && (lanesOf (m &&& ~~~exitStops g m)).any fun l => (find? g.r.recs l).isSome
    && (match g.laneOwner l with
      | .stage edge => (find? s.edges edge).any fun e => decide (e.ord = 2)
      | _ => false)

/-- RET: pops every active lane's stack; lanes with an empty one exit, the others are grouped by the popped address. -/
def execRet (s : State) : Host.Outcome State Fault Refusal :=
  issueW .ret needCtl
    (fun g => match curPath g.c.paths with
      | some p => lanesBusy g (retExits g p.mask) || exitHeld s g (retExits g p.mask) || leaveBusy g ((retSets g p.mask).length - 1)
      | none => false)
    (fun g m => exitStops g (retExits g m)) (fun c s =>
      let out := retExits c.g c.mask
      let stay := (lanesOf (c.mask &&& ~~~out))
      let sets := retSets c.g c.mask
      if !roomFor s c.g (splitLeavers c.g sets) then stallSpawn c s
      else
        let s := s.updGroup c.gid fun g => { g with r := { g.r with
          stack := stay.foldl (fun m l => mset m l ((mget [] m l).drop 1)) g.r.stack } }
        let s := splitSets s c.gid sets
        if out = 0 then s else removeLanes s c.gid out true c.pc) s

/-! ## Joins and lane branches (R73 to R75, R91, R92) -/

/-- JOIN: the current entry's lanes arrive at an open record; when the last have arrived, all merge and run on after this JOIN (R73). -/
def execJoin (j : Fin 8) (s : State) : Host.Outcome State Fault Refusal :=
  issue (.join j) needCtl (fun c s =>
    match find? c.g.c.joins j.val with
    | none => s
    | some r => s.updGroup c.gid fun g =>
      let ps := setCur g.c.paths fun p => { p with st := .arrived j.val, pc := c.pc }
      let arrived := r.arrived ||| c.mask
      if arrived = r.expect then { g with c := { g.c with paths := settle (mergeAt (some c.pc) j.val ps), joins := merase g.c.joins j.val } }
      else { g with c := { g.c with paths := settle ps, joins := mset g.c.joins j.val { r with arrived := arrived } } }) s

/-- Open record J over the current entry's lanes unless it is open (R73). -/
def openJoin (s : State) (gid j : Nat) (m : Mask) : State :=
  s.updGroup gid fun g => if (find? g.c.joins j).isSome then g else { g with c := { g.c with joins := mset g.c.joins j ⟨m, 0⟩ } }

/-- The lanes of a mask whose register is not 0. -/
def takenLanes (g : Group) (r : Nat) (m : Mask) : Mask := maskOf ((lanesOf m).filter fun l => decide (g.r.getV l r ≠ 0))

/-- A per-lane branch that reads a register. -/
def needBr (r : Nat) : Need := { (Need.ofLane.vblk r 1 1) with pj := 9 }

/-- The lanes that leave at a BRS: the side with fewer lanes, on a tie the taken side; none when a side is empty. -/
def brsOut (g : Group) (r : Nat) (m : Mask) : Mask :=
  let taken := takenLanes g r m
  let fall := m &&& ~~~taken
  if taken = 0 ∨ fall = 0 then 0 else if laneCount taken ≤ laneCount fall then taken else fall

/-- The sets of lanes that BRXD sends to one address. -/
def brxdSets (g : Group) (r pc : Nat) (m : Mask) : List (Nat × Mask) :=
  laneSets (fun l => target pc ((g.r.getV l r).toInt / 4)) 64 (lanesOf m)

/-- BRD: the fall-through lanes stay, the taken lanes become a WAIT entry after them. -/
def execBrd (r : Fin 112) (j : Fin 8) (off : BitVec 15) (s : State) : Host.Outcome State Fault Refusal :=
  issueW (.brd r j off) (needBr r.val) (onPath fun g p => decide (brsOut g r.val p.mask ≠ 0) && leaveBusy g 1) (fun _ _ => 0) (fun c s =>
    let taken := takenLanes c.g r.val c.mask
    let fall := c.mask &&& ~~~taken
    let t := target c.pc off.toInt
    if taken = 0 then s
    else if fall = 0 then setPc s c.gid t
    else
      let sets := [((c.pc + 4) % 2 ^ 64, fall), (t, taken)]
      if !roomFor s c.g (splitLeavers c.g sets) then stallSpawn c s else splitSets (openJoin s c.gid j.val c.mask) c.gid sets) s

/-- BRS: the side with fewer lanes, on a tie the taken side, leaves the group for the former (R75). -/
def execBrs (r : Fin 112) (off : BitVec 15) (s : State) : Host.Outcome State Fault Refusal :=
  issueW (.brs r off) (needBr r.val) (onPath fun g p => lanesBusy g (brsOut g r.val p.mask)) (fun _ _ => 0) (fun c s =>
    let taken := takenLanes c.g r.val c.mask
    let fall := c.mask &&& ~~~taken
    let t := target c.pc off.toInt
    let f := (c.pc + 4) % 2 ^ 64
    if taken = 0 then s
    else if fall = 0 then setPc s c.gid t
    else
      let takenLeaves := decide (laneCount taken ≤ laneCount fall)
      let out := if takenLeaves then (taken, t) else (fall, f)
      if !roomFor s c.g (laneCount out.1) then stallSpawn c s
      else handOver (setPc s c.gid (if takenLeaves then f else t)) c.gid out.1 out.2) s

/-- BRXD: lanes are grouped by own address plus the signed byte offset in C, bits 1:0 taken as 0. -/
def execBrxd (r : Fin 112) (j : Fin 8) (s : State) : Host.Outcome State Fault Refusal :=
  issueW (.brxd r j) (needBr r.val) (onPath fun g p => leaveBusy g ((brxdSets g r.val p.pc p.mask).length - 1)) (fun _ _ => 0) (fun c s =>
    let sets := brxdSets c.g r.val c.pc c.mask
    match sets with
    | [] => s
    | [(t, _)] => setPc s c.gid t
    | _ =>
      if !roomFor s c.g (splitLeavers c.g sets) then stallSpawn c s
      else splitSets (openJoin s c.gid j.val c.mask) c.gid sets) s

/-! ## Ending, yielding, acquiring (R96 to R98) -/

/-- EXIT: lanes that own a packet park here, lanes with a fatal mark take their fault, the others end (R96, R307). -/
def execExit (s : State) : Host.Outcome State Fault Refusal :=
  issueW .exit needCtl (onPath fun g p => lanesBusy g p.mask || exitHeld s g p.mask) exitStops
    (fun c s => removeLanes s c.gid c.mask true c.pc) s

/-- YIELD: not ready for 32 cc; the count of ready cycles is cleared (R97). -/
def execYield (s : State) : Host.Outcome State Fault Refusal :=
  issue .yield needCtl (fun c s => s.updGroup c.gid fun g => { g with c := { g.c with wait := .yielding (s.now + 32), readyCc := s.now } }) s

/-- ACQ: nothing at FULL or more, else the group waits for its grant (R98). -/
def execAcq (s : State) : Host.Outcome State Fault Refusal :=
  issue .acq needCtl (fun c s =>
    if c.g.info.prog.full ≤ c.g.c.alloc then s
    else s.updGroup c.gid fun g => { g with c := { g.c with wait := .acq } }) s

/-! ## Traps, padding, illegal words -/

/-- TRAP and BKPT: taken by TRAPMODE; a BKPT under KILL acts as UNOP (R304). -/
def trapWith (i : Instr) (cause : Nat) (code : BitVec 13) (s : State) : Host.Outcome State Fault Refusal :=
  match gate i Need.ofUni (fun _ => false) (fun _ _ => 0) s with
  | .go c _ =>
    let r := takeTrap s c.gid cause code.toNat c.pc
    if r.2 then .next (account Need.ofUni c s) else .next r.1
  | _ => .next s

/-- TRAP (R304). -/
def execTrap (code : BitVec 13) (s : State) : Host.Outcome State Fault Refusal := trapWith (.trap code) 0x35 code s

/-- BKPT (R304). -/
def execBkpt (code : BitVec 13) (s : State) : Host.Outcome State Fault Refusal := trapWith (.bkpt code) 0x36 code s

/-- UNOP: changes nothing and ends no chain (R108). -/
def execUnop (x : BitVec 25) (s : State) : Host.Outcome State Fault Refusal := issue (.unop x) Need.ofUni (fun _ s => s) s

/-- An illegal word kills the group that fetched it; nothing else changes (R49). -/
def execIllegalWord (w : Word) (s : State) : Host.Outcome State Fault Refusal :=
  match gate (.unop 0) Need.ofUni (fun _ => false) (fun _ _ => 0) s with
  | .go c _ => .next (takeKill s c.gid 0x3F c.pc w.toNat)
  | _ => .next s

/-! ## Special registers (R60, R107) -/

/-- The value of a special register (R60, R336). -/
def sregValue (s : State) (g : Group) : SReg → DWord
  | .tags => (s.core g.info.core).tags
  | .fstat => g.r.fstat.setWidth 64
  | .progress => g.r.progress.setWidth 64
  | .errst => g.r.errst.setWidth 64
  | .readcount => g.r.readcount.setWidth 64
  | .core => BitVec.ofNat 64 (g.info.core % 4)
  | .cluster => BitVec.ofNat 64 (clusterOf g.info.core)
  | .die => BitVec.ofNat 64 (dieOf (clusterOf g.info.core))
  | .part => BitVec.ofNat 64 s.part
  | .vdev => BitVec.ofNat 64 g.info.vdev
  | .gen => BitVec.ofNat 64 (s.vdev g.info.vdev).gen
  | .cutgen => BitVec.ofNat 64 (s.vdev g.info.vdev).cutgen
  | .seedkey => g.r.seedkey

/-- Whether an earlier instruction that can raise a flag has not written back (R107). -/
def flagsPending (g : Group) : Bool := g.c.sb.any fun e => e.2.fp

/-- RDSR: FSTAT waits for every earlier instruction that can raise a flag (R107). -/
def execRdsr (d : UDst) (r : SReg) (s : State) : Host.Outcome State Fault Refusal :=
  if r.wide then
    issueW (.rdsr d r) (Need.ofUni.udstPair d) (fun _ => false) (fun _ _ => 0)
      (uniResult64 d 4 fun s g => sregValue s g r) s
  else
    issueW (.rdsr d r) (Need.ofUni.udst d) (fun g => decide (r = .fstat) && flagsPending g) (fun _ _ => 0)
      (uniResult d 4 fun s g => loWord (sregValue s g r)) s

/-- A special register written (R60, R107, R119). -/
def writeSreg (r : GRegs) (k : SReg) (v : DWord) : GRegs :=
  match k with
  | .fstat => { r with fstat := v.setWidth 5 }
  | .readcount => { r with readcount := v.setWidth 8 }
  | .seedkey => { r with seedkey := v, rsr := 0 }
  | _ => r

/-- WRSR (R107). -/
def execWrsr (k : SReg) (a : USrc) (s : State) : Host.Outcome State Fault Refusal :=
  issue (.wrsr k a) (if k.wide then Need.ofUni.usrcPair a else Need.ofUni.usrc a) (fun c s =>
    let v := if k.wide then usrcPair c.g a else (usrc s c.g a).setWidth 64
    s.updGroup c.gid fun g => { g with r := writeSreg g.r k v }) s

end Sys2Proof.Machine
end

