-- ==== Sys2Proof/Machine/Sharing.lean ====
section
/-! DEFINITION. Sharing inside a workgroup (R100 to R103) and the events of issue: write-back (R69), the end of YIELD (R97), grants of
ACQ, CLAIM and MTOK.TAKE (R98, R102, R103), promotion of a starved group (R67). An event answers none where it is not enabled. -/
namespace Sys2Proof.Machine

/-! ## Registers of a core (R42) -/

/-- Registers a core's groups and transfer boxes hold. -/
def regsUsed (s : State) (core : Nat) : Nat :=
  let held := s.groups.foldl (fun n e => if e.2.info.core = core then n + 8 * e.2.c.alloc * e.2.info.width else n) 0
  s.wgs.foldl (fun n e => if e.2.core = core then
    n + e.2.boxes.foldl (fun m b => m + 8 * b.2.getD 0 0 * e.2.prog.width) 0 else n) held

/-- Free registers of a core. -/
def regsFree (s : State) (core : Nat) : Nat := 131072 - regsUsed s core

/-- A lane's registers from `first` up emptied: gained registers read 0 (R61, R98, R102), given ones are gone (R101). -/
def clearFrom (r : GRegs) (first : Nat) : GRegs :=
  { r with v := mfilter r.v fun k _ => decide (k % 128 < first), vmark := mfilter r.vmark fun k _ => decide (k % 128 < first) }

/-- Change a group's allotment. -/
def setAlloc (g : Group) (n : Nat) : Group := { g with c := { g.c with alloc := n }, r := clearFrom g.r (8 * min g.c.alloc n) }

/-! ## Boxes and quotas (R100 to R102) -/

/-- Units of a resource in the transfer box of group `f1`. -/
def boxOf (w : Wg) (f1 k : Nat) : Nat := (mget [] w.boxes f1).getD k 0

/-- Change a box. -/
def setBox (w : Wg) (f1 k n : Nat) : Wg :=
  let b := mget [] w.boxes f1
  { w with boxes := mset w.boxes f1 ((List.range 3).map fun i => if i = k then n else b.getD i 0) }

/-- The place of a resource in a box. -/
def resIdx : Resource → Nat
  | .reg => 0
  | .ls => 1
  | .ob => 2

/-- The units of a resource that a group may give: registers down to one unit, local store, unreserved operand buffer (R101). -/
def givable (g : Group) : Resource → Nat
  | .reg => g.c.alloc - 1
  | .ls => g.c.lsQuota
  | .ob => g.c.obQuota - g.c.obUsed

/-- A group's allotment or quota. -/
def holding (g : Group) : Resource → Nat
  | .reg => g.c.alloc
  | .ls => g.c.lsQuota
  | .ob => g.c.obQuota

/-- A group with its allotment or quota of a resource changed. -/
def setHolding (g : Group) (res : Resource) (n : Nat) : Group :=
  match res with
  | .reg => setAlloc g n
  | .ls => { g with c := { g.c with lsQuota := n } }
  | .ob => { g with c := { g.c with obQuota := n } }

/-- The status of GIVE (R101): of several that apply, 3 goes first, then the 0 of A = 0, then 2, then 1. (DESIGN CHOICE, log 47) -/
def giveStatus (g : Group) (res : Resource) (a b : Nat) : Nat :=
  if g.formerBuilt then 3
  else if a = 0 then 0
  else if g.info.prog.e1 ≤ b ∨ b = g.info.f1 then 2
  else if givable g res < a then 1 else 0

/-- Whether a pending entry covers a vector register from `first` up (R101). -/
def pendingFrom (g : Group) (first : Nat) : Bool := g.c.sb.any fun e => e.2.vregs.any fun r => decide (first ≤ r)

/-- GIVE (R101): for registers it is held until no pending entry covers one being given. -/
def execGive (res : Resource) (d : UDst) (a b : USrc) (s : State) : Host.Outcome State Fault Refusal :=
  issueW (.give res d a b) (((Need.ofUni.usrc a).usrc b).udst d)
    (fun g =>
      let n := (usrc s g a).toNat
      decide (res = .reg) && decide (giveStatus g res n (usrc s g b).toNat = 0) && decide (n ≠ 0) && pendingFrom g (8 * (g.c.alloc - n)))
    (fun _ _ => 0) (fun c s =>
      let n := (usrc s c.g a).toNat
      let f := (usrc s c.g b).toNat
      let st := giveStatus c.g res n f
      let s := if st = 0 ∧ n ≠ 0 then
          (s.updGroup c.gid fun g => setHolding g res (holding g res - n)).updWg c.g.info.wg
            fun w => setBox w f (resIdx res) (boxOf w f (resIdx res) + n)
        else s
      uniResult d 0 (fun _ _ => BitVec.ofNat 32 st) c s) s

/-- Move `n` units out of a group's own box and write its new allotment or quota (R102). -/
def claimNow (s : State) (gid : Nat) (g : Group) (res : Resource) (n : Nat) (d : UDst) : State :=
  let total := holding g res + n
  (s.updGroup gid fun g => let g := setHolding g res total; { g with r := g.r.setU d (BitVec.ofNat 32 total) }).updWg g.info.wg
    fun w => setBox w g.info.f1 (resIdx res) (boxOf w g.info.f1 (resIdx res) - n)

/-- Whether a group's box holds `n` units. -/
def boxHas (s : State) (g : Group) (res : Resource) (n : Nat) : Bool :=
  (s.wg? g.info.wg).any fun w => decide (n ≤ boxOf w g.info.f1 (resIdx res))

/-- CLAIM (R102). -/
def execClaim (res : Resource) (d : UDst) (a : USrc) (s : State) : Host.Outcome State Fault Refusal :=
  issue (.claim res d a) ((Need.ofUni.usrc a).udst d) (fun c s =>
    let n := (usrc s c.g a).toNat
    if c.g.formerBuilt || (decide (res = .reg) && decide (14 < c.g.c.alloc + n)) then
      uniResult d 0 (fun _ _ => BitVec.allOnes 32) c s
    else if boxHas s c.g res n then claimNow s c.gid c.g res n d
    else s.updGroup c.gid fun g => { g with c := { g.c with wait := .claim res n d } }) s

/-! ## The matrix token (R103) -/

/-- The live launched group of a workgroup with index `f1`. -/
def groupOf (s : State) (wg f1 : Nat) : Option Nat :=
  (s.groups.find? fun e => decide (e.2.info.wg = wg) && decide (e.2.info.f1 = f1) && !e.2.formerBuilt).map (·.1)

/-- The token's holder after MTOK.PASS, with the status (R103). A group that has exited is none that it can be passed to: status 2. (DESIGN CHOICE,
log 102) -/
def passToken (s : State) (gid : Nat) (g : Group) (a : Word) : Option (Option Nat) × Nat :=
  if g.formerBuilt then (none, 3)
  else match s.wg? g.info.wg with
    | none => (none, 1)
    | some w =>
      if w.token ≠ some gid then (none, 1)
      else if a = BitVec.allOnes 32 then (some none, 0)
      else match groupOf s g.info.wg a.toNat with
        | some h => (some (some h), 0)
        | none => (none, 2)

/-- MTOK.PASS (R103). -/
def execMtokPass (d : UDst) (a : USrc) (s : State) : Host.Outcome State Fault Refusal :=
  issue (.mtokPass d a) ((Need.ofUni.usrc a).udst d) (fun c s =>
    let r := passToken s c.gid c.g (usrc s c.g a)
    let s := match r.1 with
      | some t => s.updWg c.g.info.wg fun w => { w with token := t }
      | none => s
    uniResult d 0 (fun _ _ => BitVec.ofNat 32 r.2) c s) s

/-- Whether a group holds its workgroup's token. -/
def holdsToken (s : State) (gid : Nat) (g : Group) : Bool := (s.wg? g.info.wg).any fun w => decide (w.token = some gid)

/-- MTOK.TAKE (R103): the holder completes at once. A handler or split group, which can hold no token (R78), gets status 3. (DESIGN CHOICE, log 80) -/
def execMtokTake (d : UDst) (s : State) : Host.Outcome State Fault Refusal :=
  issue (.mtokTake d) (Need.ofUni.udst d) (fun c s =>
    if c.g.formerBuilt then uniResult d 0 (fun _ _ => 3) c s
    else if holdsToken s c.gid c.g then uniResult d 0 (fun _ _ => 0) c s
    else (s.updGroup c.gid fun g => { g with c := { g.c with wait := .take d } }).updWg c.g.info.wg
      fun w => { w with tokenWait := w.tokenWait ++ [c.gid] }) s

/-! ## Events -/

/-- RESULT_WRITEBACK: an entry whose result has become readable is freed and its flags reach FSTAT (R69, R107). -/
def evResultWriteback (gid entry : Nat) (s : State) : Option State :=
  (s.group? gid).bind fun g => (find? g.c.sb entry).bind fun p =>
    match p.ready with
    | some t => if t ≤ s.now then some (s.updGroup gid fun g => g.freeEntry entry) else none
    | none => none

/-- YIELD_EXPIRY: 32 cc after a YIELD the group is ready again (R97). -/
def evYieldExpiry (gid : Nat) (s : State) : Option State :=
  (s.group? gid).bind fun g =>
    match g.c.wait with
    | .yielding t => if t ≤ s.now then some (s.updGroup gid fun g => { g with c := { g.c with wait := .none, readyCc := s.now } }) else none
    | _ => none

/-- Whether a context's groups may go on: its device is LIVE (R318). -/
def deviceLive (s : State) (vdev : Nat) : Bool := decide ((s.vdev vdev).st = .live)

/-- The oldest of some groups, by age. -/
def oldestOf (l : List (Nat × Group)) : Option (Nat × Group) :=
  l.foldl (fun b e => match b with
    | none => some e
    | some q => if e.2.info.age < q.2.info.age then some e else some q) none

/-- ACQ_GRANT: the oldest group of a core that waits in ACQ rises to FULL when the registers are free (R42, R98). -/
def evAcqGrant (core : Nat) (s : State) : Option State :=
  (oldestOf (s.groups.filter fun e => decide (e.2.info.core = core) && decide (e.2.c.wait = .acq))).bind fun e =>
    let full := e.2.info.prog.full
    if deviceLive s e.2.info.vdev ∧ 8 * (full - e.2.c.alloc) * e.2.info.width ≤ regsFree s core then
      some (s.updGroup e.1 fun g => let g := setAlloc g full; { g with c := { g.c with wait := .none, readyCc := s.now } })
    else none

/-- CLAIM_GRANT: a waiting claim whose box has filled (R102). -/
def evClaimGrant (gid : Nat) (s : State) : Option State :=
  (s.group? gid).bind fun g =>
    match g.c.wait with
    | .claim res n d =>
      if deviceLive s g.info.vdev && boxHas s g res n then
        some ((claimNow s gid g res n d).updGroup gid fun g => { g with c := { g.c with wait := .none, readyCc := s.now } })
      else none
    | _ => none

/-- The waiting group that a workgroup's token goes to: its holder, or the oldest waiter when it is free (R103). -/
def tokenTaker (s : State) (w : Wg) : Option Nat :=
  match w.token with
  | some t => if w.tokenWait.contains t then some t else none
  | none => (oldestOf (w.tokenWait.filterMap fun i => (s.group? i).map fun g => (i, g))).map (·.1)

/-- TOKEN_TAKE_GRANT: a waiter takes the token and reads 0 (R103). -/
def evTokenTakeGrant (wg : Nat) (s : State) : Option State :=
  (s.wg? wg).bind fun w =>
    if !deviceLive s w.vdev then none
    else (tokenTaker s w).bind fun t => (s.group? t).bind fun g =>
      match g.c.wait with
      | .take d =>
        some ((s.updWg wg fun w => { w with token := some t, tokenWait := ndel w.tokenWait t }).updGroup t
          fun g => { g with c := { g.c with wait := .none, readyCc := s.now }, r := g.r.setU d 0 })
      | _ => none

/-- Whether an instruction is per-lane: bit 31 of its word is 0 (R48). -/
def perLane (i : Instr) : Bool := (encodeNat i).any fun w => decide (w < 2 ^ 31)

/-- Whether a group's next word is a per-lane instruction, or an illegal word of that half of the opcode space (R48, R49). -/
def nextPerLane (s : State) (g : Group) : Bool :=
  match curPath g.c.paths with
  | none => false
  | some p =>
    match (fetchInstr s g.info.core g.info.vdev p.pc).2 with
    | .instr i => perLane i
    | .illegal w => !w.getLsbD 31
    | _ => false

/-- Whether a group has been ready without issuing for 256 cc (R67): its count begins anew in every cc in which it is not ready. -/
def starved (s : State) (gid : Nat) (g : Group) : Bool :=
  mayRun s gid g && (curPath g.c.paths).isSome && decide (g.c.readyCc + 256 ≤ s.now)

/-- Whether two groups stand for one choice: one slot, and both next words per-lane or both uniform (R67). -/
def rivals (s : State) (a b : Group) : Bool :=
  decide (a.info.core = b.info.core) && decide (a.info.slot = b.info.slot) && (nextPerLane s a == nextPerLane s b)

/-- STARVATION_PROMOTION: the oldest of a slot's groups that have been ready without issuing for 256 cc is chosen next (R67). -/
def evStarvationPromotion (gid : Nat) (s : State) : Option State :=
  (s.group? gid).bind fun g =>
    if starved s gid g && !(s.groups.any fun e => rivals s e.2 g && starved s e.1 e.2 && decide (e.2.info.age < g.info.age))
    then some { s with agenda := .issue gid :: s.agenda } else none

/-! ## Meanings of the events -/

def execResultWriteback (gid entry : Nat) (s : State) : Host.Outcome State Fault Refusal := ofEvent (evResultWriteback gid entry s) s
def execYieldExpiry (gid : Nat) (s : State) : Host.Outcome State Fault Refusal := ofEvent (evYieldExpiry gid s) s
def execAcqGrant (core : Nat) (s : State) : Host.Outcome State Fault Refusal := ofEvent (evAcqGrant core s) s
def execClaimGrant (gid : Nat) (s : State) : Host.Outcome State Fault Refusal := ofEvent (evClaimGrant gid s) s
def execTokenTakeGrant (wg : Nat) (s : State) : Host.Outcome State Fault Refusal := ofEvent (evTokenTakeGrant wg s) s
def execStarvationPromotion (gid : Nat) (s : State) : Host.Outcome State Fault Refusal := ofEvent (evStarvationPromotion gid s) s

end Sys2Proof.Machine
end

