-- ==== Sys2Proof/Machine/Mem.lean ====
section
/-! DEFINITION. Accesses of lanes and groups: where an address leads and which fault it meets (R156, R157, R173, R175), loads and
stores through the L1 or the sampler cache (R158, R166, R176 to R181), atomics at the point of their scope (R182, R183), local store and
operand buffer (R161, R162, R184), and the order between accesses of one thread (R178, R290, R308). -/
namespace Sys2Proof.Machine

/-! ## Outcomes -/

/-- What one lane's access comes to. -/
inductive Got (α : Type) where
  | ok (v : α)
  | xlate (va : Nat)
  | fatal (code : Nat)
  deriving DecidableEq, Repr

/-- Where a global address leads for an access. -/
inductive Place where
  | phys (pa mtype : Nat)
  | scratch (a : Nat)
  deriving DecidableEq, Repr

/-- The byte of a cluster's SRAM at an offset of a gang's cluster scratch (R156). -/
def gangScratch (s : State) (gang : Option Nat) (off : Nat) : Option Nat :=
  gang.bind fun a => (find? s.gangs a).bind fun k => (k.units[off / 4096]?).map fun u => u * 4096 + off % 4096

/-- The same for a group's gang. -/
def scratchAt (s : State) (g : Group) (off : Nat) : Option Nat := gangScratch s g.info.gang off

/-- Where `n` bytes at a global address lead (R156, R157, R173, R175, R347): alignment first, then the class of the address, then the
translation. `need` are the permissions, `io` whether an IO page accepts the access, `scr` whether the scratch aperture does. -/
def place (s : State) (g : Group) (pc ea n need : Nat) (io scr : Bool) : State × Got Place :=
  if ea % n ≠ 0 then (s, .fatal 0x21)
  else match addrClass ea with
    | .bad => (s, .fatal 0x23)
    | .scratch off =>
      match (if scr then scratchAt s g off else none) with
      | some a => (s, .ok (.scratch a))
      | none => (s, .fatal 0x22)
    | .translated =>
      match translate s g.info.core g.info.vdev ea need with
      | (s, .fault) => (s, .xlate ea)
      | (s, .bad) => (s, .fatal 0x23)
      | (s, .poison pa) => (logPoison s g.info.vdev pa pc g.info.core g.info.slot, .fatal 0x13)
      | (s, .ok pa mt) =>
        if mt = 2 ∧ !io then (s, .fatal 0x23)
        else match region s pa with
          | .control | .reserved => (s, .fatal 0x23)
          | .pcie => if mt = 0 then (s, .fatal 0x23) else (s, .ok (.phys pa mt))
          | _ => (s, .ok (.phys pa mt))

/-! ## Loads and stores -/

/-- The sizes an IO page accepts: 32 and 64 bits (R173). (DEDUCED, log 74) -/
def ioSize (n : Nat) : Bool := decide (n = 4) || decide (n = 8)

/-- The places that the lanes of a line request reach. -/
def placesOf (s : State) (g : Group) (pc n need : Nat) (io : Bool) (eas : List Nat) : List Place :=
  eas.filterMap fun ea => match (place s g pc ea n need io true).2 with
    | .ok x => some x
    | _ => none

/-- The physical bytes among some places that `p` picks, by address and memory type. -/
def physIn (p : Nat → Nat → Bool) (l : List Place) : List Nat :=
  l.filterMap fun x => match x with
    | .phys pa mt => if p pa mt then some pa else none
    | .scratch _ => none

/-- The charge of the sectors that a line request moves without a fill: each sector of cluster scratch, and each that `direct` picks, once
whatever number of lanes it serves (R45). -/
def chargeLine (s : State) (cl : Nat) (direct : Nat → Nat → Bool) (l : List Place) : State :=
  let scr := l.filterMap fun x => match x with
    | .scratch a => some (a / 128)
    | .phys _ _ => none
  s.moved cl (scr.dedup.length + ((physIn direct l).map (· / 128)).dedup.length)

/-- The read request of a line at the cluster cache for the bytes that `hit` does not find above it (R159, R160), and its charge (R45). -/
def askPlaces (s : State) (core ch rc : Nat) (hit direct : Nat → Bool) (l : List Place) : State :=
  let cl := clusterOf core
  let s := s.askLine cl ch rc (physIn (fun pa mt => decide (mt = 0) && !hit pa) l)
  let s := s.askLine cl 4 0 (physIn (fun _ mt => decide (mt = 1)) l)
  chargeLine s cl (fun pa mt => decide (mt ≠ 0) || direct pa) l

/-- The read request of a line of loads or of atomics performed at the L1. -/
def askL1 (s : State) (g : Group) (pc n ch rc need : Nat) (io : Bool) (eas : List Nat) : State :=
  askPlaces s g.info.core ch rc (fun pa => s.l1Hit g.info.core pa n)
    (fun pa => decide (ch = 3) && (find? (s.core g.info.core).l1 (pa / 128)).isNone) (placesOf s g pc n need io eas)

/-- The read request of a line of SMP; what is not held in the sampler cache passes it by (R166, R289). -/
def askSmp (s : State) (g : Group) (pc n ch : Nat) (eas : List Nat) : State :=
  let miss (pa : Nat) : Bool := (find? (s.core g.info.core).smp (pa / 128)).isNone
  askPlaces s g.info.core ch 0 (fun pa => !miss pa) (fun pa => miss pa && (decide (ch = 3) || decide (region s pa ≠ .hbm)))
    (placesOf s g pc n 1 false eas)

/-- The charge of a line of stores or of atomics: what does not go into the L1 (R45). -/
def chargeStore (s : State) (g : Group) (pc n ch need : Nat) (io : Bool) (eas : List Nat) : State :=
  chargeLine s (clusterOf g.info.core)
    (fun pa mt => decide (mt ≠ 0) || decide (ch = 3) && (find? (s.core g.info.core).l1 (pa / 128)).isNone) (placesOf s g pc n need io eas)

/-- `n` bytes of the group's cluster SRAM; none when some of them are poisoned (R169). -/
def readScratch (s : State) (g : Group) (a n : Nat) : State × Option (List Byte) :=
  let cl := clusterOf g.info.core
  if (s.cluster cl).sramBad a n then (s, none) else (s, some ((s.cluster cl).sramBytes a n))

/-- Bytes written to the group's cluster SRAM, with their poison (R169). -/
def writeScratch (s : State) (g : Group) (a : Nat) (bs : List Byte) (poison : Bool) : State :=
  s.updCluster (clusterOf g.info.core) fun k => k.sramStore a bs poison

/-- Bytes, or the fault of poisoned data (R169). -/
def orPoison : State × Option (List Byte) → State × Got (List Byte)
  | (s, some b) => (s, .ok b)
  | (s, none) => (s, .fatal 0x13)

/-- `n` bytes through the LSU path (R158, R159) under hint `ch`. -/
def loadGlobal (s : State) (g : Group) (pc ea n ch : Nat) (io : Bool) : State × Got (List Byte) :=
  match place s g pc ea n 1 io true with
  | (s, .xlate va) => (s, .xlate va)
  | (s, .fatal c) => (s, .fatal c)
  | (s, .ok (.scratch a)) => orPoison (readScratch s g a n)
  | (s, .ok (.phys pa mt)) => orPoison (s.lsuRead g.info.core pa n ch (decide (mt = 0)))

/-- `n` bytes through the sampler cache (R166). -/
def loadSampler (s : State) (g : Group) (pc ea n ch : Nat) : State × Got (List Byte) :=
  match place s g pc ea n 1 false false with
  | (s, .xlate va) => (s, .xlate va)
  | (s, .fatal c) => (s, .fatal c)
  | (s, .ok (.scratch _)) => (s, .fatal 0x22)
  | (s, .ok (.phys pa mt)) =>
    orPoison (s.smpRead g.info.core pa n ch (decide (mt = 0)))

/-- Store bytes through the LSU path (R158, R159, R180): poisoned data poisons the sector. -/
def storeGlobal (s : State) (g : Group) (pc ea ch : Nat) (bs : List Byte) (poison : Bool) : State × Got Unit :=
  match place s g pc ea bs.length 2 (ioSize bs.length) true with
  | (s, .xlate va) => (s, .xlate va)
  | (s, .fatal c) => (s, .fatal c)
  | (s, .ok (.scratch a)) => (writeScratch s g a bs poison, .ok ())
  | (s, .ok (.phys pa mt)) => (s.lsuWrite g.info.core pa ch (decide (mt = 0)) bs poison, .ok ())

/-- The 128-byte units that accesses of `n` bytes at some addresses cover whole. -/
def wholeUnits (n : Nat) (as : List Nat) : List Nat :=
  let as := as.dedup
  (as.map (· / 128)).dedup.filter fun u => decide ((as.countP fun a => decide (a / 128 = u)) * n = 128)

/-- A unit that one store instruction covers whole, with data that is not poisoned, is clean afterwards (R169). `bad` are the lanes' addresses
that carry poison. -/
def healed (n : Nat) (good bad : List Nat) : List Nat := (wholeUnits n good).filter fun u => !(bad.any fun a => decide (a / 128 = u))

/-- Units of the L1 or, where it does not hold them, of memory that are clean again. -/
def State.heal (s : State) (c : Nat) (cached : Bool) (units : List Nat) : State :=
  units.foldl (fun s u =>
    if cached && (find? (s.core c).l1 u).isSome then s.updCore c fun k => { k with l1 := mupd k.l1 u fun l => { l with poison := false } }
    else s.clearPoison (u * 128)) s

/-- What a store of some lanes to global memory leaves of the poison of the units it covers whole (R169): each lane's address and whether its
data is poisoned. -/
def healGlobal (s : State) (g : Group) (pc n : Nat) (as : List (Nat × Bool)) : State :=
  let at_ (p : Bool) (f : Place → Option Nat) : List Nat :=
    (as.filter fun e => decide (e.2 = p)).filterMap fun e => match (place s g pc e.1 n 2 (ioSize n) true).2 with
      | .ok x => f x
      | _ => none
  let phys (p c : Bool) : List Nat := at_ p fun | .phys pa mt => if decide (mt = 0) = c then some pa else none | _ => none
  let scr (p : Bool) : List Nat := at_ p fun | .scratch a => some a | _ => none
  let s := s.heal g.info.core true (healed n (phys false true) (phys true true))
  let s := s.heal g.info.core false (healed n (phys false false) (phys true false))
  s.updCluster (clusterOf g.info.core) fun k => { k with sramPoison := (healed n (scr false) (scr true)).foldl ndel k.sramPoison }

/-! ## Atomics (R182, R183) -/

/-- The new value of an atomic operation on `w`-bit values: `d` the operand, `c` the comparand of CAS. -/
def aopNew {w : Nat} (op : Aop) (old d c : BitVec w) (fadd : BitVec w) : BitVec w :=
  match op with
  | .add => old + d
  | .minS => if old.slt d then old else d
  | .minN => if old < d then old else d
  | .maxS => if old.slt d then d else old
  | .maxN => if old < d then d else old
  | .and => old &&& d
  | .or => old ||| d
  | .xor => old ^^^ d
  | .swap => d
  | .cas => if old = c then d else old
  | .fadd => fadd

/-- The bytes an atomic leaves, from the bytes it found and its operand words (R182): FADD rounds to nearest and raises no flag. -/
def aopBytes (op : Aop) (wide : Bool) (old : List Byte) (ws : List Word) : List Byte :=
  if wide then
    let o := BitVec.ofNat 64 (leNat old)
    let p := dword (ws.getD 0 0) (ws.getD 1 0)
    let q := dword (ws.getD 2 0) (ws.getD 3 0)
    leBytes 8 (aopNew op o (if op = .cas then q else p) p o).toNat
  else
    let o := BitVec.ofNat 32 (leNat old)
    let p := ws.getD 0 0
    leBytes 4 (aopNew op o (if op = .cas then ws.getD 1 0 else p) p (add32 .rne (f32 o) (f32 p)).1).toNat

/-- Bytes of an atomic's width. -/
def aopSize (wide : Bool) : Nat := if wide then 8 else 4

/-- An atomic on bytes below the L1s: at the cluster cache or the slice, under hint `ch`, at a device, or at another part's slice (R183). -/
def atomBelow (s : State) (cl pa ch : Nat) (op : Aop) (wide : Bool) (ws : List Word) : State × Got (List Byte) :=
  let n := aopSize wide
  if s.poisoned pa then (s, .fatal 0x13)
  else
    let old := (List.range n).map fun i => s.below (pa + i)
    match region s pa with
    | .hbm => (((s.ccWrite cl pa ch).setBytes (loc pa) (aopBytes op wide old ws)).wroteAs true pa n, .ok old)
    | _ => (s.sendOut pa true (wordBytes ws), .ok old)

/-- An atomic on a global address: at the core's L1 for scopes up to workgroup, else below it, whose sector is first written back and
invalidated (R183, R289). `need` are the permissions, `io` whether an IO page accepts it. -/
def atomGlobal (s : State) (g : Group) (pc ea : Nat) (op : Aop) (wide : Bool) (sc : Scope) (io : Bool) (ws : List Word) :
    State × Got (List Byte) :=
  let n := aopSize wide
  match place s g pc ea n 3 io true with
  | (s, .xlate va) => (s, .xlate va)
  | (s, .fatal c) => (s, .fatal c)
  | (s, .ok (.scratch a)) =>
    match readScratch s g a n with
    | (s, none) => (s, .fatal 0x13)
    | (s, some old) => (writeScratch s g a (aopBytes op wide old ws) false, .ok old)
  | (s, .ok (.phys pa mt)) =>
    let cached : Bool := decide (mt = 0)
    if scopeCode sc ≤ 2 && cached then
      match s.lsuRead g.info.core pa n 0 true with
      | (s, none) => (s, .fatal 0x13)
      | (s, some old) => (s.lsuWrite g.info.core pa 0 true (aopBytes op wide old ws) false, .ok old)
    else atomBelow (s.flushSector g.info.core (pa / 128)) (clusterOf g.info.core) pa (typeHint mt (if sc = .clu then 0 else 3)) op wide ws

/-! ## Local store and operand buffer -/

/-- The core byte of an offset in a lane's local-store window, or its fault (R157). -/
def lsPlace (g : Group) (lane off n : Nat) : Got Nat :=
  let w := laneWindow g lane
  if off % n ≠ 0 then .fatal 0x21 else if w.2 < off + n then .fatal 0x22 else .ok (w.1 + off)

/-- The core byte of an offset in the operand-buffer region of a lane's workgroup, or its fault (R157, R184). -/
def obPlace (s : State) (g : Group) (lane off n : Nat) : Got Nat :=
  match s.wg? (g.laneWg lane) with
  | none => .fatal 0x22
  | some w => if off % n ≠ 0 then .fatal 0x21 else if w.obLen * 256 < off + n then .fatal 0x22 else .ok (w.obBase * 256 + off)

/-- LDL in one lane (R161, R162). -/
def loadLs (s : State) (g : Group) (lane off n : Nat) : Got (List Byte) :=
  match lsPlace g lane off n with
  | .ok a => let k := s.core g.info.core; if k.lsBad a n then .fatal 0x13 else .ok (k.lsBytes a n)
  | .xlate va => .xlate va
  | .fatal c => .fatal c

/-- STL in one lane. -/
def storeLs (s : State) (g : Group) (lane off : Nat) (bs : List Byte) : State × Got Unit :=
  match lsPlace g lane off bs.length with
  | .ok a => (s.updCore g.info.core fun k => k.lsStore a bs false, .ok ())
  | .xlate va => (s, .xlate va)
  | .fatal c => (s, .fatal c)

/-- ATOML in one lane (R162, R182). -/
def atomLs (s : State) (g : Group) (lane off : Nat) (op : Aop) (wide : Bool) (ws : List Word) : State × Got (List Byte) :=
  match lsPlace g lane off (aopSize wide) with
  | .ok a =>
    let k := s.core g.info.core
    let old := k.lsBytes a (aopSize wide)
    if k.lsBad a (aopSize wide) then (s, .fatal 0x13)
    else (s.updCore g.info.core fun k => k.lsSet a (aopBytes op wide old ws), .ok old)
  | .xlate va => (s, .xlate va)
  | .fatal c => (s, .fatal c)

/-- LDO in one lane (R184): whatever swizzle identifier the unit carries. -/
def loadOb (s : State) (g : Group) (lane off n : Nat) : Got (List Byte) :=
  match obPlace s g lane off n with
  | .ok a => let k := s.core g.info.core; if k.obBad a n then .fatal 0x13 else .ok (k.obBytes a n)
  | .xlate va => .xlate va
  | .fatal c => .fatal c

/-- STO in one lane: the unit's swizzle identifier becomes 0 (R184). -/
def storeOb (s : State) (g : Group) (lane off : Nat) (bs : List Byte) : State × Got Unit :=
  match obPlace s g lane off bs.length with
  | .ok a => (s.updCore g.info.core fun k => (k.obStore a bs false).obMark a 0, .ok ())
  | .xlate va => (s, .xlate va)
  | .fatal c => (s, .fatal c)

/-! ## Sizes -/

/-- Bytes of a load size (R180). -/
def ldBytes : LdSize → Nat
  | .n8 | .s8 => 1
  | .n16 | .s16 => 2
  | .b32 => 4
  | .b64 => 8
  | .b128 => 16

/-- Bytes of a store size (R180). -/
def stBytes : StSize → Nat
  | .b8 => 1
  | .b16 => 2
  | .b32 => 4
  | .b64 => 8
  | .b128 => 16

/-- Bytes of LDO and STO (R184). -/
def oBytes : OSize → Nat
  | .b32 => 4
  | .b64 => 8
  | .b128 => 16

/-- The words of some bytes (R2). -/
def bytesWords (n : Nat) (b : List Byte) : List Word := (List.range n).map fun i => BitVec.ofNat 32 (leNat ((b.drop (4 * i)).take 4))

/-- The registers a load writes from the bytes it read (R180). -/
def loadWords (sz : LdSize) (b : List Byte) : List Word :=
  match sz with
  | .s8 => [(BitVec.ofNat 8 (leNat b)).signExtend 32]
  | .s16 => [(BitVec.ofNat 16 (leNat b)).signExtend 32]
  | .n8 | .n16 | .b32 => [BitVec.ofNat 32 (leNat b)]
  | .b64 => bytesWords 2 b
  | .b128 => bytesWords 4 b

/-- The bytes a store writes from its registers: the low ones of the first, or all of them (R180). -/
def storeBytes (sz : StSize) (ws : List Word) : List Byte := (wordBytes ws).take (stBytes sz)

/-- Registers of a load size. -/
def ldRegs (sz : LdSize) : Nat := sz.regs

/-! ## Order (R178, R290, R308) -/

/-- The bytes each lane of a request touches. -/
def reqSize : Instr → Nat
  | .ld sz .. | .ldl sz .. | .ldp sz .. | .smp sz .. | .uld sz .. => ldBytes sz
  | .st sz .. | .stl sz .. | .ust sz .. => stBytes sz
  | .ldo sz .. | .sto sz .. => oBytes sz
  | .atom _ wide .. | .red _ wide .. | .atoml _ wide .. | .uldp wide .. | .mwait _ wide .. => aopSize wide
  | .dispatch .. => 2080
  | .cond .. => 4
  | _ => 0

/-- Whether an instruction addresses memory that is reached by global addresses (R155). -/
def reqGlobal : Instr → Bool
  | .ldl .. | .stl .. | .atoml .. | .ldo .. | .sto .. => false
  | _ => true

/-- Whether an instruction makes one access for its group (R87). -/
def reqUniform : Instr → Bool
  | .uld .. | .ust .. | .uldp .. | .dispatch .. | .mwait .. | .cond .. => true
  | _ => false

/-- Whether an order field acquires, and whether it releases (R182, R291). -/
def Ord4.acquires : Ord4 → Bool
  | .acq | .ar => true
  | _ => false
def Ord4.releases : Ord4 → Bool
  | .rel | .ar => true
  | _ => false

/-- Whether an access leaves its effect at its own answer, so that accesses of other paths of its group must not overtake it (R81). -/
def reqAtomic : Instr → Bool
  | .atom .. => true
  | _ => false

/-- Whether an access reads or updates what an atomic of its group stores (R81). -/
def readsAtomics : Instr → Bool
  | .ld .. | .ldp .. | .atom .. => true
  | _ => false

/-- Whether a request is an acquire (R291). -/
def reqAcquires : Instr → Bool
  | .atom _ _ _ o _ _ | .atoml _ _ _ o _ _ => Ord4.acquires o
  | .dispatch .. => true
  | _ => false

/-- Whether two byte ranges share a byte. -/
def overlap (a n b m : Nat) : Bool := decide (a < b + m) && decide (b < a + n)

/-- The physical address of a global address of a group, if its page is mapped. -/
def physOf (s : State) (g : Group) (ea : Nat) : Option Nat :=
  match addrClass ea, (translate s g.info.core g.info.vdev ea 0).2 with
  | .translated, .ok pa _ => some pa
  | _, _ => none

/-- Whether two accesses of a group through one class share a byte (R178): of the addresses themselves or, for global addresses in different
pages, of what they are mapped to. -/
def sameBytes (s : State) (g : Group) (global_ : Bool) (a n b m : Nat) : Bool :=
  overlap a n b m || (global_ && decide (a / 4096 ≠ b / 4096) && overlap (a % 4096) n (b % 4096) m
    && (physOf s g a).any fun p => (physOf s g b).any fun q => overlap p n q m)

/-- Whether a request touches one of `n` bytes at `ea` for a lane; a uniform access (lane 64) meets every lane of it (R87), and with `all`
any lane meets any other. -/
def Req.touches (s : State) (g : Group) (r : Req) (all : Bool) (lane ea n : Nat) : Bool :=
  let same (a : Nat) : Bool := sameBytes s g (reqGlobal r.instr) a (reqSize r.instr) ea n
  match find? r.addr 64 with
  | some a => same a
  | none => r.addr.any fun e => (all || decide (lane = 64) || decide (e.1 = lane)) && r.lanes.getLsbD e.1 && same e.2

/-- The place of a request in program order: a packet keeps the one it had in flight (R308). -/
def Req.order (r : Req) (id : Nat) : Nat := if r.issuedAs = 0 then id else r.issuedAs

/-- Whether an older outstanding request must be performed before an access of a lane: it touches the same bytes through the same class
(R178, R308); it is an atomic in flight, of whatever lane, to bytes that the access reads (R81; DESIGN CHOICE, log 91); or it is an acquire, in
flight or parked, and the access is of its class (R290). `bound`: only requests issued before that one. -/
def olderFirst (s : State) (g : Group) (bound : Option Nat) (i : Instr) (lane ea n : Nat) : Bool :=
  g.c.reqs.any fun e => bound.all (fun b => decide (e.2.order e.1 < b)) && decide (reqClass e.2.instr = reqClass i)
    && (decide (reqGlobal e.2.instr = reqGlobal i)
        && e.2.touches s g (reqAtomic e.2.instr && decide (e.2.token = 0) && readsAtomics i) lane ea n
      || decide (reqClass i = some clsLSU) && reqAcquires e.2.instr)

/-- Whether one of some global addresses lies in an IO page. -/
def onIo (s : State) (g : Group) (eas : List Nat) : Bool :=
  eas.any fun a => match addrClass a, (translate s g.info.core g.info.vdev a 0).2 with
    | .translated, .ok _ 2 => true
    | _, _ => false

/-- Whether an access to an IO page must wait for older accesses of its group: they are performed in program order (R173). -/
def ioHeld (s : State) (g : Group) (bound : Option Nat) (i : Instr) (eas : List Nat) : Bool :=
  reqGlobal i && (g.c.reqs.any fun e => bound.all (fun b => decide (e.2.order e.1 < b)) && decide (e.2.token = 0) && reqGlobal e.2.instr
    && decide (reqClass e.2.instr = some clsLSU)) && onIo s g eas

/-- Whether an access of the current path performed at issue must wait (R173, R178, R290). That it waits at issue, so that younger instructions
wait behind it, is the model's. (DESIGN CHOICE, log 79) -/
def storeWait (s : State) (i : Instr) (ea : Group → Nat → Nat) (g : Group) : Bool :=
  match curPath g.c.paths with
  | none => false
  | some p => ((lanesOf p.mask).any fun l => olderFirst s g none i l (ea g l) (reqSize i)) || ioHeld s g none i ((lanesOf p.mask).map (ea g))

/-- A request entered in its group (R176); the answer names it. -/
def pushReq (s : State) (gid : Nat) (r : Req) : State × Nat :=
  let x := s.fresh
  (x.1.updGroup gid fun g => { g with c := { g.c with reqs := mset g.c.reqs x.2 r } }, x.2)

end Sys2Proof.Machine
end

