-- ==== Sys2Proof/Machine/MemInstr.lean ====
section
/-! DEFINITION. The memory instructions of lanes: LD, ST, SMP, LDL, STL, LDP, ATOM, RED, ATOML, LDO and STO (R176 to R184). Loads and
returning atomics of global memory are requests that a later event serves; stores, reductions and the accesses to local store and
operand buffer are performed at issue, and only their faulting lanes remain as a request until the fault is detected (DESIGN CHOICE, log 5). A
global access makes one request a line, of which the first leaves at issue and each further one by a step of the core (R177). -/
namespace Sys2Proof.Machine

/-! ## One lane -/

/-- The address a request holds for a lane. -/
def Req.at (r : Req) (lane : Nat) : Nat := mget 0 r.addr lane

/-- The operand words a request holds for a lane. -/
def Req.words (r : Req) (lane : Nat) : List Word := mget [] r.data lane

/-- The words of a load's bytes. -/
def Got.words (sz : LdSize) : Got (List Byte) → Got (List Word)
  | .ok b => .ok (loadWords sz b)
  | .xlate va => .xlate va
  | .fatal c => .fatal c

/-- An atomic's old value as words. -/
def Got.oldWords (wide : Bool) : Got (List Byte) → Got (List Word)
  | .ok b => .ok (bytesWords (if wide then 2 else 1) b)
  | .xlate va => .xlate va
  | .fatal c => .fatal c

/-- A store's outcome as one without words. -/
def Got.none : Got Unit → Got (List Word)
  | .ok _ => .ok []
  | .xlate va => .xlate va
  | .fatal c => .fatal c

/-- LD in one lane (R180). The request's first operand is the read count. -/
def ldLane (sz : LdSize) (ch : Nat) (s : State) (g : Group) (r : Req) (lane : Nat) : State × Got (List Word) :=
  let x := loadGlobal s g r.pc (r.at lane) (ldBytes sz) ch (ioSize (ldBytes sz))
  (x.1, x.2.words sz)

/-- SMP in one lane (R166, R180). -/
def smpLane (sz : LdSize) (ch : Nat) (s : State) (g : Group) (r : Req) (lane : Nat) : State × Got (List Word) :=
  let x := loadSampler s g r.pc (r.at lane) (ldBytes sz) ch
  (x.1, x.2.words sz)

/-- LDP in one lane (R181): bytes at or beyond the window's size read 0; an access wholly beyond it makes no request. A misaligned offset
faults there too. (DESIGN CHOICE, log 94) -/
def ldpLane (sz : LdSize) (win : Nat) (s : State) (g : Group) (r : Req) (lane : Nat) : State × Got (List Word) :=
  let o := ((r.words lane).headD 0).toNat
  let n := ldBytes sz
  let size := winSize g lane win
  if o % n ≠ 0 then (s, .fatal 0x21)
  else if size ≤ o then (s, .ok (loadWords sz (List.replicate n 0)))
  else
    match loadGlobal s g r.pc (r.at lane) n 0 false with
    | (s, .ok b) => (s, .ok (loadWords sz (b.take (size - o) ++ List.replicate (n - (size - o)) 0)))
    | (s, .xlate va) => (s, .xlate va)
    | (s, .fatal c) => (s, .fatal c)

/-- ST in one lane (R180): the words after the data say whether the data is poisoned. -/
def stLane (sz : StSize) (ch : Nat) (s : State) (g : Group) (r : Req) (lane : Nat) : State × Got (List Word) :=
  let ws := r.words lane
  let x := storeGlobal s g r.pc (r.at lane) ch (storeBytes sz ws) (decide (ws.getLastD 0 = 1))
  (x.1, x.2.none)

/-- ATOM in one lane (R182, R183). -/
def atomLane (op : Aop) (wide : Bool) (sc : Scope) (s : State) (g : Group) (r : Req) (lane : Nat) : State × Got (List Word) :=
  let x := atomGlobal s g r.pc (r.at lane) op wide sc true (r.words lane)
  (x.1, x.2.oldWords wide)

/-- RED in one lane: an IO page refuses it (R173, R182). -/
def redLane (op : Aop) (wide : Bool) (sc : Scope) (s : State) (g : Group) (r : Req) (lane : Nat) : State × Got (List Word) :=
  let x := atomGlobal s g r.pc (r.at lane) op wide sc false (r.words lane)
  (x.1, match x.2 with | .ok _ => .ok [] | .xlate va => .xlate va | .fatal c => .fatal c)

/-- LDL in one lane. -/
def ldlLane (sz : LdSize) (s : State) (g : Group) (r : Req) (lane : Nat) : State × Got (List Word) :=
  (s, (loadLs s g lane (r.at lane) (ldBytes sz)).words sz)

/-- STL in one lane. -/
def stlLane (sz : StSize) (s : State) (g : Group) (r : Req) (lane : Nat) : State × Got (List Word) :=
  let x := storeLs s g lane (r.at lane) (storeBytes sz (r.words lane))
  (x.1, x.2.none)

/-- ATOML in one lane. -/
def atomlLane (op : Aop) (wide : Bool) (s : State) (g : Group) (r : Req) (lane : Nat) : State × Got (List Word) :=
  let x := atomLs s g lane (r.at lane) op wide (r.words lane)
  (x.1, x.2.oldWords wide)

/-- LDO in one lane (R184). -/
def ldoLane (sz : OSize) (s : State) (g : Group) (r : Req) (lane : Nat) : State × Got (List Word) :=
  (s, match loadOb s g lane (r.at lane) (oBytes sz) with
    | .ok b => .ok (bytesWords sz.regs b)
    | .xlate va => .xlate va
    | .fatal c => .fatal c)

/-- STO in one lane (R184). -/
def stoLane (sz : OSize) (s : State) (g : Group) (r : Req) (lane : Nat) : State × Got (List Word) :=
  let x := storeOb s g lane (r.at lane) ((wordBytes (r.words lane)).take (oBytes sz))
  (x.1, x.2.none)

/-! ## All lanes at once -/

/-- A lane's access as a function of the request. -/
abbrev LaneAcc := State → Group → Req → Nat → State × Got (List Word)

/-- Perform a request's lanes in increasing order (R178, R182): the words each one obtained, and the lanes that fault. -/
def performLanes (f : LaneAcc) (g : Group) (r : Req) : List Nat → State → State × List (Nat × List Word) × List (Nat × Got (List Word))
  | [], s => (s, [], [])
  | l :: t, s =>
    match f s g r l with
    | (s, .ok ws) => let x := performLanes f g r t s; (x.1, (l, ws) :: x.2.1, x.2.2)
    | (s, e) => let x := performLanes f g r t s; (x.1, x.2.1, (l, e) :: x.2.2)

/-- The words of some lanes written to a destination block. -/
def writeWords (r : GRegs) (d : Nat) : List (Nat × List Word) → GRegs
  | [] => r
  | (l, ws) :: t => writeWords (r.setVs l d ws) d t

/-! ## Requests -/

/-- The request of an instruction that issues: addresses and data of its lanes. -/
def mkReq (i : Instr) (c : Ctx) (addr : Group → Nat → Nat) (data : Group → Nat → List Word) (ops : List Nat) (entry early : Nat) : Req where
  instr := i
  pc := c.pc
  lanes := c.mask
  addr := (lanesOf c.mask).map fun l => (l, addr c.g l)
  data := (lanesOf c.mask).map fun l => (l, data c.g l)
  ops := ops
  entry := entry
  early := early
  skid := 0
  token := 0
  gen := c.g.info.gen
  tag := c.g.c.tag
  issuedAs := 0
  line := 0
  sent := true
  part := false
  younger := 0

/-- The lanes of an access by the 256-byte line they touch, in order of the lowest lane of each (R177). The line of a lane is that of its
address, translated or not. (DEDUCED, log 68) -/
def lineSets (addr : Nat → Nat) (m : Mask) : List Mask := (laneSets (fun l => addr l / 256) 64 (lanesOf m)).map (·.2)

/-- The request of one line of an access: the `k`-th; the first is sent at issue (R177). -/
def Req.only (r : Req) (m : Mask) (k : Nat) : Req :=
  { r with lanes := m, addr := mfilter r.addr fun l _ => m.getLsbD l, data := mfilter r.data fun l _ => m.getLsbD l, line := k, sent := decide (k = 0) }

/-- The requests of the lines of an access, numbered from `k` on. -/
def pushLines (s : State) (gid : Nat) (r : Req) : List Mask → Nat → State
  | [], _ => s
  | m :: t, k => pushLines (pushReq s gid (r.only m k)).1 gid r t (k + 1)

/-- Start an access whose result later events deliver, one request a line (R69, R176, R177, R179). -/
def startReq (i : Instr) (d cnt lat : Nat) (lines : Group → Mask → List Mask) (addr : Group → Nat → Nat) (data : Group → Nat → List Word)
    (ops : Group → List Nat) (c : Ctx) (s : State) : State :=
  let e := takeSb s c.gid ⟨(List.range cnt).map (d + ·), [], 0, false, none⟩
  pushLines e.1 c.gid (mkReq i c addr data (ops c.g) e.2 (s.now + lat)) (lines c.g c.mask) 0

/-- An access that returns nothing: what each lane does, what its line does once before it and once after it, with the lanes that passed. -/
structure StoreAcc where
  lane : LaneAcc
  pre : State → Group → Req → State := fun s _ _ => s
  post : State → Group → Req → List Nat → State := fun s _ _ _ => s

/-- The physical addresses that lanes of an ST have stored to, kept while its further lines follow (R178). -/
def noteStored (s : State) (g : Group) (gid : Nat) (r : Req) (ls : List Nat) : State :=
  match r.instr with
  | .st .. =>
    let l := ls.filterMap fun l => (physOf s g (r.at l)).map fun pa => (l, pa)
    s.updGroup gid fun h => { h with c := { h.c with stored := if r.line = 0 then l else h.c.stored ++ l } }
  | _ => s

/-- A line of an ST after others of it: a lane whose bytes a higher lane has already written through another address is checked and writes
nothing, since the bytes take the value of the highest lane (R178). -/
def StoreAcc.after (a : StoreAcc) (sz : StSize) (done : List (Nat × Nat)) : StoreAcc :=
  { a with lane := fun s g r l =>
      if done.any fun e => decide (l < e.1) && decide (physOf s g (r.at l) = some e.2) then
        match place s g r.pc (r.at l) (stBytes sz) 2 (ioSize (stBytes sz)) true with
        | (s, .ok _) => (s, .ok [])
        | (s, .xlate va) => (s, .xlate va)
        | (s, .fatal c) => (s, .fatal c)
      else a.lane s g r l }

/-- Perform a request of an access that returns nothing; faulting lanes remain as a request (R176, R305). -/
def performStore (a : StoreAcc) (g : Group) (gid : Nat) (r : Req) (s : State) : State :=
  let x := performLanes a.lane g r (lanesOf r.lanes) (a.pre s g r)
  let s := a.post x.1 g r (x.2.1.map (·.1))
  let s := noteStored s g gid r (x.2.1.map (·.1))
  if x.2.2 = [] then s else (pushReq s gid { r with lanes := maskOf (x.2.2.map (·.1)), sent := true }).1

/-- An access that returns nothing: its first line is performed at issue, the others follow (R176, R177). -/
def doStore (i : Instr) (a : StoreAcc) (lines : Group → Mask → List Mask) (addr : Group → Nat → Nat) (data : Group → Nat → List Word)
    (c : Ctx) (s : State) : State :=
  let r := mkReq i c addr data [] 0 s.now
  match lines c.g c.mask with
  | [] => s
  | m :: t => pushLines (performStore a c.g c.gid (r.only m 0) s) c.gid r t 1

/-- The lines of an access to a core's own stores, which take passes and no line requests (R161, R177). -/
def oneLine : Group → Mask → List Mask := fun _ m => [m]

/-- The lines of an access to global memory by its lanes' addresses (R177). -/
def byLine (addr : Group → Nat → Nat) : Group → Mask → List Mask := fun g m => lineSets (addr g) m

/-- Perform an access at issue that returns words: lanes that pass are written, the entry ends `lat` cc on, or when the fault of the
others is detected (R69, R161, R305). -/
def doLoad (i : Instr) (f : LaneAcc) (d cnt : Nat) (lat : Group → Mask → Nat) (addr : Group → Nat → Nat)
    (data : Group → Nat → List Word) (c : Ctx) (s : State) : State :=
  let x := performLanes f c.g (mkReq i c addr data [] 0 s.now) (lanesOf c.mask) s
  let s := x.1.updGroup c.gid fun g => { g with r := writeWords g.r d x.2.1 }
  let regs := (List.range cnt).map (d + ·)
  if x.2.2 = [] then (takeSb s c.gid ⟨regs, [], 0, false, some (s.now + lat c.g c.mask)⟩).1
  else
    let e := takeSb s c.gid ⟨regs, [], 0, false, none⟩
    (pushReq e.1 c.gid { mkReq i c addr data [] e.2 s.now with lanes := maskOf (x.2.2.map (·.1)) }).1

/-! ## Passes (R161) -/

/-- The most entries of a list that share a bank. -/
def mostPerBank (words : List Nat) : Nat := (List.range 32).foldl (fun m b => max m (words.countP fun w => decide (w % 32 = b))) 1

/-- The words an LS access of some lanes touches. -/
def lsWords (g : Group) (addr : Nat → Nat) (n : Nat) (m : Mask) : List Nat :=
  (lanesOf m).flatMap fun l => (List.range ((n + 3) / 4)).map fun i => ((laneWindow g l).1 + addr l) / 4 + i

/-- Passes of LDL and STL, and of ATOML (R161). -/
def lsPasses (g : Group) (addr : Nat → Nat) (n : Nat) (m : Mask) : Nat := mostPerBank (lsWords g addr n m).dedup
def atomlPasses (g : Group) (addr : Nat → Nat) (n : Nat) (m : Mask) : Nat := mostPerBank (lsWords g addr n m)

/-! ## Addresses (R176) -/

/-- A pair address plus a scaled offset, modulo 2^64. -/
def pairEa (a : LPair) (off : BitVec 6) (n : Nat) (g : Group) (lane : Nat) : Nat := ((lpair g lane a).toNat + off.toNat * n) % 2 ^ 64

/-- A single offset plus a scaled offset, modulo 2^32. -/
def singleEa (a : LSrc) (off : BitVec 6) (n : Nat) (g : Group) (lane : Nat) : Nat := ((lsrc g lane a).toNat + off.toNat * n) % 2 ^ 32

/-- A memory instruction that takes a scoreboard entry. -/
def needLoad : Need := { Need.ofLane with pj := 9, entry := true, mem := true }
/-- A memory instruction that takes none. -/
def needStore : Need := { Need.ofLane with pj := 9, mem := true }

/-- No data. -/
def noData : Group → Nat → List Word := fun _ _ => []

/-- Lanes that consume by R308. -/
def pageExtra (addr : Group → Nat → Nat) (g : Group) (m : Mask) : Mask := samePage g (addr g) m

/-! ## Meanings -/

/-- LD (R180). -/
def execLd (sz : LdSize) (ch : Fin 4) (d : Fin 112) (a : LPair) (off : BitVec 6) (s : State) : Host.Outcome State Fault Refusal :=
  let i : Instr := .ld sz ch d a off
  let ea := pairEa a off (ldBytes sz)
  issueW i ((needLoad.pair a).dstN d.val sz.regs sz.regs) (fun _ => false) (pageExtra ea)
    (startReq i d.val sz.regs 24 (byLine ea) ea noData fun g => [g.r.readcount.toNat]) s

/-- The data of a store in a lane, with the word that says whether it carries data poison (R180, R305). -/
def stData (n : Nat) (d : LSrc) (g : Group) (lane : Nat) : List Word :=
  let p := match d with
    | .v r => (List.range n).any fun k => (find? g.r.vmark (lane * 128 + r.val + k)).isSome
    | _ => false
  lsrcWords g lane n d ++ [if p then 1 else 0]

/-- The access of ST: a unit that the instruction covers whole with clean data is clean again (R169). -/
def stAcc (sz : StSize) (ch : Nat) : StoreAcc where
  lane := stLane sz ch
  pre s g r := chargeStore s g r.pc (stBytes sz) ch 2 (ioSize (stBytes sz)) ((lanesOf r.lanes).map r.at)
  post s g r ls := healGlobal s g r.pc (stBytes sz) (ls.map fun l => (r.at l, decide ((r.words l).getLastD 0 = 1)))

/-- ST (R180). -/
def execSt (sz : StSize) (ch : Fin 4) (d : LSrc) (a : LPair) (off : BitVec 6) (s : State) : Host.Outcome State Fault Refusal :=
  let i : Instr := .st sz ch d a off
  let ea := pairEa a off (stBytes sz)
  issueW i ((needStore.pair a).dataN sz.regs d) (storeWait s i ea) (pageExtra ea)
    (doStore i (stAcc sz ch.val) (byLine ea) ea (stData sz.regs d)) s

/-- LDL (R161, R180). -/
def execLdl (sz : LdSize) (d : Fin 112) (a : LSrc) (off : BitVec 6) (s : State) : Host.Outcome State Fault Refusal :=
  let i : Instr := .ldl sz d a off
  let ea := singleEa a off (ldBytes sz)
  issueW i ((needLoad.src a).dstN d.val sz.regs sz.regs) (storeWait s i ea) (fun _ _ => 0)
    (doLoad i (ldlLane sz) d.val sz.regs (fun g m => 7 + lsPasses g (ea g) (ldBytes sz) m) ea noData) s

/-- The access of STL: an LS unit that the instruction covers whole is clean again (R169). -/
def stlAcc (sz : StSize) : StoreAcc where
  lane := stlLane sz
  post s g r ls := s.updCore g.info.core fun k =>
    { k with lsPoison := (healed (stBytes sz) (ls.map fun l => (laneWindow g l).1 + r.at l) []).foldl ndel k.lsPoison }

/-- STL (R161, R180). -/
def execStl (sz : StSize) (d a : LSrc) (off : BitVec 6) (s : State) : Host.Outcome State Fault Refusal :=
  let i : Instr := .stl sz d a off
  let ea := singleEa a off (stBytes sz)
  issueW i ((needStore.src a).srcN sz.regs d) (storeWait s i ea) (fun _ _ => 0)
    (doStore i (stlAcc sz) oneLine ea fun g l => lsrcWords g l sz.regs d) s

/-- The offset of LDP in its window (R181). -/
def ldpOff (sz : LdSize) (a : LSrc) (off : BitVec 6) (g : Group) (lane : Nat) : Nat := singleEa a off (ldBytes sz) g lane

/-- The global address of LDP. -/
def ldpEa (sz : LdSize) (win : Nat) (a : LSrc) (off : BitVec 6) (g : Group) (lane : Nat) : Nat :=
  (winBase g lane win + ldpOff sz a off g lane) % 2 ^ 64

/-- The lanes of LDP that make a request: those not wholly beyond the window (R181). -/
def ldpNear (sz : LdSize) (win : Nat) (a : LSrc) (off : BitVec 6) (g : Group) (m : Mask) : Mask :=
  maskOf ((lanesOf m).filter fun l => decide (ldpOff sz a off g l < winSize g l win))

/-- The lines of LDP; lanes beyond the window are answered with the first (R177, R181). -/
def ldpLines (sz : LdSize) (win : Nat) (a : LSrc) (off : BitVec 6) (g : Group) (m : Mask) : List Mask :=
  let near := ldpNear sz win a off g m
  match lineSets (ldpEa sz win a off g) near with
  | [] => [m]
  | f :: t => (f ||| (m &&& ~~~near)) :: t

/-- LDP (R181): an unbound window traps. -/
def execLdp (sz : LdSize) (win : Fin 4) (d : Fin 112) (a : LSrc) (off : BitVec 6) (s : State) : Host.Outcome State Fault Refusal :=
  let i : Instr := .ldp sz win d a off
  let ea := ldpEa sz win.val a off
  issueW i { (needLoad.src a).dstN d.val sz.regs sz.regs with win := some win.val } (fun _ => false)
    (fun g m => samePage g (ea g) (ldpNear sz win.val a off g m))
    (startReq i d.val sz.regs 24 (ldpLines sz win.val a off) ea (fun g l => [BitVec.ofNat 32 (ldpOff sz a off g l)]) fun _ => []) s

/-- SMP (R166, R180). -/
def execSmp (sz : LdSize) (ch : Fin 4) (d : Fin 112) (a : LPair) (off : BitVec 6) (s : State) : Host.Outcome State Fault Refusal :=
  let i : Instr := .smp sz ch d a off
  let ea := pairEa a off (ldBytes sz)
  issueW i ((needLoad.pair a).dstN d.val sz.regs sz.regs) (fun _ => false) (pageExtra ea)
    (startReq i d.val sz.regs 24 (byLine ea) ea noData fun _ => []) s

/-- The registers an atomic's D names (R55), and those it returns. -/
def atomRegs (op : Aop) (wide : Bool) : Nat := (if wide then 2 else 1) * (if op = .cas then 2 else 1)
def atomBack (wide : Bool) : Nat := if wide then 2 else 1

/-- The address of ATOM and RED: the pair at A, with no offset (R176). -/
def atomEa (a : LPair) (g : Group) (lane : Nat) : Nat := (lpair g lane a).toNat

/-- ATOM (R182, R183): a release waits for every earlier LSU access of the group (R289, R308). -/
def execAtom (op : Aop) (wide : Bool) (sc : Scope) (o : Ord4) (d : Fin 112) (a : LPair) (s : State) : Host.Outcome State Fault Refusal :=
  let i : Instr := .atom op wide sc o d a
  let k := atomRegs op wide
  issueW i (((needLoad.pair a).vblk d.val k k).dstN d.val (atomBack wide) (atomBack wide))
    (fun g => Ord4.releases o && outstanding g [clsLSU]) (pageExtra (atomEa a))
    (startReq i d.val (atomBack wide) 24 (byLine (atomEa a)) (atomEa a) (fun g l => getVs g l d.val k) fun _ => []) s

/-- What a line of atomics asks and moves: performed at the L1 it reads what misses there (R160); performed below it moves sectors of cluster
scratch only (R45). -/
def askAtom (s : State) (g : Group) (pc : Nat) (wide : Bool) (sc : Scope) (io : Bool) (eas : List Nat) : State :=
  if scopeCode sc ≤ 2 then askL1 s g pc (aopSize wide) 0 0 3 io eas
  else chargeLine s (clusterOf g.info.core) (fun _ _ => false) (placesOf s g pc (aopSize wide) 3 io eas)

/-- The access of RED: performed at the L1, a line that misses is read once (R160). -/
def redAcc (op : Aop) (wide : Bool) (sc : Scope) : StoreAcc where
  lane := redLane op wide sc
  pre s g r := askAtom s g r.pc wide sc false ((lanesOf r.lanes).map r.at)

/-- RED (R182, R183, R291): `.rel` and `.ar` release; nothing acquires. -/
def execRed (op : Aop) (wide : Bool) (sc : Scope) (o : Ord4) (d : LSrc) (a : LPair) (s : State) : Host.Outcome State Fault Refusal :=
  let i : Instr := .red op wide sc o d a
  let k := if wide then 2 else 1
  issueW i ((needStore.pair a).srcN k d)
    (fun g => storeWait s i (atomEa a) g || (Ord4.releases o && outstanding g [clsLSU])) (pageExtra (atomEa a))
    (fun c s => doStore i (redAcc op wide sc) (byLine (atomEa a)) (atomEa a) (fun g l => lsrcWords g l k d) c
      (if Ord4.releases o then releaseLsu s c.g.info.core sc else s)) s

/-- ATOML (R162, R182). -/
def execAtoml (op : Aop) (wide : Bool) (sc : Scope) (o : Ord4) (d : Fin 112) (a : LSrc) (s : State) : Host.Outcome State Fault Refusal :=
  let i : Instr := .atoml op wide sc o d a
  let k := atomRegs op wide
  let ea := singleEa a 0 1
  issueW i (((needLoad.src a).vblk d.val k k).dstN d.val (atomBack wide) (atomBack wide))
    (fun g => storeWait s i ea g || (Ord4.releases o && outstanding g [clsLSU])) (fun _ _ => 0)
    (doLoad i (atomlLane op wide) d.val (atomBack wide) (fun g m => 7 + atomlPasses g (ea g) (aopSize wide) m) ea
      fun g l => getVs g l d.val k) s

/-- LDO (R184). -/
def execLdo (sz : OSize) (d : Fin 112) (a : LSrc) (off : BitVec 6) (s : State) : Host.Outcome State Fault Refusal :=
  let i : Instr := .ldo sz d a off
  let ea := singleEa a off (oBytes sz)
  issueW i ((needLoad.src a).dstN d.val sz.regs sz.regs) (storeWait s i ea) (fun _ _ => 0)
    (doLoad i (ldoLane sz) d.val sz.regs (fun _ _ => 10) ea noData) s

/-- The access of STO: an OB sector that the instruction covers whole is clean again (R169). -/
def stoAcc (sz : OSize) : StoreAcc where
  lane := stoLane sz
  post s g r ls :=
    let as := ls.filterMap fun l => match obPlace s g l (r.at l) (oBytes sz) with
      | .ok a => some a
      | _ => none
    s.updCore g.info.core fun k => { k with obPoison := (healed (oBytes sz) as []).foldl ndel k.obPoison }

/-- STO (R184). -/
def execSto (sz : OSize) (d a : LSrc) (off : BitVec 6) (s : State) : Host.Outcome State Fault Refusal :=
  let i : Instr := .sto sz d a off
  let ea := singleEa a off (oBytes sz)
  issueW i ((needStore.src a).srcN sz.regs d) (storeWait s i ea) (fun _ _ => 0)
    (doStore i (stoAcc sz) oneLine ea fun g l => lsrcWords g l sz.regs d) s

end Sys2Proof.Machine
end

