-- ==== Sys2Proof/Machine/UniMem.lean ====
section
/-! DEFINITION. Uniform memory (R87, R88) and shape dispatch (R93, R94): one access for the group, held under lane number 64. -/
namespace Sys2Proof.Machine

/-- A uniform request: its address under lane 64, its data words under lane 64; its lanes are those of the path that issued it. -/
def mkUniReq (i : Instr) (c : Ctx) (addr : Nat) (data : List Word) (ops : List Nat) (entry early : Nat) : Req where
  instr := i
  pc := c.pc
  lanes := c.mask
  addr := [(64, addr)]
  data := [(64, data)]
  ops := ops
  entry := entry
  early := early
  skid := 0
  token := 0
  gen := c.g.info.gen
  tag := c.g.c.tag
  issuedAs := 0
  line := 0
  sent := true
  part := false
  younger := 0

/-- The registers of a uniform destination. -/
def uregs (d : UDst) (n : Nat) : List Nat :=
  match d with
  | .g r => (List.range n).map (r.val + ·)
  | .zero => []

/-- Start a uniform request whose result a later event delivers, 20 cc on at the earliest (R83). -/
def startUni (i : Instr) (d : UDst) (cnt : Nat) (addr : State → Group → Nat) (data : State → Group → List Word) (c : Ctx) (s : State) : State :=
  let e := takeSb s c.gid ⟨[], uregs d cnt, 0, false, none⟩
  (pushReq e.1 c.gid (mkUniReq i c (addr s c.g) (data s c.g) [] e.2 (s.now + 20))).1

/-- The whole path consumes when a lane of it owns a packet of the page (R308). -/
def uniExtra (addr : Group → Nat) (g : Group) (m : Mask) : Mask := if samePage g (fun _ => addr g) m = 0 then 0 else m

/-- A uniform access waits for older accesses to the same bytes by the group's threads (R87), for acquires, and in an IO page for every older
one (R173). -/
def uniWait (s : State) (i : Instr) (addr : Group → Nat) (g : Group) : Bool :=
  olderFirst s g none i 64 (addr g) (reqSize i) || ioHeld s g none i [addr g]

/-- The address of ULD and UST (R87). -/
def uniEa (a : UDst) (off : BitVec 10) (n : Nat) (g : Group) : Nat := ((upair g a).toNat + off.toNat * n) % 2 ^ 64

/-- The access of ULD. -/
def uldAcc (sz : LdSize) : LaneAcc := fun s g r _ =>
  let x := loadGlobal s g r.pc (r.at 64) (ldBytes sz) 0 (ioSize (ldBytes sz))
  (x.1, x.2.words sz)

/-- The access of UST. -/
def ustAcc (sz : StSize) : LaneAcc := fun s g r _ =>
  let x := storeGlobal s g r.pc (r.at 64) 0 (storeBytes sz (r.words 64)) false
  (x.1, x.2.none)

/-- ULD (R87). -/
def execUld (sz : LdSize) (d a : UDst) (off : BitVec 10) (s : State) : Host.Outcome State Fault Refusal :=
  let i : Instr := .uld sz d a off
  let n := Need.ofUni.upair a
  let n := if sz.regs = 2 then n.udstPair d else n.udst d
  issueW i { n with entry := true, mem := true } (fun _ => false) (uniExtra (uniEa a off (ldBytes sz)))
    (startUni i d sz.regs (fun _ g => uniEa a off (ldBytes sz) g) fun _ _ => []) s

/-- The words a uniform store writes (R55, R87). -/
def ustWords (s : State) (g : Group) (n : Nat) (d : USrc) : List Word :=
  if n = 2 then [loWord (usrcPair g d), hiWord (usrcPair g d)] else [usrc s g d]

/-- UST (R87). -/
def execUst (sz : StSize) (d : USrc) (a : UDst) (off : BitVec 10) (s : State) : Host.Outcome State Fault Refusal :=
  let i : Instr := .ust sz d a off
  let n := Need.ofUni.upair a
  let n := if sz.regs = 2 then n.usrcPair d else n.usrc d
  let ea := uniEa a off (stBytes sz)
  issueW i { n with mem := true } (uniWait s i ea) (uniExtra ea) (fun c s =>
    let r := mkUniReq i c (ea c.g) (ustWords s c.g sz.regs d) [] 0 s.now
    let x := performLanes (ustAcc sz) c.g r [64] (chargeStore s c.g c.pc (stBytes sz) 0 2 (ioSize (stBytes sz)) [ea c.g])
    if x.2.2 = [] then x.1 else (pushReq x.1 c.gid r).1) s

/-- The access of ULDP (R88): bytes at or beyond the size of the window, that of the lowest lane it was issued for, read 0. -/
def uldpAcc (wide : Bool) (win off : Nat) : LaneAcc := fun s g r _ =>
  let n := aopSize wide
  let size := winSize g (lowLane r.lanes) win
  if off % n ≠ 0 then (s, .fatal 0x21)
  else if size ≤ off then (s, .ok (List.replicate (n / 4) 0))
  else match loadGlobal s g r.pc (r.at 64) n 0 false with
    | (s, .ok b) => (s, .ok (bytesWords (n / 4) (b.take (size - off) ++ List.replicate (n - (size - off)) 0)))
    | (s, .xlate va) => (s, .xlate va)
    | (s, .fatal c) => (s, .fatal c)

/-- The global address of ULDP. -/
def uldpEa (win off : Nat) (g : Group) : Nat := (winBase g g.uniLane win + off) % 2 ^ 64

/-- ULDP (R88). -/
def execUldp (wide : Bool) (d : UDst) (win : Fin 4) (off : BitVec 14) (s : State) : Host.Outcome State Fault Refusal :=
  let i : Instr := .uldp wide d win off
  let n := if wide then Need.ofUni.udstPair d else Need.ofUni.udst d
  issueW i { n with entry := true, mem := true, win := some win.val } (fun _ => false) (uniExtra (uldpEa win.val (off.toNat * 4)))
    (startUni i d (if wide then 2 else 1) (fun _ g => uldpEa win.val (off.toNat * 4) g) fun _ _ => []) s

/-! ## DISPATCH -/

/-- Read 32-byte pieces of a bucket table one after another: the bytes, or the first fault. -/
def readPieces (s : State) (g : Group) (pc va : Nat) : Nat → State × Got (List Byte)
  | 0 => (s, .ok [])
  | n + 1 =>
    match loadGlobal s g pc (va % 2 ^ 64) 32 0 false with
    | (s, .ok b) => match readPieces s g pc (va + 32) n with
      | (s, .ok t) => (s, .ok (b ++ t))
      | x => x
    | x => x

/-- Whether a bucket's bounds admit the shape (R93). -/
def bucketFits (b : List Byte) (i : Nat) (shape : List Word) : Bool :=
  shape.zipIdx.all fun (v, j) => decide (v.toNat ≤ field b (0x20 + 32 * i + 4 * j) 4)

/-- The code address a bucket table selects for a shape (R93, R94): the first bucket that fits, else the default; a table with a bad
count or a reserved field set has no buckets. -/
def selectBucket (b : List Byte) (shape : List Word) : Nat :=
  let count := field b 0 1
  let ok := decide (field b 0 4 = count) && decide (1 ≤ count) && decide (count ≤ 64) && decide (field b 4 4 = 0) && decide (field b 0x10 16 = 0)
    && (List.range count).all fun i => decide (field b (0x38 + 32 * i) 8 = 0)
  match (if ok then (List.range count).find? (bucketFits b · shape) else none) with
  | some i => field b (0x30 + 32 * i) 8
  | none => field b 8 8

/-- The 32-byte pieces of a bucket table that follow its header, by the header's count (R94). -/
def buckets (h : List Byte) : Nat := if field h 0 4 ≤ 64 then field h 0 4 else 0

/-- The bytes that DISPATCH reads from a table's address on: its header and, where that can be read, the buckets it counts (R94). -/
def dispatchSpan (s : State) (g : Group) (pc ea : Nat) : Nat :=
  match (readPieces s g pc ea 1).2 with
  | .ok h => 32 * (1 + buckets h)
  | _ => 32

/-- The access of DISPATCH: its header says how many buckets are read (R94). -/
def dispatchAcc : LaneAcc := fun s g r _ =>
  match readPieces s g r.pc (r.at 64) 1 with
  | (s, .ok h) =>
    match readPieces s g r.pc (r.at 64) (1 + buckets h) with
    | (s, .ok b) => let v := selectBucket b (r.words 64); (s, .ok [BitVec.ofNat 32 v, BitVec.ofNat 32 (v / 2 ^ 32)])
    | (s, .xlate va) => (s, .xlate va)
    | (s, .fatal c) => (s, .fatal c)
  | (s, .xlate va) => (s, .xlate va)
  | (s, .fatal c) => (s, .fatal c)

/-- The table address of DISPATCH: bits 4:0 are taken as 0 (R94). -/
def tableEa (b : UDst) (g : Group) : Nat := (upair g b).toNat / 32 * 32

/-- The whole path consumes at a DISPATCH when a lane of it owns a packet of a page that the table spans (R308). -/
def dispatchExtra (s : State) (b : UDst) (g : Group) (m : Mask) : Mask :=
  uniExtra (fun g => tableEa b g) g m ||| uniExtra (fun g => tableEa b g + (dispatchSpan s g 0 (tableEa b g) - 1)) g m

/-- DISPATCH (R93). -/
def execDispatch (n : Fin 4) (d a b : UDst) (s : State) : Host.Outcome State Fault Refusal :=
  let i : Instr := .dispatch n d a b
  let first : Nat := match a with | .g r => r.val | .zero => 0
  issueW i { ((Need.ofUni.ublk first (n.val + 1)).upair b).udstPair d with entry := true, mem := true } (fun _ => false)
    (dispatchExtra s b) (startUni i d 2 (fun _ g => tableEa b g) fun _ g => ublock g first (n.val + 1)) s

end Sys2Proof.Machine
end

