-- ==== Sys2Proof/Machine/Sync.lean ====
section
/-! DEFINITION. Synchronisation: fences (R294), EFENCE (R307), MWAIT (R295), barriers (R297, R298), condition words (R106). -/
namespace Sys2Proof.Machine

/-! ## Fences (R294) -/

/-- The classes of a class mask (R58). -/
def classesOf (m : BitVec 8) : List Nat := (List.range 8).filter fun i => m.getLsbD i

/-- The classes a fence waits for: those of its from-mask; a plain FENCE (both masks 0) waits for every class but SMP. -/
def fenceFrom (f : BitVec 8) : List Nat := if f = 0 then [0, 2, 3, 4, 5, 6, 7] else classesOf f

/-- What a fence does once its from-classes are performed (R289, R294): the write-back of a release, and the invalidations. -/
def fenceEffect (s : State) (core : Nat) (sc : Scope) (f t : BitVec 8) : State :=
  if f = 0 then acquireLsu (releaseLsu s core sc) core sc
  else
    let s := if f.getLsbD clsLSU then releaseLsu s core sc else s
    let s := if t.getLsbD clsSMP then s.dropSmp core else s
    if t.getLsbD clsLSU && (decide (3 ≤ scopeCode sc) || decide (f ≠ 1)) then s.dropClean core else s

/-- A fence: the group waits until its accesses are performed. -/
def fenceWith (i : Instr) (sc : Scope) (f t : BitVec 8) (s : State) : Host.Outcome State Fault Refusal :=
  issue i needCtl (fun c s => s.updGroup c.gid fun g => { g with c := { g.c with wait := .fence sc f t } }) s

/-- FENCE (R294). -/
def execFence (sc : Scope) (s : State) : Host.Outcome State Fault Refusal := fenceWith (.fence sc) sc 0 0 s

/-- FENCE.X (R294). -/
def execFenceX (sc : Scope) (f t : BitVec 8) (s : State) : Host.Outcome State Fault Refusal := fenceWith (.fenceX sc f t) sc f t s

/-- A group goes on. -/
def wake (s : State) (gid : Nat) : State := s.updGroup gid fun g => { g with c := { g.c with wait := .none, readyCc := s.now } }

/-- FENCE_COMPLETE: the accesses of the from-classes are performed and no packet of them is left (R294, R308). -/
def evFenceComplete (gid : Nat) (s : State) : Option State :=
  (s.group? gid).bind fun g =>
    match g.c.wait with
    | .fence sc f t =>
      if deviceLive s g.info.vdev && !outstanding g (fenceFrom f) then some (wake (fenceEffect s g.info.core sc f t) gid) else none
    | _ => none

/-! ## EFENCE (R307) -/

/-- EFENCE: the group waits until every earlier access has been performed or has faulted. -/
def execEfence (s : State) : Host.Outcome State Fault Refusal :=
  issue .efence needCtl (fun c s => s.updGroup c.gid fun g => { g with c := { g.c with wait := .efence } }) s

/-- Whether the group has accesses in flight on any path. -/
def inFlight (g : Group) : Bool := g.c.reqs.any fun e => decide (e.2.token = 0) && (match e.2.instr with | .launch .. => false | _ => true)

/-- EFENCE_COMPLETE: lanes of the current path that own a packet or hold a fatal mark split off at the EFENCE (R306, R307). -/
def evEfenceComplete (gid : Nat) (s : State) : Option State :=
  (s.group? gid).bind fun g =>
    match g.c.wait, curPath g.c.paths with
    | .efence, some p =>
      if !deviceLive s g.info.vdev || inFlight g then none
      else
        let s := wake s gid
        let m := exitStops g p.mask
        if m = 0 then some s
        else
          let r := consume (setPc s gid (p.pc - 4)) gid m (p.pc - 4)
          some (if r.2 = 0 then r.1 else setPc r.1 gid p.pc)
    | _, _ => none

/-! ## MWAIT (R295) -/

/-- The comparison of MWAIT. -/
def wcond (c : WCond) (v b : Nat) : Bool :=
  match c with
  | .ge => decide (b ≤ v)
  | .eq => decide (v = b)
  | .ne => decide (v ≠ b)

/-- The value MWAIT waits for. -/
def mwaitValue (s : State) (g : Group) (wide : Bool) (b : USrc) : DWord := if wide then usrcPair g b else (usrc s g b).setWidth 64

/-- MWAIT: the group waits; the word is read by the event that ends the wait. -/
def execMwait (cc : WCond) (wide : Bool) (sc : Scope) (d a : UDst) (b : USrc) (s : State) : Host.Outcome State Fault Refusal :=
  let n := Need.ofUni.upair a
  let n := if wide then (n.usrcPair b).udstPair d else (n.usrc b).udst d
  issueW (.mwait cc wide sc d a b) n (fun _ => false) (uniExtra fun g => (upair g a).toNat) (fun c s =>
    s.updGroup c.gid fun g =>
      { g with c := { g.c with wait := .mwait cc wide sc d (upair c.g a).toNat (mwaitValue s c.g wide b) } }) s

/-- The word of MWAIT at its scope's point: through the L1 for scopes up to workgroup, below it otherwise (R295). -/
def mwaitRead (s : State) (g : Group) (pc va n : Nat) (sc : Scope) : State × Got (List Byte) :=
  if scopeCode sc ≤ 2 then loadGlobal (askL1 s g pc n 0 0 1 false [va]) g pc va n 0 false
  else match place s g pc va n 1 false true with
    | (s, .xlate v) => (s, .xlate v)
    | (s, .fatal c) => (s, .fatal c)
    | (s, .ok (.scratch a)) => orPoison (readScratch (chargeLine s (clusterOf g.info.core) (fun _ _ => false) [.scratch a]) g a n)
    | (s, .ok (.phys pa mt)) =>
      let s := askPlaces s g.info.core 0 0 (fun _ => false) (fun _ => true) [.phys pa mt]
      if s.poisoned pa then (s, .fatal 0x13) else (s.asked pa, .ok ((List.range n).map fun i => s.below (pa + i)))

/-- Whether the write that MWAIT observes went, in every 4-byte unit, through another class than LSU: then its acquire is on that class, and the
L1 keeps what it holds (R291, R295, R289). (DEDUCED, log 42) -/
def observedOther (s : State) (g : Group) (pc va n : Nat) : Bool :=
  match place s g pc va n 1 false true with
  | (s, .ok (.phys pa _)) => (List.range (n / 4)).all fun i => s.otherClass.contains (loc pa / 4 + i)
  | _ => false

/-- Mark a uniform destination poisoned (R87, R305). -/
def markU (r : GRegs) (regs : List Nat) (m : Mark) : GRegs := { r with gmark := regs.foldl (fun a k => mset a k m) r.gmark }

/-- Whether a wait has a packet of its own outstanding. -/
def waitPacket (g : Group) : Bool := g.c.reqs.any fun e => decide (e.2.token ≠ 0) && (match e.2.instr with | .mwait .. => true | _ => false)

/-- MWAIT_WAKE: the word is read; if the condition holds the group goes on, as an acquire, else what the read brought into the caches stays there,
so that a wait at the L1 sees only what reaches the L1; a translation fault parks the read, D poisoned
until its replay lets the wait resume, and any other fault completes the wait with D poisoned (R295, R305). -/
def evMwaitWake (gid : Nat) (s : State) : Option State :=
  (s.group? gid).bind fun g =>
    match g.c.wait, curPath g.c.paths with
    | .mwait cc wide sc d va v, some p =>
      if !deviceLive s g.info.vdev || waitPacket g then none
      else
        let n := aopSize wide
        let regs := uregs d (if wide then 2 else 1)
        match mwaitRead s g p.pc va n sc with
        | (s, .ok b) =>
          let x := BitVec.ofNat 64 (leNat b)
          if wcond cc x.toNat v.toNat then
            let s := if observedOther s g p.pc va n then s else acquireLsu s g.info.core sc
            some ((wake s gid).updGroup gid
              fun g => { g with r := if wide then g.r.setU64 d x else g.r.setU d (loWord x) })
          else some s
        | (s, .xlate a) =>
          let r : Req := { (default : Req) with
            instr := .mwait cc wide sc d .zero .zero, pc := p.pc - 4, lanes := p.mask, addr := [(64, va)], gen := g.info.gen, tag := g.c.tag, sent := true }
          let x := parkPacket s gid r s.nextId p.mask a
          some (x.1.updGroup gid fun g => { g with r := markU g.r regs ⟨0x20, x.2, 0, va⟩ })
        | (s, .fatal code) =>
          some ((wake s gid).updGroup gid fun g => { g with r := markU g.r regs ⟨code, 0, 0, va⟩ })
    | _, _ => none

/-! ## Barriers (R297, R298) -/

/-- The scope of a barrier, raised to that of its object (R297). -/
def barScope (obj : Nat) (sc : Scope) : Scope :=
  if bit obj 8 then (if scopeCode sc < 3 then .clu else sc) else (if scopeCode sc < 2 then .wkg else sc)

/-- Whether a barrier operand is valid for a group: no reserved bit, an index the workgroup or gang has, not a handler or split group. -/
def barValid (g : Group) (obj : Nat) : Bool :=
  !g.formerBuilt && decide (obj / 2 ^ 9 = 0) && decide (obj / 2 ^ 6 % 4 = 0)
    && (if bit obj 8 then g.info.gang.isSome && decide (obj % 64 < g.info.prog.cbar) else decide (obj % 64 < g.info.prog.wbar))

/-- The default count: launched groups of the workgroup, or of the gang, that have not exited (R298). -/
def barDefault (s : State) (g : Group) (obj : Nat) : Nat :=
  s.groups.countP fun e => !e.2.formerBuilt
    && (if bit obj 8 then decide (e.2.info.gang = g.info.gang) else decide (e.2.info.wg = g.info.wg))

/-- A barrier object after an arrival with a count (R297); 0 is the default count, `dflt`. -/
def arrive (b : Barrier) (count dflt : Nat) : Barrier :=
  let b := if b.arr = 0 then { b with exp := if count = 0 then dflt else count, dflt := decide (count = 0) }
    else { b with brk := b.brk || decide (count ≠ if b.dflt then 0 else b.exp) }
  let b := { b with arr := b.arr + 1 }
  if b.exp ≤ b.arr then { b with ph := (b.ph + 1) % 2 ^ 16, arr := 0, dflt := false } else b

/-- What a barrier instruction needs. -/
def needBar (d : UDst) (a b : USrc) : Need := ((Need.ofUni.usrc a).usrc b).udst d

/-- Whether the operands of BAR or BARA are valid (R297). -/
def arriveValid (g : Group) (obj count : Nat) : Bool := barValid g obj && decide (count ≤ 2048)

/-- Arrivals are releases: they wait for every access and packet of the classes but SMP (R298, R308). An invalid one neither arrives nor
waits (R297). -/
def barHeld (s : State) (a b : USrc) (g : Group) : Bool :=
  arriveValid g (usrc s g a).toNat (usrc s g b).toNat && outstanding g [0, 2, 3, 4, 5, 6, 7]

/-- The arrival of BAR and BARA: a release at the scope, at a broken object too; then the group waits for the phase (`waits`) or goes on (R297,
R298). -/
def arriveAt (waits : Bool) (sc : Scope) (d : UDst) (obj count : Nat) (c : Ctx) (s : State) : State :=
  match (if arriveValid c.g obj count then barObj s c.g obj else none) with
  | none => uniResult d 0 (fun _ _ => barWord 0 2) c s
  | some b =>
    let sc := barScope obj sc
    let n := arrive b count (barDefault s c.g obj)
    let s := setBarObj (releaseLsu s c.g.info.core sc) c.g obj n
    let s := wakeBars s c.g.info.wg c.g.info.gang
    if n.brk then uniResult d 0 (fun _ _ => barWord b.ph 1) c s
    else if !waits then uniResult d 0 (fun _ _ => barWord b.ph 0) c s
    else if n.ph ≠ b.ph then uniResult d 0 (fun _ _ => barWord b.ph 0) c (acquireLsu s c.g.info.core sc)
    else s.updGroup c.gid fun g => { g with c := { g.c with wait := .bar obj b.ph sc d false } }

/-- BAR (R297). -/
def execBar (sc : Scope) (d : UDst) (a b : USrc) (s : State) : Host.Outcome State Fault Refusal :=
  issueW (.bar sc d a b) (needBar d a b) (barHeld s a b) (fun _ _ => 0)
    (fun c s => arriveAt true sc d (usrc s c.g a).toNat (usrc s c.g b).toNat c s) s

/-- BARA (R297). -/
def execBara (sc : Scope) (d : UDst) (a b : USrc) (s : State) : Host.Outcome State Fault Refusal :=
  issueW (.bara sc d a b) (needBar d a b) (barHeld s a b) (fun _ _ => 0)
    (fun c s => arriveAt false sc d (usrc s c.g a).toNat (usrc s c.g b).toNat c s) s

/-- BARW: waits while the phase is the one named (R297). -/
def execBarw (sc : Scope) (d : UDst) (a b : USrc) (s : State) : Host.Outcome State Fault Refusal :=
  issue (.barw sc d a b) (needBar d a b) (fun c s =>
    let obj := (usrc s c.g a).toNat
    let p := (usrc s c.g b).toNat
    match (if barValid c.g obj && decide (p < 2 ^ 16) then barObj s c.g obj else none) with
    | none => uniResult d 0 (fun _ _ => barWord 0 2) c s
    | some k =>
      if k.brk then uniResult d 0 (fun _ _ => barWord k.ph 1) c s
      else if k.ph ≠ p then uniResult d 0 (fun _ _ => barWord k.ph 0) c (acquireLsu s c.g.info.core (barScope obj sc))
      else s.updGroup c.gid fun g => { g with c := { g.c with wait := .bar obj p (barScope obj sc) d true } }) s

/-! ## COND (R34, R106) -/

/-- The front end whose partition a context is bound to (R25). -/
def feOf (s : State) (vdev : Nat) : Option Nat :=
  (s.fes.find? fun e => e.2.en && e.2.vdevV && decide (e.2.vdev = vdev)).map (·.1)

/-- The address of condition word `i` of a context (R34). -/
def cwEa (s : State) (vdev i : Nat) : Nat := (((feOf s vdev).map fun f => (s.fe f).cwb.toNat).getD 0 + 4 * (i % 256)) % 2 ^ 64

/-- The store of COND, performed below the L1s (R106). -/
def condAcc : LaneAcc := fun s g r _ =>
  match place s g r.pc (r.at 64) 4 2 false false with
  | (s, .xlate va) => (s, .xlate va)
  | (s, .fatal c) => (s, .fatal c)
  | (s, .ok (.scratch _)) => (s, .fatal 0x22)
  | (s, .ok (.phys pa _)) => ((s.ccWrite (clusterOf g.info.core) pa 0).storeBelow pa ((wordBytes (r.words 64)).take 4) false, .ok [])

/-- COND: a release over every class, then the store (R106). -/
def execCond (sc : Scope) (a b : USrc) (s : State) : Host.Outcome State Fault Refusal :=
  issueW (.cond sc a b) ((Need.ofUni.usrc a).usrc b) (fun g => outstanding g [0, 1, 2, 3, 4, 5, 6, 7])
    (fun g m => uniExtra (fun g => cwEa s g.info.vdev (usrc s g a).toNat) g m) (fun c s =>
      let s := releaseLsu s c.g.info.core sc
      let r := mkUniReq (.cond sc a b) c (cwEa s c.g.info.vdev (usrc s c.g a).toNat) [usrc s c.g b] [] 0 s.now
      let x := performLanes condAcc c.g r [64] s
      if x.2.2 = [] then x.1 else (pushReq x.1 c.gid r).1) s

/-! ## Meanings of the events -/

def execFenceComplete (gid : Nat) (s : State) : Host.Outcome State Fault Refusal := ofEvent (evFenceComplete gid s) s
def execEfenceComplete (gid : Nat) (s : State) : Host.Outcome State Fault Refusal := ofEvent (evEfenceComplete gid s) s
def execMwaitWake (gid : Nat) (s : State) : Host.Outcome State Fault Refusal := ofEvent (evMwaitWake gid s) s

end Sys2Proof.Machine
end

