-- ==== Sys2Proof/Machine/Rings.lean ====
section
/-! DEFINITION. Edges as rings (R9 to R14): their indices, slots and headers, the ring accesses of producers, former and codecs, and the
records that become former entries (R19, R76, R348). -/
namespace Sys2Proof.Machine

/-! ## Edges -/

/-- Roles of the part on an edge (R257): local, sender, receiver, inert. -/
def roleLocal : Nat := 0
def roleSender : Nat := 1
def roleReceiver : Nat := 2
def roleInert : Nat := 3

/-- The physical address of an edge descriptor: as its page lies now, else as admission found it (DESIGN CHOICE, log 22). -/
def edgePa (s : State) (e : Edge) : Nat :=
  match translateAt s e.vdev e.desc 0 with
  | .ok pa _ => loc pa
  | _ => loc e.pa

/-- RSV, DLV and RCL (R9). -/
def edgeRsv (s : State) (e : Edge) : Nat := s.num (edgePa s e + 0x10) 4
def edgeDlv (s : State) (e : Edge) : Nat := s.num (edgePa s e + 0x14) 4
def edgeRcl (s : State) (e : Edge) : Nat := s.num (edgePa s e + 0x18) 4
def setRsv (s : State) (e : Edge) (v : Nat) : State := s.setNum (edgePa s e + 0x10) 4 (v % 2 ^ 32)
def setDlv (s : State) (e : Edge) (v : Nat) : State := s.setNum (edgePa s e + 0x14) 4 (v % 2 ^ 32)
def setRcl (s : State) (e : Edge) (v : Nat) : State := s.setNum (edgePa s e + 0x18) 4 (v % 2 ^ 32)

/-- Slots of a ring (R10), free slots (R13, R187). -/
def Edge.slots (e : Edge) : Nat := 2 ^ e.capl
def edgeFree (s : State) (e : Edge) : Nat := e.slots - (edgeRsv s e + 2 ^ 32 - edgeRcl s e) % 2 ^ 32

/-- The address of the slot of a sequence number (R10, R12): 8-byte header, then the record. -/
def Edge.slotEa (e : Edge) (seq : Nat) : Nat := (e.base + seq % e.slots * (8 * e.rs + 8)) % 2 ^ 64

/-- The stage that consumes an edge, as the graph stood at its last check (R7, R192). -/
def stageOf (s : State) (e : Edge) : Option Program :=
  (find? (s.vdev e.vdev).graphs e.graph).bind fun g => g.stages.find? fun p => decide (p.inEdge = e.desc)

/-- Whether a stage runs on this part (R257). -/
def sideHere (s : State) (vdev side : Nat) : Bool := decide (side = (s.vdev vdev).vside)

/-- Whether an edge is remote in a context whose VSIDE changed while it was in use: it does nothing more until RESET (R257). -/
def Edge.stuck (s : State) (e : Edge) : Bool := e.rmt && (s.vdev e.vdev).remoteUndef

/-- The edge of an output of the launch whose program a lane's thread runs; none when it is unconnected or there is no graph (R8, R31). -/
def laneEdge (s : State) (g : Group) (lane o : Nat) : Option (Nat × Edge) :=
  match (g.laneProg lane).outs[o]? with
  | none | some 0 => none
  | some d => (find? s.edges (edgeKey g.info.vdev d)).map fun e => (edgeKey g.info.vdev d, e)

/-! ## Ring accesses -/

/-- Cluster and offset of a ring in FIFO banks (LOC = 1): the base names a cluster of the partition by its offset from BASE (DESIGN CHOICE, log 23). -/
def ringCluster (s : State) (e : Edge) : Nat := (s.fe e.fe).base + e.base / 2 ^ 21 % 2 ^ 8
def sramOffset (a : Nat) : Nat := a % 2 ^ 21

/-- Where 8-byte units of a ring lie. -/
inductive RingAt where
  | ok (pas : List Nat)
  | xlate (va : Nat)
  | fatal (code : Nat)
  | poison (pa : Nat)
  deriving DecidableEq, Repr

/-- Translate `n` 8-byte units of a ring in HBM (R9, R188, R189). -/
def ringAt (s : State) (vdev va need : Nat) : Nat → RingAt
  | 0 => .ok []
  | n + 1 =>
    match addrClass va with
    | .translated =>
      match translateAt s vdev va need with
      | .fault => .xlate va
      | .bad => .fatal 0x23
      | .poison pa => .poison pa
      | .ok pa mt =>
        match region s pa with
        | .hbm | .remote =>
          if mt = 2 then .fatal 0x23
          else match ringAt s vdev ((va + 8) % 2 ^ 64) need n with
            | .ok l => .ok (pa :: l)
            | x => x
        | _ => .fatal 0x23
    | _ => .fatal 0x23

/-- Bytes written in 8-byte units at physical addresses. -/
def putUnits (s : State) : List Nat → List Byte → State
  | [], _ => s
  | pa :: t, bs => putUnits ((s.storeBelow pa (bs.take 8) false).wroteAs false pa 8) t (bs.drop 8)

/-- The hint of a ring access at an address, by the memory type of its page (R159, R173). -/
def ringHint (s : State) (vdev va : Nat) : Nat := match translateAt s vdev va 0 with
  | .ok _ mt => typeHint mt 0
  | _ => 0

/-- The first unit of each 128-byte sector among some units, with the hint of its page; `a` is the virtual address of the first unit. -/
def unitSectors (s : State) (vdev a : Nat) (l : List Nat) : List (Nat × Nat) :=
  let u := l.zipIdx
  ((l.map (· / 128)).dedup).filterMap fun sec =>
    (u.find? fun x => decide (x.1 / 128 = sec)).map fun x => (x.1, ringHint s vdev ((a + 8 * x.2) % 2 ^ 64))

/-- Bytes written in 8-byte units at physical addresses, as the EDG class does: below the L1s, each sector moved once. -/
def writeUnits (s : State) (cl vdev a : Nat) (l : List Nat) (bs : List Byte) : State :=
  let secs := unitSectors s vdev a l
  putUnits ((secs.foldl (fun s u => s.ccWrite cl u.1 u.2) s).moved cl secs.length) l bs

/-- Bytes written to a ring in a FIFO bank (R45): their sectors are moved in the ring's cluster. -/
def writeFifo (s : State) (cl a : Nat) (bs : List Byte) : State :=
  (s.moved cl (sectorsOf a bs.length)).updCluster cl fun k => k.sramStore a bs false

/-- The outcome of an access of an engine or of an edge, with the physical address of a poisoned page-table entry. -/
inductive EGot (α : Type) where
  | ok (v : α)
  | xlate (va : Nat)
  | fatal (code : Nat)
  | poison (pa : Nat)
  deriving DecidableEq, Repr

/-- Write bytes (a multiple of 8) in a slot of a ring, at `off` from its header. -/
def ringWrite (s : State) (cl : Nat) (e : Edge) (seq off : Nat) (bs : List Byte) : State × EGot Unit :=
  let a := (e.slotEa seq + off) % 2 ^ 64
  if e.loc then (writeFifo s (ringCluster s e) (sramOffset a) bs, .ok ())
  else match ringAt s e.vdev a 2 (bs.length / 8) with
    | .ok l => (writeUnits s cl e.vdev a l bs, .ok ())
    | .xlate va => (s, .xlate va)
    | .fatal c => (s, .fatal c)
    | .poison pa => (s, .poison pa)

/-- What stands in 8-byte units from virtual address `a` up: the bytes, with the units that are poisoned (R169). A cluster asks for each line once, with
the sectors it takes, and is charged for each sector (R45, R158, R160); a codec belongs to no cluster (DESIGN CHOICE, log 28). A line of another part
is asked for over Ivmar (R175). -/
def readUnits (s : State) (cl : Option Nat) (vdev a : Nat) (l : List Nat) : State × List Byte × List Bool :=
  let secs : List (Nat × Nat) := unitSectors s vdev a l
  let lines := (l.map (· / 256)).dedup
  let t := lines.foldl (fun s line =>
    let here : List (Nat × Nat) := secs.filter fun x => decide (x.1 / 256 = line)
    let s := match cl with
      | some c => s.askLine c ((here.head?.map fun (x : Nat × Nat) => x.2).getD 0) 0 (here.map fun (x : Nat × Nat) => x.1)
      | none => s
    s.asked (line * 256)) s
  ((match cl with
      | some c => t.moved c secs.length
      | none => t),
    l.flatMap fun pa => (List.range 8).map fun i => s.below (pa + i), l.map s.poisoned)

/-- Read `n` 8-byte units of a slot from its header up, with the units that are poisoned; `cl` is the reader's cluster. -/
def ringRead (s : State) (cl : Option Nat) (e : Edge) (seq n : Nat) : State × EGot (List Byte × List Bool) :=
  let a := e.slotEa seq
  if e.loc then
    let k := s.cluster (ringCluster s e)
    (s.moved (ringCluster s e) (sectorsOf (sramOffset a) (8 * n)),
      .ok (k.sramBytes (sramOffset a) (8 * n), (List.range n).map fun i => k.sramBad (sramOffset a + 8 * i) 8))
  else match ringAt s e.vdev a 1 n with
    | .ok l => let x := readUnits s cl e.vdev a l; (x.1, .ok x.2)
    | .xlate va => (s, .xlate va)
    | .fatal c => (s, .fatal c)
    | .poison pa => (s, .poison pa)

/-- A slot header (R11): status byte, key, sequence number. -/
def slotHeader (status key seq : Nat) : List Byte := leBytes 8 (status % 2 ^ 8 * 2 ^ 56 + key % 2 ^ 24 * 2 ^ 32 + seq % 2 ^ 32)

/-- The header of the slot of a sequence number as it stands, where it can be read; the access itself is the former's read of the slot, or the codec's
(R348). -/
def headerAt (s : State) (e : Edge) (seq : Nat) : Option Nat :=
  let a := e.slotEa seq
  if e.loc then some (leNat ((s.cluster (ringCluster s e)).sramBytes (sramOffset a) 8))
  else match ringAt s e.vdev a 1 1 with
    | .ok [pa] => some (leNat ((List.range 8).map fun i => s.below (pa + i)))
    | _ => none

/-- Sequence numbers reserved and not yet reclaimed, oldest first (R13). -/
def liveSeqs (s : State) (e : Edge) : List Nat :=
  let rcl := edgeRcl s e
  (List.range ((edgeRsv s e + 2 ^ 32 - rcl) % 2 ^ 32)).map fun i => (rcl + i) % 2 ^ 32

/-- Whether the slot of a live sequence number is published: its header's sequence number is the one expected (R12). Where the header cannot be
read, what the hardware has published stands. (DESIGN CHOICE, log 81) -/
def isPublished (s : State) (e : Edge) (seq : Nat) : Bool :=
  decide ((seq + 2 ^ 32 - edgeRcl s e) % 2 ^ 32 < (edgeRsv s e + 2 ^ 32 - edgeRcl s e) % 2 ^ 32) && !e.given.contains seq && !e.voided.contains seq
    && !e.finished.contains seq
    && match headerAt s e seq with
      | some h => decide (h % 2 ^ 32 = seq)
      | none => e.ready.contains seq

/-- The published slots of an edge that have not been handed over, oldest first. -/
def publishedSeqs (s : State) (e : Edge) : List Nat := (liveSeqs s e).filter (isPublished s e)

/-- The key in the header of a slot (R11). -/
def keyAt (s : State) (e : Edge) (seq : Nat) : Option Nat := (headerAt s e seq).map fun h => h / 2 ^ 32 % 2 ^ 24

/-- A slot becomes published (R12, R188). Unless its key has a thread alive or a record waiting, it has no predecessor whose core it must go to
(R41). -/
def publish (s : State) (edge seq : Nat) : State :=
  s.updEdge edge fun e =>
    let key := (keyAt s e seq).getD 0
    let waits := decide (e.ord = 2) && ((e.alive.any fun a => decide (a.2 = key))
      || (publishedSeqs s e).any fun q => decide (q ≠ seq) && decide (keyAt s e q = some key))
    { e with ready := nins e.ready seq, keyCore := if waits then e.keyCore else merase e.keyCore key }

/-- Reserve one slot for a codec (R187, R271): the sequence number. -/
def reserveOne (s : State) (edge frame : Nat) : State × Nat :=
  match find? s.edges edge with
  | none => (s, 0)
  | some e =>
    let n := edgeRsv s e
    ((setRsv s e (n + 1)).updEdge edge fun e => { e with frames := mset e.frames n frame }, n)

/-! ## Reclaiming (R13) -/

/-- SLOT_RECLAIM: the oldest slot is reclaimed when its thread has ended or it is void; a sender's void waits for its drain (R266), a record that
a cut move sends a second time for that (R278). -/
def evSlotReclaim (edge : Nat) (s : State) : Option State :=
  (find? s.edges edge).bind fun e =>
    let n := edgeRcl s e
    if decide (n ≠ edgeRsv s e) && decide (e.second ≠ some n) && (e.finished.contains n || (e.voided.contains n && decide (e.role ≠ roleSender))) then
      let s := setRcl s e (n + 1)
      let s := if edgeDlv s e = n then setDlv s e (n + 1) else s
      some (s.updEdge edge fun e => { e with finished := ndel e.finished n, voided := ndel e.voided n, given := ndel e.given n
                                             frames := merase e.frames n })
    else none

/-! ## Handing slots to the former (R41, R79, R348) -/

/-- The first-error record of a record slot (R334). -/
def slotErr (e : Edge) (code seq core : Nat) : ErrRec := ⟨4, code, placeOf core 0, 0, 0, 0, e.desc, seq % e.slots⟩

/-- A slot voided by the read of a core's former, or of a codec, which has no core and gives 0 (R334, R348). -/
def voidRead (s : State) (edge : Nat) (e : Edge) (code seq ea core : Nat) : State :=
  let s := voidSlot s edge seq
  let s := logEvent s e.vdev evMemfault code 0 127 (s.vdev e.vdev).gen ea 0 core 0 0
  stickyError s e.vdev (slotErr e code seq core)

/-- The clusters of a front end's partition. -/
def clustersOf (f : FrontEnd) : List Nat := (List.range (f.limit + 1 - f.base)).map (f.base + ·)

/-- The cores an edge's slots may go to (R41). -/
def edgeCores (s : State) (e : Edge) : List Nat :=
  let cls := if e.loc then [ringCluster s e] else clustersOf (s.fe e.fe)
  cls.flatMap fun c => (List.range 4).map (4 * c + ·)

/-- The next core in turn whose spawn buffer has room for `bytes`, or else the next in turn; with the new place in the turn (R41). Each edge has a
turn of its own, which starts at the partition's lowest core. (DESIGN CHOICE, log 82) -/
def nextCore (s : State) (e : Edge) (bytes : Nat) : Option (Nat × Nat) :=
  let cs := edgeCores s e
  let n := cs.length
  let order := (List.range n).map fun i => (e.rr + i) % n
  let fits (i : Nat) : Bool := (cs[i]?).any fun c => decide (spawnUse (s.core c) + bytes ≤ 131072)
  match (match order.find? fits with | some i => some i | none => order.head?) with
  | none => none
  | some i => (cs[i]?).map fun c => (c, (i + 1) % n)

/-- The former entry of a record (R19, R76): its words in v0 onwards, its header as the work identifier. -/
def recordEntry (s : State) (edge : Nat) (e : Edge) (p : Program) (seq batch : Nat) (bs : List Byte) (bad : List Bool) :
    FEntry where
  source := .record edge
  vdev := e.vdev
  pc := p.entry
  alloc := p.pro
  width := p.width
  g := [BitVec.ofNat 32 e.desc, BitVec.ofNat 32 (e.desc / 2 ^ 32), BitVec.ofNat 32 p.stage, 0, 0, 0]
  prio := p.prio
  owner := .stage edge
  prog := p
  fields := p.fields
  wg := 0
  parent := 0
  role := 3
  f1 := 0
  frame := 0
  wid := BitVec.ofNat 64 (leNat (bs.take 8))
  seq := some seq
  key := leNat ((bs.drop 4).take 3)
  regs := ((bytesWords (2 * e.rs) (bs.drop 8)).zipIdx.filter fun x => decide (x.1 ≠ 0)).map fun x => (x.2, x.1)
  marks := ((List.range (2 * e.rs)).filter fun i => bad.getD (1 + i / 2) false).map fun i => (i, ⟨0x13, 0, 0, 0⟩)
  gmarks := []
  stack := []
  win := (0, 0)
  at_ := s.now
  order := 0
  batch := batch
  bytes := entryBytes (8 * e.rs)
  overflow := false
  gen := (s.vdev e.vdev).gen
  due := false
  slots := []
  pkts := []
  fatal := none

/-- What the former's read of a slot comes to (R348): an entry, or the state after the slot was parked or voided. -/
inductive SlotRead where
  | entry (s : State) (f : FEntry)
  | stop (s : State)

/-- Read the slot of a sequence number for the former. -/
def readSlot (s : State) (edge : Nat) (e : Edge) (p : Program) (core seq batch : Nat) : SlotRead :=
  match ringRead s (some (clusterOf core)) e seq (e.rs + 1) with
  | (s, .ok (bs, bad)) =>
    if bad.headD false then .stop (voidRead s edge e 0x13 seq (e.slotEa seq) core) else .entry s (recordEntry s edge e p seq batch bs bad)
  | (s, .xlate va) =>
    let r := newToken s e.vdev (.slot edge seq) core
    let s := r.1.updEdge edge fun e => { e with parkedAt := nins e.parkedAt seq }
    .stop (logEvent s e.vdev evXlate 0x20 0 127 (s.vdev e.vdev).gen va 0 core 0 r.2)
  | (s, .fatal c) => .stop (voidRead s edge e c seq (e.slotEa seq) core)
  | (s, .poison pa) => .stop (voidRead (logPoison s e.vdev pa 0 core 0) edge e 0x13 seq (e.slotEa seq) core)

/-- A record enters a core's former (R41, R80): its key is alive from here to the end of its thread. -/
def giveSlot (s : State) (edge core rr : Nat) (f : FEntry) (seq : Nat) : State :=
  (addEntry s core f).updEdge edge fun e =>
    { e with ready := ndel e.ready seq, given := nins e.given seq, alive := mset e.alive seq f.key, rr := rr
             keyCore := if e.ord = 2 then mset e.keyCore f.key core else e.keyCore }

/-- Whether an edge may hand slots over: its stage is open here and its device LIVE. -/
def edgeOpen (s : State) (e : Edge) : Bool :=
  e.opened && deviceLive s e.vdev && (decide (e.role = roleLocal) || decide (e.role = roleReceiver)) && !e.stuck s

/-- SLOT_HANDOVER: a published slot of a NONE edge goes to the next core in turn (R41); on an edge that started with other values than R12's too.
(DESIGN CHOICE, log 96) -/
def evSlotHandover (edge seq : Nat) (s : State) : Option State :=
  (find? s.edges edge).bind fun e => (stageOf s e).bind fun p =>
    let bytes := entryBytes (8 * e.rs)
    if !(edgeOpen s e && decide (e.ord = 0) && isPublished s e seq && !e.parkedAt.contains seq) then none
    else (nextCore s e bytes).map fun x =>
      if !spawnRoom s x.1 e.vdev 1 bytes then spawnExhausted s 0 e.vdev x.1 0 0
      else match readSlot s edge e p x.1 seq 0 with
        | .stop s => s
        | .entry s f => giveSlot s edge x.1 x.2 f seq

/-- The entries of a batch from a delivery index on, at most `n` slots (R79): it passes voided slots, ends at a slot that is not
published, at a key alive or already in it or that belongs to another core (R41), and at a slot whose read stops. The answer has the delivery
index after it. -/
def takeBatch (edge : Nat) (p : Program) (core batch : Nat) : Nat → Nat → List Nat → Nat → State → State × List FEntry × Nat
  | 0, _, _, dlv, s => (s, [], dlv)
  | fuel + 1, n, keys, dlv, s =>
    match find? s.edges edge with
    | none => (s, [], dlv)
    | some e =>
      if n = 0 ∨ dlv = edgeRsv s e then (s, [], dlv)
      else if e.voided.contains dlv then takeBatch edge p core batch fuel n keys ((dlv + 1) % 2 ^ 32) s
      else if !isPublished s e dlv || e.parkedAt.contains dlv then (s, [], dlv)
      else match readSlot s edge e p core dlv batch with
        | .stop s' => if keys = [] then (s', [], dlv) else (s, [], dlv)
        | .entry s' f =>
          if decide (e.ord = 2) && (e.alive.any fun a => decide (a.2 = f.key)) then (s, [], dlv)
          else if decide (e.ord = 2) && (keys.contains f.key || (find? e.keyCore f.key).any fun c => decide (c ≠ core)) then (s, [], dlv)
          else
            let x := takeBatch edge p core batch fuel (n - 1) (f.key :: keys) ((dlv + 1) % 2 ^ 32) s'
            (x.1, f :: x.2.1, x.2.2)

/-- Put the entries of a batch into a core's former. -/
def giveBatch (s : State) (edge core rr : Nat) : List FEntry → State
  | [] => s
  | f :: t => giveBatch (giveSlot s edge core rr f (f.seq.getD 0)) edge core rr t

/-- The next slot that a delivery may begin with: the first from the delivery index on that is not void. -/
def nextDelivery (e : Edge) : Nat → Nat → Nat
  | 0, dlv => dlv
  | n + 1, dlv => if e.voided.contains dlv then nextDelivery e n ((dlv + 1) % 2 ^ 32) else dlv

/-- The core a batch goes to, with the new place in the turn: on a KEY edge the core that holds or last held the predecessor of its first
record's key, where that record has waited for one, else the next in turn (R41). -/
def batchCore (s : State) (e : Edge) (bytes : Nat) : Option (Nat × Nat) :=
  match (if e.ord = 2 then (keyAt s e (nextDelivery e e.slots (edgeDlv s e))).bind (find? e.keyCore ·) else none) with
  | some c => some (c, e.rr)
  | none => nextCore s e bytes

/-- DELIVERY_BATCH: a SLOT or KEY edge hands its next batch to one core once the previous batch's group has been born (R14, R79). A core has room for
a batch when its buffer holds a whole stage width of entries, whatever the batch's length. (DESIGN CHOICE, log 95) -/
def evDeliveryBatch (edge : Nat) (s : State) : Option State :=
  (find? s.edges edge).bind fun e => (stageOf s e).bind fun p =>
    let bytes := entryBytes (8 * e.rs)
    if !(edgeOpen s e && decide (e.ord ≠ 0) && e.batch.isNone) then none
    else (batchCore s e (p.width * bytes)).bind fun x =>
      let (s1, b) := s.fresh
      let r := takeBatch edge p x.1 b (e.slots + 1) p.width [] (edgeDlv s e) s1
      match r.2.1 with
      | [] => if r.2.2 ≠ edgeDlv s e ∨ r.1 ≠ s1 then some (setDlv r.1 e r.2.2) else none
      | fs =>
        if !spawnRoom s x.1 e.vdev fs.length bytes then some (spawnExhausted s 0 e.vdev x.1 0 0)
        else some (giveBatch ((setDlv r.1 e r.2.2).updEdge edge fun e => { e with batch := some b }) edge x.1 x.2 fs)

/-! ## Meanings of the events -/

def execSlotReclaim (edge : Nat) (s : State) : Host.Outcome State Fault Refusal := ofEvent (evSlotReclaim edge s) s
def execSlotHandover (stage seq : Nat) (s : State) : Host.Outcome State Fault Refusal := ofEvent (evSlotHandover stage seq s) s
def execDeliveryBatch (stage : Nat) (s : State) : Host.Outcome State Fault Refusal := ofEvent (evDeliveryBatch stage s) s

end Sys2Proof.Machine
end

