-- ==== Sys2Proof/Machine/Records.lean ====
section
/-! DEFINITION. The record instructions EMIT, RESV, WREC, PUBL and SPAWN (R186 to R190, R192), and the edge home that answers a
reservation (R187). -/
namespace Sys2Proof.Machine

/-! ## Shape -/

/-- The current group. -/
def curGroup (s : State) : Option Group := s.cur.bind s.group?

/-- Registers of the record block of an output's edge, for a lane and for a group, whose threads may have come from launches with different
edges (R77); 0 where there is no edge (R186). -/
def recLen (s : State) (g : Group) (o lane : Nat) : Nat := ((laneEdge s g lane o).map fun x => 2 * x.2.rs).getD 0
def recRegs (s : State) (o : Nat) : Nat := ((curGroup s).map fun g => g.activeLanes.foldl (fun n l => max n (recLen s g o l)) 0).getD 0

/-- A record block: its length checked where there is an edge, its first register and evenness otherwise (R186). -/
def Need.recBlk (n : Need) (a k : Nat) : Need := n.vblk a (max k 1) 2

/-- The check of a record block against v111: past it the word is illegal (R49, R186). -/
def recIllegal (i : Instr) (a k : Nat) (s : State) (go : Host.Outcome State Fault Refusal) : Host.Outcome State Fault Refusal :=
  if 112 < a + k then execIllegalWord ((encode i).headD 0) s else go

/-- Write a register of some lanes. -/
def setLanes (s : State) (gid d : Nat) (v : Nat → Word) (m : Mask) : State :=
  s.updGroup gid fun g => { g with r := writeWords g.r d ((lanesOf m).map fun l => (l, [v l])) }

/-- A value in the destination register of every active lane, readable at once. -/
def regResults (d : Nat) (v : Nat → Word) (c : Ctx) (s : State) : State :=
  (takeSb (setLanes s c.gid d v c.mask) c.gid ⟨[d], [], 0, false, some s.now⟩).1

/-- The lanes whose output takes reservations; the others get 0xFFFFFFFE (R186, R190, R257): unconnected, or inert on this part. -/
def takers (s : State) (g : Group) (o : Nat) (m : Mask) : Mask :=
  maskOf ((lanesOf m).filter fun l => (laneEdge s g l o).any fun x => decide (x.2.role = roleLocal) || decide (x.2.role = roleSender))

/-- The lanes that reserve, by the edge of their output (R187): one request an edge. -/
def edgeSets (s : State) (g : Group) (o : Nat) (m : Mask) : List Mask :=
  (laneSets (fun l => ((laneEdge s g l o).map (·.1)).getD 0) 64 (lanesOf m)).map (·.2)

/-- Whether a reservation would use an edge that started with values other than R12's, so that its behaviour is not defined. What does not reserve
goes on as on any edge. (DESIGN CHOICE, log 96) -/
def badEdge (s : State) (o : Nat) : Bool :=
  (curGroup s).any fun g => g.activeLanes.any fun l => (laneEdge s g l o).any fun x =>
    x.2.undef && (decide (x.2.role = roleLocal) || decide (x.2.role = roleSender))

/-- A reservation that would issue on such an edge has no defined effect (R12). -/
def undefGuard (i : Instr) (n : Need) (o : Nat) (s : State) (go : Host.Outcome State Fault Refusal) : Host.Outcome State Fault Refusal :=
  match gate i n (fun _ => false) (fun _ _ => 0) s with
  | .go _ _ => if badEdge s o then .fault .edgeInitial else go
  | _ => go

/-- The earliest answer of the home (R187). -/
def homeLat (s : State) (g : Group) (o lane : Nat) : Nat := match laneEdge s g lane o with
  | some (_, e) => if e.loc then 12 else 140
  | none => 0

/-! ## Publication -/

/-- The write of a held slot by one lane (R188): `record` words from the lane's data after key and sequence number, then the header
when it is published. The data of a request is key, sequence number, record words. -/
def slotAcc (o : Nat) (writes publishes : Bool) : LaneAcc := fun s g r lane =>
  match laneEdge s g lane o with
  | none => (s, .ok [])
  | some (k, e) =>
    let ws := r.words lane
    let key := (ws.getD 0 0).toNat
    let seq := (ws.getD 1 0).toNat
    let cl := clusterOf g.info.core
    let x := if writes then ringWrite s cl e seq 8 (wordBytes (ws.drop 2)) else (s, .ok ())
    match (match x.2 with
      | .ok _ => if publishes then ringWrite x.1 cl e seq 0 (slotHeader ((s.vdev g.info.vdev).cutgen % 16 * 16) key seq) else x
      | _ => x) with
    | (s, .ok _) => (if publishes then publish s k seq else s, .ok [])
    | (_, .xlate va) => (s, .xlate va)
    | (_, .fatal c) => (s, .fatal c)
    | (_, .poison pa) => (logPoison s g.info.vdev pa r.pc g.info.core g.info.slot, .fatal 0x13)

/-- Slots that lanes have published are no longer held by them. -/
def unhold (s : State) (gid : Nat) (r : Req) (o : Nat) (lanes : List Nat) : State :=
  s.updGroup gid fun g =>
    let done := lanes.map fun l => (l, ((laneEdge s g l o).map (·.1)).getD 0, ((r.words l).getD 1 0).toNat)
    { g with c := { g.c with slots := g.c.slots.filter fun e => !done.contains e } }

/-- Perform the slot writes of a request at once; lanes that fault stay as a request (R189). -/
def doSlots (o : Nat) (writes publishes : Bool) (c : Ctx) (r : Req) (s : State) : State :=
  let x := performLanes (slotAcc o writes publishes) c.g r (lanesOf r.lanes) s
  let s := if publishes then unhold x.1 c.gid r o (x.2.1.map (·.1)) else x.1
  if x.2.2 = [] then s else (pushReq s c.gid { r with lanes := maskOf (x.2.2.map (·.1)) }).1

/-- Publication is a release at device scope over LSU and EDG (R188): it waits for the group's earlier accesses of them. -/
def pubWait (g : Group) : Bool := outstanding g [clsLSU, clsEDG]

/-! ## EMIT and RESV -/

/-- Start a reservation (R186, R187): the lanes that no edge takes have their result, each edge's home gets one request of the others. -/
def startReserve (i : Instr) (d o : Nat) (data : Group → Nat → List Word) (c : Ctx) (s : State) : State :=
  let m := takers s c.g o c.mask
  if m = 0 then regResults d (fun _ => 0xFFFFFFFE) c s
  else
    let s' := if m = c.mask then s else setLanes s c.gid d (fun _ => 0xFFFFFFFE) (c.mask &&& ~~~m)
    let e := takeSb s' c.gid ⟨[d], [], 0, false, none⟩
    (edgeSets s c.g o m).foldl (fun t k =>
      (pushReq t c.gid ((mkReq i c (fun _ _ => 0) data [] e.2 (s.now + homeLat s c.g o (lowLane k))).only k 0)).1) e.1

/-- EMIT (R186 to R188). -/
def execEmit (d a : Fin 112) (e : Fin 64) (s : State) : Host.Outcome State Fault Refusal :=
  let i : Instr := .emit d a e
  let k := recRegs s e.val
  let n := ((needLoad.recBlk a.val k).vblk (d.val + 1) 1 1).dstN d.val 1 2
  recIllegal i a.val k s <| undefGuard i n e.val s <|
    issue i n (fun c s => startReserve i d.val e.val (fun g l => g.r.getV l (d.val + 1) :: getVs g l a.val (recLen s g e.val l)) c s) s

/-- RESV (R186, R187). -/
def execResv (d : Fin 112) (e : Fin 64) (s : State) : Host.Outcome State Fault Refusal :=
  let i : Instr := .resv d e
  let n := needLoad.dstN d.val 1 1
  undefGuard i n e.val s <|
    issue i n (startReserve i d.val e.val noData) s

/-- The lanes that reserve, in increasing order, with their sequence numbers (R187). -/
def assignSlots (free rsv : Nat) (lanes : List Nat) : List (Nat × Nat) :=
  lanes.zipIdx.filterMap fun (x : Nat × Nat) => if x.2 < free then some (x.1, (rsv + x.2) % 2 ^ 32) else none

/-- The results of a reservation in its lanes (R186, R187). -/
def slotResults (e : Edge) (got : List (Nat × Nat)) (lanes : List Nat) : List (Nat × List Word) :=
  lanes.map fun l => (l, [match got.find? fun x => decide (x.1 = l) with
    | some x => BitVec.ofNat 32 (x.2 % e.slots)
    | none => 0xFFFFFFFF])

/-- Apply a reservation at the edge's home (R187): RSV, the frames, the results, the slots the lanes hold. -/
def reserveLanes (s : State) (gid : Nat) (g : Group) (k : Nat) (e : Edge) (d : Nat) (req : Nat) (r : Req) : State × List (Nat × Nat) :=
  let lanes := lanesOf r.lanes
  let rsv := edgeRsv s e
  let got := assignSlots (edgeFree s e) rsv lanes
  let s := (setRsv s e (rsv + got.length)).updEdge k fun e =>
    { e with frames := got.foldl (fun m x => mset m x.2 g.info.frame) e.frames }
  let s := s.updGroup gid fun g =>
    let g := { g with r := writeWords g.r d (slotResults e got lanes)
                      c := { g.c with reqs := merase g.c.reqs req, slots := g.c.slots ++ got.map fun (x : Nat × Nat) => (x.1, k, x.2) } }
    if g.c.reqs.any fun x => decide (x.2.entry = r.entry) then g else g.freeEntry r.entry
  (s, got)

/-- Whether a context's requests in flight are answered: its device is LIVE, or a save waits for them (R313, R315). -/
def deviceActive (s : State) (vdev : Nat) : Bool := decide ((s.vdev vdev).st = .live) || decide ((s.vdev vdev).st = .saving)

/-- The edge that a reservation's request goes to: that of its lanes. -/
def reqEdge (s : State) (g : Group) (r : Req) (o : Nat) : Option (Nat × Edge) := laneEdge s g (lowLane r.lanes) o

/-- Whether an older request of the group than one of order `bound`, or any packet of it, is outstanding in some classes (R188, R308). -/
def earlierOut (g : Group) (bound : Nat) (classes : List Nat) : Bool :=
  g.c.reqs.any fun e => (decide (e.2.token ≠ 0) || decide (e.2.order e.1 < bound)) && (reqClass e.2.instr).any classes.contains

/-- The token of a packet of a lane on the page of an address (R308). -/
def pageToken (g : Group) (lane ea : Nat) : Option Nat :=
  (g.c.reqs.find? fun e => decide (e.2.token ≠ 0) && e.2.lanes.getLsbD lane && decide (e.2.va lane / 4096 = ea / 4096)).map (·.2.token)

/-- Put slot writes of some lanes behind the packets of those lanes on their pages: they are performed when these are replayed (R308). -/
def behindPackets (s : State) (gid : Nat) (r : Req) : List (Nat × Nat) → State
  | [] => s
  | (lane, token) :: t => behindPackets (pushReq s gid { r with lanes := laneBit lane, token := token }).1 gid r t

/-- EDGE_HOME_RESERVE: the home applies one instruction's reservation whole (R187); an EMIT then writes and publishes its records as a
release (R188). -/
def evEdgeHomeReserve (gid req : Nat) (s : State) : Option State :=
  (s.group? gid).bind fun g => (find? g.c.reqs req).bind fun r =>
    if decide (r.token ≠ 0) || decide (s.now < r.early) || decide (r.ops ≠ []) || !deviceActive s g.info.vdev then none
    else match r.instr with
      | .resv d o => (reqEdge s g r o.val).bind fun x => if x.2.stuck s then none else some (reserveLanes s gid g x.1 x.2 d.val req r).1
      | .emit d _ o =>
        if earlierOut g (r.order req) [clsLSU, clsEDG] then none
        else (reqEdge s g r o.val).bind fun x =>
          if x.2.stuck s then none else some <|
          let y := reserveLanes (s.writeBackAll g.info.core) gid g x.1 x.2 d.val req r
          let behind := y.2.filterMap fun z => (pageToken g z.1 (x.2.slotEa z.2)).map fun t => (z.1, t)
          let lanes := maskOf (y.2.map (·.1)) &&& ~~~(maskOf (behind.map (·.1)))
          let r' := { r with lanes := lanes, ops := [1], entry := 0, issuedAs := r.order req
                             addr := y.2.map fun z => (z.1, x.2.slotEa z.2)
                             data := y.2.map fun z => (z.1, (r.words z.1).headD 0 :: BitVec.ofNat 32 z.2 :: (r.words z.1).drop 1) }
          doSlots o.val true true ⟨gid, g, r.pc, 4, lanes, false⟩ r' (behindPackets y.1 gid r' behind)
      | _ => none

/-! ## WREC and PUBL -/

/-- The sequence number that a lane holds in a slot index of an edge (R189). -/
def heldSeq (g : Group) (k : Nat) (e : Edge) (lane : Nat) (idx : Word) : Option Nat :=
  (g.c.slots.find? fun x => decide (x.1 = lane) && decide (x.2.1 = k) && decide (x.2.2 % e.slots = idx.toNat)).map (·.2.2)

/-- The error of WREC or PUBL on a slot that the lane does not hold (R189). -/
def slotMiss (s : State) (g : Group) (pc desc idx lane : Nat) : State :=
  stickyError s g.info.vdev { groupErr g 0x24 pc 0 (laneBit lane) with src := 4, aux := desc, aux2 := idx }

/-- WREC and PUBL: lanes that hold the slot write it, the others record the error (R188, R189). -/
def slotWrite (i : Instr) (d o : Nat) (publishes : Bool) (data : Group → Nat → List Word) (c : Ctx) (s : State) : State :=
  let key (l : Nat) : Word := if publishes then c.g.r.getV l (d + 1) else 0
  let desc (l : Nat) : Nat := ((c.g.laneProg l).outs[o]?).getD 0
  let seqs := (lanesOf c.mask).filterMap fun l => (laneEdge s c.g l o).bind fun e => (heldSeq c.g e.1 e.2 l (c.g.r.getV l d)).map fun q => (l, e.2.slotEa q, q)
  let miss := (lanesOf c.mask).filter fun l => !(seqs.map (·.1)).contains l
  let some_ := (lanesOf c.mask).any fun l => (laneEdge s c.g l o).isSome
  let s := miss.foldl (fun s l => slotMiss s c.g c.pc (desc l) (c.g.r.getV l d).toNat l) s
  if !some_ then s
  else
    let s := if publishes then s.writeBackAll c.g.info.core else s
    let r : Req := { mkReq i c (fun _ _ => 0) (fun _ _ => []) [1] 0 s.now with
      lanes := maskOf (seqs.map (·.1))
      addr := seqs.map fun z => (z.1, z.2.1)
      data := seqs.map fun z => (z.1, key z.1 :: BitVec.ofNat 32 z.2.2 :: data c.g z.1) }
    doSlots o (!publishes) publishes c r s

/-- Lanes whose slot lies on the page of one of their packets (R308). -/
def slotPages (s : State) (d o : Nat) (g : Group) (m : Mask) : Mask :=
  samePage g (fun l => match (laneEdge s g l o).bind fun x => (heldSeq g x.1 x.2 l (g.r.getV l d)).map x.2.slotEa with
    | some a => a
    | none => 2 ^ 64) m

/-- Whether the group has a slot write in flight whose fault is not yet detected. -/
def slotBusy (g : Group) : Bool := g.c.reqs.any fun e => decide (e.2.token = 0) && decide (reqClass e.2.instr = some clsEDG) && decide (e.2.ops ≠ [])

/-- WREC (R188, R189). -/
def execWrec (d a : Fin 112) (e : Fin 64) (s : State) : Host.Outcome State Fault Refusal :=
  let i : Instr := .wrec d a e
  let k := recRegs s e.val
  recIllegal i a.val k s <|
    issueW i ((needStore.recBlk a.val k).vblk d.val 1 1) slotBusy (slotPages s d.val e.val)
      (slotWrite i d.val e.val false fun g l => getVs g l a.val (recLen s g e.val l)) s

/-- PUBL (R188, R189). -/
def execPubl (d : Fin 112) (e : Fin 64) (s : State) : Host.Outcome State Fault Refusal :=
  let i : Instr := .publ d e
  issueW i (needStore.vblk d.val 2 2) pubWait (slotPages s d.val e.val) (slotWrite i d.val e.val true fun _ _ => []) s

/-! ## SPAWN (R192) -/

/-- The owner of a task that a lane spawns. -/
def taskOwner (s : State) (g : Group) (lane : Nat) : Owner :=
  match g.laneOwner lane with
  | .handler op => ((find? s.ops op).map (·.owner)).getD g.info.owner
  | o => o

/-- %role of group `f1` (R99). -/
def roleOf (p : Program) (f1 : Nat) : Nat :=
  let l := p.roles.getD 0 0
  let c := p.roles.getD 1 0
  if l + c + p.roles.getD 2 0 = 0 then 3 else if f1 < l then 0 else if f1 < l + c then 1 else 2

/-- The former entry of a task. -/
def taskEntry (s : State) (g : Group) (gid lane : Nat) (k : Nat) (e : Edge) (p : Program) (tag : Word) (ws : List Word) : FEntry where
  source := .task k
  vdev := e.vdev
  pc := p.entry
  alloc := p.pro
  width := p.width
  g := [BitVec.ofNat 32 e.desc, BitVec.ofNat 32 (e.desc / 2 ^ 32), BitVec.ofNat 32 p.stage, 0, 0, 1]
  prio := g.info.prio
  owner := taskOwner s g lane
  prog := p
  fields := p.fields
  wg := 0
  parent := gid
  role := roleOf p 0
  f1 := 0
  frame := 0
  wid := tag.setWidth 64
  seq := none
  key := 0
  regs := (ws.zipIdx.filter fun x => decide (x.1 ≠ 0)).map fun x => (x.2, x.1)
  marks := []
  gmarks := []
  stack := []
  win := (0, 0)
  at_ := s.now
  order := 0
  batch := 0
  bytes := entryBytes (8 * e.rs)
  overflow := false
  gen := g.info.gen
  due := false
  slots := []
  pkts := []
  fatal := none

/-- The lanes that spawn, each with its edge and the stage that consumes it. -/
def spawning (s : State) (g : Group) (o : Nat) (m : Mask) : List (Nat × Nat × Edge × Program) :=
  (lanesOf m).filterMap fun l => (laneEdge s g l o).bind fun x => (stageOf s x.2).map fun p => (l, x.1, x.2, p)

/-- SPAWN: one task a lane enters the issuing core's former, after the group's earlier stores (R192); a full spawn area stalls it (R80).
A stage of the other side starts no thread here (R257). (DEDUCED, log 49) -/
def execSpawn (d a : Fin 112) (e : Fin 64) (s : State) : Host.Outcome State Fault Refusal :=
  let i : Instr := .spawn d a e
  let k := recRegs s e.val
  recIllegal i a.val k s <|
    issueW i (((needLoad.recBlk a.val k).vblk (d.val + 1) 1 1).dstN d.val 1 2) (fun g => outstanding g [clsLSU]) (fun _ _ => 0) (fun c s =>
      let ts := spawning s c.g e.val c.mask
      let bytes := ts.foldl (fun n t => max n (entryBytes (8 * t.2.2.1.rs))) 0
      if ts = [] then regResults d.val (fun _ => 0xFFFFFFFE) c s
      else if !spawnRoom s c.g.info.core c.g.info.vdev ts.length bytes then stallSpawn c s
      else
        let s := s.writeBackAll c.g.info.core
        let s := ts.foldl (fun s (t : Nat × Nat × Edge × Program) =>
          if t.2.2.1.runs then addEntry s c.g.info.core (taskEntry s c.g c.gid t.1 t.2.1 t.2.2.1 t.2.2.2 (c.g.r.getV t.1 (d.val + 1))
            (getVs c.g t.1 a.val (2 * t.2.2.1.rs)))
          else s) s
        regResults d.val (fun l => if (ts.map (·.1)).contains l then 0 else 0xFFFFFFFE) c s) s

/-! ## Meanings of the events -/

def execEdgeHomeReserve (gid req : Nat) (s : State) : Host.Outcome State Fault Refusal := ofEvent (evEdgeHomeReserve gid req s) s

end Sys2Proof.Machine
end

