-- ==== Sys2Proof/Machine/Placement.lean ====
section
/-! DEFINITION. Placement (R38 to R44): what a core and a cluster have free, admission of workgroups and gangs with the state their
groups start in (R18, R61, R99, R100, R103, R221, R300), and the distributor. -/
namespace Sys2Proof.Machine

/-! ## Allowances (R44, R47) -/

/-- Clusters of a front end's partition. -/
def partSize (f : FrontEnd) : Nat := f.limit + 1 - f.base

/-- A partition's budget in half watts: FEPOWER, by default 5.5 W a cluster. -/
def budget2 (f : FrontEnd) : Nat := match f.power with
  | some w => 2 * w
  | none => 11 * partSize f

/-- The budgets of the enabled partitions together, in half watts. -/
def budgetSum2 (s : State) : Nat := s.fes.foldl (fun n e => if e.2.en then n + budget2 e.2 else n) 0

/-- The compute share in watts: 1,100, or the cap of R345. -/
def computeShare (s : State) : Nat := s.sys.cap.getD 1100

/-- The allowance of each cluster of a partition for an epoch, in pJ, with the scaling of its die (R44, R47). (DESIGN CHOICE, log 14) -/
def allowance (s : State) (f : FrontEnd) (cl : Nat) : Nat :=
  let sum := budgetSum2 s
  let over_ := decide (2 * computeShare s < sum)
  let num := budget2 f * 500000 * if over_ then 2 * computeShare s else 1
  let den := partSize f * if over_ then sum else 1
  let d := s.die (dieOf cl)
  if d.c200 then num / (2 * den) else if d.c190 then num * 3 / (4 * den) else num / den

/-! ## Quarters (R42, R43) -/

/-- Widths of the groups in an issue slot of a core. -/
def slotWidths (s : State) (core slot : Nat) : List Nat :=
  s.groups.filterMap fun e => if e.2.info.core = core ∧ e.2.info.slot = slot then some e.2.info.width else none

/-- Half quarters free in a slot. -/
def freeHalves (ws : List Nat) : Nat := 128 - ws.foldl (fun n w => n + w / 8) 0

/-- Whole quarters free in a slot, two groups of width 8 sharing one. -/
def freeQuarters (ws : List Nat) : Nat :=
  64 - (ws.foldl (fun n w => if w = 8 then n else n + w / 16) 0 + (ws.countP (· == 8) + 1) / 2)

/-- Whether a group fits a slot. -/
def fitsSlot (w : Nat) (ws : List Nat) : Bool :=
  if w = 8 then decide (ws.countP (· == 8) % 2 = 1) || decide (0 < freeQuarters ws) else decide (w / 16 ≤ freeQuarters ws)

/-- The slot a group takes: the one with the most free quarters, ties to the lowest number (DESIGN CHOICE, log 24). -/
def pickSlot (w : Nat) (slots : List (List Nat)) : Option Nat :=
  (List.range slots.length).foldl (fun b i =>
    let ws := slots.getD i []
    if !fitsSlot w ws then b
    else match b with
      | none => some i
      | some j => if freeHalves (slots.getD j []) < freeHalves ws then some i else b) none

/-- The slots that `n` groups take one after another. -/
def pickSlots (w : Nat) : Nat → List (List Nat) → Option (List Nat)
  | 0, _ => some []
  | n + 1, slots => (pickSlot w slots).bind fun i =>
      (pickSlots w n (slots.modify i (w :: ·))).map fun l => i :: l

/-! ## Local store and operand buffer (R38) -/

/-- The lowest place of `n` units that meets no used range, among 0 and the ends of the used ranges (DESIGN CHOICE, log 24). -/
def firstFit (used : List (Nat × Nat)) (n size : Nat) : Option Nat :=
  let free (a : Nat) : Bool := decide (a + n ≤ size) && used.all fun u => decide (u.2 = 0) || decide (a + n ≤ u.1) || decide (u.1 + u.2 ≤ a)
  ((0 :: used.map fun u => u.1 + u.2).filter free).foldl (fun b a => match b with
    | none => some a
    | some c => some (min a c)) none

/-- Local-store ranges in use on a core, in units of 256 bytes, and operand-buffer ranges. -/
def lsUsed (s : State) (core : Nat) : List (Nat × Nat) :=
  s.wgs.filterMap fun e => if e.2.core = core then some (e.2.lsBase / 256, e.2.lsLen / 256) else none
def obUsed (s : State) (core : Nat) : List (Nat × Nat) :=
  s.wgs.filterMap fun e => if e.2.core = core then some (e.2.obBase, e.2.obLen) else none

/-- Units of a list of ranges. -/
def unitsOf (l : List (Nat × Nat)) : Nat := l.foldl (fun n u => n + u.2) 0

/-- Workgroup barrier objects in use on a core. -/
def wbarUsed (s : State) (core : Nat) : Nat := s.wgs.foldl (fun n e => if e.2.core = core then n + e.2.prog.wbar else n) 0

/-! ## Admission to a core (R43) -/

/-- D of R43: what the oldest group of a core that is below FULL still needs; none when every group is at FULL. (DEDUCED, log 13) -/
def acquireNeed (s : State) (core : Nat) : Option Nat :=
  (oldestOf (s.groups.filter fun e => decide (e.2.info.core = core) && decide (e.2.c.alloc < e.2.info.prog.full))).map
    fun e => 8 * (e.2.info.prog.full - e.2.c.alloc) * e.2.info.width

/-- Where a workgroup goes on a core. -/
structure CorePlace where
  ls : Nat
  ob : Nat
  slots : List Nat
  deriving DecidableEq, Repr

/-- What a workgroup needs of a core: units of local store and operand buffer, barrier objects, groups, width, allotment, FULL. -/
structure CoreNeed where
  ls : Nat
  ob : Nat
  wbar : Nat
  n : Nat
  width : Nat
  alloc : Nat
  full : Nat
  deriving DecidableEq, Repr

/-- The needs of a launched workgroup (R38), and of a record or task group (R78). -/
def Program.need (p : Program) : CoreNeed := ⟨p.lsz, p.obz, p.wbar, p.e1, p.width, p.pro, p.full⟩
def Program.need1 (p : Program) (alloc : Nat) : CoreNeed := ⟨p.lsz, p.obz, p.wbar, 1, p.width, alloc, p.full⟩

/-- Whether a core admits a workgroup, and where (R43). -/
def fitCore (s : State) (core : Nat) (q : CoreNeed) : Option CorePlace :=
  let regs := 8 * q.alloc * q.width * q.n
  let d := (acquireNeed s core).getD (8 * (q.full - q.alloc) * q.width)
  if regsFree s core < regs + d ∨ 128 < wbarUsed s core + q.wbar then none
  else
    (firstFit (lsUsed s core) q.ls 1024).bind fun ls =>
      (firstFit (obUsed s core) q.ob 1024).bind fun ob =>
        (pickSlots q.width q.n ((List.range 4).map fun i => slotWidths s core i)).map fun slots => ⟨ls, ob, slots⟩

/-! ## Birth (R18, R61, R99, R100, R103) -/

/-- The group of a workgroup that holds the matrix token at admission (R103): none where roles are declared without a computer. (DESIGN CHOICE, log 103) -/
def tokenF1 (p : Program) : Option Nat :=
  let l := p.roles.getD 0 0
  let c := p.roles.getD 1 0
  if l + c + p.roles.getD 2 0 = 0 then some 0 else if c = 0 then none else some l

/-- The work identifier of a lane (R18): fields f0 to f5 at their offsets. -/
def widOf (p : Program) (fs : List Nat) : Nat :=
  ((List.range 6).foldl (fun (acc : Nat × Nat) k => (acc.1 + fs.getD k 0 * 2 ^ acc.2, acc.2 + p.fields.getD k 0)) (0, 0)).1 % 2 ^ 64

/-- A group's registers at birth (R61). -/
def GRegs.initial : GRegs where
  v := []
  g := []
  vmark := []
  gmark := []
  latch := []
  wid := []
  recs := []
  home := []
  stack := []
  laneWin := []
  fstat := 0
  readcount := 0
  seedkey := 0
  rsr := 0
  errst := 0
  progress := 0

/-- A group's control state at birth: one path at the entry address. -/
def GCtl.initial (pc : Nat) (m : Mask) (alloc : Nat) (now : Nat) : GCtl where
  paths := [⟨pc, m, .run, 0⟩]
  nextStamp := 1
  joins := []
  chain := none
  alloc := alloc
  lsBase := 0
  lsLen := 0
  lsQuota := 0
  obQuota := 0
  obUsed := 0
  sb := []
  reqs := []
  fatal := []
  tag := 0
  wait := .none
  readyCc := now
  slots := []
  packed := []
  stray := []
  stored := []

/-- The lanes of a width. -/
def widthMask (w : Nat) : Mask := BitVec.ofNat 64 (2 ^ w - 1)

/-- Give a core's local store and operand-buffer range to a context: local store that another context held reads 0 (R300), the
operand buffer is zeroed and untagged (R221). Units of 256 bytes. -/
def takeCore (s : State) (vdev core ls lsz ob obz : Nat) : State :=
  s.updCore core fun k =>
    let k := (List.range lsz).foldl (fun (k : Core) i =>
      let u := ls + i
      if mget 0 k.lsOwner u = vdev + 1 then k
      else { k with ls := mfilter k.ls fun a _ => decide (a / 256 ≠ u)
                    lsPoison := k.lsPoison.filter fun p => decide (p / 2 ≠ u)
                    lsOwner := mset k.lsOwner u (vdev + 1) }) k
    let inOb (u : Nat) : Bool := decide (ob ≤ u) && decide (u < ob + obz)
    { k with ob := mfilter k.ob fun a _ => !inOb (a / 256)
             obTag := mfilter k.obTag fun u _ => !inOb u
             obPoison := k.obPoison.filter fun p => !inOb (p / 2) }

/-- The share of a workgroup's units that a group holds as its quota (R100). -/
def quotaOf (p : Program) (units f1 : Nat) : Nat := units / p.e1 + if f1 = 0 then units % p.e1 else 0

/-- A launched group. -/
def launchedGroup (s : State) (vdev core slot gid wg f1 : Nat) (cp : CorePlace) (p : Program) (owner : Owner) (gang : Option Nat)
    (gangSize rank : Nat) (coords : List Nat) : Group where
  info := {
    vdev := vdev
    core := core
    slot := slot
    age := gid
    width := p.width
    born := widthMask p.width
    wg := wg
    f1 := f1
    source := .launched
    parent := 0
    prog := p
    fields := p.fields
    prio := p.prio
    owner := owner
    role := roleOf p f1
    gang := gang
    gangSize := gangSize
    frame := (s.vdev vdev).frame
    gen := (s.vdev vdev).gen }
  r := { GRegs.initial with wid := (List.range p.width).map fun l =>
    (l, BitVec.ofNat 64 (widOf p ([l, f1, rank] ++ coords))) }
  c := { GCtl.initial p.entry (widthMask p.width) p.pro s.now with
    lsBase := cp.ls * 256
    lsLen := p.lsz * 256
    lsQuota := quotaOf p p.lsz f1
    obQuota := quotaOf p p.obz f1 }

/-- Enter `n` groups of a workgroup, group 0 first. -/
def enterGroups (mk : Nat → Nat → Nat → Group) : Nat → List Nat → State → State × List Nat
  | _, [], s => (s, [])
  | f1, slot :: t, s =>
    let (s, gid) := s.fresh
    let x := enterGroups mk (f1 + 1) t { s with groups := mset s.groups gid (mk gid f1 slot) }
    (x.1, gid :: x.2)

/-- Admit a workgroup to a core with all its groups at PRO (R43); the birth of its threads is an acquire at device scope on LSU (R291). -/
def admitWg (s : State) (vdev core : Nat) (cp : CorePlace) (p : Program) (owner : Owner) (gang : Option Nat) (gangSize rank : Nat)
    (coords : List Nat) : State :=
  let (s, wid) := (acquireLsu s core .dev).fresh
  let s := takeCore s vdev core cp.ls p.lsz cp.ob p.obz
  let x := enterGroups (fun gid f1 slot => launchedGroup s vdev core slot gid wid f1 cp p owner gang gangSize rank coords) 0 cp.slots s
  let w : Wg := {
    vdev := vdev
    core := core
    owner := owner
    prog := p
    gang := gang
    rank := rank
    coords := coords
    lsBase := cp.ls * 256
    lsLen := p.lsz * 256
    obBase := cp.ob
    obLen := p.obz
    former := false
    bars := []
    boxes := []
    token := (tokenF1 p).bind fun f => x.2[f]?
    tokenWait := []
    killed := false }
  { x.1 with wgs := mset x.1.wgs wid w }

/-! ## Gangs (R37 to R39) -/

/-- Cluster scratch units of 4 KiB that no gang holds: those of banks in SCRATCH mode (R38, R163). -/
def freeUnits (s : State) (cl : Nat) : List Nat :=
  let held := s.gangs.flatMap fun e => if e.2.cluster = cl then e.2.units else []
  (List.range 512).filter fun u => decide (mget 0 (s.cluster cl).bankMode (u / 16) = 1) && (s.cluster cl).steady (u / 16) && !held.contains u

/-- Cluster barrier objects in use. -/
def cbarUsed (s : State) (cl : Nat) : Nat := s.gangs.foldl (fun n e => if e.2.cluster = cl then n + e.2.cbar else n) 0

/-- The core of a cluster with the most free registers that fits a workgroup; ties to the lowest number (R39). -/
def bestCore (s : State) (cl : Nat) (q : CoreNeed) : Option (Nat × CorePlace) :=
  ((List.range 4).map (4 * cl + ·)).foldl (fun b c => match fitCore s c q with
    | none => b
    | some cp => match b with
      | none => some (c, cp)
      | some (d, _) => if regsFree s d < regsFree s c then some (c, cp) else b) none

/-- Place workgroups one after another on the cores of a cluster, in rank order; none when one does not fit. -/
def placeWgs (vdev cl : Nat) (p : Program) (owner : Owner) (gang gangSize : Nat) : Nat → List (List Nat) → State → Option State
  | _, [], s => some s
  | rank, coords :: t, s => (bestCore s cl p.need).bind fun x =>
      placeWgs vdev cl p owner gang gangSize (rank + 1) t (admitWg s vdev x.1 x.2 p owner (some gang) gangSize rank coords)

/-- Cluster scratch handed to a context: bytes that another context held read 0 and are not poisoned (R331). -/
def takeScratch (s : State) (vdev cl : Nat) (units : List Nat) : State :=
  s.updCluster cl fun k => units.foldl (fun (k : Cluster) u =>
    if mget 0 k.sramOwner u = vdev + 1 then k
    else { k with
              sram := mfilter k.sram fun a _ => decide (a / 4096 ≠ u)
              sramPoison := k.sramPoison.filter fun p => decide (p / 32 ≠ u)
              sramOwner := mset k.sramOwner u (vdev + 1) }) k

/-- Place a gang of workgroups with the given coordinates on a cluster (R38); none when it does not fit. -/
def placeGang (s : State) (vdev cl : Nat) (p : Program) (owner : Owner) (coords : List (List Nat)) : Option State :=
  let units := (freeUnits s cl).take p.csz
  if units.length < p.csz ∨ 64 < cbarUsed s cl + p.cbar then none
  else
    let (s, a) := s.fresh
    let s := takeScratch s vdev cl units
    let s := { s with gangs := mset s.gangs a ⟨vdev, cl, units, p.cbar, coords.length, []⟩ }
    placeWgs vdev cl p owner a coords.length 0 coords s

/-- Free local store of a cluster, in units of 256 bytes. -/
def freeLs (s : State) (cl : Nat) : Nat :=
  ((List.range 4).map (4 * cl + ·)).foldl (fun n c => n + (1024 - unitsOf (lsUsed s c))) 0

/-- The best cluster for a gang, with the state after its placement (R39). -/
def bestCluster (s : State) (f : FrontEnd) (vdev : Nat) (p : Program) (owner : Owner) (coords : List (List Nat)) : Option State :=
  let fits := (clustersOf f).filterMap fun cl => (placeGang s vdev cl p owner coords).map fun t => (cl, t)
  let rich (cl : Nat) : Bool := decide (0 < (s.cluster cl).energy) && decide (((s.cluster cl).given : Int) ≤ 4 * (s.cluster cl).energy)
  let ok := fits.filter fun x => decide (0 < (s.cluster x.1).energy) || !(fits.any fun y => decide (y.1 ≠ x.1) && rich y.1)
  (ok.foldl (fun (b : Option (Nat × State)) x => match b with
    | none => some x
    | some y => if freeLs s y.1 < freeLs s x.1 then some x else b) none).map (·.2)

/-! ## Grids (R17, R37, R39, R40) -/

/-- Coordinates of the workgroup at a place in the linear order (R17). -/
def coordsAt (p : Program) (i : Nat) : List Nat :=
  let e (k : Nat) : Nat := p.ext.getD k 1
  [i % e 0, i / e 0 % e 1, i / e 0 / e 1]

/-- Workgroups of a grid, born or not. -/
def gridLen (p : Program) : Nat := p.ext.getD 0 1 * p.ext.getD 1 1 * p.ext.getD 2 1

/-- Whether a workgroup is born: every coordinate is below its limit, an Lk of 0 meaning Ek (R16, R37). -/
def bornAt (p : Program) (i : Nat) : Bool :=
  ((coordsAt p i).zip (p.lim.zip p.ext)).all fun x => decide (x.1 < if x.2.1 = 0 then x.2.2 else x.2.1)

/-- The born workgroups of a grid that are not placed yet. -/
def unplaced (g : Grid) : List Nat := ((List.range (gridLen g.prog)).filter fun i => decide (g.next ≤ i) && bornAt g.prog i)

/-- The sizes tried for the next gang, preferred first (R39). -/
def gangSizes (p : Program) (n : Nat) : List Nat :=
  match [p.pgs, p.fgs].filter (fun k => decide (k ≤ n)) with
  | [] => [n]
  | l => l

/-- Place the next gang of a grid: the first size that some cluster fits (R39). -/
def placeNext (s : State) (f : FrontEnd) (gridId : Nat) (g : Grid) : Option State :=
  let todo := unplaced g
  if todo = [] then none
  else (gangSizes g.prog todo.length).findSome? fun k =>
    let now := todo.take k
    (bestCluster s f g.vdev g.prog (.grid gridId) (now.map (coordsAt g.prog))).map fun t =>
      t.updGrid gridId fun g => { g with next := now.getLastD 0 + 1, waitFrom := none, blocked := false }

/-- The grids of a front end that still have workgroups to place, oldest admitted first. -/
def placing (s : State) (fe : Nat) : List (Nat × Grid) :=
  s.grids.filter fun e => decide (e.2.fe = fe) && deviceLive s e.2.vdev && decide (unplaced e.2 ≠ [])

/-- GANG_PLACEMENT: the oldest grid's next gang, or while it fits nowhere and backfill has not stopped, a younger grid's (R39, R40). -/
def evGangPlacement (fe : Nat) (s : State) : Option State :=
  match placing s fe with
  | [] => none
  | (i, g) :: rest =>
    match placeNext s (s.fe fe) i g with
    | some t => some t
    | none =>
      let s' := s.updGrid i fun g => { g with waitFrom := some (g.waitFrom.getD s.now) }
      if g.blocked then none
      else match rest.findSome? fun e => placeNext s' (s.fe fe) e.1 e.2 with
        | some t => some t
        | none => if g.waitFrom.isNone then some s' else none

/-- BACKFILL_TIMEOUT: the oldest grid has waited 4,096 cc; backfill stops until it places a gang (R40). -/
def evBackfillTimeout (fe : Nat) (s : State) : Option State :=
  match placing s fe with
  | [] => none
  | (i, g) :: _ =>
    if !g.blocked && g.waitFrom.any fun t => decide (t + 4096 ≤ s.now) then some (s.updGrid i fun g => { g with blocked := true }) else none

/-- The machine with nothing placed: what NOFIT is tried on (R38). -/
def State.emptied (s : State) : State := { s with groups := [], wgs := [], gangs := [] }

/-- Whether no cluster of a partition, even when empty, fits the smallest gang of a launch, or one record workgroup of a stage fed by
records (R35, R38; DEDUCED, log 25). -/
def noFit (s : State) (f : FrontEnd) (vdev : Nat) (p : Program) (fed : Bool) : Bool :=
  let e := s.emptied
  (clustersOf f).all fun cl =>
    if fed then (bestCore e cl (p.need1 p.pro)).isNone
    else (placeGang e vdev cl p (.grid 0) (List.replicate (min p.pgs p.fgs) [0, 0, 0])).isNone

/-! ## Meanings of the events -/

def execGangPlacement (fe : Nat) (s : State) : Host.Outcome State Fault Refusal := ofEvent (evGangPlacement fe s) s
def execBackfillTimeout (fe : Nat) (s : State) : Host.Outcome State Fault Refusal := ofEvent (evBackfillTimeout fe s) s

end Sys2Proof.Machine
end

