-- ==== Sys2Proof/Machine/Requests.lean ====
section
/-! DEFINITION. Requests in flight: their answers (R176, R179), the detection of faults (R305), the replay and the abort of packets
(R310), page walks (R174). -/
namespace Sys2Proof.Machine

/-! ## What a request does and where its result goes -/

/-- The access of one lane of a request. -/
def reqAcc : Instr → LaneAcc
  | .ld sz ch _ _ _ => ldLane sz ch.val
  | .st sz ch _ _ _ => stLane sz ch.val
  | .ldl sz _ _ _ => ldlLane sz
  | .stl sz _ _ _ => stlLane sz
  | .ldp sz win _ _ _ => ldpLane sz win.val
  | .smp sz ch _ _ _ => smpLane sz ch.val
  | .atom op wide sc _ _ _ => atomLane op wide sc
  | .red op wide sc _ _ _ => redLane op wide sc
  | .atoml op wide _ _ _ _ => atomlLane op wide
  | .ldo sz _ _ _ => ldoLane sz
  | .sto sz _ _ _ => stoLane sz
  | .uld sz _ _ _ => uldAcc sz
  | .ust sz _ _ _ => ustAcc sz
  | .uldp wide _ win off => uldpAcc wide win.val (off.toNat * 4)
  | .dispatch _ _ _ _ => dispatchAcc
  | .cond _ _ _ => condAcc
  | .emit _ _ o => slotAcc o.val true true
  | .wrec _ _ o => slotAcc o.val true false
  | .publ _ o => slotAcc o.val false true
  | _ => fun s _ _ _ => (s, .ok [])

/-- Where a request's result goes: registers of its lanes, uniform registers, nowhere. -/
inductive ReqDst where
  | none
  | v (d n : Nat)
  | u (regs : List Nat)
  deriving DecidableEq, Repr

/-- The destination of a request. -/
def reqDst : Instr → ReqDst
  | .ld sz _ d _ _ | .ldl sz d _ _ | .ldp sz _ d _ _ | .smp sz _ d _ _ => .v d.val sz.regs
  | .atom _ wide _ _ d _ | .atoml _ wide _ _ d _ => .v d.val (atomBack wide)
  | .ldo sz d _ _ => .v d.val sz.regs
  | .uld sz d _ _ => .u (uregs d sz.regs)
  | .uldp wide d _ _ => .u (uregs d (if wide then 2 else 1))
  | .dispatch _ d _ _ => .u (uregs d 2)
  | _ => .none

/-- Whether a request is one that a later event answers with data (R179); a reservation, a launch and an MMAR have events of their own. -/
def answered : Instr → Bool
  | .ld .. | .ldp .. | .smp .. | .atom .. | .uld .. | .uldp .. | .dispatch .. => true
  | _ => false

/-- Whether an instruction is performed at issue, so that only its faulting lanes are ever in flight. -/
def atIssue : Instr → Bool
  | .st .. | .red .. | .ldl .. | .stl .. | .atoml .. | .ldo .. | .sto .. | .ust .. | .cond .. | .wrec .. | .publ .. => true
  | _ => false

/-- The lanes an access runs over: the request's, or number 64 for a uniform one (R87). -/
def Req.runs (r : Req) : List Nat := if reqUniform r.instr then [64] else lanesOf r.lanes

/-- Write consecutive uniform registers. -/
def GRegs.setGs (r : GRegs) : List Nat → List Word → GRegs
  | i :: t, w :: ws => (r.setG i w).setGs t ws
  | _, _ => r

/-- Write the results of lanes, and of lane 64 for a uniform request. -/
def writeGot (r : GRegs) (i : Instr) (got : List (Nat × List Word)) : GRegs :=
  match reqDst i with
  | .none => r
  | .v d _ => writeWords r d got
  | .u regs => r.setGs regs ((got.headD (64, [])).2)

/-- Whether some lane of a request must wait for an older access (R173, R178, R290). -/
def reqBlocked (s : State) (g : Group) (req : Nat) (r : Req) : Bool :=
  (r.runs.any fun l => olderFirst s g (some (r.order req)) r.instr l (r.at l) (reqSize r.instr))
    || ioHeld s g (some (r.order req)) r.instr (r.runs.map r.at)

/-- The accesses that return nothing, with what each of their lines does as a whole. -/
def reqStore : Instr → Option StoreAcc
  | .st sz ch _ _ _ => some (stAcc sz ch.val)
  | .red op wide sc _ _ _ => some (redAcc op wide sc)
  | .stl sz _ _ _ => some (stlAcc sz)
  | .sto sz _ _ _ => some (stoAcc sz)
  | _ => none

/-- The pieces that DISPATCH reads, by line (R94, R160). -/
def dispatchLines (s : State) (g : Group) (r : Req) : List (List Nat) :=
  let eas := (List.range (dispatchSpan s g r.pc (r.at 64) / 32)).map fun i => r.at 64 + 32 * i
  (eas.map (· / 256)).dedup.map fun l => eas.filter fun a => decide (a / 256 = l)

/-- What a request asks of the cluster cache before its lanes are performed (R160). -/
def reqAsk (s : State) (g : Group) (r : Req) : State :=
  let eas := r.runs.map r.at
  match r.instr with
  | .ld sz ch _ _ _ => askL1 s g r.pc (ldBytes sz) ch.val (r.ops.headD 0) 1 (ioSize (ldBytes sz)) eas
  | .ldp sz win _ _ _ => askL1 s g r.pc (ldBytes sz) 0 0 1 false
      ((r.runs.filter fun l => decide (((r.words l).headD 0).toNat < winSize g l win.val)).map r.at)
  | .smp sz ch _ _ _ => askSmp s g r.pc (ldBytes sz) ch.val eas
  | .atom _ wide sc _ _ _ => askAtom s g r.pc wide sc true eas
  | .ust sz _ _ _ => chargeStore s g r.pc (stBytes sz) 0 2 (ioSize (stBytes sz)) eas
  | .uld sz _ _ _ => askL1 s g r.pc (ldBytes sz) 0 0 1 (ioSize (ldBytes sz)) eas
  | .uldp wide _ win off => if off.toNat * 4 < winSize g (lowLane r.lanes) win.val then askL1 s g r.pc (aopSize wide) 0 0 1 false eas else s
  | .dispatch _ _ _ _ => (dispatchLines s g r).foldl (fun s l => askL1 s g r.pc 32 0 0 1 false l) s
  | _ => s

/-- The release of an atomic before it is performed, and its acquire after (R182, R291). -/
def reqRelease (s : State) (core : Nat) : Instr → State
  | .atom _ _ sc o _ _ => if Ord4.releases o then releaseLsu s core sc else s
  | _ => s
def reqAcquire (s : State) (core : Nat) : Instr → State
  | .atom _ _ sc o _ _ => if Ord4.acquires o then acquireLsu s core sc else s
  | _ => s

/-- Perform the lanes of a request. -/
def runReq (s : State) (g : Group) (r : Req) : State × List (Nat × List Word) × List (Nat × Got (List Word)) :=
  let s := reqRelease s g.info.core r.instr
  match reqStore r.instr with
  | none => performLanes (reqAcc r.instr) g r r.runs (reqAsk s g r)
  | some a =>
    let x := performLanes (reqAcc r.instr) g r r.runs (a.pre s g r)
    (a.post x.1 g r (x.2.1.map (·.1)), x.2)

/-- What follows the lanes that passed: published slots are no longer held. -/
def afterRun (s : State) (gid : Nat) (r : Req) (lanes : List Nat) : State :=
  match r.instr with
  | .emit _ _ o | .publ _ o => unhold s gid r o.val lanes
  | _ => s

/-! ## Answers -/

/-- Whether a request may be answered now. -/
def reqReady (s : State) (g : Group) (req : Nat) (r : Req) : Bool :=
  decide (r.token = 0) && r.sent && decide (r.early ≤ s.now) && deviceActive s g.info.vdev && !reqBlocked s g req r

/-- A request leaves its group: PROGRESS reads 0 once nothing is left of an instruction that a save interrupted (R107, R328). -/
def Group.endReq (g : Group) (req : Nat) (r : Req) : Group :=
  let reqs := merase g.c.reqs req
  { g with c := { g.c with reqs := reqs }
           r := if r.part && !(reqs.any fun e => e.2.part) then { g.r with progress := 0 } else g.r }

/-- The same, with its scoreboard entry, which ends with the last request of it (R69, R177). -/
def Group.dropReq (g : Group) (req : Nat) (r : Req) : Group :=
  let g := g.endReq req r
  if g.c.reqs.any fun e => decide (e.2.entry = r.entry) then g else g.freeEntry r.entry

/-- LOAD_RETURN: a request whose lanes all pass is performed, its registers are written and its entry is freed (R69, R179, R305). The answer of a
request that a save has overtaken carries another tag and is dropped (R315). -/
def evLoadReturn (gid req : Nat) (s : State) : Option State :=
  (s.group? gid).bind fun g =>
    if (find? g.c.stray req).isSome then some (s.updGroup gid fun g => { g with c := { g.c with stray := merase g.c.stray req } })
    else (find? g.c.reqs req).bind fun r =>
      if !(answered r.instr && reqReady s g req r) then none
      else match runReq s g r with
        | (s, got, []) => some ((reqAcquire s g.info.core r.instr).updGroup gid fun g => { g with r := writeGot g.r r.instr got }.dropReq req r)
        | _ => none

/-! ## Line requests (R177) -/

/-- The next line request that a group sends: the first of its unsent ones. -/
def nextLine (g : Group) : Option (Nat × Req) := g.c.reqs.find? fun e => !e.2.sent && decide (e.2.token = 0)

/-- Whether a device lets a group's chain go on: it is LIVE, or a save waits for the end of the chain (R71, R313). -/
def chainRuns (s : State) (g : Group) : Bool :=
  deviceLive s g.info.vdev || (decide ((s.vdev g.info.vdev).st = .saving) && inChain s g)

/-- A core sends the next line request of a group (R177): a store's line is performed as it leaves, a load's awaits its answer. -/
def sendLine (gid req : Nat) (s : State) : State :=
  match s.group? gid with
  | none => s
  | some g =>
    match nextLine g with
    | none => s
    | some (q, r) =>
      if decide (q ≠ req) || !chainRuns s g || reqBlocked s g q r then s
      else match reqStore r.instr with
        | some a =>
          let a : StoreAcc := match r.instr with
            | .st sz .. => a.after sz g.c.stored
            | _ => a
          performStore a g gid { r with issuedAs := r.order q } (s.updGroup gid fun g => g.dropReq q r)
        | none => s.updGroup gid fun g => { g with c := { g.c with reqs := mset g.c.reqs q { r with sent := true, early := max r.early (s.now + 24) } } }

/-! ## Faults (R305) -/

/-- The lanes that take a translation fault, with their addresses, and those that take a fatal one, with their codes. -/
def xlateLanes (l : List (Nat × Got (List Word))) : List (Nat × Nat) := l.filterMap fun e => match e.2 with | .xlate va => some (e.1, va) | _ => none
def fatalLanes (l : List (Nat × Got (List Word))) : List (Nat × Nat) := l.filterMap fun e => match e.2 with | .fatal c => some (e.1, c) | _ => none

/-- Mark a request's destination in one lane (R305); lane 64 marks the uniform destination (R87). -/
def markDst (r : GRegs) (i : Instr) (lane : Nat) (m : Mark) : GRegs :=
  match reqDst i with
  | .none => r
  | .v d n => (List.range n).foldl (fun r k => r.markV lane (d + k) m) r
  | .u regs => markU r regs m

/-- A fatal fault of one lane: its destination is poisoned and it holds a fatal mark; a uniform read only poisons its destination, a
uniform write marks the lanes of its path (R87, R305). (DEDUCED, log 44) -/
def fatalLane (g : Group) (r : Req) (lane code : Nat) : Group :=
  let m : Mark := ⟨code, 0, r.skid, r.va lane⟩
  let regs := markDst g.r r.instr lane m
  if lane = 64 then
    match reqDst r.instr with
    | .none => { g with r := regs, c := g.c.addFatal (r.lanes &&& allLanes g.c.paths) fun _ => ⟨code, r.skid, r.va lane⟩ }
    | _ => { g with r := regs }
  else { g with r := regs, c := g.c.addFatal (laneBit lane &&& allLanes g.c.paths) fun _ => ⟨code, r.skid, r.va lane⟩ }

/-- Park the lanes with a translation fault as packets, one a page, and poison their destinations (R305); what a packet awaits is no longer part of
the instruction that a save interrupted (R328). -/
def parkLanes (s : State) (gid : Nat) (r : Req) (bound : Nat) (l : List (Nat × Nat)) : State :=
  let r := { r with entry := 0, part := false }
  match l with
  | [] => s
  | (64, va) :: _ =>
    let x := parkPacket s gid r bound r.lanes va
    x.1.updGroup gid fun g => { g with r := markDst g.r r.instr 64 ⟨0x20, x.2, r.skid, r.va 64⟩ }
  | _ =>
    let x := parkPages s gid r bound 64 l
    x.1.updGroup gid fun g => { g with r := x.2.foldl (fun r' e => markDst r' r.instr e.1 ⟨0x20, e.2, r.skid, r.va e.1⟩) g.r }

/-- Settle a request's run: lanes that passed are written, the others park or take fatal marks (R305). -/
def settleRun (s : State) (gid req : Nat) (r : Req) (got : List (Nat × List Word)) (bad : List (Nat × Got (List Word))) : State :=
  let s := s.updGroup gid fun g => { g with r := writeGot g.r r.instr got }.dropReq req r
  let s := afterRun s gid r (got.map (·.1))
  let s := s.updGroup gid fun g => (fatalLanes bad).foldl (fun g e => fatalLane g r e.1 e.2) g
  parkLanes s gid { r with issuedAs := r.order req } req (xlateLanes bad)

/-- MEMORY_FAULT_DETECT: the answer of a request of which some lanes fail (R305). -/
def evMemoryFaultDetect (gid req : Nat) (s : State) : Option State :=
  (s.group? gid).bind fun g => (find? g.c.reqs req).bind fun r =>
    let emitted : Bool := match r.instr with | .emit .. => decide (r.ops ≠ []) | _ => false
    if !((answered r.instr || atIssue r.instr || emitted) && reqReady s g req r) then none
    else match runReq s g r with
      | (_, _, []) => if answered r.instr then none
          else let x := runReq s g r; some (settleRun x.1 gid req r x.2.1 [])
      | (s, got, bad) => some (settleRun (reqAcquire s g.info.core r.instr) gid req r got bad)

/-! ## Packets (R310) -/

/-- Parked paths none of whose lanes owns a packet become WAIT where they stand; those whose lanes hold fatal marks take their
faults (R306, R310). A group that had no path to issue from was not ready until now (R67). -/
def unpark (s : State) (gid : Nat) : State :=
  match s.group? gid with
  | none => s
  | some g =>
    let own := g.c.owners
    let s := g.c.paths.foldl (fun s p => if p.st = .parked then takeFaults s gid p.mask p.pc else s) s
    s.updGroup gid fun g =>
      let ps := g.c.paths.map fun p => if p.st = .parked ∧ p.mask &&& own = 0 then { p with st := .wait } else p
      let c := g.c.cutChain { g.c with paths := settle ps }
      { g with c := if (curPath g.c.paths).isNone then { c with readyCc := s.now } else c }

/-- The registers of a packet's lanes that its replay still fills: those that keep its mark (R305, R310). -/
def stillMarked (r : GRegs) (i : Instr) (req lane : Nat) : Bool :=
  match reqDst i with
  | .none => true
  | .v d n => (List.range n).any fun k => (find? r.vmark (lane * 128 + d + k)).any fun m => decide (m.req = req)
  | .u regs => regs.any fun k => (find? r.gmark k).any fun m => decide (m.req = req)

/-- Write the registers of a lane that keep a packet's mark, word by word. -/
def fillMarked (r : GRegs) (i : Instr) (req lane : Nat) (ws : List Word) : GRegs :=
  match reqDst i with
  | .none => r
  | .v d n => (List.range n).foldl (fun r k =>
      if (find? r.vmark (lane * 128 + d + k)).any fun m => decide (m.req = req) then r.setV lane (d + k) (ws.getD k 0) else r) r
  | .u regs => regs.zipIdx.foldl (fun r e =>
      if (find? r.gmark e.1).any fun m => decide (m.req = req) then r.setG e.1 (ws.getD e.2 0) else r) r

/-- Whether a packet holds a request that its replay performs: a fetch and the read of an MWAIT are repeated by what waits for them. -/
def replays : Instr → Bool
  | .unop _ | .mwait .. => false
  | _ => true

/-- Whether a packet acts on memory: it is replayed, and faults again, for every lane (R310). -/
def actsOnMemory : Instr → Bool
  | .atom .. => true
  | i => decide (reqDst i = .none)

/-- The marks that a replay which faults again leaves (R310): they stand on the registers that still bear the packet's. -/
def remark (r : GRegs) (i : Instr) (req lane : Nat) (m : Mark) : GRegs :=
  let again (m' : Mark) : Mark := if m'.req = req then m else m'
  match reqDst i with
  | .none => r
  | .v d n => { r with vmark := mmapv r.vmark fun k v => if lane * 128 + d ≤ k ∧ k < lane * 128 + d + n then again v else v }
  | .u regs => { r with gmark := mmapv r.gmark fun k v => if regs.contains k then again v else v }

/-- Park the lanes of a replay that fault again as new packets (R310). -/
def parkAgain (s : State) (gid : Nat) (r : Req) (old bound : Nat) (l : List (Nat × Nat)) : State :=
  let r := { r with entry := 0, part := false }
  match l with
  | [] => s
  | (64, va) :: _ =>
    let x := parkPacket s gid r bound r.lanes va
    x.1.updGroup gid fun g => { g with r := remark g.r r.instr old 64 ⟨0x20, x.2, r.skid, r.va 64⟩ }
  | _ =>
    let x := parkPages s gid r bound 64 l
    x.1.updGroup gid fun g => { g with r := x.2.foldl (fun r' e => remark r' r.instr old e.1 ⟨0x20, e.2, r.skid, r.va e.1⟩) g.r }

/-- A replayed lane that meets a fatal fault: its registers that still bear the packet's mark await nothing more, and it holds a fatal mark. -/
def fatalAgain (g : Group) (r : Req) (old lane code : Nat) : Group :=
  let regs := remark g.r r.instr old lane ⟨code, 0, r.skid, r.va lane⟩
  let g' := fatalLane { g with r := { g.r with vmark := [], gmark := [] } } r lane code
  { g with r := regs, c := g'.c }

/-- The addresses whose pages a packet's replay translates afresh, from the root (R324): those it holds; of DISPATCH each piece of its table. -/
def walksAnew (s : State) (g : Group) (r : Req) : List Nat :=
  match r.instr with
  | .dispatch .. => (List.range (dispatchSpan s g r.pc (r.at 64) / 32)).map fun i => r.at 64 + 32 * i
  | _ => r.addr.map (·.2)

/-- Re-issue one packet, translated afresh from the root (R310, R324); `bound` is the number since which its new requests are in flight. A fault
it meets again is a new one, detected now (R309). -/
def replayReq (s : State) (gid req bound : Nat) : State :=
  match s.group? gid with
  | none => s
  | some g =>
    match find? g.c.reqs req with
    | none => s
    | some r =>
      let s := s.updGroup gid fun g => { g with c := { g.c with reqs := merase g.c.reqs req } }
      let s := (walksAnew s g r).foldl (fun s va => s.forgetPage g.info.core g.info.vdev va) s
      if !replays r.instr then s
      else
        let r := { r with gen := g.info.gen, skid := r.younger }
        match runReq s g r with
        | (s, got, bad) =>
          let s := reqAcquire s g.info.core r.instr
          let s := s.updGroup gid fun g => { g with r := got.foldl (fun r' e => fillMarked r' r.instr req e.1 e.2) g.r }
          let s := afterRun s gid r (got.map (·.1))
          let live := bad.filter fun e => actsOnMemory r.instr || stillMarked g.r r.instr req e.1
          let s := s.updGroup gid fun g => (fatalLanes live).foldl (fun g e => fatalAgain g r req e.1 e.2) g
          parkAgain s gid r req bound (xlateLanes live)

/-- The packets of a token in a group, oldest first. -/
def tokenReqs (g : Group) (token : Nat) : List Nat := (g.c.reqs.filter fun e => decide (e.2.token = token)).map (·.1)

/-- RETRY of a token's packets in one group. -/
def retryGroup (token bound : Nat) (s : State) (gid : Nat) : State :=
  match s.group? gid with
  | none => s
  | some g =>
    match tokenReqs g token with
    | [] => s
    | l => unpark (l.foldl (fun s q => replayReq s gid q bound) s) gid

/-- A packet turned into a fatal fault with code 0x20 (R310): its marks no longer await a replay, its lanes hold fatal marks; an MWAIT
whose read it was completes with its destination poisoned. -/
def abortReq (g : Group) (req : Nat) (r : Req) : Group :=
  let clear (m : AMap Mark) : AMap Mark := mmapv m fun _ k => if k.req = req then { k with req := 0 } else k
  let g := { g with r := { g.r with vmark := clear g.r.vmark, gmark := clear g.r.gmark }, c := { g.c with reqs := merase g.c.reqs req } }
  match r.instr, g.c.wait with
  | .mwait .., .mwait _ wide _ d _ _ =>
    { g with c := { g.c with wait := .none }, r := markU g.r (uregs d (if wide then 2 else 1)) ⟨0x20, 0, r.skid, r.va 64⟩ }
  | _, _ => { g with c := g.c.addFatal (r.lanes &&& allLanes g.c.paths) fun l => ⟨0x20, r.skid, r.va l⟩ }

/-- ABORT of a token's packets in one group. -/
def abortGroup (token : Nat) (s : State) (gid : Nat) : State :=
  match s.group? gid with
  | none => s
  | some g =>
    match g.c.reqs.filter fun e => decide (e.2.token = token) with
    | [] => s
    | l => unpark (s.updGroup gid fun g => l.foldl (fun g e => abortReq g e.1 e.2) g) gid

/-- The packets that threads in a former carry (R75): RETRY marks them for replay at birth, ABORT turns those that the thread owns into a fatal mark
with the packet's skid (R309), and the marks of its registers await nothing more. -/
def answerEntry (token : Nat) (retry : Bool) (e : FEntry) : FEntry :=
  if !(e.pkts.any fun p => decide (p.2.token = token)) then e
  else if retry then { e with pkts := mmapv e.pkts fun _ r => if r.token = token then { r with token := 0 } else r }
  else
    let gone := (e.pkts.filter fun p => decide (p.2.token = token)).map (·.1)
    let clear (m : AMap Mark) : AMap Mark := mmapv m fun _ k => if gone.contains k.req then { k with req := 0 } else k
    { e with
      pkts := mfilter e.pkts fun _ r => decide (r.token ≠ token)
      marks := clear e.marks
      gmarks := clear e.gmarks
      fatal := match e.fatal, e.pkts.find? fun p => decide (p.2.token = token) && decide (p.2.lanes ≠ 0) with
        | none, some p => some ⟨0x20, p.2.skid, p.2.va (lowLane p.2.lanes)⟩
        | f, _ => f }

/-- Answer a token's packets everywhere in a context. -/
def answerPackets (s : State) (vdev token : Nat) (retry : Bool) : State :=
  let gids := (s.groups.filter fun e => decide (e.2.info.vdev = vdev)).map (·.1)
  let bound := s.nextId
  let s := gids.foldl (fun s gid => if retry then retryGroup token bound s gid else abortGroup token s gid) s
  { s with cores := mmapv s.cores fun _ k => { k with entries := k.entries.map fun e => if e.vdev = vdev then answerEntry token retry e else e } }

/-! ## Walks (R174) -/

/-- PAGE_WALK: a miss in a core's TLB goes to its cluster's, and a miss there takes a walk, which installs its result, or nothing when it faults
(R174, R324). `need` are the permissions. -/
def evPageWalk (core vdev va need : Nat) (s : State) : Option State :=
  if !translates s vdev || !deviceActive s vdev || decide (2 ^ 56 ≤ va) then none
  else match tlbHit s core vdev va need, walkVa s vdev va with
    | some (true, _), _ => none
    | some (false, t), _ => some (s.coreTlb core t)
    | none, .entry t =>
      if t.perms &&& need = need then
        some (((s.walked vdev va).coreTlb core t).updCluster (clusterOf core) fun k => { k with tlb := tlbInstallSet k.tlb t })
      else none
    | none, .poison pa => some (logPoison s vdev pa 0 core 0)
    | none, .bad | none, .fault => none

/-! ## Meanings of the events -/

def execLoadReturn (gid req : Nat) (s : State) : Host.Outcome State Fault Refusal := ofEvent (evLoadReturn gid req s) s
def execMemoryFaultDetect (gid req : Nat) (s : State) : Host.Outcome State Fault Refusal := ofEvent (evMemoryFaultDetect gid req s) s
def execPageWalk (core vdev va access : Nat) (s : State) : Host.Outcome State Fault Refusal := ofEvent (evPageWalk core vdev va access s) s

end Sys2Proof.Machine
end

