-- ==== Sys2Proof/Machine/Former.lean ====
section
/-! DEFINITION. The former (R76 to R80): bins, when they are ready, and the birth of the groups built from them. -/
namespace Sys2Proof.Machine

/-! ## Bins (R77) -/

/-- What the sources of two entries must share (R77): what they were built from, whatever launch their threads come from. Which of g0 to g5 carry
poison marks counts as part of the g0 to g5 that split threads share. (DESIGN CHOICE, log 97) -/
def sameSource (a b : FEntry) : Bool :=
  match a.source, b.source with
  | .split, .split => decide (a.g = b.g) && decide (a.gmarks.map (·.1) = b.gmarks.map (·.1))
  | .task _, .task _ => true
  | x, y => decide (x = y)

/-- Whether two entries belong to one bin (R77, R79). -/
def sameBin (a b : FEntry) : Bool :=
  sameSource a b && decide (a.vdev = b.vdev) && decide (a.pc = b.pc) && decide (a.alloc = b.alloc) && decide (a.width = b.width)
    && decide (a.batch = b.batch)

/-- The entries of a bin, oldest first; a bin is named by the order number of its oldest entry. An overflowed entry stands where it
arrived (R80). -/
def binEntries (k : Core) (bin : Nat) : List FEntry :=
  match k.entries.find? fun e => decide (e.order = bin) with
  | none => []
  | some e =>
    let l := k.entries.filter (sameBin e)
    if l.any fun f => decide (f.order < bin) then [] else l

/-- Every producer of an edge has completed (R36, R285). -/
def producersDone (s : State) (edge : Nat) (e : Edge) : Bool :=
  if e.role = roleReceiver then (find? s.remotes edge).any (·.closed) else decide (e.nprod ≤ e.prodDone.length)

/-- Whether the source of an entry can add no further entry to its bin (R77). -/
def sourceDone (s : State) (e : FEntry) : Bool :=
  match e.source with
  | .record edge => (find? s.edges edge).any fun k => producersDone s edge k
  | .handler op => (find? s.ops op).all fun o => decide (o.bursts = []) && decide (o.parkedBursts = [])
  | .split => (s.group? e.parent).isNone
  | _ => false

/-- Whether a bin is ready: full, due, or complete (R77). (DEDUCED, log 50) -/
def binReady (s : State) (l : List FEntry) : Bool :=
  match l with
  | [] => false
  | e :: _ => decide (e.width ≤ l.length) || e.due || l.all (sourceDone s)

/-- The names of a core's bins, oldest entry first. -/
def binNames (k : Core) : List Nat := (k.entries.filter fun e => binEntries k e.order ≠ []).map (·.order)

/-- The ready bins of a core, oldest entry first: those whose device is LIVE. -/
def readyBins (s : State) (core : Nat) : List Nat :=
  (binNames (s.core core)).filter fun b =>
    let l := binEntries (s.core core) b
    binReady s l && (l.head?).any fun e => deviceLive s e.vdev

/-! ## Admission and birth (R43, R76, R78) -/

/-- The FULL of a group built of some entries: the greatest of their launches'. (DEDUCED, log 26) -/
def fullOf (es : List FEntry) : Nat := es.foldl (fun n e => max n e.prog.full) 0

/-- What a ready bin needs of its core: a record or task group takes a workgroup of its own, the others only registers and quarters. -/
def binNeed (e : FEntry) : CoreNeed :=
  match e.source with
  | .record _ | .task _ => { e.prog.need1 e.alloc with width := e.width }
  | _ => ⟨0, 0, 0, 1, e.width, e.alloc, e.prog.full⟩

/-- The payload of the entries in lanes 0 up, keyed lane * 128 + register. -/
def layRegs {α : Type} (f : FEntry → AMap α) (es : List FEntry) : AMap α :=
  es.zipIdx.flatMap fun x => (f x.1).map fun r => (x.2 * 128 + r.1, r.2)

/-- A packet moved to a lane of a new group. -/
def movePkt (r : Req) (lane : Nat) : Req :=
  let old := lowLane r.lanes
  let key {α : Type} (m : AMap α) : AMap α :=
    match find? m 64, find? m old with
    | some v, _ => [(64, v)]
    | none, some v => [(lane, v)]
    | none, none => []
  { r with lanes := if r.lanes = 0 then 0 else laneBit lane, addr := key r.addr, data := key r.data }

/-- The packets the threads bring, each under a new identifier: lane, old and new identifier, packet. -/
def bringPkts (next : Nat) : List (Nat × Nat × Req) → List (Nat × Nat × Nat × Req)
  | [] => []
  | (lane, q, r) :: t => (lane, q, next, movePkt r lane) :: bringPkts (next + 1) t

/-- The uniform registers a group of the former starts with (R76, R192, R210). -/
def birthG (es : List FEntry) : AMap Word :=
  match es with
  | [] => []
  | e :: _ =>
    let n : Word := BitVec.ofNat 32 es.length
    let ws := match e.source with
      | .record _ => [e.g.getD 0 0, e.g.getD 1 0, e.g.getD 2 0, BitVec.ofNat 32 (e.seq.getD 0), n, 0]
      | .task _ => [e.g.getD 0 0, e.g.getD 1 0, e.g.getD 2 0, 0, n, 1]
      | _ => e.g
    (ws.zipIdx.filter fun x => decide (x.1 ≠ 0)).map fun x => (x.2, x.1)

/-- What a thread of a new group keeps of its entry (R75, R192); a task group's workgroup `wg` is its own (R78). -/
def homeOf (e : FEntry) (wg : Nat) : Home where
  owner := e.owner
  wg := if e.source = .split then e.wg else wg
  prog := e.prog
  fields := e.fields
  role := e.role

/-- What the lanes of a group keep, listed where they differ (R77). -/
def homesOf (es : List FEntry) (e : FEntry) (wg : Nat) : AMap Home :=
  if es.all fun x => decide (homeOf x wg = homeOf e wg) then [] else es.zipIdx.map fun x => (x.2, homeOf x.1 wg)

/-- The packets that the threads of a new group bring: each its own, the first also those that the uniform registers await (R75). -/
def pktsOf (es : List FEntry) : List (Nat × Nat × Req) :=
  es.zipIdx.flatMap fun x => (x.1.pkts.filter fun p => decide (x.2 = 0) || decide (p.2.lanes ≠ 0)).map fun p => (x.2, p.1, p.2)

/-- The group of some entries (R76, R78): lanes 0 up are born, the others never. Its class and place in its workgroup are those of its first
thread (DEDUCED, log 26). -/
def bornGroup (s : State) (core gid slot wg : Nat) (w : Nat × Nat) (quota : Nat × Nat) (es : List FEntry) (e : FEntry) : Group :=
  let pk := bringPkts s.nextId (pktsOf es)
  let renew (lane : Nat) (m : Mark) : Mark := match pk.find? fun p => decide (p.1 = lane) && decide (p.2.1 = m.req) with
    | some p => { m with req := p.2.2.1 }
    | none => m
  let born := widthMask es.length
  { info := {
      vdev := e.vdev
      core := core
      slot := slot
      age := gid
      width := e.width
      born := born
      wg := wg
      f1 := e.f1
      source := e.source
      parent := e.parent
      prog := { e.prog with full := fullOf es }
      fields := e.fields
      prio := e.prio
      owner := e.owner
      role := e.role
      gang := none
      gangSize := 0
      frame := (s.vdev e.vdev).frame
      gen := e.gen }
    r := { GRegs.initial with
      v := layRegs (·.regs) es
      vmark := (layRegs (·.marks) es).map fun x => (x.1, renew (x.1 / 128) x.2)
      g := birthG es
      wid := es.zipIdx.map fun x => (x.2, x.1.wid)
      recs := es.zipIdx.filterMap fun x => match e.source, x.1.seq with
        | .record _, some q => some (x.2, q)
        | .split, some q => some (x.2, q)
        | _, _ => none
      gmark := e.gmarks.map fun x => (x.1, renew 0 x.2)
      home := homesOf es e wg
      stack := es.zipIdx.filterMap fun x => if x.1.stack = [] then none else some (x.2, x.1.stack)
      laneWin := if e.source = .split then es.zipIdx.map fun x => (x.2, x.1.win) else [] }
    c := { GCtl.initial e.pc born e.alloc s.now with
      lsBase := w.1
      lsLen := w.2
      lsQuota := quota.1
      obQuota := quota.2
      reqs := pk.map fun p => (p.2.2.1, p.2.2.2)
      fatal := es.zipIdx.filterMap fun x => x.1.fatal.map fun f => (x.2, f)
      slots := es.zipIdx.flatMap fun x => x.1.slots.map fun q => (x.2, q.1, q.2) } }

/-- Replay the packets of a newborn group that were answered by RETRY while its threads waited in the former. -/
def lateReplays (s : State) (gid : Nat) : State :=
  match s.group? gid with
  | none => s
  | some g => ((g.c.reqs.filter fun e => decide (e.2.token = 0)).map (·.1)).foldl (fun t q => replayReq t gid q s.nextId) s

/-- Take entries out of a core's former and return the spawn area they used (R80): an overflowed entry counts there until its bin is launched.
(DESIGN CHOICE, log 98) -/
def takeEntries (s : State) (core : Nat) (es : List FEntry) : State :=
  let gone := es.map (·.order)
  let spill := es.foldl (fun n e => if e.overflow then n + e.bytes else n) 0
  let s := s.updCore core fun k => { k with entries := k.entries.filter fun e => !gone.contains e.order }
  match es with
  | [] => s
  | e :: _ => s.updVdev e.vdev fun d => { d with spawnUsed := d.spawnUsed - spill }

/-- What a birth does besides the group: a record's birth is an acquire at device scope (R188) and lets its edge's next batch go
(R79). -/
def birthEffects (s : State) (core : Nat) (e : FEntry) : State :=
  match e.source with
  | .record edge => (acquireLsu s core .dev).updEdge edge fun k => { k with batch := if k.batch = some e.batch then none else k.batch }
  | .task _ => acquireLsu s core .dev
  | _ => s

/-- Launch a bin on its core: the group is born in the place that admission found (R43, R76 to R78). -/
def launchBin (s : State) (core : Nat) (cp : CorePlace) (es : List FEntry) (e : FEntry) : State :=
  let s := takeEntries s core es
  let (s, gid) := s.fresh
  let slot := cp.slots.headD 0
  let npk := (pktsOf es).length
  let enter (s : State) (g : Group) : State := { s with groups := mset s.groups gid g, nextId := s.nextId + npk }
  let s := match e.source with
    | .record _ | .task _ =>
      let (s, wid) := s.fresh
      let s := takeCore s e.vdev core cp.ls e.prog.lsz cp.ob e.prog.obz
      let w : Wg := {
        vdev := e.vdev
        core := core
        owner := e.owner
        prog := e.prog
        gang := none
        rank := 0
        coords := []
        lsBase := cp.ls * 256
        lsLen := e.prog.lsz * 256
        obBase := cp.ob
        obLen := e.prog.obz
        former := true
        bars := []
        boxes := []
        token := some gid
        tokenWait := []
        killed := false }
      let s := { s with wgs := mset s.wgs wid w }
      enter s (bornGroup s core gid slot wid (cp.ls * 256, e.prog.lsz * 256) (e.prog.lsz, e.prog.obz) es e)
    | _ =>
      let win := ((s.wg? e.wg).map fun w => (w.lsBase, w.lsLen)).getD (0, 0)
      enter s (bornGroup s core gid slot e.wg win (0, 0) es e)
  lateReplays (birthEffects s core e) gid

/-- Whether a bin can be admitted, and where (R43). -/
def binFit (s : State) (core bin : Nat) : Option CorePlace :=
  let l := binEntries (s.core core) bin
  (l.head?).bind fun e => fitCore s core { binNeed e with full := fullOf (l.take e.width) }

/-- The bin that a core's younger bins wait for, while it is still there (R77). -/
def blockedBin (s : State) (core : Nat) : Option Nat :=
  (s.core core).oldestBlocked.filter fun b => (readyBins s core).contains b

/-- BIN_LAUNCH: a ready bin becomes a group; an older ready bin is passed over only when it cannot be admitted, and no bin is while
one has starved (R77). -/
def evBinLaunch (core bin : Nat) (s : State) : Option State :=
  let ready := readyBins s core
  let older := ready.takeWhile fun b => decide (b ≠ bin)
  let allowed : Bool := match blockedBin s core with
    | some b => decide (b = bin)
    | none => older.all fun b => (binFit s core b).isNone
  if !(ready.contains bin && allowed) then none
  else (binFit s core bin).bind fun cp =>
    let l := binEntries (s.core core) bin
    (l.head?).map fun e =>
      let s := s.updCore core fun k => { k with oldestBlocked := none }
      launchBin s core cp (l.take e.width) e

/-- FORM_WINDOW_EXPIRY: the oldest entry of a bin has waited its context's form window (R77). -/
def evFormWindowExpiry (core bin : Nat) (s : State) : Option State :=
  match binEntries (s.core core) bin with
  | [] => none
  | e :: _ =>
    if !e.due && decide (e.at_ + (s.vdev e.vdev).window ≤ s.now) then
      some (s.updCore core fun k => { k with entries := k.entries.map fun f => if f.order = bin then { f with due := true } else f })
    else none

/-- A core notes since when its oldest ready bin cannot be admitted (R77). -/
def noteBlocked (s : State) (core : Nat) : State :=
  let old := (s.core core).blockedSince
  let new := (readyBins s core).head?.bind fun b =>
    if (binFit s core b).isSome then none else some (b, match old with | some (c, t) => if c = b then t else s.now | none => s.now)
  if new = old then s else s.updCore core fun k => { k with blockedSince := new }

/-- BIN_STARVATION_TIMEOUT: the oldest ready bin has waited 4,096 cc without being admissible (R77). -/
def evBinStarvationTimeout (core : Nat) (s : State) : Option State :=
  match readyBins s core with
  | [] => none
  | b :: _ =>
    if (blockedBin s core).isNone && (binFit s core b).isNone
        && (s.core core).blockedSince.any fun x => decide (x.1 = b) && decide (x.2 + 4096 ≤ s.now) then
      some (s.updCore core fun k => { k with oldestBlocked := some b })
    else none

/-! ## Meanings of the events -/

def execBinLaunch (core bin : Nat) (s : State) : Host.Outcome State Fault Refusal := ofEvent (evBinLaunch core bin s) s
def execFormWindowExpiry (core bin : Nat) (s : State) : Host.Outcome State Fault Refusal := ofEvent (evFormWindowExpiry core bin s) s
def execBinStarvationTimeout (core : Nat) (s : State) : Host.Outcome State Fault Refusal := ofEvent (evBinStarvationTimeout core s) s

end Sys2Proof.Machine
end

