-- ==== Sys2Proof/Machine/Admission.lean ====
section
/-! DEFINITION. Admission of launches (R35, R36): reading launch headers (R15, R16, R20), graphs and edge descriptors (R7, R9, R19, R34,
R257, R258, R261), the LAUNCH instruction (R104, R105), and the end of stages, workgroups and grids (R36, R329 to R331). -/
namespace Sys2Proof.Machine

/-! ## Reading structures (R35) -/

/-- Why a structure was not taken: the launched header is refused, the graph is refused, for one of its edge descriptors or for something else, or a
translation fault. -/
inductive AdmErr where
  | hdr
  | graph
  | edge (desc : Nat)
  | xlate (va : Nat)
  /-- A poisoned page-table entry at a physical address, met while the launched header (`hdr`), an edge descriptor or the graph was read (R347). -/
  | poison (hdr : Bool) (desc : Option Nat) (pa : Nat)
  deriving DecidableEq, Repr

/-- What reading bytes of a context's memory comes to: SYS class, no L1, page by page (R172). -/
def sysBytes (s : State) (vdev need : Nat) : Nat → Nat → Nat → EGot (List Byte)
  | 0, _, _ => .ok []
  | _, _, 0 => .ok []
  | fuel + 1, va, n =>
    let k := min n (4096 - va % 4096)
    match addrClass va with
    | .translated =>
      match translateAt s vdev va need with
      | .fault => .xlate va
      | .bad => .fatal 0x23
      | .poison pa => .poison pa
      | .ok pa mt =>
        match region s pa with
        | .hbm | .remote =>
          if mt = 2 then .fatal 0x23
          else if (List.range ((pa + k + 127) / 128 - pa / 128)).any fun i => s.poisoned (pa / 128 * 128 + 128 * i) then .fatal 0x13
          else match sysBytes s vdev need fuel ((va + k) % 2 ^ 64) (n - k) with
            | .ok l => .ok ((List.range k).map (fun i => s.below (pa + i)) ++ l)
            | x => x
        | _ => .fatal 0x23
    | _ => .fatal 0x23

/-- The state after reads of class SYS of `n` bytes: what of them, and of the page tables, lies in another part has been asked for over Ivmar (R175). -/
def sysPages (vdev : Nat) : Nat → Nat → Nat → State → State
  | 0, _, _, s => s
  | _, _, 0, s => s
  | fuel + 1, va, n, s =>
    let k := min n (4096 - va % 4096)
    let s := s.walked vdev va
    let s := match translateAt s vdev va 1 with
      | .ok pa _ => if region s pa = .remote then (linesOf pa k).foldl State.asked s else s
      | _ => s
    sysPages vdev fuel ((va + k) % 2 ^ 64) (n - k) s

/-- The same for several ranges, each an address and a length. -/
def State.sysReads (s : State) (vdev : Nat) (l : List (Nat × Nat)) : State :=
  if s.part = 0 then s else l.foldl (fun s x => sysPages vdev (x.2 / 4096 + 2) x.1 x.2 s) s

/-- `n` bytes of a structure, or the error that stands for a memory fault other than a translation fault (R35). -/
def readStruct (s : State) (vdev : Nat) (err : AdmErr) (va n : Nat) : Except AdmErr (List Byte) :=
  match sysBytes s vdev 1 (n / 4096 + 2) va n with
  | .ok b => .ok b
  | .xlate a => .error (.xlate a)
  | .poison pa => .error (.poison (decide (err = .hdr)) (match err with | .edge d => some d | _ => none) pa)
  | _ => .error err

/-- A condition a structure must meet. -/
def need (c : Bool) (err : AdmErr) : Except AdmErr Unit := if c then .ok () else .error err

/-! ## Launch headers -/

/-- A launch header as a program (R15); graph fields are those of a standalone grid (R31). -/
def headerOf (va : Nat) (b : List Byte) : Program :=
  let grp := field b 8 4
  let rol := field b 0xC 4
  let gang := field b 0x10 4
  { hdr := va
    entry := field b 0 8
    width := 8 * 2 ^ bitsAt grp 19 18
    pro := bitsAt grp 23 20
    full := bitsAt grp 27 24
    prio := bitsAt grp 29 28
    lsz := bitsAt grp 10 0
    obz := bitsAt rol 22 12
    csz := bitsAt (field b 0x14 4) 9 0
    wbar := bitsAt gang 4 0
    cbar := bitsAt gang 28 22
    pgs := bitsAt gang 12 8
    fgs := bitsAt gang 20 16
    e1 := field b 0x20 4
    ext := (List.range 3).map fun k => field b (0x24 + 4 * k) 4
    lim := (List.range 3).map fun k => field b (0x30 + 4 * k) 4
    fields := (List.range 6).map fun k => bitsAt (field b 0x18 8) (7 * k + 6) (7 * k)
    roles := [bitsAt rol 3 0, bitsAt rol 7 4, bitsAt rol 11 8]
    wins := (List.range 4).map fun k => (field b (0x40 + 16 * k) 8, field b (0x48 + 16 * k) 4)
    graph := 0
    stage := 0
    side := 0
    inEdge := 0
    outs := [] }

/-- The reserved bits of a header (R15, R16). -/
def headerReserved (b : List Byte) : Bool :=
  let grp := field b 8 4
  let gang := field b 0x10 4
  decide (bitsAt grp 31 30 = 0) && decide (bitsAt grp 17 11 = 0) && decide (bitsAt (field b 0xC 4) 31 23 = 0)
    && decide (bitsAt gang 31 29 = 0) && decide (bitsAt gang 21 21 = 0) && decide (bitsAt gang 15 13 = 0) && decide (bitsAt gang 7 5 = 0)
    && decide (bitsAt (field b 0x14 4) 31 10 = 0) && decide (bitsAt (field b 0x18 8) 63 42 = 0) && decide (field b 0x3C 4 = 0)
    && (List.range 4).all fun k => decide (field b (0x4C + 16 * k) 4 = 0)

/-- The exponent of a group width (R16). -/
def logWidth (w : Nat) : Nat := if w = 8 then 3 else if w = 16 then 4 else if w = 32 then 5 else 6

/-- The checks of R16 and R20. That a header that is not aligned, an entry address that is not aligned or does not fit, a window above 65,536
bytes and a PRO of 0 are refused as HDR is the model's. (DESIGN CHOICE, log 84) -/
def headerOk (va : Nat) (b : List Byte) : Bool :=
  let p := headerOf va b
  let w (k : Nat) : Nat := p.fields.getD k 0
  decide (va % 128 = 0) && decide (p.entry % 4 = 0) && decide (p.entry < 2 ^ 57) && headerReserved b
    && decide (w 0 = logWidth p.width)
    && p.fields.all (fun k => decide (k ≤ 64)) && decide (p.fields.foldl (· + ·) 0 ≤ 64)
    && decide (1 ≤ p.e1) && decide (p.e1 ≤ 2 ^ w 1) && decide (p.e1 * p.width ≤ 1024)
    && decide (1 ≤ p.pgs) && decide (p.pgs ≤ 16) && decide (1 ≤ p.fgs) && decide (p.fgs ≤ 16) && decide (max p.pgs p.fgs ≤ 2 ^ w 2)
    && (List.range 3).all (fun k => decide (1 ≤ p.ext.getD k 0) && decide (p.ext.getD k 0 ≤ 2 ^ w (k + 3)) && decide (p.lim.getD k 0 ≤ p.ext.getD k 0))
    && (decide (p.roles.foldl (· + ·) 0 = 0) || decide (p.roles.foldl (· + ·) 0 = p.e1))
    && decide (1 ≤ p.pro) && decide (p.pro ≤ p.full) && decide (p.full ≤ 14)
    && decide (p.lsz ≤ 1024) && decide (p.obz ≤ 1024) && decide (p.csz ≤ 512) && decide (p.wbar ≤ 16) && decide (p.cbar ≤ 64)
    && p.wins.all fun x => decide (x.2 ≤ 65536) && decide (x.1 % 16 = 0)

/-- Read and check a launch header. -/
def readHeader (s : State) (vdev va : Nat) (err : AdmErr) : Except AdmErr Program := do
  let b ← readStruct s vdev err va 128
  need (headerOk va b) err
  return headerOf va b

/-! ## Edge descriptors -/

/-- The field descriptors of a remote edge (R261). -/
def fieldOf (b : List Byte) (k : Nat) : FieldDesc :=
  let w := field b (16 * k) 4
  ⟨bitsAt w 31 28, bitsAt w 27 26, bit w 25, bitsAt w 24 20 + 1, bitsAt w 19 16, BitVec.ofNat 32 (field b (16 * k + 4) 4),
    BitVec.ofNat 32 (field b (16 * k + 8) 4)⟩

/-- Whether a field descriptor is taken (R261): QF needs a positive, finite, normal STEP. -/
def fieldOk (b : List Byte) (k : Nat) : Bool :=
  let f := fieldOf b k
  let e := f.step.toNat / 2 ^ 23
  decide (f.type_ ≤ 4) && decide (field b (16 * k) 2 = 0) && decide (field b (16 * k + 12) 4 = 0) && !(f.dlt && decide (f.type_ ≤ 1))
    && (if f.type_ = 2 then decide (1 ≤ e) && decide (e < 255) else decide (f.step = 0))

/-- The checks of R9 on a descriptor's 64 bytes. That a ring base or a descriptor that is not aligned and an NF above 16 are refused is the model's.
(DESIGN CHOICE, log 99) -/
def descOk (va : Nat) (b : List Byte) : Bool :=
  let w := field b 8 4
  decide (va % 64 = 0) && decide (field b 0 8 % 256 = 0) && decide (bitsAt w 31 22 = 0) && decide (bitsAt w 21 20 ≤ 1)
    && decide (bitsAt w 19 15 ≤ 16) && decide (bitsAt w 12 11 ≤ 2) && decide (2 ≤ bitsAt w 10 5) && decide (bitsAt w 10 5 ≤ 32)
    && decide (1 ≤ bitsAt w 4 0) && decide (bitsAt w 4 0 ≤ 24) && decide (field b 0x1C 4 = 0)
    && (if bit w 14 then decide (1 ≤ bitsAt w 19 15) else decide (field b 0x20 32 = 0))

/-- Whether a ring lies wholly in FIFO banks of its cluster (R9; DESIGN CHOICE, log 23). -/
def inFifo (s : State) (e : Edge) : Bool :=
  let bytes := e.slots * (8 * e.rs + 8)
  let lo := sramOffset e.base
  let k := s.cluster (ringCluster s e)
  decide (e.base < 2 ^ 29) && decide (ringCluster s e ≤ (s.fe e.fe).limit) && decide (lo + bytes ≤ 2 ^ 21)
    && (List.range ((lo + bytes + 65535) / 65536 - lo / 65536)).all fun i =>
      decide (mget 0 k.bankMode (lo / 65536 + i) = 2) && k.steady (lo / 65536 + i)

/-- A peer entry's bytes (R259): V, virtual device, LSIDE, session, MTU. -/
def peerByte (c : Codec) (p i : Nat) : Byte := mget 0 c.peers (64 * p + i)
def peerNum (c : Codec) (p i n : Nat) : Nat := leNat ((List.range n).map fun k => peerByte c p (i + k))
def peerV (c : Codec) (p : Nat) : Bool := bit (peerNum c p 0x34 4) 8
def peerVdev (c : Codec) (p : Nat) : Nat := peerNum c p 0x34 1
def peerSide (c : Codec) (p : Nat) : Nat := bitsAt (peerNum c p 0x30 4) 17 17
def peerSid (c : Codec) (p : Nat) : Nat := peerNum c p 0x2C 4
def peerMtu (c : Codec) (p : Nat) : Nat := bitsAt (peerNum c p 0x30 4) 13 0
def peerPort (c : Codec) (p : Nat) : Nat := bitsAt (peerNum c p 0x30 4) 16 16
def peerTc (c : Codec) (p : Nat) : Nat := bitsAt (peerNum c p 0x30 4) 31 24
def peerBytes (c : Codec) (p i n : Nat) : List Byte := (List.range n).map fun k => peerByte c p (i + k)

/-- The checks of R258 that a descriptor alone and its peer entry decide. -/
def remoteOk (s : State) (vdev : Nat) (b : List Byte) : Bool :=
  let w := field b 0x34 4
  let v := field b 0x38 4
  let cdc := bitsAt w 7 7
  let peer := bitsAt w 13 8
  let c := s.codec cdc
  decide (field b 0x20 8 % 16 = 0) && decide (field b 0x28 8 % 256 = 0)
    && decide (bitsAt (field b 0x30 4) 31 24 = 0) && decide (bitsAt (field b 0x30 4) 23 0 ≠ 0)
    && decide (bitsAt w 15 14 = 0) && decide (bitsAt w 6 5 = 0) && decide (bitsAt w 4 0 ≤ 16)
    && decide (bitsAt v 31 16 = 0) && decide (bitsAt v 7 5 = 0) && decide (1 ≤ bitsAt v 4 0) && decide (bitsAt v 4 0 ≤ bitsAt (field b 8 4) 4 0)
    && decide (field b 0x3C 4 = 0) && decide (bitsAt (field b 8 4) 19 15 ≤ 2 * bitsAt (field b 8 4) 10 5)
    && peerV c peer && decide (peerVdev c peer = vdev) && decide (peerSide c peer = (s.vdev vdev).vside)

/-- The codec state of a remote edge that an admission reads for the first time. -/
def remoteOf (s : State) (vdev : Nat) (b fdt : List Byte) (nf : Nat) : Remote where
  codec := bitsAt (field b 0x34 4) 7 7
  peer := bitsAt (field b 0x34 4) 13 8
  eid := bitsAt (field b 0x34 4) 31 16
  lb := bitsAt (field b 0x30 4) 23 0
  pw := bitsAt (field b 0x38 4) 15 8
  rwl := bitsAt (field b 0x38 4) 4 0
  kcl := bitsAt (field b 0x34 4) 4 0
  kht := field b 0x28 8
  fields := (List.range nf).map (fieldOf fdt)
  admFrame := (s.vdev vdev).frame
  admAt := s.now
  dseq := 0
  next := 0
  packFrom := 0
  packFrame := 0
  packAt := 0
  pack := []
  sentSince := false
  members := []
  sentKeys := []
  sentVoids := []
  closeSent := false
  np := 0
  known := []
  keys := []
  decided := []
  top := none
  fin := none
  seen := []
  rx := []
  par := []
  lastKey := []
  late := []
  closed := false
  cnt := []

/-- A descriptor as an edge that nothing has used yet. -/
def edgeOf (vdev va pa : Nat) (b : List Byte) : Edge where
  vdev := vdev
  desc := va
  pa := pa
  graph := 0
  base := field b 0 8
  capl := bitsAt (field b 8 4) 4 0
  rs := bitsAt (field b 8 4) 10 5
  ord := bitsAt (field b 8 4) 12 11
  loc := bit (field b 8 4) 13
  rmt := bit (field b 8 4) 14
  late := bitsAt (field b 8 4) 21 20
  nf := bitsAt (field b 8 4) 19 15
  consumer := field b 0xC 2
  nprod := field b 0xE 2
  producers := []
  role := roleLocal
  runs := true
  opened := false
  fe := 0
  walk := 0
  prodDone := []
  frames := []
  ready := []
  given := []
  alive := []
  keyCore := []
  finished := []
  voided := []
  rr := 0
  batch := none
  undef := false
  born := 0
  parkedAt := []
  second := none

/-- Whether indices and slot headers stand at R12's initial values; a header that cannot be read counts as standing there. (DESIGN CHOICE, log 100) -/
def initialOk (s : State) (e : Edge) (b : List Byte) : Bool :=
  decide (field b 0x10 12 = 0) && (List.range e.slots).all fun i =>
    match ringRead s none e i 1 with
    | (_, .ok (h, _)) => decide (field h 0 4 = (2 ^ 32 + i - e.slots) % 2 ^ 32)
    | _ => true

/-- An edge descriptor as read: the edge, and its codec state if it is remote. -/
structure EdgeRead where
  edge : Edge
  remote : Option Remote
  deriving DecidableEq, Repr, Inhabited

/-- Read and check an edge descriptor (R9, R258, R261). -/
def readEdge (s : State) (vdev va : Nat) : Except AdmErr EdgeRead := do
  let b ← readStruct s vdev (.edge va) va 64
  need (descOk va b) (.edge va)
  let pa := match translateAt s vdev va 1 with
    | .ok pa _ => pa
    | _ => 0
  let e := { edgeOf vdev va pa b with fe := (feOf s vdev).getD 0 }
  let e := { e with undef := !initialOk s e b }
  need (!e.loc || inFifo s e) (.edge va)
  if e.rmt then
    need (remoteOk s vdev b) (.edge va)
    let fdt ← readStruct s vdev (.edge va) (field b 0x20 8) (16 * e.nf)
    need ((List.range e.nf).all (fieldOk fdt)) (.edge va)
    return ⟨e, some (remoteOf s vdev b fdt e.nf)⟩
  else return ⟨e, none⟩

/-! ## Graphs -/

/-- Read one stage entry with its header and output table (R7); the launched stage's own header gives HDR when it fails (R35; DEDUCED, log 27). -/
def readStage (s : State) (vdev gva stage : Nat) (b : List Byte) (i : Nat) : Except AdmErr Program := do
  let off := 16 + 32 * i
  let w := field b (off + 0x18) 4
  need (decide (bitsAt w 31 17 = 0) && decide (field b (off + 0x1C) 4 = 0)) .graph
  let n := bitsAt w 15 0
  let p ← readHeader s vdev (field b off 8) (if n = stage then .hdr else .graph)
  let t := field b (off + 0x10) 8
  let outs ← if t = 0 then pure [] else do
    let o ← readStruct s vdev .graph t 512
    pure ((List.range 64).map fun k => field o (8 * k) 8)
  return { p with graph := gva, stage := n, side := bitsAt w 16 16, inEdge := field b (off + 8) 8, outs := outs }

/-- Whether a list of numbers has no repeats. -/
def distinct (l : List Nat) : Bool := decide l.Nodup

/-- The edges that a graph's stages name. -/
def namedEdges (ps : List Program) : List Nat :=
  (ps.flatMap fun p => (if p.inEdge = 0 then [] else [p.inEdge]) ++ p.outs.filter fun d => decide (d ≠ 0)).dedup

/-- The stages that name an edge in their output tables. -/
def producersOf (ps : List Program) (desc : Nat) : List Program := ps.filter fun p => p.outs.contains desc

/-- The part's role on an edge of a graph (R257). -/
def roleIn (s : State) (vdev : Nat) (ps : List Program) (e : Edge) : Nat :=
  if !e.rmt then roleLocal
  else
    let side := ((ps.find? fun p => decide (p.inEdge = e.desc)).map (·.side)).getD 0
    if sideHere s vdev side then roleReceiver
    else if (producersOf ps e.desc).any fun p => sideHere s vdev p.side then roleSender else roleInert

/-- The checks that need the whole graph (R7, R9, R19, R258). -/
def graphOk (s : State) (ps : List Program) (es : List EdgeRead) : Bool :=
  distinct (ps.map (·.stage)) && distinct ((ps.map (·.inEdge)).filter fun d => decide (d ≠ 0))
    && es.all (fun r =>
      let e := r.edge
      match ps.find? fun p => decide (p.inEdge = e.desc) with
      | none => false
      | some p => decide (p.stage = e.consumer) && decide ((2 * e.rs + 7) / 8 ≤ p.pro)
          && (!e.rmt || (producersOf ps e.desc).all fun q => decide (q.side ≠ p.side)))
    && distinct ((es.filterMap (·.remote)).map fun r => r.codec * 65536 + r.eid)
    && es.all fun r => r.remote.all fun m => s.remotes.all fun o => decide (o.1 = edgeKey r.edge.vdev r.edge.desc)
      || decide (o.1 / 2 ^ 64 ≠ r.edge.vdev) || decide (o.2.codec ≠ m.codec) || decide (o.2.eid ≠ m.eid)

/-- Read and check a whole graph (R7, R34): its stages, its edges. Where several causes hold, the first that is met in the order of the entries, each
with its header, then its output table, then the edges, decides the status. (DESIGN CHOICE, log 86) -/
def readGraph (s : State) (vdev gva stage cwb : Nat) : Except AdmErr (List Program × List EdgeRead) := do
  let h ← readStruct s vdev .graph gva 16
  let n := field h 0 2
  need (decide (1 ≤ n) && decide (n ≤ 256) && decide (field h 2 6 = 0) && decide (field h 8 8 = cwb)) .graph
  let b ← readStruct s vdev .graph gva (16 + 32 * n)
  let ps ← (List.range n).mapM (readStage s vdev gva stage b)
  let es ← (namedEdges ps).mapM (readEdge s vdev)
  need (graphOk s ps es) .graph
  return (ps, es)

/-- An edge that an earlier admission brought, with the fields of its descriptor as this one reads them (R9); what it holds stays. A descriptor that
software rewrites while a stage of it runs takes effect here too. (DESIGN CHOICE, log 83) -/
def Edge.reread (old new : Edge) : Edge :=
  let same := decide (old.base = new.base) && decide (old.capl = new.capl) && decide (old.rs = new.rs) && decide (old.loc = new.loc)
  { old with pa := new.pa, base := new.base, capl := new.capl, rs := new.rs, ord := new.ord, loc := new.loc, rmt := new.rmt, late := new.late
             nf := new.nf, consumer := new.consumer, nprod := new.nprod, undef := if same then old.undef else new.undef }

/-- The same for the remote area (R9, R257). -/
def Remote.reread (old new : Remote) : Remote :=
  { old with codec := new.codec, peer := new.peer, eid := new.eid, lb := new.lb, pw := new.pw, rwl := new.rwl, kcl := new.kcl, kht := new.kht
             fields := new.fields }

/-- Whether the stage that consumes an edge runs on this part (R257). -/
def runsHere (s : State) (vdev : Nat) (ps : List Program) (e : Edge) : Bool :=
  (ps.find? fun p => decide (p.inEdge = e.desc)).all fun p => sideHere s vdev p.side

/-- How a graph connects its stages: by an edge across the network, by edges of this part, or not at all. -/
def cutRank (es : List Edge) : Nat := if es.any (·.rmt) then 2 else if es.isEmpty then 0 else 1

/-- The current graph of a context once graph `gva` with edges `es` is admitted: that graph, unless it connects its stages by less than the current one
does, or an unfinished cut move has switched away from it (R277; DEDUCED, log 59). -/
def currentCut (s : State) (vdev gva : Nat) (es : List Edge) : Nat :=
  let d := s.vdev vdev
  let now := (s.edges.filter fun x => decide (x.2.vdev = vdev) && decide (x.2.graph = d.cut)).map (·.2)
  if cutRank es < cutRank now || d.move.any (fun m => decide (m.oldGraph = gva) && decide (m.graph = d.cut)) then d.cut else gva

/-- Take a checked graph into the context: its stages, its edges with the part's role on each (R257); what an edge already holds stays. It may become
the current graph (R277). -/
def installGraph (s : State) (vdev fe gva : Nat) (ps : List Program) (es : List EdgeRead) : State :=
  let cut := currentCut s vdev gva (es.map (·.edge))
  let s := s.updVdev vdev fun d => { d with graphs := mset d.graphs gva ⟨ps⟩, cut := cut }
  es.foldl (fun s r =>
    let k := edgeKey vdev r.edge.desc
    let old := ((find? s.edges k).map fun e => e.reread r.edge).getD { r.edge with born := gva }
    let e := { old with graph := gva, fe := fe, producers := (producersOf ps r.edge.desc).map (·.stage)
                        role := roleIn s vdev ps r.edge, runs := runsHere s vdev ps r.edge }
    let s := { s with edges := mset s.edges k e }
    match r.remote with
    | some m => { s with remotes := mset s.remotes k (((find? s.remotes k).map fun o => o.reread m).getD m) }
    | none => s) s

/-! ## Stages and grids start and end -/

/-- A stage of a graph has completed: its output edges count it (R36). -/
def stageDone (s : State) (p : Program) (vdev : Nat) : State :=
  (p.outs.filter fun d => decide (d ≠ 0)).foldl
    (fun s d => s.updEdge (edgeKey vdev d) fun e => { e with prodDone := nins e.prodDone p.stage }) s

/-- A stage starts again: its output edges wait for it, and a sender's edge is open again. (DEDUCED, log 53) -/
def stageStarts (s : State) (p : Program) (vdev : Nat) : State :=
  (p.outs.filter fun d => decide (d ≠ 0)).foldl
    (fun s d => (s.updEdge (edgeKey vdev d) fun e => { e with prodDone := ndel e.prodDone p.stage }).updRemote (edgeKey vdev d)
      fun m => { m with closeSent := false }) s

/-- A receiver's stage opens: the final sequence of an earlier CLOSE, which a stage has already closed on, holds no longer (R285; DEDUCED,
log 58). -/
def reopen (s : State) (edge : Nat) : State := s.updRemote edge fun m => if m.closed then m else { m with fin := none }

/-- Start an admitted launch (R35, R36, R257): a stage of the other side completes at once, a fed stage opens, otherwise a grid is handed
to the distributor. -/
def startLaunch (s : State) (fe vdev : Nat) (walk : Bool) (p : Program) : State :=
  if p.graph ≠ 0 ∧ !sideHere s vdev p.side then stageDone s p vdev
  else
    let s := if p.graph ≠ 0 then stageStarts s p vdev else s
    let n := if walk then (s.fe fe).walks else 0
    if p.inEdge ≠ 0 then
      reopen (s.updEdge (edgeKey vdev p.inEdge) fun e => { e with opened := true, walk := if walk then n else e.walk, fe := fe }) (edgeKey vdev p.inEdge)
    else
      let (s, k) := s.fresh
      { s with grids := mset s.grids k ⟨vdev, fe, p, 0, none, false, n⟩ }

/-- Bytes of a context's memory, none where they cannot be read. -/
def bytesOr (s : State) (vdev va n : Nat) : List Byte := match sysBytes s vdev 1 (n / 4096 + 2) va n with
  | .ok b => b
  | _ => []

/-- What an admission reads of a graph: its descriptor, each stage's header and output table, each edge's descriptor and field descriptors (R35). -/
def graphReads (s : State) (vdev gva : Nat) : List (Nat × Nat) :=
  let n := min 256 (field (bytesOr s vdev gva 16) 0 2)
  let b := bytesOr s vdev gva (16 + 32 * n)
  let entry (i k : Nat) : Nat := field b (16 + 32 * i + 8 * k) 8
  let outs (i : Nat) : List Nat := if entry i 2 = 0 then [] else (List.range 64).map fun k => field (bytesOr s vdev (entry i 2) 512) (8 * k) 8
  let descs := ((List.range n).flatMap fun i => (entry i 1 :: outs i).filter fun d => decide (d ≠ 0)).dedup
  (gva, 16 + 32 * n)
    :: ((List.range n).flatMap fun i => (entry i 0, 128) :: if entry i 2 = 0 then [] else [(entry i 2, 512)])
    ++ descs.flatMap fun d =>
      let e := bytesOr s vdev d 64
      (d, 64) :: if bit (field e 8 4) 14 then [(field e 0x20 8, 16 * bitsAt (field e 8 4) 19 15)] else []

/-- What the decision of a launch reads. -/
def launchReads (s : State) (l : LaunchReq) : List (Nat × Nat) :=
  if l.bad then [] else if l.graph = 0 then [(l.hdr, 128)] else graphReads s l.vdev l.graph

/-- Log the poison that a front end's or a codec's access met in a page-table entry (R347). -/
def fePoison {α : Type} (s : State) (vdev : Nat) : EGot α → State
  | .poison pa => logPoison s vdev pa 0 0 0
  | _ => s

/-- Log the poison that a structure's read met in a page-table entry (R347). -/
def admPoison (s : State) (vdev : Nat) : AdmErr → State
  | .poison _ _ pa => logPoison s vdev pa 0 0 0
  | _ => s

/-- Launch statuses (R35). -/
def stOk : Nat := 0
def stHdr : Nat := 1
def stGraph : Nat := 2
def stNofit : Nat := 3
def stBusy : Nat := 4
def stXlate : Nat := 5

/-- Decide a launch (R35): the status, with the state after it, and the faulting address for XLATE. A stage of the other side is accepted
wherever it fits (R257). The record of a refusal names the edge descriptor, the graph or the header that was refused (R334). A stage number that names no entry of the graph is refused as GRAPH. (DESIGN CHOICE, log 85) -/
def decideLaunch (s : State) (fe : Nat) (l : LaunchReq) : State × Nat × Nat :=
  let f := s.fe fe
  let refuseAt (s : State) (st : Nat) (desc : Option Nat) : State × Nat × Nat :=
    let a := if l.graph = 0 then l.hdr else l.graph
    (stickyError s l.vdev ⟨3, st, 0, desc.getD a, 0, 0, a, 0⟩, st, 0)
  let refuse (st : Nat) := refuseAt s st none
  let err : AdmErr → State × Nat × Nat
    | .hdr => refuse stHdr
    | .graph => refuse stGraph
    | .edge d => refuseAt s stGraph (some d)
    | .xlate va => (s, stXlate, va)
    | .poison h d pa => refuseAt (logPoison s l.vdev pa 0 0 0) (if h then stHdr else stGraph) d
  if l.bad then refuse stHdr
  else if l.graph = 0 then
    match readHeader s l.vdev l.hdr .hdr with
    | .error e => err e
    | .ok p => if noFit s f l.vdev p false then refuse stNofit else (startLaunch s fe l.vdev l.walk p, stOk, 0)
  else
    match readGraph s l.vdev l.graph l.stage f.cwb.toNat with
    | .error e => err e
    | .ok (ps, es) =>
      match ps.find? fun p => decide (p.stage = l.stage) with
      | none => refuse stGraph
      | some p =>
        if sideHere s l.vdev p.side && noFit s f l.vdev p (decide (p.inEdge ≠ 0)) then refuse stNofit
        else (startLaunch (installGraph s l.vdev fe l.graph ps es) fe l.vdev l.walk p, stOk, 0)

/-! ## The LAUNCH instruction (R104, R105) -/

/-- The launch that a LAUNCH instruction's block describes. -/
def launchOf (vdev gid req : Nat) (b : List Word) : LaunchReq :=
  let pair (i : Nat) : Nat := (dword (b.getD i 0) (b.getD (i + 1) 0)).toNat
  ⟨vdev, false, gid, req, pair 0, pair 2, (b.getD 4 0).toNat % 2 ^ 16, decide (2 ^ 16 ≤ (b.getD 4 0).toNat) || decide (b.getD 5 0 ≠ 0)⟩

/-- LAUNCH: a release at device scope over LSU, then the launch waits for admission; a full queue answers BUSY at once, and so, by the
model's choice, does a device that no front end is bound to (DESIGN CHOICE, log 87). -/
def execLaunch (p t : Fin 56) (s : State) : Host.Outcome State Fault Refusal :=
  let i : Instr := .launch p t
  issueW i { (Need.ofUni.ublk p.val 6).udst (.g t) with even := [p.val] } (fun g => outstanding g [clsLSU]) (fun _ _ => 0) (fun c s =>
    match feOf s c.g.info.vdev with
    | none => uniResult (.g t) 0 (fun _ _ => 4) c s
    | some fe =>
      let s := releaseLsu s c.g.info.core .dev
      if 64 ≤ (s.fe fe).queue.length then uniResult (.g t) 0 (fun _ _ => 4) c s
      else
        let e := takeSb s c.gid ⟨[], [t.val], 0, false, none⟩
        let r := pushReq e.1 c.gid (mkUniReq i c 0 [] [] e.2 s.now)
        r.1.updFe fe fun f => { f with queue := f.queue ++ [launchOf c.g.info.vdev c.gid r.2 (ublock c.g p.val 6)] }) s

/-- The status of a LAUNCH instruction written to its T, if its group still lives. -/
def answerLaunch (s : State) (l : LaunchReq) (st : Nat) : State :=
  s.updGroup l.group fun g => match find? g.c.reqs l.req with
    | none => g
    | some r => match r.instr with
      | .launch _ t =>
        { g with r := g.r.setG t.val (BitVec.ofNat 32 st), c := { g.c with reqs := merase g.c.reqs l.req } }.freeEntry r.entry
      | _ => g

/-! ## Walk errors (R30) -/

/-- A walk ends with an error: FESTAT, the sticky error, HALT. -/
def walkError (s : State) (fe code : Nat) : State :=
  let f := s.fe fe
  let s := s.updFe fe fun f => { f with err := code, st := .halt, launchWait := false, endWait := false, deadline := none
                                        fenced := false, parked := 0 }
  if f.vdevV then stickyError s f.vdev ⟨2, code, 0, (f.graph.toNat + 32 * f.node) % 2 ^ 64, 0, 0, 0, f.node⟩ else s

/-- The walker goes on to a node. -/
def toNode (s : State) (fe node : Nat) : State := s.updFe fe fun f => { f with node := node, fenced := false, st := .walk, deadline := none }

/-- A walker stalls on a translation fault of one of its reads (R35): the event carries a token, and a RETRY lets it try again. -/
def walkStall (s : State) (fe vdev va : Nat) : State :=
  let r := newToken s vdev (.walker fe)
  let s := r.1.updFe fe fun f => { f with parked := r.2 }
  logEvent s vdev evXlate 0x20 0 127 (s.vdev vdev).gen va 0 0 0 r.2

/-- Whether a front end decides its launches for a device: it is LIVE, or a save waits for a latch chain that waits for one of them (R71, R313). -/
def admits (s : State) (f : FrontEnd) (vdev : Nat) : Bool :=
  deviceLive s vdev || (decide ((s.vdev vdev).st = .saving) && f.queue.any fun l => !l.walk && (s.group? l.group).any (inChain s))

/-- LAUNCH_ADMISSION: the front end decides its oldest queued launch (R35). -/
def evLaunchAdmission (fe : Nat) (s : State) : Option State :=
  let f := s.fe fe
  match f.queue with
  | [] => none
  | l :: rest =>
    if !admits s f l.vdev then none
    else
      let reads := launchReads s l
      let s := s.setFe fe { f with queue := rest }
      let x := decideLaunch s fe l
      let x := (x.1.sysReads l.vdev reads, x.2)
      if l.walk then
        let s := x.1.updFe fe fun f => { f with launchWait := false }
        some (if x.2.1 = stOk then toNode s fe (field ((f.nodes.find? fun e => decide (e.1 = f.node)).elim [] fun e => wordBytes e.2) 2 2 / 16)
          else if x.2.1 = stXlate then walkStall s fe l.vdev x.2.2
          else walkError s fe 7)
      else
        let s := if x.2.1 = stXlate then logEvent x.1 l.vdev evXlate 0x20 0 127 (s.vdev l.vdev).gen x.2.2 0 0 0 0 else x.1
        some (answerLaunch s l x.2.1)

/-! ## Completion (R36, R329 to R331) -/

/-- Whether an owner still has groups, workgroups or former entries. -/
def ownerBusy (s : State) (o : Owner) : Bool :=
  s.groups.any (fun e => e.2.owned o) || s.wgs.any (fun e => decide (e.2.owner = o))
    || s.cores.any (fun k => k.2.entries.any fun e => decide (e.owner = o))
    || s.ops.any fun x => decide (x.2.owner = o) && !x.2.stampPending && (match x.2.instr with | .hread .. => true | _ => false)

/-- On a receiver, every sequence below the final one has been placed: NP has reached it or, by a later manifest or void, passed it (R285). -/
def remoteDrained (s : State) (edge : Nat) (e : Edge) : Bool :=
  decide (e.role ≠ roleReceiver) || (find? s.remotes edge).any fun m => m.fin.any (fun x => decide ((m.np + 2 ^ 32 - x.1) % 2 ^ 32 < 2 ^ 31)) && decide (m.late = [])

/-- Whether an edge belonged to a graph that a cut move has left, while the graph that stands gives its stage another input edge (R278, R279). -/
def superseded (s : State) (e : Edge) : Bool :=
  let cut := (s.vdev e.vdev).cut
  decide (e.graph ≠ cut) && s.edges.any fun x => decide (x.2.vdev = e.vdev) && decide (x.2.graph = cut) && decide (x.2.consumer = e.consumer) && x.2.opened

/-- STAGE_CLOSE: a stage closes when its producers have completed, every reserved slot has been reclaimed, and its tasks have ended
(R36, R192, R285). -/
def evStageClose (edge : Nat) (s : State) : Option State :=
  (find? s.edges edge).bind fun e =>
    if e.opened && deviceLive s e.vdev && !e.stuck s && producersDone s edge e && remoteDrained s edge e && decide (edgeRsv s e = edgeRcl s e)
        && !ownerBusy s (.stage edge) then
      let s := (s.updEdge edge fun e => { e with opened := false, walk := 0, prodDone := [] }).updRemote edge
        fun m => { m with closed := false }
      some (match stageOf s e with
        | some p => if superseded s e then s else stageDone s p e.vdev
        | none => s)
    else none

/-- Whether an operation holds its workgroup (R330): COPY, GRID and MTILE that name its local store or operand buffer, and every HREAD. Until a GRID has read its descriptor
it may name local store. -/
def opHolds (o : EngOp) : Bool :=
  match o.instr with
  | .hread .. | .mtile .. => true
  | .copyTile .. | .copyCb .. => true
  | .copyLin .. | .copyGath .. => decide (bitsAt (o.block.getD 5 0).toNat 20 17 ≠ 0)
  | _ => decide (o.cfg = []) || decide (o.cfg.getD 0 0 = 1)

/-- WORKGROUP_COMPLETE: the last group of a workgroup has ended, its split threads too, and the operations that name its storage and the
releases of its reservations have completed (R329, R330); its resources return, and its gang's with the last workgroup (R331). -/
def evWorkgroupComplete (wg : Nat) (s : State) : Option State :=
  (s.wg? wg).bind fun w =>
    if s.groups.any (fun e => e.2.member wg) || s.cores.any (fun k => k.2.entries.any fun e => decide (e.wg = wg))
        || (!w.killed && (s.core w.core).resv.any fun r => decide (r.2.wg = wg))
        || (!w.killed && s.ops.any fun o => decide (o.2.wg = wg) && !o.2.stampPending && opHolds o.2) then none
    else
      let s := ({ s with wgs := merase s.wgs wg } : State).updCore w.core fun k =>
        ((k.resv.filter fun r => decide (r.2.wg = wg)).map (·.1)).foldl freeSlot k
      some (match w.gang with
        | none => s
        | some a => match find? s.gangs a with
          | none => s
          | some k => if k.size ≤ 1 then { s with gangs := merase s.gangs a } else s.updGang a fun k => { k with size := k.size - 1 })

/-- GRID_COMPLETE: every born workgroup has completed and every task the grid owns has exited (R329). -/
def evGridComplete (grid : Nat) (s : State) : Option State :=
  (find? s.grids grid).bind fun g =>
    if decide (unplaced g ≠ []) || ownerBusy s (.grid grid) || !deviceLive s g.vdev then none
    else
      let s := { s with grids := merase s.grids grid }
      some (if g.prog.graph = 0 then s else stageDone s g.prog g.vdev)

/-! ## Meanings of the events -/

def execLaunchAdmission (fe : Nat) (s : State) : Host.Outcome State Fault Refusal := ofEvent (evLaunchAdmission fe s) s
def execStageClose (stage : Nat) (s : State) : Host.Outcome State Fault Refusal := ofEvent (evStageClose stage s) s
def execWorkgroupComplete (wg : Nat) (s : State) : Host.Outcome State Fault Refusal := ofEvent (evWorkgroupComplete wg s) s
def execGridComplete (grid : Nat) (s : State) : Host.Outcome State Fault Refusal := ofEvent (evGridComplete grid s) s

end Sys2Proof.Machine
end

