-- ==== Sys2Proof/Machine/Engine.lean ====
section
/-! DEFINITION. Engine operations (10): their issue (R193 to R195, R199), reservations they name (R225), reading and writing their units
below the L1s (R196, R198, R222), tags and TAGW (R200, R201), completion (R197, R323, R347). -/
namespace Sys2Proof.Machine

/-! ## Blocks (R195) -/

/-- Word `i` of a block, and the pair from `i` up, as numbers. -/
def blkW (b : List Word) (i : Nat) : Nat := (b.getD i 0).toNat
def blkP (b : List Word) (i : Nat) : Nat := (dword (b.getD i 0) (b.getD (i + 1) 0)).toNat

/-- TAG, TV, SV and the stamp address. -/
def EngOp.tag (o : EngOp) : Nat := bitsAt (blkW o.block 5) 31 26
def EngOp.tv (o : EngOp) : Bool := bit (blkW o.block 5) 25
def EngOp.sv (o : EngOp) : Bool := bit (blkW o.block 5) 24
def EngOp.stampVa (o : EngOp) : Nat := blkP o.block 6

/-- The completion scope: codes 0 and 1 act as 2. -/
def blkScope (b : List Word) : Scope :=
  match bitsAt (blkW b 5) 23 21 with
  | 3 => .clu
  | 4 => .die
  | 5 => .dev
  | 6 => .sys
  | _ => .wkg

/-- The checks of R195 on bits 31:21 of the control word and on the stamp address. -/
def ctlOk (b : List Word) : Bool :=
  decide (bitsAt (blkW b 5) 23 21 ≠ 7)
    && (!bit (blkW b 5) 24 || (decide (addrClass (blkP b 6) = .translated) && decide (blkP b 6 % 8 = 0)))

/-! ## Statuses -/

/-- Issue statuses (R193, R237). -/
def isAccepted : Nat := 0
def isFull : Nat := 1
def isInvalid : Nat := 2
def isRange : Nat := 3
def isNoToken : Nat := 4

/-- Completion statuses (R197). -/
def csInvalid : Nat := 0x10
def csFormat : Nat := 0x11
def csSwizzle : Nat := 0x12
def csPoison : Nat := 0x13
def csFault : Nat := 0x14
def csAborted : Nat := 0x15
def csRange : Nat := 0x16

/-- The place of a status in the order of R197, first reported first. -/
def statusRank (c : Nat) : Nat :=
  match [csAborted, csInvalid, csRange, csFormat, csSwizzle, csFault, csPoison].findIdx? (· == c) with
  | some i => i
  | none => 7

/-- The status reported when two apply. -/
def worse (a b : Nat) : Nat := if statusRank b < statusRank a then b else a

/-- Give an operation a status. -/
def opStatus (s : State) (op c : Nat) : State := s.updOp op fun o => { o with status := worse o.status c }

/-- An operation has made its last write. -/
def opDone (s : State) (op : Nat) : State := s.updOp op fun o => { o with st := .done }

/-- An operation ends with a status. -/
def opFail (s : State) (op c : Nat) : State := opDone (opStatus s op c) op

/-! ## What an issuer may name (R199) -/

/-- LS window base and length, most LS bytes, OB region base and length, most OB bytes: a group of handlers or split threads has no
quota, so that only the bounds count. -/
def limOf (s : State) (g : Group) : List Nat :=
  let w := uniWindow g
  let r := ((s.wg? (g.laneWg g.uniLane)).map fun w => (w.obBase * 256, w.obLen * 256)).getD (0, 0)
  [w.1, w.2, if g.formerBuilt then w.2 else g.c.lsQuota * 256, r.1, r.2, if g.formerBuilt then r.2 else g.c.obQuota * 256]

/-- Whether an LS range is allowed, and a direct OB range. -/
def lsRangeOk (lim : List Nat) (off n : Nat) : Bool := decide (off + n ≤ lim.getD 1 0) && decide (n ≤ lim.getD 2 0)
def obRangeOk (lim : List Nat) (off n : Nat) : Bool := decide (off + n ≤ lim.getD 4 0) && decide (n ≤ lim.getD 5 0)

/-- The slot that a handle names, live for a workgroup (R225). -/
def liveSlot (s : State) (core wg h : Nat) : Option (Nat × Resv) :=
  let k := s.core core
  let slot := h % 256
  if h / 2 ^ 15 = 1 ∧ h / 256 % 128 = mget 0 k.resvGen slot then
    (find? k.resv slot).bind fun r => if r.wg = wg ∧ !r.released then some (slot, r) else none
  else none

/-- The slot that a handle names, held by a group (R225). -/
def heldSlot (s : State) (gid : Nat) (g : Group) (h : Nat) : Option (Nat × Resv) :=
  (liveSlot s g.info.core (g.laneWg g.uniLane) h).filter fun x => decide (x.2.owner = gid)

/-- Fields of a reservation record (R223). -/
def rLen (w : List Word) : Nat := bitsAt (blkW w 0) 31 16 * 256
def rBase (w : List Word) : Nat := bitsAt (blkW w 0) 9 0 * 256
def rSwz (w : List Word) : Nat := bitsAt (blkW w 1) 11 6
def rBl (w : List Word) : Nat := bitsAt (blkW w 1) 5 4
def rFmt (w : List Word) : Nat := bitsAt (blkW w 1) 3 0
def rScl (w : List Word) : Nat := bitsAt (blkW w 2) 15 0
def rVmo (w : List Word) : Nat := bitsAt (blkW w 3) 15 0
def rTsc (w : List Word) : Word := w.getD 4 0

/-- A block length by its code: 0 none. -/
def blLen (c : Nat) : Nat := if c = 0 then 0 else 8 * 2 ^ c

/-! ## Issue (R193) -/

/-- A queued operation. -/
def newOp (s : State) (i : Instr) (c : Ctx) (b : List Word) : EngOp where
  instr := i
  pc := c.pc
  block := b
  group := c.gid
  wg := c.g.laneWg c.g.uniLane
  vdev := c.g.info.vdev
  core := c.g.info.core
  slot := c.g.info.slot
  prio := c.g.info.prio
  owner := c.g.laneOwner c.g.uniLane
  prog := c.g.laneProg c.g.uniLane
  gen := c.g.info.gen
  st := .queued
  unit_ := 0
  units := 0
  lim := limOf s c.g
  resvs := []
  recs := []
  cfg := []
  tab := []
  status := 0
  flags := 0
  bursts := []
  parkedBursts := []
  abort := false
  stampPending := false
  rc := c.g.r.readcount.toNat
  gang := c.g.info.gang

/-- Which engine an operation uses: 0 CPE, 1 HRE, 2 GTE, 3 MTILE. -/
def engineOf : Instr → Nat
  | .copyLin .. | .copyTile .. | .copyCb .. | .copyGath .. => 0
  | .hread .. => 1
  | .mtile .. => 3
  | _ => 2

/-- Whether two operations share a queue: a CPE channel and an MTILE queue serve one core, the HRE and the GTE one cluster (R194, R240). -/
def sameQueue (i : Instr) (core : Nat) (o : EngOp) : Bool :=
  decide (engineOf i = engineOf o.instr)
    && (if engineOf i = 0 ∨ engineOf i = 3 then decide (o.core = core) else decide (clusterOf o.core = clusterOf core))

/-- Whether an operation still holds its queue entry (R194): an HREAD until its last burst has been read, so also while
it is parked before it knows its bursts. A COPY or a GRID whose stamp increase is parked does not: its channel goes on. (DESIGN CHOICE, log 104) -/
def inQueue (o : EngOp) : Bool :=
  !o.stampPending && (match o.instr with
    | .hread .. => decide (o.st = .queued) || decide (o.bursts ≠ []) || (decide (o.units = 0) && (match o.st with | .parked _ => true | _ => false))
    | _ => true)

/-- Operations in the queue that an instruction of a core would join. -/
def queueLen (s : State) (i : Instr) (core : Nat) : Nat := s.ops.countP fun e => sameQueue i core e.2 && inQueue e.2

/-- The capacity of a queue (R194, R240). -/
def queueCap (i : Instr) : Nat := if engineOf i = 0 then 16 else 8

/-- Issue of an engine operation (R193, R237): `check` gives the first status below FULL that applies, or 0, and `fill` what the
operation takes from the issuer. An accepted operation with TV clears its tag (R200). -/
def opIssue (i : Instr) (p t : Fin 56) (check : State → Ctx → List Word → Nat) (fill : State → Ctx → List Word → EngOp → EngOp)
    (wait : Group → Bool) (s : State) : Host.Outcome State Fault Refusal :=
  issueW i ((Need.ofUni.ublk p.val 8).udst (.g t)) wait (fun _ _ => 0) (fun c s =>
    let b := ublock c.g p.val 8
    let st := check s c b
    let st := if st ≠ 0 then st else if queueCap i ≤ queueLen s i c.g.info.core then isFull else 0
    let s := if st ≠ 0 then s
      else
        let o := fill s c b (newOp s i c b)
        let r := s.fresh
        let s := { r.1 with ops := mset r.1.ops r.2 o }
        if o.tv then s.updCore c.g.info.core fun k => { k with tags := k.tags &&& ~~~laneBit o.tag, tagLsu := k.tagLsu &&& ~~~laneBit o.tag } else s
    uniResult (.g t) 2 (fun _ _ => BitVec.ofNat 32 st) c s) s

/-! ## Parking and failing (R198, R325) -/

/-- Park an operation at its unit on a translation fault: an event with a token is logged. -/
def parkOp (s : State) (op : Nat) (o : EngOp) (va : Nat) : State :=
  let r := newToken s o.vdev (.unit_ op)
  let s := r.1.updOp op fun o => { o with st := .parked r.2 }
  logEvent s o.vdev evXlate 0x20 0 127 o.gen va o.pc o.core o.slot r.2

/-- Log poison that an operation met in a page-table entry. -/
def opPoison (s : State) (o : EngOp) (pa : Nat) : State := logPoison s o.vdev pa o.pc o.core o.slot

/-! ## Reading units -/

/-- A piece of a unit's source: bytes given, or bytes of global memory, local store, operand buffer; core addresses for the latter. -/
inductive Seg where
  | lit (bs : List Byte)
  | glob (va n : Nat)
  | ls (a n : Nat)
  | ob (a n : Nat)
  deriving DecidableEq, Repr

/-- A piece of a global range: physical memory, physical memory of an NC page, which no cache takes (R173), or the cluster's SRAM. -/
inductive Run where
  | phys (pa n : Nat)
  | nc (pa n : Nat)
  | scratch (a n : Nat)
  deriving DecidableEq, Repr, Inhabited

/-- Where a piece of a global range begins. -/
def Run.at_ : Run → Nat
  | .phys a _ | .nc a _ | .scratch a _ => a

/-- The pieces of a global range, page by page; the scratch aperture is the issuing gang's (R155, R156, R173, R175). (DESIGN CHOICE, log 61) -/
def engRuns (s : State) (vdev : Nat) (gang : Option Nat) (need : Nat) : Nat → Nat → Nat → EGot (List Run)
  | 0, _, _ => .ok []
  | _, _, 0 => .ok []
  | fuel + 1, va, n =>
    let k := min n (4096 - va % 4096)
    let go (r : Run) : EGot (List Run) := match engRuns s vdev gang need fuel ((va + k) % 2 ^ 64) (n - k) with
      | .ok l => .ok (r :: l)
      | x => x
    match addrClass va with
    | .translated =>
      match translateAt s vdev va need with
      | .fault => .xlate va
      | .bad => .fatal 0x23
      | .poison pa => .poison pa
      | .ok pa mt =>
        if mt = 2 then .fatal 0x23
        else match region s pa with
          | .hbm | .remote => go (if mt = 0 then .phys pa k else .nc pa k)
          | .pcie => if mt = 0 then .fatal 0x23 else go (.nc pa k)
          | _ => .fatal 0x23
    | .scratch off => match gangScratch s gang off with
      | some a => go (.scratch a k)
      | none => .fatal 0x22
    | .bad => .fatal 0x23

/-- The walks of a global range, page by page: what of the page tables lies in another part is read over Ivmar (R175). -/
def State.walkPages (s : State) (vdev va n : Nat) : State :=
  if s.part = 0 then s
  else (List.range (n / 4096 + 2)).foldl (fun t i => if 4096 * i < va % 4096 + n then t.walked vdev ((va + 4096 * i) % 2 ^ 64) else t) s

/-- Read one piece below the L1s, with whether some byte is poisoned. -/
def readRun (s : State) (cl ch rc : Nat) : Run → State × List Byte × Bool
  | .phys pa n => s.engRead cl pa n ch rc
  | .nc pa n => s.engRead cl pa n 4 0
  | .scratch a n => (s.moved cl (sectorsOf a n), (s.cluster cl).sramBytes a n, (s.cluster cl).sramBad a n)

/-- Read pieces one after another. -/
def readRuns (s : State) (cl ch rc : Nat) : List Run → State × List Byte × Bool
  | [] => (s, [], false)
  | r :: t =>
    let x := readRun s cl ch rc r
    let y := readRuns x.1 cl ch rc t
    (y.1, x.2.1 ++ y.2.1, x.2.2 || y.2.2)

/-- The hint of an operation's global reads (R202). -/
def hintOf (o : EngOp) : Nat := match o.instr with
  | .copyLin .. | .copyTile .. | .copyCb .. | .copyGath .. => bitsAt (blkW o.block 5) 16 15
  | _ => 0

/-- Read the pieces of a unit: its bytes and whether they are poisoned (R169). A poisoned page-table entry poisons the whole unit, with
the event of R169 (R347). -/
def readSegs (s : State) (o : EngOp) : List Seg → State × EGot (List Byte × Bool)
  | [] => (s, .ok ([], false))
  | g :: t =>
    let k := s.core o.core
    let cl := clusterOf o.core
    let here : State × EGot (List Byte × Bool) := match g with
      | .lit bs => (s, .ok (bs, false))
      | .ls a n => (s.moved cl (sectorsOf a n), .ok (k.lsBytes a n, k.lsBad a n))
      | .ob a n => (s.moved cl (sectorsOf a n), .ok (k.obBytes a n, k.obBad a n))
      | .glob va n => match engRuns s o.vdev o.gang 1 (n / 4096 + 2) va n with
        | .ok l => let x := readRuns (s.walkPages o.vdev va n) cl (hintOf o) o.rc l; (x.1, .ok x.2)
        | .xlate va => (s, .xlate va)
        | .fatal c => (s, .fatal c)
        | .poison pa => (opPoison s o pa, .ok (List.replicate n 0, true))
    match here with
    | (s, .ok (bs, p)) => match readSegs s o t with
      | (s, .ok (cs, q)) => (s, .ok (bs ++ cs, p || q))
      | x => x
    | x => x

/-! ## Writing units -/

/-- Where a unit goes: global memory, local store, operand buffer with tag and permutation, operand buffer as plain bytes. -/
inductive Dest where
  | glob (va : Nat)
  | ls (a : Nat)
  | ob (a z : Nat)
  | obPlain (a : Nat)
  deriving DecidableEq, Repr

/-- The physical byte of a logical byte of an operand-buffer unit under a swizzle identifier (R222). -/
def swzAt (z a : Nat) : Nat := a / 256 * 256 + (a / 16 % 16 ^^^ z % 16) * 16 + a % 16

/-- Write bytes one by one at the operand-buffer addresses `f` gives. -/
def Core.obScatter (k : Core) (f : Nat → Nat) (a : Nat) : List Byte → Core
  | [] => k
  | b :: r => (k.obSet (f a) [b]).obScatter f (a + 1) r

/-- Write bytes of one unit under a swizzle identifier: poison strikes the sectors written; a whole unit clears it (R169, R222). -/
def Core.obSwz (k : Core) (a z : Nat) (bs : List Byte) (poison : Bool) : Core :=
  let k := k.obScatter (swzAt z) a bs
  let secs := ((List.range bs.length).map fun i => swzAt z (a + i) / 128).dedup
  let pz := secs.foldl (fun l x => if poison then nins l x else if bs.length = 256 then ndel l x else l) k.obPoison
  ({ k with obPoison := pz } : Core).obMark a z

/-- A plain write in the operand buffer drops the B latches that hold its unit, and leaves its tag (R221, R232). -/
def Core.obPlain (k : Core) (a : Nat) (bs : List Byte) (poison : Bool) : Core :=
  let us := (List.range ((a + bs.length + 255) / 256 - a / 256)).map (a / 256 + ·)
  (k.obStore a bs poison).dropLatch fun b => us.any b.units.contains

/-- Write pieces below the L1s. -/
def writeRuns (s : State) (cl : Nat) (poison : Bool) : List Run → List Byte → State
  | [], _ => s
  | .phys pa n :: t, bs => writeRuns (s.engWrite cl pa (bs.take n) poison) cl poison t (bs.drop n)
  | .nc pa n :: t, bs => writeRuns (s.engWrite cl pa (bs.take n) poison 4) cl poison t (bs.drop n)
  | .scratch a n :: t, bs =>
    writeRuns ((s.moved cl (sectorsOf a n)).updCluster cl fun k => k.sramStore a (bs.take n) poison) cl poison t (bs.drop n)

/-- Write a unit whole, or not at all. -/
def writeDest (s : State) (o : EngOp) (d : Dest) (bs : List Byte) (poison : Bool) : State × EGot Unit :=
  let cl := clusterOf o.core
  match d with
  | .ls a => ((s.moved cl (sectorsOf a bs.length)).updCore o.core fun k => k.lsStore a bs poison, .ok ())
  | .ob a z => ((s.moved cl (sectorsOf a bs.length)).updCore o.core fun k => k.obSwz a z bs poison, .ok ())
  | .obPlain a => ((s.moved cl (sectorsOf a bs.length)).updCore o.core fun k => k.obPlain a bs poison, .ok ())
  | .glob va => match engRuns s o.vdev o.gang 2 (bs.length / 4096 + 2) va bs.length with
    | .ok l => (writeRuns (s.walkPages o.vdev va bs.length) cl poison l bs, .ok ())
    | .xlate va => (s, .xlate va)
    | .fatal c => (s, .fatal c)
    | .poison pa => (opPoison s o pa, .poison pa)

/-- One unit: its source is read, `f` makes its bytes, they are written at `d`; then the operation has `next` units done. A translation
fault parks it, another fault ends the operation, poison is written on (R169, R197, R198, R347); `bad` says that it is poisoned anyway. -/
def doUnit (s : State) (op : Nat) (o : EngOp) (src : List Seg) (bad : Bool) (f : List Byte → List Byte) (d : Dest) (next : Nat) : State :=
  match readSegs s o src with
  | (_, .xlate va) => parkOp s op o va
  | (s, .fatal _) | (s, .poison _) => opFail s op csFault
  | (s', .ok (bs, p)) =>
    let p := p || bad
    match writeDest s' o d (f bs) p with
    | (_, .xlate va) => parkOp s op o va
    | (s', .fatal _) => opFail s' op csFault
    | (s', w) =>
      let s' := if p || decide (w ≠ .ok ()) then opStatus s' op csPoison else s'
      s'.updOp op fun o => { o with unit_ := next, tab := match o.instr with | .copyCb .. => [] | _ => o.tab
                                    st := if o.units ≤ next then .done else match o.instr with | .copyCb .. => .waitTag | _ => .running }

/-! ## Starting (R194, R196) -/

/-- The operations of an operation's queue that were accepted before it and still hold their entries. -/
def olderOps (s : State) (op : Nat) (o : EngOp) : AMap EngOp :=
  s.ops.filter fun e => decide (e.1 < op) && sameQueue o.instr o.core e.2 && inQueue e.2

/-- Whether an operation is next in its queue: one at a time, or four HREADs reading at once. -/
def mayStart (s : State) (op : Nat) (o : EngOp) : Bool :=
  match o.instr with
  | .hread .. => (olderOps s op o).all (fun e => decide (e.2.st ≠ .queued)) && decide ((olderOps s op o).length < 4)
  | _ => decide (olderOps s op o = [])

/-- The release before the first read (R196, R242): the issuer's older LSU accesses, and MTX ones for MTILE, have been performed. -/
def releaseDone (s : State) (op : Nat) (o : EngOp) : Bool :=
  match s.group? o.group with
  | none => true
  | some g => !earlierOut g op (match o.instr with | .mtile .. => [clsLSU, clsMTX] | _ => [clsLSU])

/-- Read a structure at an operation's start: bytes, or the state after the operation parked or ended (R196, R197). `also` is a status that applies
besides, of which the first in R197's order is reported. -/
def readAtStart (s : State) (op : Nat) (o : EngOp) (va n : Nat) (k : State → List Byte → State) (also : Nat := 0) : State :=
  match engRuns s o.vdev o.gang 1 (n / 4096 + 2) va n with
  | .ok l =>
    let x := readRuns (s.walkPages o.vdev va n) (clusterOf o.core) 0 0 l
    if x.2.2 then opFail x.1 op (worse also csPoison) else k x.1 x.2.1
  | .xlate va => parkOp s op o va
  | .poison pa => opFail (opPoison s o pa) op (worse also csPoison)
  | .fatal _ => opFail s op (worse also csFault)

/-- An operation begins its units; one that has none has made its last write. (DEDUCED, log 54) -/
def beginOp (s : State) (op : Nat) (f : EngOp → EngOp) : State :=
  s.updOp op fun o => let o := f o; { o with st := if o.units = 0 then .done else match o.instr with | .copyCb .. => .waitTag | _ => .running }

/-! ## Tags and TAGW (R200, R201) -/

/-- The lowest set bit of a mask, as a number. -/
def lowBit (m : DWord) : Nat := ((List.range 64).find? fun i => m.getLsbD i).getD 0

/-- Set bits of a mask. -/
def popCount (m : DWord) : Nat := (List.range 64).countP fun i => m.getLsbD i

/-- Whether an older group of the core waits in TAGW.FIRST for a bit (R201). -/
def olderFirstWaits (s : State) (g : Group) (b : Nat) : Bool :=
  s.groups.any fun e => decide (e.2.info.core = g.info.core) && decide (e.2.info.age < g.info.age) && (match e.2.c.wait with
    | .tagw _ true m _ => m.getLsbD b
    | _ => false)

/-- What a TAGW finds: the value for D, or none while it must wait. -/
def tagwValue (s : State) (g : Group) (all first : Bool) (m : DWord) : Option Word :=
  let t := (s.core g.info.core).tags &&& m
  if all then (if t = m then some 0 else none)
  else if m = 0 then some (BitVec.allOnes 32)
  else
    let free := if first then maskOf ((List.range 64).filter fun i => t.getLsbD i && !olderFirstWaits s g i) else t
    if free = 0 then none else some (BitVec.ofNat 32 (lowBit free))

/-- A TAGW returns: FIRST takes its bit, and observing an HREAD's bit is an acquire on LSU (R201, R323). -/
def tagwTake (s : State) (g : Group) (first : Bool) (m : DWord) (v : Word) : State :=
  let k := s.core g.info.core
  let s := if k.tags &&& k.tagLsu &&& m ≠ 0 then s.dropClean g.info.core else s
  if first && decide (m ≠ 0) then s.updCore g.info.core fun k => { k with tags := k.tags &&& ~~~laneBit v.toNat, tagLsu := k.tagLsu &&& ~~~laneBit v.toNat }
  else s

/-- What TAGW needs. -/
def needTagw (d a : UDst) : Need := (Need.ofUni.upair a).udst d

/-- A waiting form of TAGW: it returns at once or waits. -/
def tagwWith (i : Instr) (all first : Bool) (d a : UDst) (s : State) : Host.Outcome State Fault Refusal :=
  issue i (needTagw d a) (fun c s =>
    let m := upair c.g a
    match tagwValue s c.g all first m with
    | some v => uniResult d 0 (fun _ _ => v) c (tagwTake s c.g first m v)
    | none => s.updGroup c.gid fun g => { g with c := { g.c with wait := .tagw all first m d } }) s

def execTagwAny (d a : UDst) (s : State) : Host.Outcome State Fault Refusal := tagwWith (.tagwAny d a) false false d a s
def execTagwAll (d a : UDst) (s : State) : Host.Outcome State Fault Refusal := tagwWith (.tagwAll d a) true false d a s
def execTagwFirst (d a : UDst) (s : State) : Host.Outcome State Fault Refusal := tagwWith (.tagwFirst d a) false true d a s

/-- TAGW.CLEAR (R201). -/
def execTagwClear (d a : UDst) (s : State) : Host.Outcome State Fault Refusal :=
  issue (.tagwClear d a) (needTagw d a) (fun c s =>
    let m := upair c.g a
    let n := popCount ((s.core c.g.info.core).tags &&& m)
    let s := tagwTake s c.g false m 0
    let s := s.updCore c.g.info.core fun k => { k with tags := k.tags &&& ~~~m, tagLsu := k.tagLsu &&& ~~~m }
    uniResult d 0 (fun _ _ => BitVec.ofNat 32 n) c s) s

/-- TAGW_WAKE: the bits a group waits for stand (R201). -/
def evTagwWake (gid : Nat) (s : State) : Option State :=
  (s.group? gid).bind fun g =>
    match g.c.wait with
    | .tagw all first m d =>
      if !deviceLive s g.info.vdev then none
      else (tagwValue s g all first m).map fun v =>
        (wake (tagwTake s g first m v) gid).updGroup gid fun g => { g with r := g.r.setU d v }
    | _ => none

/-! ## Completion (R197) -/

/-- ERRST of a completion (R301). -/
def errDone (status : Nat) (flags : BitVec 5) : Word := BitVec.ofNat 32 (2 ^ 28 + flags.toNat * 2 ^ 16 + status)

/-- A stamp increase that is skipped (R197): an event of type MEMFAULT and the sticky error. -/
def skipStamp (s : State) (o : EngOp) (code : Nat) : State :=
  let s := logEvent s o.vdev evMemfault code 0 127 o.gen o.stampVa o.pc o.core o.slot 0
  stickyError s o.vdev ⟨1, code, placeOf o.core o.slot, o.pc, 0, 0, 0, 0⟩

/-- The stamp increase (R197): 1, or 2^63 + 1 when the status is not OK; a translation fault parks it. It is one atomic, which another part or a device
performs itself (R340). That of an HREAD counts as LSU's as well, so that an MWAIT which observes it acquires there (R323). -/
def stampOp (s : State) (op : Nat) (o : EngOp) : State :=
  let drop (s : State) : State := { s with ops := merase s.ops op }
  let lsu : Bool := match o.instr with | .hread .. => true | _ => false
  match engRuns s o.vdev o.gang 3 2 o.stampVa 8 with
  | .ok l =>
    let s := s.walkPages o.vdev o.stampVa 8
    let add : Nat := if o.status = 0 then 1 else 2 ^ 63 + 1
    let far : Bool := match l with
      | .phys pa _ :: _ | .nc pa _ :: _ => decide (region s pa ≠ .hbm)
      | _ => false
    if far then drop ((l.head?).elim s fun r => s.sendOut r.at_ true (leBytes 8 add))
    else
      let x := readRuns s (clusterOf o.core) 0 0 l
      if x.2.2 then drop (skipStamp s o 0x13)
      else
        let s := writeRuns x.1 (clusterOf o.core) false l (leBytes 8 ((leNat x.2.1 + add) % 2 ^ 64))
        drop (match l with
          | .phys pa n :: _ | .nc pa n :: _ => if lsu then s.wroteAs true pa n else s
          | _ => s)
  | .xlate va =>
    let r := newToken s o.vdev (.stamp op)
    let s := r.1.updOp op fun o => { o with st := .parked r.2, stampPending := true }
    logEvent s o.vdev evXlate 0x20 0 127 o.gen va o.pc o.core o.slot r.2
  | .fatal c => drop (skipStamp s o c)
  | .poison pa => drop (skipStamp (opPoison s o pa) o 0x13)

/-- ENGINE_COMPLETION: an operation whose writes are made, or whose workgroup was killed: ERRST of its group if it lives, its tag, its
stamp (R197, R332). A bit that an HREAD has set, and that stands (R200), goes on counting as LSU's (R323). -/
def evEngineCompletion (op : Nat) (s : State) : Option State :=
  (find? s.ops op).bind fun o =>
    if o.stampPending || !deviceActive s o.vdev && !o.abort || !(decide (o.st = .done) || o.abort) then none
    else
      let o := if o.abort then { o with status := csAborted } else o
      let s := s.updGroup o.group fun g => { g with r := { g.r with errst := errDone o.status o.flags } }
      let lsu : Bool := match o.instr with | .hread .. => decide (3 ≤ scopeCode (blkScope o.block)) | _ => false
      let s := if o.tv then s.updCore o.core fun k =>
          { k with tags := k.tags ||| laneBit o.tag, tagLsu := if lsu then k.tagLsu ||| laneBit o.tag else k.tagLsu }
        else s
      let s := s.updOp op fun _ => o
      some (if o.sv then stampOp s op o else { s with ops := merase s.ops op })

/-! ## Answers to tokens (R198, R310) -/

/-- RETRY of a parked unit: it is tried again; a stamp's increase is performed. -/
def retryOp (s : State) (op : Nat) : State :=
  match find? s.ops op with
  | none => s
  | some o =>
    if o.stampPending then stampOp s op o
    else s.updOp op fun o => { o with st := if o.units = 0 then .queued else .running }

/-- ABORT of a parked unit completes the operation with FAULT; of a stamp, skips it. -/
def abortOp (s : State) (op : Nat) : State :=
  match find? s.ops op with
  | none => s
  | some o => if o.stampPending then { skipStamp s o 0x20 with ops := merase s.ops op } else opFail s op csFault

/-! ## Meanings of the events -/

def execTagwWake (gid : Nat) (s : State) : Host.Outcome State Fault Refusal := ofEvent (evTagwWake gid s) s
def execEngineCompletion (op : Nat) (s : State) : Host.Outcome State Fault Refusal := ofEvent (evEngineCompletion op s) s

end Sys2Proof.Machine
end

