-- ==== Sys2Proof/Machine/Copy.lean ====
section
/-! DEFINITION. COPY (R202 to R207): its four modes, tensor headers (R21, R23), tiles (R204, R205), codebook blocks (R206, R207). -/
namespace Sys2Proof.Machine

/-! ## Blocks (R202) -/

def cSsp (b : List Word) : Nat := bitsAt (blkW b 5) 20 19
def cDsp (b : List Word) : Nat := bitsAt (blkW b 5) 18 17

/-- A source or destination of LIN and GATH: its high word is 0 in a local space. -/
def spaceOk (sp hi : Nat) : Bool := decide (sp ≠ 3) && (decide (sp = 0) || decide (hi = 0))

/-- Whether `n` bytes at an offset of a space are allowed (R199). -/
def spaceRange (lim : List Nat) (sp off n : Nat) : Bool :=
  if sp = 1 then lsRangeOk lim off n else if sp = 2 then obRangeOk lim off n else true

/-- A piece of a space, and a destination in it, `off` bytes on from where a block says. -/
def spaceSeg (o : EngOp) (sp va off n : Nat) : Seg :=
  if sp = 1 then .ls (o.lim.getD 0 0 + va + off) n else if sp = 2 then .ob (o.lim.getD 3 0 + va + off) n else .glob ((va + off) % 2 ^ 64) n
def spaceDest (o : EngOp) (sp va off : Nat) : Dest :=
  if sp = 1 then .ls (o.lim.getD 0 0 + va + off) else if sp = 2 then .ob (o.lim.getD 3 0 + va + off) 0 else .glob ((va + off) % 2 ^ 64)

/-- The status that an issue check gives: INVALID before RANGE. -/
def checkStatus (valid range : Bool) : Nat := if !valid then isInvalid else if !range then isRange else 0

/-- The end of the beat that position `p` of a destination at `d` lies in: the next 256-byte boundary of the destination. -/
def beatEnd (d p : Nat) : Nat := (d + p) / 256 * 256 + 256 - d

/-! ## Issue -/

def checkLin (s : State) (c : Ctx) (b : List Word) : Nat :=
  let lim := limOf s c.g
  checkStatus (ctlOk b && spaceOk (cSsp b) (blkW b 1) && spaceOk (cDsp b) (blkW b 3) && decide (bitsAt (blkW b 5) 14 0 = 0))
    (spaceRange lim (cSsp b) (blkW b 0) (blkW b 4) && spaceRange lim (cDsp b) (blkW b 2) (blkW b 4))

/-- Pieces of a GATH, and their length. -/
def gCount (b : List Word) : Nat := bitsAt (blkW b 4) 31 16 + 1
def gLen (b : List Word) : Nat := bitsAt (blkW b 4) 12 0

def checkGath (s : State) (c : Ctx) (b : List Word) : Nat :=
  checkStatus (ctlOk b && decide (cSsp b = 0) && spaceOk (cDsp b) (blkW b 3) && decide (bitsAt (blkW b 5) 14 0 = 0)
      && decide (bitsAt (blkW b 4) 15 13 = 0) && decide (1 ≤ gLen b) && decide (gLen b ≤ 4096) && decide (blkP b 0 % 8 = 0))
    (spaceRange (limOf s c.g) (cDsp b) (blkW b 2) (gCount b * gLen b))

/-- The reservation that a destination word names. -/
def destSlot (s : State) (c : Ctx) (b : List Word) : Option (Nat × Resv) := heldSlot s c.gid c.g (bitsAt (blkW b 2) 31 16)

/-- Of a TILE the registers decide that its handle is held and that its first byte lies in range; how far it reaches depends on its header (R199). -/
def checkTile (s : State) (c : Ctx) (b : List Word) : Nat :=
  checkStatus (ctlOk b && decide (cSsp b = 0) && (decide (cDsp b = 1) || decide (cDsp b = 2)) && decide (bitsAt (blkW b 5) 14 12 = 0)
      && decide (blkP b 0 % 64 = 0) && (decide (cDsp b = 2) || decide (blkW b 2 % 16 = 0)))
    (if cDsp b = 2 then (destSlot s c b).any fun x => decide (bitsAt (blkW b 2) 15 0 * 256 < rLen x.2.words)
      else lsRangeOk (limOf s c.g) (blkW b 2) 1)

/-- Blocks of a CB, and where its tables lie. -/
def cbBlocks (b : List Word) : Nat := bitsAt (blkW b 4) 15 0 + 1

def checkCb (s : State) (c : Ctx) (b : List Word) : Nat :=
  checkStatus (ctlOk b && decide (cSsp b = 0) && decide (cDsp b = 2) && decide (bitsAt (blkW b 5) 14 0 = 0)
      && decide (bitsAt (blkW b 4) 25 22 = 0) && decide (blkP b 0 % 16 = 0) && decide (blkW b 3 % 16 = 0))
    (lsRangeOk (limOf s c.g) (blkW b 3) (16 * cbBlocks b)
      && (destSlot s c b).any fun x => decide ((bitsAt (blkW b 2) 15 0 + cbBlocks b) * 256 ≤ rLen x.2.words))

/-- An operation that names the reservation of its destination word. -/
def withSlot (s : State) (c : Ctx) (b : List Word) (o : EngOp) : EngOp :=
  match (if cDsp b = 2 then destSlot s c b else none) with
  | some x => { o with resvs := [x.1], recs := [x.2.words] }
  | none => o

def noFill (_ : State) (_ : Ctx) (_ : List Word) (o : EngOp) : EngOp := o
def noWait (_ : Group) : Bool := false

/-- COPY.LIN (R203). -/
def execCopyLin (p t : Fin 56) (s : State) : Host.Outcome State Fault Refusal := opIssue (.copyLin p t) p t checkLin noFill noWait s
/-- COPY.TILE (R204). -/
def execCopyTile (p t : Fin 56) (s : State) : Host.Outcome State Fault Refusal := opIssue (.copyTile p t) p t checkTile withSlot noWait s
/-- COPY.CB (R206). -/
def execCopyCb (p t : Fin 56) (s : State) : Host.Outcome State Fault Refusal := opIssue (.copyCb p t) p t checkCb withSlot noWait s
/-- COPY.GATH (R203). -/
def execCopyGath (p t : Fin 56) (s : State) : Host.Outcome State Fault Refusal := opIssue (.copyGath p t) p t checkGath noFill noWait s

/-! ## LIN and GATH -/

/-- The next beat of a LIN. -/
def unitLin (s : State) (op : Nat) (o : EngOp) : State :=
  let b := o.block
  let src := if cSsp b = 0 then blkP b 0 else blkW b 0
  let dst := if cDsp b = 0 then blkP b 2 else blkW b 2
  let e := min o.units (beatEnd dst o.unit_)
  doUnit s op o [spaceSeg o (cSsp b) src o.unit_ (e - o.unit_)] false id (spaceDest o (cDsp b) dst o.unit_) e

/-- A beat of a GATH within the piece whose list entry was read as `va`, or as poison (none). -/
def gathBeat (s : State) (op : Nat) (o : EngOp) (va : Option Nat) : State :=
  let b := o.block
  let n := gLen b
  let dst := if cDsp b = 0 then blkP b 2 else blkW b 2
  let e := min (o.unit_ / n * n + n) (beatEnd dst o.unit_)
  let d := spaceDest o (cDsp b) dst o.unit_
  match va with
  | none => doUnit s op o [.lit (List.replicate (e - o.unit_) 0)] true id d e
  | some va => doUnit s op o [.glob ((va + o.unit_ % n) % 2 ^ 64) (e - o.unit_)] false id d e

/-- The next beat of a GATH (R203): the list entry of a piece is read once, at its first beat, and kept in `tab`. (DEDUCED, log 55) -/
def unitGath (s : State) (op : Nat) (o : EngOp) : State :=
  let i := o.unit_ / gLen o.block
  match o.tab with
  | j :: t => if j = i then gathBeat s op o t.head? else unitGathEntry s op o i
  | [] => unitGathEntry s op o i
where
  unitGathEntry (s : State) (op : Nat) (o : EngOp) (i : Nat) : State :=
    match readSegs s o [.glob ((blkP o.block 0 + 8 * i) % 2 ^ 64) 8] with
    | (_, .xlate va) => parkOp s op o va
    | (s, .fatal _) | (s, .poison _) => opFail s op csFault
    | (s, .ok (bs, bad)) =>
      let va := if bad then none else some (leNat bs)
      gathBeat (s.updOp op fun o => { o with tab := i :: va.toList }) op o va

/-! ## TILE (R204, R205) -/

/-- A tensor header as read (R23). -/
structure Tensor where
  fmt : Nat
  blk : Nat
  swz : Nat
  base : Nat
  scales : Nat
  d : List Nat
  s : List Nat
  deriving DecidableEq, Repr

/-- The fields of a header. -/
def tensorOf (b : List Byte) : Tensor :=
  let w := field b 0x18 4
  ⟨bitsAt w 3 0, blLen (bitsAt w 5 4), bitsAt w 14 9, field b 0 8, field b 8 8, (List.range 4).map fun k => field b (0x20 + 4 * k) 4,
    (List.range 3).map fun k => field b (0x30 + 4 * k) 4⟩

/-- Whether an F32 is finite and not a zero. -/
def usableScale (w : Nat) : Bool := decide (w / 2 ^ 23 % 256 ≠ 255) && decide (w % 2 ^ 31 ≠ 0)

/-- The validity of a header (R23; DEDUCED, log 29). -/
def tensorOk (b : List Byte) : Bool :=
  let w := field b 0x18 4
  let t := tensorOf b
  decide (t.fmt ≠ 15) && (decide (t.blk = 0) || !([0, 1, 2, 10, 11, 14].contains t.fmt)) && (!bit w 8 || decide (t.d.getD 0 0 % 16 = 0))
    && usableScale (field b 0x1C 4) && decide (bitsAt w 31 15 = 0) && decide (field b 0x3C 4 = 0)
    && decide (t.base % 16 = 0) && (decide (t.blk ≠ 0) || decide (t.scales = 0))
    && (List.range 4).all fun k => decide (k ≤ bitsAt w 7 6) || decide (t.d.getD k 1 = 1)

/-- The shape of a tile: tensor, rows, columns, pitch, first row, first column. -/
structure Tile where
  t : Tensor
  nr : Nat
  nc : Nat
  r0 : Nat
  c0 : Nat
  deriving DecidableEq, Repr

/-- Element width, row pitch, rows of the tensor, scale bytes a tile row has, and in all. -/
def Tile.b (x : Tile) : Nat := codeBits x.t.fmt
def Tile.pitch (x : Tile) : Nat := (x.nc * x.b / 8 + 15) / 16 * 16
def Tile.rows (x : Tile) : Nat := x.t.d.getD 1 0 * x.t.d.getD 2 0 * x.t.d.getD 3 0
def Tile.nb (x : Tile) : Nat := if x.t.blk = 0 then 0 else x.nc / x.t.blk
def Tile.nsc (x : Tile) : Nat := x.nr * x.nb

/-- Whether a tile row lies in the tensor, and how many of its elements do. -/
def Tile.valid (x : Tile) (k : Nat) : Bool := decide (x.r0 + k < x.rows)
def Tile.cols (x : Tile) (k : Nat) : Nat := if x.valid k then min x.nc (x.t.d.getD 0 0 - x.c0) else 0

/-- The address of a tile row's first byte. -/
def Tile.rowVa (x : Tile) (k : Nat) : Nat :=
  let r := x.r0 + k
  let d (i : Nat) : Nat := x.t.d.getD i 1
  let st (i : Nat) : Nat := x.t.s.getD (i - 1) 0
  (x.t.base + 16 * (r % d 1 * st 1 + r / d 1 % d 2 * st 2 + r / (d 1 * d 2) * st 3) + x.c0 * x.b / 8) % 2 ^ 64

/-- The tile that an operation's block and its header describe. -/
def tileOf (b : List Word) (h : List Byte) : Tile :=
  ⟨tensorOf h, bitsAt (blkW b 5) 11 4 + 1, (bitsAt (blkW b 5) 3 0 + 1) * 16, blkW b 4, blkW b 3⟩

/-- The checks of R204. -/
def tileOk (x : Tile) : Bool :=
  !([13, 14, 15].contains x.t.fmt) && decide (x.c0 * x.b % 8 = 0)
    && (decide (x.t.blk = 0) || (decide (x.c0 % x.t.blk = 0) && decide (x.nc % x.t.blk = 0)))

/-- A byte of a tile row: the elements in the tensor as read, zeros beyond them, and past the last element what the part leaves there
(DESIGN CHOICE, log 30). -/
def Tile.rowByte (x : Tile) (free k j : Nat) (b : Byte) : Byte :=
  let z := if x.t.fmt = 8 then 0x10 else 0
  BitVec.ofNat 8 (((List.range 8).map fun t =>
    let i := 8 * j + t
    let v := if i < x.cols k * x.b then b.toNat / 2 ^ t % 2 else if i < x.nc * x.b then z / 2 ^ (i % x.b) % 2 else free / 2 ^ t % 2
    v * 2 ^ t).foldl (· + ·) 0)

/-- The source of bytes `p` to `e` of a tile's rows laid end to end. -/
def Tile.rowSegs (x : Tile) (p e : Nat) : List Seg :=
  (List.range ((e + x.pitch - 1) / x.pitch - p / x.pitch)).flatMap fun i =>
    let k := p / x.pitch + i
    let lo := max p (k * x.pitch) - k * x.pitch
    let hi := min e (k * x.pitch + x.pitch) - k * x.pitch
    let vb := max lo (min hi ((x.cols k * x.b + 7) / 8))
    (if lo < vb then [.glob ((x.rowVa k + lo) % 2 ^ 64) (vb - lo)] else []) ++ [.lit (List.replicate (hi - vb) 0)]

/-- The validity mask. -/
def Tile.mask (x : Tile) : List Byte :=
  (List.range 32).map fun i => BitVec.ofNat 8 (((List.range 8).map fun t => if 8 * i + t < x.nr ∧ x.valid (8 * i + t) then 2 ^ t else 0).foldl (· + ·) 0)

/-- The source of block scale `q` of a tile. (DESIGN CHOICE, log 71) -/
def Tile.scaleSeg (x : Tile) (q : Nat) : Seg :=
  let k := q / x.nb
  let j := q % x.nb
  let d0 := x.t.d.getD 0 0
  if x.valid k ∧ x.c0 + j * x.t.blk < d0 then
    .glob ((x.t.scales + (x.r0 + k) * ((d0 + x.t.blk - 1) / x.t.blk) + x.c0 / x.t.blk + j) % 2 ^ 64) 1
  else .lit [0x7F]

/-- The header bytes that an operation keeps in `tab`. -/
def headerBytes (l : List Nat) : List Byte := l.map (BitVec.ofNat 8)

/-- Bytes of the mask that a TILE writes: none where the record has none. -/
def maskLen (o : EngOp) : Nat := if cDsp o.block = 2 ∧ rVmo (o.recs.headD []) = 0xFFFF then 0 else 32

/-- Where byte `p` of a TILE's output goes: rows, mask, scales. -/
def tileDest (o : EngOp) (x : Tile) (p : Nat) : Dest :=
  let b := o.block
  let r := o.recs.headD []
  let rows := x.nr * x.pitch
  if cDsp b = 1 then .ls (o.lim.getD 0 0 + blkW b 2 + p)
  else
    let at_ := o.lim.getD 3 0 + rBase r
    if p < rows then .ob (at_ + bitsAt (blkW b 2) 15 0 * 256 + p) (rSwz r)
    else if p < rows + maskLen o then .obPlain (at_ + rVmo r + (p - rows))
    else .obPlain (at_ + rScl r + (p - rows - maskLen o))

/-- The address on which the beats of a destination are aligned. -/
def Dest.pos : Dest → Nat
  | .glob a | .ls a | .ob a _ | .obPlain a => a

/-- The next beat of a TILE. -/
def unitTile (s : State) (op : Nat) (o : EngOp) : State :=
  let x := tileOf o.block (headerBytes o.tab)
  let p := o.unit_
  let rows := x.nr * x.pitch
  let m := maskLen o
  let d := tileDest o x p
  let seg := if p < rows then rows else if p < rows + m then rows + m else o.units
  let e := min seg (p + (256 - d.pos % 256))
  if p < rows then
    doUnit s op o (x.rowSegs p e) false (fun bs => bs.zipIdx.map fun y =>
      x.rowByte (Config.freeNat s.tick) ((p + y.2) / x.pitch) ((p + y.2) % x.pitch) y.1) d e
  else if p < rows + m then doUnit s op o [.lit ((x.mask.drop (p - rows)).take (e - p))] false id d e
  else doUnit s op o ((List.range (e - p)).map fun i => x.scaleSeg (p - rows - m + i)) false id d e

/-- Whether a TILE's writes lie in its range (R199). -/
def tileFits (o : EngOp) (x : Tile) : Bool :=
  let rows := x.nr * x.pitch
  if cDsp o.block = 1 then lsRangeOk o.lim (blkW o.block 2) (rows + 32 + x.nsc)
  else
    let r := o.recs.headD []
    decide (bitsAt (blkW o.block 2) 15 0 * 256 + rows ≤ rLen r) && (decide (x.nsc = 0) || decide (rScl r + x.nsc ≤ rLen r))

/-- A TILE starts: its header is read and checked (R197's order). -/
def startTile (s : State) (op : Nat) (o : EngOp) : State :=
  readAtStart s op o (blkP o.block 0) 64 fun s h =>
    let x := tileOf o.block h
    let r := o.recs.headD []
    if !(tensorOk h && tileOk x) then opFail s op csInvalid
    else if !tileFits o x then opFail s op csRange
    else if cDsp o.block = 2 ∧ rFmt r ≠ x.t.fmt then opFail s op csFormat
    else if cDsp o.block = 2 ∧ rSwz r ≠ x.t.swz then opFail s op csSwizzle
    else beginOp s op fun o => { o with tab := h.map (·.toNat), units := x.nr * x.pitch + maskLen o + x.nsc }

/-! ## CB (R206, R207) -/

/-- The output of a block: element n is the table entry that bits 3n + 2 to 3n of the stream name. -/
def cbBytes (tab : List Nat) (bs : List Byte) : List Byte :=
  let v := leNat bs
  (List.range 128).flatMap fun n => let e := v / 2 ^ (3 * n) % 8; [BitVec.ofNat 8 (tab.getD (2 * e) 0), BitVec.ofNat 8 (tab.getD (2 * e + 1) 0)]

/-- The next block of a CB whose table has been read; `cfg` marks a table that was poisoned. -/
def unitCb (s : State) (op : Nat) (o : EngOp) : State :=
  let b := o.block
  let r := o.recs.headD []
  doUnit s op o [.glob ((blkP b 0 + 48 * o.unit_) % 2 ^ 64) 48] (decide (o.cfg ≠ [])) (cbBytes o.tab)
    (.ob (o.lim.getD 3 0 + rBase r + (bitsAt (blkW b 2) 15 0 + o.unit_) * 256) (rSwz r)) (o.unit_ + 1)

/-- CB_TABLE_WAIT: the tag of the next block's table stands in TAGS, and the table is read (R207). -/
def evCbTableWait (op : Nat) (s : State) : Option State :=
  (find? s.ops op).bind fun o =>
    let b := o.block
    let t := (bitsAt (blkW b 4) 31 26 + o.unit_ / (bitsAt (blkW b 4) 21 16 + 1)) % 64
    if decide (o.st = .waitTag) && deviceLive s o.vdev && !o.abort && (s.core o.core).tags.getLsbD t then
      let a := o.lim.getD 0 0 + blkW b 3 + 16 * o.unit_
      let k := s.core o.core
      some (s.updOp op fun o => { o with st := .running, tab := (k.lsBytes a 16).map (·.toNat), cfg := if k.lsBad a 16 then [1] else [] })
    else none

/-! ## Starting and running a COPY -/

def startCopy (s : State) (op : Nat) (o : EngOp) : State :=
  match o.instr with
  | .copyTile .. => startTile s op o
  | .copyCb .. => if rFmt (o.recs.headD []) ≠ 2 then opFail s op csFormat else beginOp s op fun o => { o with units := cbBlocks o.block }
  | .copyGath .. => beginOp s op fun o => { o with units := gCount o.block * gLen o.block }
  | _ => beginOp s op fun o => { o with units := blkW o.block 4 }

def unitCopy (s : State) (op : Nat) (o : EngOp) : State :=
  match o.instr with
  | .copyTile .. => unitTile s op o
  | .copyCb .. => unitCb s op o
  | .copyGath .. => unitGath s op o
  | _ => unitLin s op o

def execCbTableWait (op : Nat) (s : State) : Host.Outcome State Fault Refusal := ofEvent (evCbTableWait op s) s

end Sys2Proof.Machine
end

