-- ==== Sys2Proof/Machine/Hread.lean ====
section
/-! DEFINITION. HREAD (R208 to R213): bursts, the former entries they become, the last-burst event. -/
namespace Sys2Proof.Machine

/-! ## Blocks (R208) -/

def hList (b : List Word) : Bool := bit (blkW b 5) 20
def hBsz (b : List Word) : Nat := 32 * 2 ^ bitsAt (blkW b 5) 19 18
def hWidth (b : List Word) : Nat := 8 * 2 ^ bitsAt (blkW b 5) 17 16
def hAlloc (b : List Word) : Nat := hBsz b / 32 + bitsAt (blkW b 5) 15 12
def hWx (b : List Word) : Nat := bitsAt (blkW b 5) 11 6
def hWy (b : List Word) : Nat := bitsAt (blkW b 5) 5 0
def hNx (b : List Word) : Nat := bitsAt (blkW b 4) 15 0 + 1
def hNy (b : List Word) : Nat := bitsAt (blkW b 4) 31 16 + 1

/-- Bursts of an HREAD. -/
def hCount (b : List Word) : Nat := if hList b then hNx b else hNx b * hNy b

/-- The handler's entry address: the signed offset gP+2 from the HREAD, modulo 2^64 (R210). -/
def hEntry (pc : Nat) (b : List Word) : Nat := (((pc : Int) + (b.getD 2 0).toInt) % (2 ^ 64 : Nat)).toNat

/-- The issue check of R208. -/
def checkHread (_ : State) (_ : Ctx) (b : List Word) : Nat :=
  let common := ctlOk b && decide (hWx b ≤ 32) && decide (hWy b ≤ 32) && decide (1 ≤ hAlloc b) && decide (hAlloc b ≤ 14) && decide (blkW b 2 % 4 = 0)
  let mode := if hList b then
      decide (blkP b 0 % 8 = 0) && decide (blkW b 3 = 0) && decide (bitsAt (blkW b 4) 31 16 = 0) && decide (hNx b ≤ 2 ^ (hWx b + hWy b))
    else decide (blkP b 0 % hBsz b = 0) && decide (blkW b 3 % hBsz b = 0) && decide (hNx b ≤ 2 ^ hWx b) && decide (hNy b ≤ 2 ^ hWy b)
  checkStatus (common && mode) true

/-- HREAD (R193, R208). -/
def execHread (p t : Fin 56) (s : State) : Host.Outcome State Fault Refusal := opIssue (.hread p t) p t checkHread noFill noWait s

/-- An HREAD starts: the address list of a LIST is read (R196). -/
def startHread (s : State) (op : Nat) (o : EngOp) : State :=
  let n := hCount o.block
  let go (s : State) (l : List Nat) : State := beginOp s op fun o => { o with units := n, bursts := List.range n, tab := l }
  if hList o.block then
    readAtStart s op o (blkP o.block 0) (8 * n) fun s b => go s ((List.range n).map fun i => field b (8 * i) 8)
  else go s []

/-! ## Bursts (R209, R210, R213) -/

/-- The place of a burst in the grid. -/
def burstXY (o : EngOp) (i : Nat) : Nat × Nat :=
  if hList o.block then (i % 2 ^ hWx o.block, i / 2 ^ hWx o.block) else (i % hNx o.block, i / hNx o.block)

/-- The address of a burst. -/
def burstVa (o : EngOp) (i : Nat) : Nat :=
  let b := o.block
  if hList b then o.tab.getD i 0 else (blkP b 0 + i / hNx b * blkW b 3 + i % hNx b * hBsz b) % 2 ^ 64

/-- What a burst's translation gives: a misaligned or reserved list address is a fault. -/
def burstRuns (s : State) (o : EngOp) (i : Nat) : EGot (List Run) :=
  if burstVa o i % hBsz o.block ≠ 0 then .fatal 0x21 else engRuns s o.vdev o.gang 1 2 (burstVa o i) (hBsz o.block)

/-- The former entry of a burst: words in v0 up, poisoned words marked. -/
def burstEntry (s : State) (op : Nat) (o : EngOp) (i : Nat) (ws : List Word) (bad : List Nat) : FEntry where
  source := .handler op
  vdev := o.vdev
  pc := hEntry o.pc o.block
  alloc := hAlloc o.block
  width := hWidth o.block
  g := o.block.take 6
  prio := o.prio
  owner := .handler op
  prog := o.prog
  fields := [hWx o.block, hWy o.block, 0, 0, 0, 0]
  wg := o.wg
  parent := o.group
  role := 3
  f1 := 0
  frame := 0
  wid := BitVec.ofNat 64 ((burstXY o i).1 + (burstXY o i).2 * 2 ^ hWx o.block)
  seq := none
  key := 0
  regs := (ws.zipIdx.filter fun x => decide (x.1 ≠ 0)).map fun x => (x.2, x.1)
  marks := bad.map fun j => (j, ⟨0x13, 0, 0, 0⟩)
  gmarks := []
  stack := []
  win := (0, 0)
  at_ := s.now
  order := 0
  batch := 0
  bytes := entryBytes (hBsz o.block)
  overflow := false
  gen := o.gen
  due := false
  slots := []
  pkts := []
  fatal := none

/-- Park a burst: faulting bursts of one HREAD on one page share a token (R198, R325). -/
def parkBurst (s : State) (op : Nat) (o : EngOp) (i va : Nat) : State :=
  let same := (o.parkedBursts.find? fun e => match find? (s.vdev o.vdev).tokens e.2 with
    | some ⟨.bursts _ p, _, _⟩ => decide (p = va / 4096)
    | _ => false).map (·.2)
  match same with
  | some t => s.updOp op fun o => { o with parkedBursts := mset o.parkedBursts i t }
  | none =>
    let r := newToken s o.vdev (.bursts op (va / 4096))
    let s := r.1.updOp op fun o => { o with parkedBursts := mset o.parkedBursts i r.2 }
    logEvent s o.vdev evXlate 0x20 0 127 o.gen va o.pc o.core o.slot r.2

/-- A burst that will not be born, with the status it leaves (R213). -/
def dropBurst (s : State) (op i c : Nat) : State :=
  (opStatus s op c).updOp op fun o => { o with bursts := ndel o.bursts i, parkedBursts := merase o.parkedBursts i }

/-- The next burst is requested: its translation is made, and a fault found (R198, R213). -/
def unitHread (s : State) (op : Nat) (o : EngOp) : State :=
  let i := o.unit_
  let s := s.updOp op fun o => { o with unit_ := i + 1 }
  match burstRuns s o i with
  | .xlate va => parkBurst s op o i va
  | .fatal _ => dropBurst s op i csFault
  | _ => s

/-- HREAD_BURST_RETURN: a requested burst's data becomes an entry of the issuing core's former (R210), with poisoned registers where the
data, or its page-table entry, is poisoned (R213, R347); a full spawn area stalls it (R80). -/
def evHreadBurstReturn (op i : Nat) (s : State) : Option State :=
  (find? s.ops op).bind fun o =>
    if decide (o.st ≠ .running) || o.abort || !deviceActive s o.vdev || decide (o.unit_ ≤ i) || !o.bursts.contains i
        || (find? o.parkedBursts i).isSome then none
    else
      let n := hBsz o.block / 4
      let enter (s : State) (ws : List Word) (bad : List Nat) : State :=
        let s := if bad = [] then s else opStatus s op csPoison
        (addEntry s o.core (burstEntry s op o i ws bad)).updOp op fun o => { o with bursts := ndel o.bursts i }
      match burstRuns s o i with
      | .xlate va => some (parkBurst s op o i va)
      | .fatal _ => some (dropBurst s op i csFault)
      | r =>
        if !spawnRoom s o.core o.vdev 1 (entryBytes (hBsz o.block)) then some (spawnExhausted s 0 o.vdev o.core o.slot o.pc)
        else match r with
          | .poison pa => some (enter (opPoison s o pa) (List.replicate n 0) (List.range n))
          | .ok l =>
            let cl := clusterOf o.core
            let x := readRuns (s.walkPages o.vdev (burstVa o i) (hBsz o.block)) cl 0 o.rc l
            let bad (j : Nat) : Bool := match l with
              | .phys pa _ :: _ | .nc pa _ :: _ => s.poisoned (pa + 4 * j)
              | .scratch a _ :: _ => (s.cluster cl).sramBad (a + 4 * j) 4
              | [] => false
            some (enter x.1 (bytesWords n x.2.1) ((List.range n).filter bad))
          | _ => none

/-- Whether threads of an HREAD's handlers are alive or wait in a former. -/
def handlersAlive (s : State) (op : Nat) : Bool :=
  s.groups.any (fun e => e.2.owned (.handler op)) || s.cores.any fun k => k.2.entries.any fun e => decide (e.owner = .handler op)

/-- LAST_BURST_EVENT: every burst has been born and its thread has ended, or counts as not born, and the threads' stores are performed at
SCOPE (R212). -/
def evLastBurstEvent (op : Nat) (s : State) : Option State :=
  (find? s.ops op).bind fun o =>
    match o.instr with
    | .hread .. =>
      if decide (o.st = .running) && deviceActive s o.vdev && decide (o.bursts = []) && !handlersAlive s op then
        some (opDone (releaseLsu s o.core (blkScope o.block)) op)
      else none
    | _ => none

/-- RETRY of a page's bursts: they are read again; ABORT: they are not born (R198, R310). -/
def answerBursts (s : State) (op token : Nat) (retry : Bool) : State :=
  match find? s.ops op with
  | none => s
  | some o =>
    let l := (o.parkedBursts.filter fun e => decide (e.2 = token)).map (·.1)
    if retry then s.updOp op fun o => { o with parkedBursts := mfilter o.parkedBursts fun _ t => decide (t ≠ token) }
    else l.foldl (fun s i => dropBurst s op i csFault) s

def execHreadBurstReturn (op burst : Nat) (s : State) : Host.Outcome State Fault Refusal := ofEvent (evHreadBurstReturn op burst s) s
def execLastBurstEvent (op : Nat) (s : State) : Host.Outcome State Fault Refusal := ofEvent (evLastBurstEvent op s) s

end Sys2Proof.Machine
end

