-- ==== Sys2Proof/Machine/LaneConv.lean ====
section
/-! DEFINITION. Conversions (R147 to R150), the Hadamard instruction (R127, R151) and lane exchange (R152 to R154) on pipe b2. -/
namespace Sys2Proof.Machine

/-! ## Shapes: latency 6 (R69) -/

/-- What a conversion needs before its operands are added: 37 pJ a quarter, held by the power rules (R45, R46). -/
def needCvt : Need := { Need.ofPipe 2 with pj := 37, fp := true }

/-- What a lane exchange instruction needs before its operands are added: 9 pJ a quarter (R45). -/
def needXch : Need := { Need.ofPipe 2 with pj := 9 }

/-! ## Stochastic rounding (R119) -/

/-- The random word of element `e` of a lane's result: KMIX64 of SEEDKEY and the stream index. -/
def rsrOf (g : Group) (lane e : Nat) : Nat :=
  rsrWord g.r.seedkey (dword (BitVec.ofNat 32 (lane * 2 ^ 8 + e)) g.r.rsr)

/-- An RSR-mode instruction counts in its group (R119). (DEDUCED, log 15) -/
def countRsr (rm : Rnd) (c : Ctx) (s : State) : State :=
  match rm with
  | .rsr => s.updGroup c.gid fun g => { g with r := { g.r with rsr := g.r.rsr + 1 } }
  | _ => s

/-! ## CVT (R147, R148) -/

/-- Bits of an element of a conversion format. -/
def qbits (t : QFmt) : Nat := codeBits (qcode t)

/-- F32 to an integer range, as the low `n` bits (R120). -/
def toInt (lo hi : Int) (n : Nat) (rm : Rnd) (u : Nat) (a : Word) : Nat × Flags :=
  let (v, f) := rndInt lo hi rm u (f32 a)
  ((v % (2 ^ n : Nat)).toNat, f)

/-- A natural number as a single result. -/
def outN (r : Nat × Flags) : LaneOut := ⟨[BitVec.ofNat 32 r.1], r.2⟩

/-- The conversion of a source dword (a single source in its low word) with random words `u` for elements 0 and 1 (R148). -/
def convert (c : CvtCode) (rm : Rnd) (x : DWord) (u : Nat → Nat) : LaneOut :=
  let a := loWord x
  let toF32 (v : Ex) : LaneOut := let (w, f) := rnd32 rm v; ⟨[w], f⟩
  let two (p q : Nat × Flags) : LaneOut := ⟨[BitVec.ofNat 32 (p.1 + q.1 * 2 ^ 16)], p.2 ||| q.2⟩
  let widen (f : Fmt) (n : Nat) : Word := (rne32 (f.value n)).1
  match c with
  | .f32s32 => outN (toInt (-(2 ^ 31 : Nat)) (2 ^ 31 - 1) 32 rm (u 0) a)
  | .f32n32 => outN (toInt 0 (2 ^ 32 - 1) 32 rm (u 0) a)
  | .s32f32 => let (v, f) := fmtF32.rnd rm false (u 0) (Ex.ofInt a.toInt); outN (v, f)
  | .n32f32 => let (v, f) := fmtF32.rnd rm false (u 0) (Ex.ofInt a.toNat); outN (v, f)
  | .f32f16 => outN (fmtF16.rnd rm false (u 0) (f32 a))
  | .f16f32 => toF32 (fmtF16.value (a.toNat % 2 ^ 16))
  | .f32bf16 => outN (fmtBF16.rnd rm false (u 0) (f32 a))
  | .bf16f32 => toF32 (fmtBF16.value (a.toNat % 2 ^ 16))
  | .f32f16x2 => two (fmtF16.rnd rm false (u 0) (f32 a)) (fmtF16.rnd rm false (u 1) (f32 (hiWord x)))
  | .f32bf16x2 => two (fmtBF16.rnd rm false (u 0) (f32 a)) (fmtBF16.rnd rm false (u 1) (f32 (hiWord x)))
  | .f16x2f32 => ⟨[widen fmtF16 (a.toNat % 2 ^ 16), widen fmtF16 (a.toNat / 2 ^ 16)], 0⟩
  | .bf16x2f32 => ⟨[widen fmtBF16 (a.toNat % 2 ^ 16), widen fmtBF16 (a.toNat / 2 ^ 16)], 0⟩
  | .toQ t => outN (codeRnd (qcode t) rm false (u 0) (f32 a))
  | .fromQ t => toF32 (codeValue (qcode t) (a.toNat % 2 ^ (qbits t)))
  | .f32s16 => let (v, f) := rndInt (-32768) 32767 rm (u 0) (f32 a); ⟨[BitVec.ofInt 32 v], f⟩
  | .f32s8 => let (v, f) := rndInt (-128) 127 rm (u 0) (f32 a); ⟨[BitVec.ofInt 32 v], f⟩
  | .s64f32 => let (v, f) := fmtF32.rnd rm false (u 0) (Ex.ofInt x.toInt); outN (v, f)
  | .f32s64 =>
    let (v, f) := rndInt (-(2 ^ 63 : Nat)) (2 ^ 63 - 1) rm (u 0) (f32 a)
    ⟨[BitVec.ofInt 32 v, BitVec.ofInt 32 (v / 2 ^ 32)], f⟩

/-- The source of a conversion as a dword: a pair where the code says so (R148). -/
def cvtSrc (c : CvtCode) (g : Group) (lane : Nat) (a : LSrc) : DWord :=
  if c.pairSrc then
    match a with
    | .v r => getPair g lane r.val
    | _ => 0
  else (lsrc g lane a).setWidth 64

/-- CVT (R147, R148). -/
def execCvt (c : CvtCode) (rm : Rnd) (d : LDst) (a : LSrc) (s : State) : Host.Outcome State Fault Refusal :=
  let n := needCvt.srcN (if c.pairSrc then 2 else 1) a
  let n := if c.pairDst then (match d with | .v r => n.dstN r.val 2 2 | .latch => n.dst d) else n.dst d
  issue (.cvt c rm d a) n (fun x s => countRsr rm x
    (laneResult (dstReg d) (if c.pairDst then 2 else 1) 2 6 (fun g l => convert c rm (cvtSrc c g l a) (rsrOf g l)) x s)) s

/-! ## CVTQ and CVTDQ (R149, R150) -/

/-- Quantise four values under a scale: one rounding each, saturating (R123, R149). -/
def quant (t : QFmt) (e : Nat) (xs : List Word) : List (Nat × Flags) :=
  xs.map fun x => codeRnd (qcode t) .rne true 0 ((f32 x).e8m0 e true)

/-- CVTQ on one lane: E2M1 shifts the old high half down and puts the new elements above it (R149). -/
def cvtq32 (t : QFmt) (xs : List Word) (b old : Word) : LaneOut :=
  let q := quant t (b.toNat % 256) xs
  let f := q.foldl (fun a v => a ||| v.2) 0
  let p := packBits (qbits t) (q.map (·.1))
  match t with
  | .e2m1 => ⟨[BitVec.ofNat 32 (old.toNat / 2 ^ 16 + p * 2 ^ 16)], f⟩
  | _ => ⟨[BitVec.ofNat 32 p], f⟩

/-- The four words of a quad field. -/
def lquad (g : Group) (lane : Nat) : LPair → List Word
  | .v r => getVs g lane r.val 4
  | .zero => [0, 0, 0, 0]

/-- CVTQ (R149): with target E2M1 the destination is also a source (R131). -/
def execCvtq (t : QFmt) (d : LDst) (a : LPair) (b : LSrc) (s : State) : Host.Outcome State Fault Refusal :=
  let n := (match a with | .v r => needCvt.vblk r.val 4 4 | .zero => needCvt).src b
  let n := match t, d with
    | .e2m1, .v r => n.vblk r.val 1 1
    | _, _ => n
  issue (.cvtq t d a b) (n.dst d) (laneResult (dstReg d) 1 2 6 fun g l =>
    cvtq32 t (lquad g l a) (lsrc g l b) (match d with | .v r => g.r.getV l r.val | .latch => 0)) s

/-- CVTDQ on one lane: four values, each rounded once after scaling (R150). -/
def cvtdq32 (t : QFmt) (a b : Word) : LaneOut :=
  let e := b.toNat % 256
  let h := if t = .e2m1 then b.toNat / 256 % 2 * 4 else 0
  let out := (List.range 4).map fun i =>
    rne32 ((codeValue (qcode t) (a.toNat / 2 ^ ((qbits t) * (i + h)) % 2 ^ (qbits t))).e8m0 e false)
  ⟨out.map (·.1), out.foldl (fun x v => x ||| v.2) 0⟩

/-- CVTDQ (R150). -/
def execCvtdq (t : QFmt) (d : Fin 112) (a b : LSrc) (s : State) : Host.Outcome State Fault Refusal :=
  issue (.cvtdq t d a b) (((needCvt.src a).src b).dstN d.val 4 4)
    (laneResult (some d.val) 4 2 6 fun g l => cvtdq32 t (lsrc g l a) (lsrc g l b)) s

/-! ## HADM (R127, R151) -/

/-- A sign bit inverted, NaNs included (R127). -/
def flipSign (x : Word) : Word := x ^^^ 0x80000000

/-- The signs of the sixteen positions under a key. -/
def hadSign (k : DWord) (j : Nat) : Bool := (kmix64 k (BitVec.ofNat 64 j)).getLsbD 0

/-- One butterfly stage with its flags: position j takes the sum where bit `stage` of j is 0, else the difference. -/
def hadStage (stage : Nat) (y : List Word) : List (Word × Flags) :=
  (List.range 16).map fun j =>
    let h := 2 ^ stage
    if j / h % 2 = 0 then add32 .rne (f32 (y.getD j 0)) (f32 (y.getD (j + h) 0))
    else add32 .rne (f32 (y.getD (j - h) 0)) (f32 (y.getD j 0)).neg

/-- The four stages, then the product with 0.25; flags of every rounding. -/
def hadStages (y : List Word) : List Word × Flags :=
  let step (acc : List Word × Flags) (stage : Nat) : List Word × Flags :=
    let r := hadStage stage acc.1
    (r.map (·.1), r.foldl (fun f v => f ||| v.2) acc.2)
  let acc := [0, 1, 2, 3].foldl step (y, 0)
  let q := acc.1.map fun v => rne32 ((f32 v).scale (-2))
  (q.map (·.1), q.foldl (fun f v => f ||| v.2) acc.2)

/-- The transform of sixteen values under a key, with the flags of every rounding (R127). -/
def hadamard (inv : Bool) (k : DWord) (x : List Word) : List Word × Flags :=
  let sign (y : List Word) := y.zipIdx.map fun (v, j) => if hadSign k j then flipSign v else v
  if inv then let r := hadStages x; (sign r.1, r.2)
  else hadStages (sign x)

/-- HADM in one lane of a mask: the transform of its quarter, whose key is that of its lowest active lane (R151). -/
def hadmLane (inv : Bool) (a : LSrc) (b : LPair) (m : Mask) (g : Group) (lane : Nat) : LaneOut :=
  let q := lane / 16 * 16
  let key := lpair g (lowLane (m &&& ((0xFFFF : Mask) <<< q))) b
  let x := (List.range 16).map fun j => if m.getLsbD (q + j) then lsrc g (q + j) a else 0
  let r := hadamard inv key x
  ⟨[r.1.getD (lane - q) 0], r.2⟩

/-- HADM (R151). -/
def execHadm (inv : Bool) (d : LDst) (a : LSrc) (b : LPair) (s : State) : Host.Outcome State Fault Refusal :=
  issue (.hadm inv d a b) (((needCvt.src a).pair b).dst d) (fun x s =>
    laneResult (dstReg d) 1 2 6 (hadmLane inv a b x.mask) x s) s

/-! ## Lane exchange (R152 to R154) -/

/-- A result that may read other active lanes: `f` gets the active lanes' values of `a`, the group and the lane. -/
def xch (i : Instr) (d : LDst) (a : LSrc) (f : Mask → (Nat → Word) → Group → Nat → Word) (s : State) :
    Host.Outcome State Fault Refusal :=
  issue i ((needXch.src a).dst d) (fun x s =>
    laneResult (dstReg d) 1 2 6 (fun g l => ⟨[f x.mask (fun j => lsrc g j a) g l], 0⟩) x s) s

/-- A pair result of the same kind. -/
def xchPair (i : Instr) (d : Fin 112) (a : LSrc) (f : Mask → (Nat → Word) → Nat → DWord) (s : State) :
    Host.Outcome State Fault Refusal :=
  issue i ((needXch.src a).dstN d.val 2 2) (fun x s =>
    laneResult (some d.val) 2 2 6 (fun g l => ⟨[loWord (f x.mask (fun j => lsrc g j a) l), hiWord (f x.mask (fun j => lsrc g j a) l)], 0⟩)
      x s) s

/-- The source lane of SHFL, none when it lies outside the group (R152). -/
def shflLane (mode : Fin 4) (width lane : Nat) (b : Word) : Option Nat :=
  let src : Int := match mode with
    | 0 => ((b &&& BitVec.ofNat 32 (width - 1)).toNat : Int)
    | 1 => (lane : Int) - b.toNat
    | 2 => (lane : Int) + b.toNat
    | 3 => ((BitVec.ofNat 32 lane ^^^ b).toNat : Int)
  if 0 ≤ src ∧ src < width then some src.toNat else none

/-- SHFL (R152): a lane whose source is outside the group or inactive keeps its own value of a. -/
def execShfl (mode : Fin 4) (d : LDst) (a b : LSrc) (s : State) : Host.Outcome State Fault Refusal :=
  issue (.shfl mode d a b) (((needXch.src a).src b).dst d) (fun x s =>
    laneResult (dstReg d) 1 2 6 (fun g l =>
      let src := match shflLane mode g.info.width l (lsrc g l b) with
        | some j => if x.mask.getLsbD j then j else l
        | none => l
      ⟨[lsrc g src a], 0⟩) x s) s

/-- The active lanes that satisfy a test, as a dword. -/
def laneSet (m : Mask) (p : Nat → Bool) : DWord := maskOf ((lanesOf m).filter p)

/-- A sum over lanes. -/
def laneSum (l : List Nat) (v : Nat → Word) : Word := l.foldl (fun a i => a + v i) 0

/-- A signed maximum or minimum over lanes. -/
def lanePick (f : Word → Word → Word) (v : Nat → Word) : List Nat → Word
  | [] => 0
  | i :: r => r.foldl (fun a j => f a (v j)) (v i)

def signedMax (a b : Word) : Word := if a.slt b then b else a
def signedMin (a b : Word) : Word := if a.slt b then a else b

def execBallot (d : Fin 112) (a : LSrc) (s : State) :=
  xchPair (.ballot d a) d a (fun m v _ => laneSet m fun i => decide (v i ≠ 0)) s
def execVany (d : LDst) (a : LSrc) (s : State) :=
  xch (.vany d a) d a (fun m v _ _ => if (lanesOf m).any fun i => decide (v i ≠ 0) then BitVec.allOnes 32 else 0) s
def execVall (d : LDst) (a : LSrc) (s : State) :=
  xch (.vall d a) d a (fun m v _ _ => if (lanesOf m).all fun i => decide (v i ≠ 0) then BitVec.allOnes 32 else 0) s
def execMatch (d : Fin 112) (a : LSrc) (s : State) :=
  xchPair (.match_ d a) d a (fun m v l => laneSet m fun i => decide (v i = v l)) s
def execPfxadd (d : LDst) (a : LSrc) (s : State) :=
  xch (.pfxadd d a) d a (fun m v _ l => laneSum ((lanesOf m).filter fun i => decide (i < l)) v) s
def execRdcadd (d : LDst) (a : LSrc) (s : State) := xch (.rdcadd d a) d a (fun m v _ _ => laneSum (lanesOf m) v) s
def execRdcmax (d : LDst) (a : LSrc) (s : State) := xch (.rdcmax d a) d a (fun m v _ _ => lanePick signedMax v (lanesOf m)) s
def execRdcmin (d : LDst) (a : LSrc) (s : State) := xch (.rdcmin d a) d a (fun m v _ _ => lanePick signedMin v (lanesOf m)) s

end Sys2Proof.Machine
end

