-- ==== Sys2Proof/Machine/Grid.lean ====
section
/-! DEFINITION. GRID (R214 to R220): descriptors and stencil tables, boundary modes, exact sums, output rows as units. -/
namespace Sys2Proof.Machine

/-- RND of a GRID block. -/
def gRnd (b : List Word) : Rnd :=
  match bitsAt (blkW b 5) 20 19 with
  | 0 => .rne
  | 1 => .rtz
  | 2 => .rna
  | _ => .rsr

/-- The issue check of R214. -/
def checkGrid (_ : State) (_ : Ctx) (b : List Word) : Nat :=
  checkStatus (ctlOk b && decide (blkP b 0 % 64 = 0) && decide (blkW b 4 = 0) && decide (bitsAt (blkW b 5) 18 0 = 0)) true

/-- GRID.RESTRICT, PROLONG, CONVERT (R193, R214). -/
def execGridRestrict (p t : Fin 56) (s : State) : Host.Outcome State Fault Refusal := opIssue (.gridRestrict p t) p t checkGrid noFill noWait s
def execGridProlong (p t : Fin 56) (s : State) : Host.Outcome State Fault Refusal := opIssue (.gridProlong p t) p t checkGrid noFill noWait s
def execGridConvert (p t : Fin 56) (s : State) : Host.Outcome State Fault Refusal := opIssue (.gridConvert p t) p t checkGrid noFill noWait s

/-- The three operations: 0 RESTRICT, 1 PROLONG, 2 CONVERT. -/
def gridFn (i : Instr) : Nat := match i with
  | .gridRestrict .. => 0
  | .gridProlong .. => 1
  | _ => 2

/-! ## Descriptors (R215, R216) -/

/-- A grid descriptor. -/
structure GDesc where
  src : Nat
  dst : Nat
  tab : Nat
  key : Nat
  n : List Nat
  ss1 : Nat
  ss2 : Nat
  ds1 : Nat
  ds2 : Nat
  dsp : Nat
  bnd : List (Nat × Nat)
  ssp : Nat
  cent : Nat
  dims : Nat
  dfmt : Nat
  sfmt : Nat
  sscale : Nat
  dscale : Nat
  deriving DecidableEq, Repr

def gdescOf (b : List Byte) : GDesc :=
  let w := field b 0x38 4
  { src := field b 0 8
    dst := field b 8 8
    tab := field b 0x10 8
    key := field b 0x18 8
    n := [field b 0x20 2, field b 0x22 2, field b 0x24 2]
    ss1 := field b 0x28 4
    ss2 := field b 0x2C 4
    ds1 := field b 0x30 4
    ds2 := field b 0x34 4
    dsp := bitsAt w 24 24
    bnd := (List.range 3).map fun k => (bitsAt w (13 + 4 * k) (12 + 4 * k), bitsAt w (15 + 4 * k) (14 + 4 * k))
    ssp := bitsAt w 11 11
    cent := bitsAt w 10 10
    dims := bitsAt w 9 8 + 1
    dfmt := bitsAt w 7 4
    sfmt := bitsAt w 3 0
    sscale := field b 0x3D 1
    dscale := field b 0x3C 1 }

/-- The coarse extent of a fine one (R216). -/
def GDesc.coarse (g : GDesc) (n : Nat) : Nat := if g.cent = 0 then (n + 1) / 2 else n / 2

/-- Extents of the levels that an operation reads and writes; a dimension that is not present has extent 1. -/
def GDesc.ext (g : GDesc) (coarse : Bool) (k : Nat) : Nat :=
  let n := g.n.getD k 1
  if coarse && decide (k < g.dims) then g.coarse n else n
def GDesc.srcExt (g : GDesc) (fn k : Nat) : Nat := g.ext (decide (fn = 1)) k
def GDesc.dstExt (g : GDesc) (fn k : Nat) : Nat := g.ext (decide (fn = 0)) k

/-- Bytes of a packed row, and the rules of R216 on a level's base and on the strides that it uses, those of a dimension with more than one
row or plane (DEDUCED, log 69). -/
def rowBytes (n bits : Nat) : Nat := (n * bits + 7) / 8
def levelOk (e : Nat → Nat) (bits s1 s2 base : Nat) : Bool :=
  let row := rowBytes (e 0) bits
  decide (base % 16 = 0)
    && (decide (e 1 ≤ 1) || (decide (s1 % 16 = 0) && decide (row ≤ s1)))
    && (decide (e 2 ≤ 1) || (decide (s2 % 16 = 0) && decide ((e 1 - 1) * s1 + row ≤ s2)))

/-- Output rows of an operation. -/
def GDesc.rows (g : GDesc) (fn : Nat) : Nat := g.dstExt fn 1 * g.dstExt fn 2

/-- Rows that a block asks for (R214). -/
def rowCount (g : GDesc) (fn : Nat) (b : List Word) : Nat := if blkW b 3 = 0 then g.rows fn - blkW b 2 else blkW b 3

/-- The validity of a descriptor (R215, R216). -/
def gdescOk (b : List Byte) (fn : Nat) (blk : List Word) : Bool :=
  let g := gdescOf b
  let bad : List Nat := [8, 13, 14, 15]
  !bad.contains g.sfmt && !bad.contains g.dfmt && decide (g.sscale ≠ 255) && decide (g.dscale ≠ 255) && decide (g.dims ≤ 3)
    && (List.range 3).all (fun k => if k < g.dims then
        (if fn = 2 then decide (1 ≤ g.n.getD k 0)
         else if g.cent = 0 then decide (g.n.getD k 0 % 2 = 1) && decide (3 ≤ g.n.getD k 0)
         else decide (g.n.getD k 0 % 2 = 0) && decide (2 ≤ g.n.getD k 0))
      else decide (g.n.getD k 0 = 1) && decide (g.bnd.getD k (0, 0) = (0, 0)))
    && decide (field b 0x26 2 = 0) && decide (bitsAt (field b 0x38 4) 31 25 = 0) && decide (field b 0x3E 2 = 0)
    && (if fn = 2 then decide (g.tab = 0) else decide (g.tab % 16 = 0))
    && levelOk (g.srcExt fn) (codeBits g.sfmt) g.ss1 g.ss2 g.src && levelOk (g.dstExt fn) (codeBits g.dfmt) g.ds1 g.ds2 g.dst
    && decide (blkW blk 2 + rowCount g fn blk ≤ g.rows fn)

/-- The bytes from a level's base to the end of its last row. -/
def levelSpan (e : Nat → Nat) (bits s1 s2 : Nat) : Nat := (e 1 - 1) * s1 + (e 2 - 1) * s2 + rowBytes (e 0) bits

/-- Whether levels in local store lie in the issuer's range (R199, R216). -/
def gridFits (o : EngOp) (g : GDesc) (fn : Nat) : Bool :=
  (decide (g.ssp = 0) || lsRangeOk o.lim g.src (levelSpan (g.srcExt fn) (codeBits g.sfmt) g.ss1 g.ss2))
    && (decide (g.dsp = 0) || lsRangeOk o.lim g.dst (levelSpan (g.dstExt fn) (codeBits g.dfmt) g.ds1 g.ds2))

/-- The validity of a stencil table (R217). -/
def stencilOk (t : List Byte) (fn dims : Nat) : Bool :=
  decide (bitsAt (field t 0 1) 7 4 = 0) && decide (bitsAt (field t 1 1) 7 3 = 0) && decide (field t 2 14 = 0)
    && decide (bitsAt (field t 1 1) 2 2 = fn) && decide (bitsAt (field t 1 1) 1 0 + 1 = dims)

/-- Bytes of a stencil table. -/
def stencilLen (fn dims : Nat) : Nat := 16 + 2 * (3 ^ dims * if fn = 1 then 2 ^ dims else 1)

/-- A GRID starts: descriptor and stencil table are read and checked. `tab` keeps the bytes of both, `cfg` says that it names local store
(R330). -/
def startGrid (s : State) (op : Nat) (o : EngOp) : State :=
  let fn := gridFn o.instr
  readAtStart s op o (blkP o.block 0) 64 fun s h =>
    let g := gdescOf h
    let go (s : State) (t : List Byte) : State :=
      if !gridFits o g fn then opFail s op csRange
      else beginOp s op fun o => { o with tab := (h ++ t).map (·.toNat), units := rowCount g fn o.block, cfg := [if g.ssp = 1 ∨ g.dsp = 1 then 1 else 0] }
    if !gdescOk h fn o.block then opFail s op csInvalid
    else if fn = 2 then go s []
    else readAtStart s op o g.tab (stencilLen fn g.dims) (fun s t => if !stencilOk t fn g.dims then opFail s op csInvalid else go s t)
      (if gridFits o g fn then 0 else csRange)

/-! ## Elements (R218, R219) -/

/-- bnd(j) at extent n under the codes (lo, hi): none when the input is not read (R218). -/
def gridBnd (code : Nat × Nat) (j : Int) (n : Nat) : Option Nat :=
  if 0 ≤ j ∧ j < n then some j.toNat
  else
    let c := if j < 0 then code.1 else code.2
    let hi : Int := n - 1
    let clamp (x : Int) : Option Nat := some (max 0 (min x hi)).toNat
    match c with
    | 0 => none
    | 1 => clamp j
    | 2 => some (j % n).toNat
    | _ => clamp (if j < 0 then -j else 2 * hi - j)

/-- The stencil offsets of `dims` dimensions: (t0, t1, t2), absent ones 1. -/
def stencilOffs (dims : Nat) : List (List Nat) :=
  (List.range (3 ^ dims)).map fun t => (List.range 3).map fun k => if k < dims then t / 3 ^ k % 3 else 1

/-- The signed weight at index `i` of a table. -/
def stencilW (t : List Byte) (i : Nat) : Int := (BitVec.ofNat 16 (field t (16 + 2 * i) 2)).toInt

/-- The inputs of an output element: weight and source indices (R219). -/
def gridInputs (g : GDesc) (t : List Byte) (fn : Nat) (i : List Nat) : List (Int × List Nat) :=
  if fn = 2 then [(1, i)]
  else
    let p := (List.range g.dims).foldl (fun a k => a + i.getD k 0 % 2 * 2 ^ k) 0
    (stencilOffs g.dims).zipIdx.filterMap fun x =>
      let w := stencilW t (if fn = 1 then p * 3 ^ g.dims + x.2 else x.2)
      if w = 0 then none
      else
        let js := (List.range 3).map fun k =>
          if g.dims ≤ k then some 0
          else gridBnd (g.bnd.getD k (0, 0)) ((if fn = 1 then (i.getD k 0 / 2 : Nat) else 2 * i.getD k 0 : Nat) + (x.1.getD k 1 : Nat) - 1 : Int) (g.srcExt fn k)
        if js.all (·.isSome) then some (w, js.map (·.getD 0)) else none

/-- The bytes that hold a source element. -/
def elemSeg (o : EngOp) (g : GDesc) (j : List Nat) : Seg :=
  let b := codeBits g.sfmt
  let lo := j.getD 0 0 * b / 8
  let n := (j.getD 0 0 * b + b + 7) / 8 - lo
  let a := g.src + j.getD 1 0 * g.ss1 + j.getD 2 0 * g.ss2 + lo
  if g.ssp = 1 then .ls (o.lim.getD 0 0 + a) n else .glob (a % 2 ^ 64) n

/-- The value of a source element (R219). -/
def elemVal (g : GDesc) (j : List Nat) (bs : List Byte) : Ex :=
  let b := codeBits g.sfmt
  (codeValue g.sfmt (leNat bs / 2 ^ (j.getD 0 0 * b % 8) % 2 ^ b)).e8m0 g.sscale false

/-- The exact sum of weighted values (R219, R220): NV for infinities of both signs, while a NaN input raises nothing. -/
def gridSum (l : List (Int × Ex)) : Ex × Flags :=
  let inf (s : Bool) : Bool := l.any fun x => decide (x.1 ≠ 0) && decide ((Ex.mul (Ex.ofInt x.1) x.2).1 = .inf s)
  if l.any fun x => decide (x.2 = .nan) then (.nan, flagIf (inf false && inf true) flagNV)
  else l.foldl (fun (acc : Ex × Flags) x => let r := Ex.add false acc.1 (Ex.mul (Ex.ofInt x.1) x.2).1; (r.1, acc.2 ||| r.2)) (.fin false 0 0, 0)

/-- An output element: rounded once, with its flags (R219, R220). -/
def gridOut (g : GDesc) (t : List Byte) (fn : Nat) (b : List Word) (i : List Nat) (l : List (Int × Ex)) : Nat × Flags :=
  let s := if fn = 2 then 0 else bitsAt (field t 0 1) 3 0
  let x := gridSum l
  let lin := i.getD 0 0 + g.dstExt fn 0 * (i.getD 1 0 + g.dstExt fn 1 * i.getD 2 0)
  let r := codeRnd g.dfmt (gRnd b) false (rsrWord (BitVec.ofNat 64 g.key) (BitVec.ofNat 64 lin)) (x.1.scale (127 - (g.dscale : Int) - s))
  (r.1, x.2 ||| r.2)

/-- What a source element's bytes are: with whether they are poisoned, and a poisoned page-table entry in the way (R169, R347). -/
def elemBytes (s : State) (o : EngOp) : Seg → EGot (List Run × List Byte × Bool)
  | .glob va n => match engRuns s o.vdev o.gang 1 2 va n with
    | .ok l =>
      let x := readRuns s (clusterOf o.core) 0 0 l
      .ok (l, x.2)
    | .xlate va => .xlate va
    | .fatal c => .fatal c
    | .poison pa => .poison pa
  | .ls a n => let k := s.core o.core; .ok ([], k.lsBytes a n, k.lsBad a n)
  | _ => .ok ([], [], false)

/-- The inputs of an output element: their weighted values with the pieces they lie in and the poisoned entries met, or the first fault. -/
def readInputs (s : State) (o : EngOp) (g : GDesc) : List (Int × List Nat) → EGot (List (Int × Ex) × Bool × List Run × List Nat)
  | [] => .ok ([], false, [], [])
  | (w, j) :: r =>
    let next (v : List Byte) (p : Bool) (l : List Run) (bad : List Nat) : EGot (List (Int × Ex) × Bool × List Run × List Nat) :=
      match readInputs s o g r with
      | .ok (vs, q, m, c) => .ok ((w, elemVal g j v) :: vs, p || q, l ++ m, bad ++ c)
      | x => x
    match elemBytes s o (elemSeg o g j) with
    | .ok (l, bs, p) => next bs p l []
    | .poison pa => next [] true [] [pa]
    | .xlate va => .xlate va
    | .fatal c => .fatal c

/-- The elements of an output row from index `k` on: their encodings, flags, whether poison was met, the pieces read, the poisoned entries. -/
def gridRow (s : State) (o : EngOp) (g : GDesc) (t : List Byte) (fn i1 i2 : Nat) :
    List Nat → EGot (List Nat × Flags × Bool × List Run × List Nat)
  | [] => .ok ([], 0, false, [], [])
  | k :: r =>
    let i := [k, i1, i2]
    match readInputs s o g (gridInputs g t fn i) with
    | .ok (l, p, m, c) => match gridRow s o g t fn i1 i2 r with
      | .ok (vs, f, q, m', c') => let v := gridOut g t fn o.block i l; .ok (v.1 :: vs, v.2 ||| f, p || q, m ++ m', c ++ c')
      | x => x
    | .xlate va => .xlate va
    | .fatal c => .fatal c
    | .poison pa => .poison pa

/-- The sectors of some pieces, each once, by address: those that `p` picks. -/
def runSectors (p : Run → Option (Nat × Nat)) (l : List Run) : List Nat :=
  (((l.filterMap p).flatMap fun x => (sectorAddrs x.1 x.2).map (· / 128)).dedup).map (128 * ·)

/-- The reads of a row unit: every sector of its inputs is moved once (R45), every line asked for once (R160), every page walked (R175). -/
def rowReads (s : State) (o : EngOp) (l : List Run) (lsBytes : List (Nat × Nat)) (pages : List Nat) : State :=
  let cl := clusterOf o.core
  let norm := runSectors (fun | .phys a n => some (a, n) | _ => none) l
  let nc := runSectors (fun | .nc a n => some (a, n) | _ => none) l
  let scr := runSectors (fun | .scratch a n => some (a, n) | _ => none) l
  let ls := (lsBytes.flatMap fun x => (sectorAddrs x.1 x.2).map (· / 128)).dedup
  let ask (ch : Nat) (secs : List Nat) (s : State) : State :=
    ((secs.map (· / 256)).dedup).foldl (fun s i => (s.askLine cl ch 0 (secs.filter fun a => decide (a / 256 = i))).asked (256 * i)) s
  let s := if s.part = 0 then s else pages.foldl (fun s p => s.walked o.vdev (4096 * p)) s
  (ask 4 nc (ask 0 norm s)).moved cl (norm.length + nc.length + scr.length + ls.length)

/-- Row unit: the next output row, its elements packed, the last byte filled with zeros (R216, R219). -/
def unitGrid (s : State) (op : Nat) (o : EngOp) : State :=
  let tab := headerBytes o.tab
  let g := gdescOf tab
  let t := tab.drop 64
  let fn := gridFn o.instr
  let row := blkW o.block 2 + o.unit_
  let i1 := row % g.dstExt fn 1
  let i2 := row / g.dstExt fn 1
  let n := g.dstExt fn 0
  let a := g.dst + i1 * g.ds1 + i2 * g.ds2
  match gridRow s o g t fn i1 i2 (List.range n) with
  | .xlate va => parkOp s op o va
  | .fatal _ | .poison _ => opFail s op csFault
  | .ok (vs, f, p, l, bad) =>
    let segs := ((List.range n).flatMap fun k => (gridInputs g t fn [k, i1, i2]).map fun x => elemSeg o g x.2).dedup
    let ls := segs.filterMap fun | .ls a m => some (a, m) | _ => none
    let pages := (segs.filterMap fun | .glob va _ => some (va / 4096) | _ => none).dedup
    let s := bad.dedup.foldl (fun s pa => opPoison s o pa) (rowReads s o l ls pages)
    let s := debit s (clusterOf o.core) n
    let bs := leBytes (rowBytes n (codeBits g.dfmt)) (packBits (codeBits g.dfmt) vs)
    let s := s.updOp op fun o => { o with flags := o.flags ||| f }
    doUnit s op o [.lit bs] p id (if g.dsp = 1 then .ls (o.lim.getD 0 0 + a) else .glob (a % 2 ^ 64)) (o.unit_ + 1)

end Sys2Proof.Machine
end

