-- ==== Sys2Proof/Machine/Matrix.lean ====
section
/-! DEFINITION. The matrix engine (11): OBRES (R223 to R226), MMAR (R227 to R235), MTILE (R236 to R241), and the arithmetic both share
(R124 to R126). -/
namespace Sys2Proof.Machine

/-! ## OBRES (R223 to R226) -/

/-- The validity of a record image (R224). -/
def imageOk (b : List Word) : Bool :=
  let w := blkW b
  decide (bitsAt (w 0) 15 10 = 0) && decide (bitsAt (w 1) 31 12 = 0) && decide (bitsAt (w 2) 31 16 = 0) && decide (bitsAt (w 3) 31 16 = 0)
    && decide (w 5 = 0) && decide (w 6 = 0) && decide (w 7 = 0)
    && decide (rLen b ≠ 0) && decide (rFmt b < 9) && (decide (rBl b = 0) || !([0, 1, 2, 8].contains (rFmt b)))
    && usableScale (w 4) && decide (rScl b % 16 = 0) && (decide (rBl b = 0) || decide (rScl b < rLen b))
    && (decide (rVmo b = 0xFFFF) || (decide (rVmo b % 32 = 0) && decide (rVmo b + 32 ≤ rLen b)))

/-- Units of a reservation that are in another live one of the workgroup. -/
def overlapsLive (k : Core) (wg : Nat) (b : List Word) : Bool :=
  k.resv.any fun e => decide (e.2.wg = wg) && !e.2.released && overlap (rBase b) (rLen b) (rBase e.2.words) (rLen e.2.words)

/-- The lowest free slot of a core (DESIGN CHOICE, log 31). -/
def freeSlot? (k : Core) : Option Nat := (List.range 256).find? fun i => (find? k.resv i).isNone

/-- The status of OBRES.RSV: 5, 2, 3, 1, then 0 (R226). -/
def rsvStatus (s : State) (g : Group) (b : List Word) : Nat :=
  let k := s.core g.info.core
  let obz := ((s.wg? g.info.wg).map (·.obLen)).getD 0
  if g.formerBuilt then 5
  else if !imageOk b then 2
  else if obz * 256 < rBase b + rLen b ∨ overlapsLive k g.info.wg b ∨ g.c.obQuota - g.c.obUsed < rLen b / 256 then 3
  else if (freeSlot? k).isNone then 1 else 0

/-- OBRES.RSV. -/
def execObresRsv (p t : Fin 56) (s : State) : Host.Outcome State Fault Refusal :=
  issue (.obresRsv p t) ((Need.ofUni.ublk p.val 8).udst (.g t)) (fun c s =>
    let b := ublock c.g p.val 8
    let st := rsvStatus s c.g b
    let k := s.core c.g.info.core
    let slot := (freeSlot? k).getD 0
    let h := 0x8000 + mget 0 k.resvGen slot * 256 + slot
    let s := if st ≠ 0 then s
      else (s.updCore c.g.info.core fun k => { k with resv := mset k.resv slot ⟨b.take 5, c.g.info.wg, c.gid, c.g.info.f1, false⟩ }).updGroup c.gid
        fun g => { g with c := { g.c with obUsed := g.c.obUsed + rLen b / 256 } }
    uniResult (.g t) 4 (fun _ _ => BitVec.ofNat 32 (st + if st = 0 then h * 2 ^ 16 else 0)) c s) s

/-- OBRES.REL: the handle is stale from here on; the group waits until what names the reservation has completed (R226). -/
def execObresRel (p t : Fin 56) (s : State) : Host.Outcome State Fault Refusal :=
  issue (.obresRel p t) ((Need.ofUni.ublk p.val 1).udst (.g t)) (fun c s =>
    let b := ublock c.g p.val 8
    let held := heldSlot s c.gid c.g (bitsAt (blkW b 0) 15 0)
    let st := if c.g.formerBuilt then 5 else if bitsAt (blkW b 0) 31 16 ≠ 0 then 2 else if held.isNone then 4 else 0
    let s := match (if st = 0 then held else none) with
      | some x => (s.updCore c.g.info.core fun k => markReleased k x.1).updGroup c.gid fun g => { g with c := { g.c with wait := .obrel x.1 } }
      | none => s
    uniResult (.g t) 4 (fun _ _ => BitVec.ofNat 32 st) c s) s

/-- OBRES.QRY: the record, its handle and its owner into gP to gP+7 (R226). -/
def execObresQry (p t : Fin 56) (s : State) : Host.Outcome State Fault Refusal :=
  issue (.obresQry p t) { (Need.ofUni.ublk p.val 1).udst (.g t) with gdst := [(t.val, 1), (p.val, 8)] } (fun c s =>
    let h := bitsAt (c.g.ug p.val).toNat 15 0
    match (if c.g.formerBuilt then none else liveSlot s c.g.info.core c.g.info.wg h) with
    | none => uniResult (.g t) 4 (fun _ _ => if c.g.formerBuilt then 5 else 4) c s
    | some x =>
      let ws := x.2.words ++ [BitVec.ofNat 32 h, BitVec.ofNat 32 x.2.f1, 0]
      let s := s.updGroup c.gid fun g => { g with r := (g.r.setGs ((List.range 8).map (p.val + ·)) ws).setG t.val 0 }
      (takeSb s c.gid ⟨[], t.val :: (List.range 8).map (p.val + ·), 0, false, some (s.now + 4)⟩).1) s

/-- Whether operations or MMARs that name a reservation slot of a core are still at work (R226). -/
def slotBusyAt (s : State) (core slot : Nat) : Bool :=
  s.ops.any (fun e => decide (e.2.core = core) && e.2.resvs.contains slot && !e.2.stampPending)
    || (s.core core).mmars.any fun m => decide (m.slot = slot)

/-- OBRES_REL_COMPLETE: the slot is freed and LEN returns to the quota (R226); the reservations of a group that has ended go the same
way (R331). -/
def evObresRelComplete (gid : Nat) (s : State) : Option State :=
  match s.group? gid with
  | some g => match g.c.wait with
    | .obrel slot =>
      if slotBusyAt s g.info.core slot || !deviceLive s g.info.vdev then none
      else
        let n := ((find? (s.core g.info.core).resv slot).map fun r => rLen r.words / 256).getD 0
        some (wake ((s.updCore g.info.core fun k => freeSlot k slot).updGroup gid
          fun g => { g with c := { g.c with obUsed := g.c.obUsed - n } }) gid)
    | _ => none
  | none =>
    (s.cores.findSome? fun e => (e.2.resv.find? fun r => decide (r.2.owner = gid) && r.2.released && !slotBusyAt s e.1 r.1).map fun r => (e.1, r.1)).map
      fun x => s.updCore x.1 fun k => freeSlot k x.2

/-! ## Chunks (R124 to R126) -/

/-- The product of two elements of given format codes, with its flags (R114, R124). -/
def prodOf (ca cb a b : Nat) : Ex × Flags := if ca = 8 then (lnsMul a b, 0) else Ex.mul (codeValue ca a) (codeValue cb b)

/-- Whether an exact value is an infinity of a sign. -/
def Ex.isInf (neg : Bool) : Ex → Bool
  | .inf s => s == neg
  | _ => false

/-- The exact sum of a chunk's products (R124, R126). -/
def chunkSum (l : List (Ex × Flags)) : Ex × Flags :=
  let fl := l.foldl (fun f x => f ||| x.2) 0
  let pos := l.any fun x => x.1.isInf false
  let neg := l.any fun x => x.1.isInf true
  let fl := if pos && neg then fl ||| flagNV else fl
  if l.any (fun x => decide (x.1 = .nan)) || (pos && neg) then (.nan, fl)
  else (l.foldl (fun a x => (Ex.add false a x.1).1) (.fin false 0 0), fl)

/-- One chunk of an accumulator element: acc + S * T, rounded once (R124 to R126). `sa` and `sb` are E8M0 scales, 127 standing for 1. -/
def chunkAcc (acc : Word) (prods : List (Ex × Flags)) (sa sb : Nat) (t : Word) : Word × Flags :=
  let p := chunkSum prods
  if p.1.isZero then (acc, p.2)
  else
    let x := Ex.mul ((p.1.e8m0 sa false).e8m0 sb false) (f32 t)
    let r := Ex.add false (f32 acc) x.1
    let w := rne32 r.1
    (w.1, p.2 ||| x.2 ||| r.2 ||| w.2)

/-- T with the flags of its rounding, which belong to the instruction or unit whose scale it is (R124, R128, R229, R240; DEDUCED, log 32). -/
def scaleT (ta tb : Word) : Word × Flags :=
  let x := Ex.mul (f32 ta) (f32 tb)
  let w := rne32 x.1
  (w.1, x.2 ||| w.2)

/-! ## Records in the operand buffer -/

/-- Logical bytes of a reservation's rows, at core address `a` of its first byte (R222). -/
def recBytes (k : Core) (z a off n : Nat) : List Byte := (List.range n).map fun i => k.obByte (swzAt z (a + off + i))

/-- Whether some of them are poisoned. -/
def recBad (k : Core) (z a off n : Nat) : Bool := (List.range n).any fun i => k.obPoison.contains (swzAt z (a + off + i) / 128)

/-- The units that hold logical bytes, and whether each carries a tag. -/
def recUnits (a off n : Nat) : List Nat := if n = 0 then [] else (List.range ((a + off + n - 1) / 256 + 1 - (a + off) / 256)).map ((a + off) / 256 + ·)
def recTagged (k : Core) (z a off n : Nat) : Bool := (recUnits a off n).all fun u => decide (mget 0 k.obTag u = z)

/-! ## MMAR (R227 to R234) -/

/-- Format code, K, A registers of an MMAR format (R228). -/
def mfmtRow : MFmt → Nat × Nat × Nat
  | .bf16 => (2, 16, 8)
  | .fp16 => (1, 16, 8)
  | .e4m3 => (3, 32, 8)
  | .e5m2 => (4, 32, 8)
  | .e2m1 => (7, 64, 8)
  | .lns6 => (8, 64, 16)
  | .e3m2 => (5, 64, 16)
  | .e2m3 => (6, 64, 16)

/-- Whether formats of A and B pair (R228). -/
def fmtPair (a b : Nat) : Bool :=
  if a ≤ 2 then decide (1 ≤ a) && decide (a = b)
  else if a ≤ 4 then decide (b = 3) || decide (b = 4)
  else if a ≤ 7 then decide (5 ≤ b) && decide (b ≤ 7)
  else decide (a = 8) && decide (b = 8)

/-- Element `t` of a lane's row of A in its registers (R116, R228). -/
def aElem (code : Nat) (ws : List Word) (t : Nat) : Nat :=
  let b := codeBits code
  let per := if b = 6 then 4 else 32 / b
  (ws.getD (t / per) 0).toNat / 2 ^ (t % per * b) % 2 ^ b

/-- What an MMAR took at its issue: the three uniform words, then its record if its handle was live. -/
def mmarOps (s : State) (g : Group) (r : Nat) : List Nat :=
  (List.range 3).map (fun i => (g.ug (r + i)).toNat) ++
    match liveSlot s g.info.core (g.laneWg g.uniLane) (bitsAt (g.ug r).toNat 31 16) with
    | some x => x.1 :: x.2.words.map (·.toNat)
    | none => []

/-- The uniform registers an MMAR reads: gG+1 only where the record that gG names has block scales (R229). -/
def mmarUni (s : State) (r : Nat) : List (Nat × Nat) :=
  let scaled := (curGroup s).any fun g => (liveSlot s g.info.core (g.laneWg g.uniLane) (bitsAt (g.ug r).toNat 31 16)).any
    fun x => decide (rBl x.2.words ≠ 0)
  if scaled then [(r, 3)] else [(r, 1), (r + 2, 1)]

/-- What an MMAR needs. -/
def mmarNeed (s : State) (f : MFmt) (d a : Fin 112) (g : Fin 54) (z : Bool) : Need :=
  let na := (mfmtRow f).2.2
  let n := { ((needLoad.vblk a.val na na).dstN d.val 16 16) with gsrc := mmarUni s g.val, mmar := true, mem := false, pj := 0 }
  if z then n else n.vblk d.val 16 16

/-- An MMAR takes its place in the engine: oldest issue first, of two in one cc that of the lower issue slot first (R233). -/
def enterMmar (l : List Mmar) (m : Mmar) : List Mmar :=
  let before (x : Mmar) : Bool := decide (x.cc < m.cc) || decide (x.gslot ≤ m.gslot) || x.frag.isSome || decide (x.quarter ≠ 0)
  l.takeWhile before ++ m :: l.dropWhile before

/-- MMAR (R227): every source is read at issue; the quarters follow in the engine. -/
def execMmar (f : MFmt) (ru : Bool) (d a : Fin 112) (g : Fin 54) (z : Bool) (s : State) : Host.Outcome State Fault Refusal :=
  let i : Instr := .mmar f ru d a g z
  let na := (mfmtRow f).2.2
  issue i (mmarNeed s f d a g z) (fun c s =>
    let ops := mmarOps s c.g g.val
    let e := takeSb s c.gid ⟨(List.range 16).map (d.val + ·), [], 0, true, none⟩
    let r := pushReq e.1 c.gid (mkReq i c (fun _ _ => 0) (fun g l => getVs g l a.val na) ops e.2 s.now)
    r.1.updCore c.g.info.core fun k => { k with mmars := enterMmar k.mmars ⟨c.gid, r.2, ops.getD 3 256, 0, none, true, s.now, c.g.info.slot⟩ }) s

/-- The record words and the row offset of an MMAR request. -/
def Req.recWords (r : Req) : List Word := (r.ops.drop 4).map (BitVec.ofNat 32)
def Req.rho (r : Req) : Nat := bitsAt (r.ops.getD 0 0) 15 0

/-- Block length in use, and the number of B's scale bytes. -/
def mmarBl (w : List Word) : Nat := blLen (rBl w)

/-- The checks of R234 in the order in which they are reported, the lowest row first; 0 when all pass. `a` is the core address of the
reservation. Without a record, or with a format that fixes no pitch, there is no fragment for the rows below to look at. (DEDUCED, log 70) -/
def mmarCheck (k : Core) (f : MFmt) (r : Req) (a : Nat) : Nat :=
  let w := r.recWords
  let kk := (mfmtRow f).2.1
  let pitch := kk * codeBits (rFmt w) / 8
  let off := r.rho * pitch
  let n := 16 * pitch
  let nb := if rBl w = 0 then 0 else kk / mmarBl w
  let inside (o m : Nat) : Nat := min (o + m) (rLen w) - min o (rLen w)
  let so := rScl w + r.rho * nb
  if w = [] then 0x17
  else if !fmtPair (mfmtRow f).1 (rFmt w) then 0x11
  else if recBad k (rSwz w) a off (inside off n) || k.obBad (a + so) (inside so (16 * nb)) then 0x13
  else if !recTagged k (rSwz w) a off (inside off n) then 0x12
  else if kk < mmarBl w then 0x11
  else if rLen w < off + n ∨ (nb ≠ 0 ∧ rLen w < so + 16 * nb) then 0x16
  else 0

/-- The fragment of an MMAR read from the operand buffer (R229). -/
def readFrag (k : Core) (gid : Nat) (f : MFmt) (r : Req) (a : Nat) : BLatch :=
  let w := r.recWords
  let kk := (mfmtRow f).2.1
  let pitch := kk * codeBits (rFmt w) / 8
  let off := r.rho * pitch
  let nb := if rBl w = 0 then 0 else kk / mmarBl w
  let so := rScl w + r.rho * nb
  ⟨gid, BitVec.ofNat 32 (r.ops.getD 0 0), f, w, recBytes k (rSwz w) a off (16 * pitch), k.obBytes (a + so) (16 * nb),
    recUnits a off (16 * pitch) ++ recUnits a so (16 * nb)⟩

/-- The chunks of a row of A against row `j` of B into an accumulator (R229, R230). -/
def mmarElem (f : MFmt) (fr : BLatch) (ws : List Word) (asc : Nat) (t : Word) (j : Nat) (acc : Word) : Word × Flags :=
  let ca := (mfmtRow f).1
  let kk := (mfmtRow f).2.1
  let cb := rFmt fr.words
  let b := codeBits cb
  let bl := mmarBl fr.words
  let c := if bl = 0 then kk else bl
  let nb := kk / c
  (List.range nb).foldl (fun (x : Word × Flags) q =>
    let prods := (List.range c).map fun u => prodOf ca cb (aElem ca ws (q * c + u)) (elemAt fr.frag b (j * kk + q * c + u))
    let sa := if bl = 0 then 127 else asc / 2 ^ (8 * q) % 256
    let sb := if bl = 0 then 127 else (fr.scales.getD (j * nb + q) 0).toNat
    let y := chunkAcc x.1 prods sa sb t
    (y.1, x.2 ||| y.2)) (acc, 0)

/-- The results of a quarter's lanes, with the flags they raise. -/
def mmarLanes (f : MFmt) (d : Nat) (z : Bool) (fr : BLatch) (g : Group) (r : Req) (lanes : List Nat) : List (Nat × List Word) × Flags :=
  let t := scaleT (BitVec.ofNat 32 (r.ops.getD 2 0)) (rTsc fr.words)
  let out := lanes.map fun l => (l, (List.range 16).map fun j =>
    mmarElem f fr (mget [] r.data l) (r.ops.getD 1 0) t.1 j (if z then 0 else g.r.getV l (d + j)))
  (out.map fun x => (x.1, x.2.map (·.1)), out.foldl (fun fl x => x.2.foldl (fun fl y => fl ||| y.2) fl) t.2)

/-- An MMAR that fails a check: every active lane's D block is poisoned and the lanes hold fatal marks (R234). -/
def mmarFail (s : State) (gid req : Nat) (r : Req) (d code : Nat) : State :=
  s.updGroup gid fun g =>
    let m : Mark := ⟨code, 0, r.skid, 0⟩
    let regs := (lanesOf r.lanes).foldl (fun x l => (List.range 16).foldl (fun x j => x.markV l (d + j) m) x) g.r
    { g with r := regs, c := g.c.addFatal (r.lanes &&& allLanes g.c.paths) fun _ => ⟨code, r.skid, 0⟩ }.dropReq req r

/-- MMAR_QUARTER: the oldest MMAR of a core reads its fragment if it has not, and processes its next quarter that has active lanes
(R231 to R234). -/
def evMmarQuarter (core : Nat) (s : State) : Option State :=
  match (s.core core).mmars with
  | [] => none
  | m :: rest =>
    (s.group? m.group).bind fun g => (find? g.c.reqs m.req).bind fun r => match r.instr with
      | .mmar f ru d _ _ z =>
        if !deviceActive s g.info.vdev then none
        else
          let k := s.core core
          let wg := ((find? k.resv m.slot).map (·.wg)).getD g.info.wg
          let a := ((s.wg? wg).map fun w => w.obBase * 256).getD 0 + rBase r.recWords
          let lat := (find? k.blatch g.info.slot).filter fun b =>
            decide (b.group = m.group) && decide (b.gval = BitVec.ofNat 32 (r.ops.getD 0 0)) && decide (b.fmt = f)
              && decide (r.recWords ≠ []) && decide (b.words = r.recWords)
          let code := if m.frag.isSome ∨ lat.isSome then 0 else mmarCheck k f r a
          if code ≠ 0 then some (mmarFail (s.updCore core fun k => { k with mmars := rest, blatch := merase k.blatch g.info.slot }) m.group m.req r d.val code)
          else
            let fr := match m.frag, lat with
              | some x, _ => x
              | none, some x => x
              | none, none => readFrag k m.group f r a
            let qs := (quartersOf r.lanes).filter fun q => decide (m.quarter ≤ q)
            match qs with
            | [] => some ((s.updCore core fun k => { k with mmars := rest }).updGroup m.group
                fun g => g.endReq m.req r)
            | q :: more =>
              let lanes := (lanesOf r.lanes).filter fun l => decide (l / 16 = q)
              let x := mmarLanes f d.val z fr g r lanes
              let s := debit s (clusterOf core) 655
              let s := s.updGroup m.group fun g =>
                let g := { g with
                  r := writeWords g.r d.val x.1
                  c := { g.c with sb := mupd g.c.sb r.entry fun p => { p with flags := p.flags ||| x.2, ready := if more = [] then some (s.now + 8) else none } } }
                if more = [] then g.endReq m.req r else g
              some (s.updCore core fun k =>
                if more = [] then
                  { k with mmars := rest, blatch := if ru && m.keep then mset k.blatch g.info.slot fr else merase k.blatch g.info.slot }
                else { k with mmars := { m with quarter := q + 1, frag := some fr } :: rest })
      | _ => none

/-! ## MTILE (R236 to R241) -/

/-- M, N and K of a block. -/
def mtM (b : List Word) : Nat := bitsAt (blkW b 2) 6 0 + 1
def mtN (b : List Word) : Nat := bitsAt (blkW b 2) 14 8 + 1
def mtK (b : List Word) : Nat := (bitsAt (blkW b 2) 19 16 + 1) * 16

/-- The pitch of a record of K elements a row, and of C. -/
def mtPitch (k fmt : Nat) : Nat := (k * codeBits fmt / 8 + 15) / 16 * 16
def mtPitchC (n : Nat) : Nat := (4 * n + 15) / 16 * 16

/-- The handles of A, B and C. -/
def mtHandle (b : List Word) (i : Nat) : Nat :=
  if i = 0 then bitsAt (blkW b 0) 15 0 else if i = 1 then bitsAt (blkW b 0) 31 16 else bitsAt (blkW b 1) 15 0
def mtSlots (s : State) (c : Ctx) (b : List Word) : List (Option (Nat × Resv)) :=
  (List.range 3).map fun i => liveSlot s c.g.info.core (c.g.laneWg c.g.uniLane) (mtHandle b i)

/-- Whether rows and scales of an operand lie in its reservation. -/
def mtFits (w : List Word) (rows k : Nat) : Bool :=
  decide (rows * mtPitch k (rFmt w) ≤ rLen w) && (decide (rBl w = 0) || decide (rScl w + rows * (k / blLen (rBl w)) ≤ rLen w))

/-- The issue check of R237: NOTOKEN, INVALID, RANGE. -/
def checkMtile (s : State) (c : Ctx) (b : List Word) : Nat :=
  let w (i : Nat) : List Word := (((mtSlots s c b)[i]?).join.map fun x => x.2.words).getD []
  let k := mtK b
  let blOk (w : List Word) : Bool := decide (rBl w = 0) || decide (k % blLen (rBl w) = 0)
  let valid := ctlOk b && decide (bitsAt (blkW b 1) 31 16 = 0) && decide (bitsAt (blkW b 2) 31 20 = 0) && !bit (blkW b 2) 15 && !bit (blkW b 2) 7
    && decide (bitsAt (blkW b 3) 31 3 = 0) && !bit (blkW b 3) 1 && decide (blkW b 4 = 0) && decide (bitsAt (blkW b 5) 20 0 = 0)
    && (mtSlots s c b).all (·.isSome) && fmtPair (rFmt (w 0)) (rFmt (w 1)) && decide (rFmt (w 2) = 0) && decide (rBl (w 2) = 0)
    && blOk (w 0) && blOk (w 1) && !(bit (blkW b 3) 2 && decide (rVmo (w 0) = 0xFFFF))
  let range := mtFits (w 0) (mtM b) k && mtFits (w 1) (mtN b) k && decide (mtM b * mtPitchC (mtN b) ≤ rLen (w 2))
    && (heldSlot s c.gid c.g (mtHandle b 2)).isSome
  if c.g.formerBuilt || !holdsToken s c.gid c.g then isNoToken else checkStatus valid range

/-- The reservations an MTILE names, as it was issued. -/
def fillMtile (s : State) (c : Ctx) (b : List Word) (o : EngOp) : EngOp :=
  let l := (mtSlots s c b).filterMap id
  { o with resvs := l.map (·.1), recs := l.map (·.2.words) }

/-- MTILE (R236, R237): a release on LSU and MTX for its group. -/
def execMtile (p t : Fin 56) (s : State) : Host.Outcome State Fault Refusal := opIssue (.mtile p t) p t checkMtile fillMtile noWait s

/-- The chunk length of an MTILE (R238). -/
def mtChunk (o : EngOp) : Nat :=
  let bl (i : Nat) : Nat := let n := blLen (rBl (o.recs.getD i [])); if n = 0 then mtK o.block else n
  min (mtK o.block) (min (bl 0) (bl 1))

/-- Blocks of 16 columns. -/
def mtCols (o : EngOp) : Nat := (mtN o.block + 15) / 16

/-- An MTILE starts: its mask is read (R239). -/
def startMtile (s : State) (op : Nat) (o : EngOp) : State :=
  let w := o.recs.getD 0 []
  let k := s.core o.core
  let a := o.lim.getD 3 0 + rBase w + rVmo w
  let bits := if bit (blkW o.block 3) 2 then (k.obBytes a 32).map (·.toNat) else List.replicate 32 255
  if bit (blkW o.block 3) 2 && k.obBad a 32 then opFail s op csPoison
  else beginOp s op fun o => { o with tab := bits, units := (mtM o.block + 15) / 16 * mtCols o * (mtK o.block / mtChunk o) }

/-- A record's core address, format, swizzle identifier and pitch in an MTILE. -/
def mtAddr (o : EngOp) (i : Nat) : Nat := o.lim.getD 3 0 + rBase (o.recs.getD i [])

/-- The E8M0 scale of a row and chunk of an operand, with its poison (R238). -/
def mtScale (k : Core) (o : EngOp) (i row q : Nat) : Nat × Bool :=
  let w := o.recs.getD i []
  if rBl w = 0 then (127, false)
  else
    let a := mtAddr o i + rScl w + row * (mtK o.block / blLen (rBl w)) + q * mtChunk o / blLen (rBl w)
    ((k.obByte a).toNat, k.obBad a 1)

/-- What a unit finds in an operand's row for a chunk: elements, tag, poison. -/
structure MtRow where
  elems : List Nat
  tagged : Bool
  bad : Bool
  deriving DecidableEq, Repr

def mtRow (k : Core) (o : EngOp) (i row q : Nat) : MtRow :=
  let w := o.recs.getD i []
  let b := codeBits (rFmt w)
  let c := mtChunk o
  let off := row * mtPitch (mtK o.block) (rFmt w) + q * c * b / 8
  let bs := recBytes k (rSwz w) (mtAddr o i) off (c * b / 8)
  ⟨(List.range c).map (elemAt bs b), recTagged k (rSwz w) (mtAddr o i) off (c * b / 8), recBad k (rSwz w) (mtAddr o i) off (c * b / 8)⟩

/-- Whether an element code is a zero (R239). -/
def zeroElem (fmt v : Nat) : Bool := if fmt = 8 then decide (v = 0x10) else decide (v % 2 ^ (codeBits fmt - 1) = 0)

/-- MACs that cost 655 pJ (R45). -/
def macsPer (a b : Nat) : Nat := let w := max (codeBits a) (codeBits b); if w = 16 then 4096 else if w = 8 then 8192 else 16384

/-- One element of C after a unit: its new word, flags, poison (R124, R238). -/
def mtElem (k : Core) (o : EngOp) (ra rb : MtRow) (i j q : Nat) (acc : Word) (cbad : Bool) : Word × Flags × Bool :=
  let fa := rFmt (o.recs.getD 0 [])
  let fb := rFmt (o.recs.getD 1 [])
  let sa := mtScale k o 0 i q
  let sb := mtScale k o 1 j q
  let t := scaleT (rTsc (o.recs.getD 0 [])) (rTsc (o.recs.getD 1 []))
  let y := chunkAcc acc ((ra.elems.zip rb.elems).map fun e => prodOf fa fb e.1 e.2) sa.1 sb.1 t.1
  (y.1, y.2, ra.bad || rb.bad || sa.2 || sb.2 || cbad)

/-- The rows and columns of the block that a unit works on, and its chunk. -/
def mtUnit (o : EngOp) : List Nat × List Nat × Nat :=
  let nk := mtK o.block / mtChunk o
  let blk := o.unit_ / nk
  let rows := ((List.range 16).map (blk / mtCols o * 16 + ·)).filter fun i => decide (i < mtM o.block) && decide (o.tab.getD (i / 8) 0 / 2 ^ (i % 8) % 2 = 1)
  let cols := ((List.range 16).map (blk % mtCols o * 16 + ·)).filter fun j => decide (j < mtN o.block)
  (rows, cols, o.unit_ % nk)

/-- Where element (i, j) of C lies in its record. -/
def mtC (o : EngOp) (i j : Nat) : Nat := i * mtPitchC (mtN o.block) + 4 * j

/-- One unit: a block of C over one chunk. A tag that differs ends the operation before the unit's data is used (R238, R241); a row of A
whose chunk is all zeros is skipped, and leaves its elements of C as they are, or at the +0 they start from (R239), but for columns whose chunk of B
holds an infinity or a NaN, where it would change the result (R125, R126; DEDUCED, log 70). -/
def unitMtile (s : State) (op : Nat) (o : EngOp) : State :=
  let k := s.core o.core
  let u := mtUnit o
  let q := u.2.2
  let wc := o.recs.getD 2 []
  let fresh : Bool := decide (q = 0) && bit (blkW o.block 3) 0
  let ra := u.1.map fun i => (i, mtRow k o 0 i q)
  let rb := u.2.1.map fun j => (j, mtRow k o 1 j q)
  let ctag : Bool := bit (blkW o.block 3) 0 || u.1.all fun i => recTagged k (rSwz wc) (mtAddr o 2) (mtC o i (u.2.1.headD 0)) (4 * u.2.1.length)
  if !(ra.all (·.2.tagged) && (decide (u.1 = []) || rb.all (·.2.tagged)) && ctag) then opFail s op csSwizzle
  else
    let zero (r : MtRow) : Bool := r.elems.all (zeroElem (rFmt (o.recs.getD 0 [])))
    let skip (x y : MtRow) : Bool := zero x && !x.bad && (y.bad || !y.elems.any fun e => (codeValue (rFmt (o.recs.getD 1 [])) e).special)
    let paid := (ra.countP fun x => !zero x.2) * u.2.1.length * mtChunk o
    let s := debit s (clusterOf o.core) (655 * paid / macsPer (rFmt (o.recs.getD 0 [])) (rFmt (o.recs.getD 1 [])))
    let out := ra.flatMap fun x => (rb.filter fun y => fresh || !skip x.2 y.2).map fun y =>
      let a := mtC o x.1 y.1
      let old := recBytes k (rSwz wc) (mtAddr o 2) a 4
      (a, if skip x.2 y.2 then (0, 0, false)
          else mtElem k o x.2 y.2 x.1 y.1 q (if fresh then 0 else BitVec.ofNat 32 (leNat old)) (!fresh && recBad k (rSwz wc) (mtAddr o 2) a 4))
    let s := s.updCore o.core fun k => out.foldl (fun k x => k.obSwz (mtAddr o 2 + x.1) (rSwz wc) (wordBytes [x.2.1]) x.2.2.2) k
    let s := if out.any fun x => x.2.2.2 then opStatus s op csPoison else s
    s.updOp op fun o => { o with unit_ := o.unit_ + 1, flags := out.foldl (fun f x => f ||| x.2.2.1) (o.flags ||| (scaleT (rTsc (o.recs.getD 0 [])) (rTsc (o.recs.getD 1 []))).2)
                                 st := if o.units ≤ o.unit_ + 1 then .done else .running }

/-- MTILE_UNIT: the core's running MTILE takes its next unit when no MMAR claims the engine (R233), the cluster has allowance (R46) and
the heat index allows it (R47). -/
def evMtileUnit (core : Nat) (s : State) : Option State :=
  (s.ops.find? fun e => decide (e.2.core = core) && decide (e.2.st = .running) && !e.2.abort && (match e.2.instr with | .mtile .. => true | _ => false)).bind fun e =>
    if decide ((s.core core).mmars = []) && decide (0 < (s.cluster (clusterOf core)).energy) && !(s.die (dieOf (clusterOf core))).c210
        && deviceLive s e.2.vdev then some (unitMtile s e.1 e.2)
    else none

/-! ## Starting and running operations (R194, R196, R198) -/

/-- ENGINE_OP_START: the next operation of a queue, once its release has been performed, reads its structures and begins. -/
def evEngineOpStart (op : Nat) (s : State) : Option State :=
  (find? s.ops op).bind fun o =>
    if decide (o.st = .queued) && !o.abort && deviceLive s o.vdev && mayStart s op o && releaseDone s op o then
      let s := s.writeBackAll o.core
      some (match engineOf o.instr with
        | 0 => startCopy s op o
        | 1 => startHread s op o
        | 2 => startGrid s op o
        | _ => startMtile s op o)
    else none

/-- ENGINE_UNIT: the next unit of a running COPY, HREAD or GRID. -/
def evEngineUnit (op : Nat) (s : State) : Option State :=
  (find? s.ops op).bind fun o =>
    if decide (o.st = .running) && !o.abort && deviceLive s o.vdev && decide (o.unit_ < o.units) then
      match engineOf o.instr with
      | 0 => some (unitCopy s op o)
      | 1 => some (unitHread s op o)
      | 2 => some (unitGrid s op o)
      | _ => none
    else none

/-! ## Meanings of the events -/

def execObresRelComplete (gid : Nat) (s : State) : Host.Outcome State Fault Refusal := ofEvent (evObresRelComplete gid s) s
def execMmarQuarter (core : Nat) (s : State) : Host.Outcome State Fault Refusal := ofEvent (evMmarQuarter core s) s
def execMtileUnit (core : Nat) (s : State) : Host.Outcome State Fault Refusal := ofEvent (evMtileUnit core s) s
def execEngineOpStart (op : Nat) (s : State) : Host.Outcome State Fault Refusal := ofEvent (evEngineOpStart op s) s
def execEngineUnit (op : Nat) (s : State) : Host.Outcome State Fault Refusal := ofEvent (evEngineUnit op s) s

end Sys2Proof.Machine
end

