-- ==== Sys2Proof/Machine/Lyre.lean ====
section
/-! DEFINITION. Rule mode (12): the four functions of RULE over the tiles of Tile.lean (R243, R245, R250 to R255). Lyre's events start the oldest RULE
and complete it. -/
namespace Sys2Proof.Machine

/-! ## Headers (R245) -/

/-- Whether a tile lies in the issuer's local-store range (R245). -/
def tileInRange (lim : List Nat) (x : TileHdr) : Bool :=
  lsRangeOk lim x.cells (x.h * x.pitch) && lsRangeOk lim x.table x.tb && lsRangeOk lim x.save x.pitch

/-! ## Issue (R243, R250) -/

/-- RULE: the group waits until its RULE has written T. -/
def ruleWith (i : Instr) (mode : Nat) (p t : Fin 56) (s : State) : Host.Outcome State Fault Refusal :=
  let n := (Need.ofUni.ublk p.val 4).udst (.g t)
  let n := { n with even := [p.val] }
  issue i (if mode = 3 then { n with gdst := [(t.val, 1), (p.val + 1, 3)] } else n) (fun c s =>
    let r := s.fresh
    let x : RuleRun := ⟨c.gid, r.2, c.pc, mode, p.val, t.val, ublock c.g p.val 4, false, 0, 0, false, none, false⟩
    (r.1.updCore c.g.info.core fun k => { k with rules := k.rules ++ [x] }).updGroup c.gid fun g => { g with c := { g.c with wait := .rule } }) s

def execRuleLoad (p t : Fin 56) (s : State) : Host.Outcome State Fault Refusal := ruleWith (.ruleLoad p t) 0 p t s
def execRuleStep (p t : Fin 56) (s : State) : Host.Outcome State Fault Refusal := ruleWith (.ruleStep p t) 1 p t s
def execRuleXch (p t : Fin 56) (s : State) : Host.Outcome State Fault Refusal := ruleWith (.ruleXch p t) 2 p t s
def execRuleQuery (p t : Fin 56) (s : State) : Host.Outcome State Fault Refusal := ruleWith (.ruleQuery p t) 3 p t s

/-! ## Work -/

/-- The header of a RULE: its bytes, or the status that refuses it (R245). -/
def ruleHdr (k : Core) (lim : List Nat) (off : Nat) : Except Nat (List Byte × TileHdr × Bool) :=
  if !lsRangeOk lim off 64 then .error 3
  else
    let a := lim.getD 0 0 + off
    let b := k.lsBytes a 64
    let x := tileHdr b
    if !tileHdrOk off b then .error 2 else if !tileInRange lim x then .error 3 else .ok (b, x, k.lsBad a 64)

/-- What a RULE's work comes to: a status with the state, a unit parked on a translation fault, or a STEP that the allowance stalls (R46). -/
inductive RuleEnd where
  | done (s : State) (status : Nat)
  | park (s : State) (unit_ : Nat) (bad : Bool) (va : Nat)
  | stall (s : State) (t : StepRun)
  deriving DecidableEq, Repr

/-- A piece of a range cut where its sectors end. -/
def Run.sectors : Run → List Run
  | .phys a n => (sectorAddrs a n).map fun p => .phys p (min (128 - p % 128) (a + n - p))
  | .nc a n => (sectorAddrs a n).map fun p => .nc p (min (128 - p % 128) (a + n - p))
  | .scratch a n => (sectorAddrs a n).map fun p => .scratch p (min (128 - p % 128) (a + n - p))

/-- Bytes of a piece. -/
def Run.len : Run → Nat
  | .phys _ n | .nc _ n | .scratch _ n => n

/-- The sectors of a LYR access: global memory, or the cluster scratch of the group's gang (R156, R254). -/
def lyrRuns (s : State) (g : Group) (need va n : Nat) : EGot (List Run) :=
  match engRuns s g.info.vdev g.info.gang need (n / 4096 + 2) va n with
  | .ok l => .ok (l.flatMap Run.sectors)
  | x => x

/-- Read sectors: each byte with whether its sector is poisoned (R169). -/
def lyrReadRuns (s : State) (cl : Nat) : List Run → State × List (Byte × Bool)
  | [] => (s, [])
  | r :: t =>
    let x := readRun s cl 0 0 r
    let y := lyrReadRuns x.1 cl t
    (y.1, x.2.1.map (·, x.2.2) ++ y.2)

/-- Read bytes of global memory or cluster scratch. -/
def lyrRead (s : State) (g : Group) (va n : Nat) : State × EGot (List (Byte × Bool)) :=
  match lyrRuns s g 1 va n with
  | .ok l => let x := lyrReadRuns s (clusterOf g.info.core) l; (x.1, .ok x.2)
  | .xlate va => (s, .xlate va)
  | .fatal c => (s, .fatal c)
  | .poison pa => (s, .poison pa)

/-- What stands below the L1s at a piece. -/
def Run.bytes (s : State) (cl : Nat) : Run → List Byte
  | .phys a n | .nc a n => (List.range n).map fun i => s.below (a + i)
  | .scratch a n => (s.cluster cl).sramBytes a n

/-- Write packed bytes sector by sector, each poisoned when a cell in it is (R250); `i` bytes of the line lie before. -/
def lyrWriteRuns (s : State) (cl cw : Nat) (cs : List TileCell) : Nat → List Run → List Byte → State
  | _, [], _ => s
  | i, r :: t, bs =>
    let bad := ((cs.drop (i * 8 / cw)).take (r.len * 8 / cw)).any (·.2)
    lyrWriteRuns (writeRuns s cl bad [r] (bs.take r.len)) cl cw cs (i + r.len) t (bs.drop r.len)

/-- Write cells of a line there, over what stands there. -/
def lyrWrite (s : State) (g : Group) (va cw : Nat) (cs : List TileCell) : State × EGot Unit :=
  let cl := clusterOf g.info.core
  match lyrRuns s g 2 va ((cs.length * cw + 7) / 8) with
  | .ok l => (lyrWriteRuns s cl cw cs 0 l (packRow (l.flatMap (Run.bytes s cl)) cw cs), .ok ())
  | .xlate va => (s, .xlate va)
  | .fatal c => (s, .fatal c)
  | .poison pa => (s, .poison pa)

/-- Poison met in a page-table entry of a RULE's access (R347). -/
def rulePoison (s : State) (g : Group) (x : RuleRun) (pa : Nat) : State := logPoison s g.info.vdev pa x.pc g.info.core g.info.slot

/-- Write bytes into local store, one 128-byte unit after another, each poisoned when a byte of it is (R169, R250). -/
def lyrStoreLs (k : Core) (a : Nat) (bs : List (Byte × Bool)) : Core :=
  (sectorAddrs a bs.length).foldl (fun k p =>
    let w := (bs.drop (p - a)).take (128 - p % 128)
    k.lsStore p (w.map (·.1)) (w.any (·.2))) k

/-- LOAD's table copy from beat `i` on, `n` beats (R251). -/
def loadBeats (g : Group) (x : RuleRun) (src dst tb : Nat) : Nat → Nat → Bool → State → RuleEnd
  | 0, _, bad, s => .done s (if bad then csPoison else 0)
  | n + 1, i, bad, s =>
    let len := min 256 (tb - 256 * i)
    let put (s : State) (bs : List (Byte × Bool)) : State := s.updCore g.info.core fun k => lyrStoreLs k (dst + 256 * i) bs
    match lyrRead s g ((src + 256 * i) % 2 ^ 64) len with
    | (s, .xlate va) => .park s i bad va
    | (s, .fatal _) => .done s csFault
    | (s, .poison pa) => loadBeats g x src dst tb n (i + 1) true (put (rulePoison s g x pa) (List.replicate len (0, true)))
    | (s, .ok bs) => loadBeats g x src dst tb n (i + 1) (bad || bs.any (·.2)) (put s bs)

/-- RULE.LOAD (R251). -/
def ruleLoad (s : State) (g : Group) (x : RuleRun) : RuleEnd :=
  let lim := limOf s g
  match ruleHdr (s.core g.info.core) lim (blkW x.block 0) with
  | .error e => .done s e
  | .ok (_, h, bad) =>
    if h.act then .done s 4
    else
      let base := lim.getD 0 0
      let src := blkP x.block 2
      match (if src = 0 then .done s (if x.bad || bad then csPoison else 0)
        else loadBeats g x src (base + h.table) h.tb ((h.tb + 255) / 256 - x.unit_) x.unit_ (x.bad || bad) s) with
      | .done s st =>
        if st = csFault then .done s st
        else .done (s.updCore g.info.core fun k => putHdr k (base + blkW x.block 0) (blkW x.block 1) 0 bad) st
      | e => e

/-- A STEP that Lyre may run, or the status that refuses it (R250, R252); poison that it met before a save counts on (R253). -/
def stepOf (s : State) (g : Group) (x : RuleRun) : Except Nat StepRun :=
  let lim := limOf s g
  let n := bitsAt (blkW x.block 1) 3 0
  match ruleHdr (s.core g.info.core) lim (blkW x.block 0) with
  | .error e => .error e
  | .ok (_, h, _) =>
    if bitsAt (blkW x.block 1) 31 4 ≠ 0 ∨ blkP x.block 2 ≠ 0 then .error 2
    else if n = 0 ∨ h.hw < n ∨ (h.act ∧ n ≠ h.gtot) then .error 4
    else
      let t := stepBegin (s.core g.info.core) (lim.getD 0 0) (blkW x.block 0) n
      .ok { t with bad := t.bad || x.bad }

/-- RULE.STEP (R252): as many rows as the allowance lets start (R46); the rest stays with Lyre. -/
def ruleStep (s : State) (g : Group) (x : RuleRun) : RuleEnd :=
  match (match x.step with | some t => Except.ok t | none => stepOf s g x) with
  | .error e => .done s e
  | .ok t =>
    let cl := clusterOf g.info.core
    let r := stepOn (s.core g.info.core) t t.rowsLeft (stepCc s cl)
    let u := (debit s cl (20 * r.2.2.1)).setCore g.info.core r.1
    match r.2.1 with
    | none => .done u (if r.2.2.2 then csPoison else 0)
    | some t => .stall u t

/-! ## XCH (R254) -/

/-- The line of a strip that PUT reads, or that GET writes: row or column number. -/
def lineAt (h : TileHdr) (side i : Nat) (put : Bool) : Nat :=
  let n := if side ≤ 1 then h.h else h.w
  if side % 2 = 0 then (if put then h.hw + i else i) else if put then n - 2 * h.hw + i else n - h.hw + i

/-- Cells of a line, and their number. -/
def lineLen (h : TileHdr) (side : Nat) : Nat := if side ≤ 1 then h.w else h.h
def getLine (k : Core) (base : Nat) (h : TileHdr) (side n : Nat) : List TileCell :=
  let g := tileCells k base h
  if side ≤ 1 then g.getD n [] else g.map fun r => r.getD n (0, false)

/-- Write a line of a tile. (DESIGN CHOICE, log 56) -/
def putLine (k : Core) (base : Nat) (h : TileHdr) (side n : Nat) (cs : List TileCell) : Core :=
  let g := tileCells k base h
  storeTile k base h (if side ≤ 1 then g.set n cs else (g.zip cs).map fun e => e.1.set n e.2)

/-- Cells of packed bytes, each poisoned when its byte is. -/
def unpackLine (bs : List (Byte × Bool)) (n cw : Nat) : List TileCell :=
  (List.range n).map fun c => (elemAt (bs.map (·.1)) cw c, (bs.getD (c * cw / 8) (0, false)).2)

/-- The buffer of an XCH. -/
def xchGlobal (x : RuleRun) : Bool := decide (bitsAt (blkW x.block 1) 5 4 = 0)

/-- Whether the addresses of a global buffer are those of R156, in cluster scratch within its gang's units (R254). -/
def bufferOk (s : State) (g : Group) (va n : Nat) : Bool :=
  (List.range (n / 4096 + 1)).all (fun i => ok ((va + 4096 * i) % 2 ^ 64)) && (decide (n = 0) || ok ((va + n - 1) % 2 ^ 64))
where
  /-- One address. -/
  ok (a : Nat) : Bool := match addrClass a with
    | .translated => true
    | .scratch off => (gangScratch s g.info.gang off).isSome
    | .bad => false

/-- The lines of a PUT or GET from line `i` on. -/
def xchLines (g : Group) (x : RuleRun) (h : TileHdr) (base : Nat) (put : Bool) (side lp : Nat) : Nat → Nat → Bool → State → RuleEnd
  | 0, _, bad, s => .done s (if bad then csPoison else 0)
  | n + 1, i, bad, s =>
    let len := lineLen h side
    let k := s.core g.info.core
    let va := (blkP x.block 2 + lp * i) % 2 ^ 64
    let la := base + blkW x.block 2 + lp * i
    let nb := (len * h.cw + 7) / 8
    let go (b : Bool) (s : State) : RuleEnd := xchLines g x h base put side lp n (i + 1) (bad || b) s
    let local_ (s : State) : State := s.moved (clusterOf g.info.core) (sectorsOf la nb)
    if put then
      let cs := getLine k base h side (lineAt h side i true)
      let b := cs.any (·.2)
      if !xchGlobal x then go b ((local_ s).updCore g.info.core fun k => storeRow k la h.cw cs)
      else match lyrWrite s g va h.cw cs with
        | (s, .xlate va) => .park s i bad va
        | (s, .fatal _) => .done s csFault
        | (s, .poison pa) => go true (rulePoison s g x pa)
        | (s, .ok _) => go b s
    else
      let line := lineAt h side i false
      let put' (s : State) (cs : List TileCell) : State := s.updCore g.info.core fun k => putLine k base h side line cs
      if !xchGlobal x then let cs := rowCells k la len h.cw; go (cs.any (·.2)) (put' (local_ s) cs)
      else match lyrRead s g va nb with
        | (s, .xlate va) => .park s i bad va
        | (s, .fatal _) => .done s csFault
        | (s, .poison pa) => go true (put' (rulePoison s g x pa) (List.replicate len (0, true)))
        | (s, .ok bs) => go (bs.any (·.2)) (put' s (unpackLine bs len h.cw))

/-- RULE.XCH (R254). -/
def ruleXch (s : State) (g : Group) (x : RuleRun) : RuleEnd :=
  let lim := limOf s g
  let base := lim.getD 0 0
  let c := blkW x.block 1
  let side := bitsAt c 1 0
  let op := bitsAt c 3 2
  let k := s.core g.info.core
  match ruleHdr k lim (blkW x.block 0) with
  | .error e => .done s e
  | .ok (_, h, hbad) =>
    let len := lineLen h side
    let lp := cellPitch len h.cw
    if bitsAt c 31 6 ≠ 0 ∨ op = 3 ∨ 1 < bitsAt c 5 4 ∨ (op ≠ 2 ∧ !xchGlobal x ∧ blkW x.block 3 ≠ 0) then .done s 2
    else if op = 2 then
      match ruleHdr k lim (blkW x.block 2) with
      | .error e => .done s e
      | .ok (_, p, pbad) =>
        if p.cw ≠ h.cw ∨ p.hw ≠ h.hw ∨ lineLen p side ≠ len then .done s 2
        else if h.act then .done s 4
        else
          let opp := if side % 2 = 0 then side + 1 else side - 1
          let lines := (List.range h.hw).map fun i => (lineAt h side i false, getLine k base p opp (lineAt p opp i true))
          let bad := hbad || pbad || lines.any fun e => e.2.any (·.2)
          .done ((s.moved (clusterOf g.info.core) (h.hw * sectorsOf 0 ((len * h.cw + 7) / 8))).updCore g.info.core fun k => lines.foldl (fun k e => putLine k base h side e.1 e.2) k) (if bad then csPoison else 0)
    else if !xchGlobal x ∧ !lsRangeOk lim (blkW x.block 2) (h.hw * lp) then .done s 3
    else if h.act then .done s 4
    else if xchGlobal x ∧ !bufferOk s g (blkP x.block 2) (h.hw * lp) then .done s csFault
    else xchLines g x h base (decide (op = 0)) side lp (h.hw - x.unit_) x.unit_ (x.bad || hbad) s

/-! ## Events -/

/-- RULE_START: Lyre takes the oldest RULE of its core once the group's earlier LSU accesses are performed: a release (R243, R250). One that a save left
parked waits for its answer. (DEDUCED, log 105) -/
def evRuleStart (core : Nat) (s : State) : Option State :=
  match (s.core core).rules with
  | [] => none
  | x :: rest =>
    (s.group? x.group).bind fun g =>
      if x.started || decide (x.token ≠ 0) || !deviceLive s g.info.vdev || outstanding g [clsLSU] then none
      else
        let s := s.writeBackAll core
        let step := if x.mode = 1 then (stepOf s g x).toOption else none
        some (s.updCore core fun k => { k with rules := { x with started := true, step := step } :: rest })

/-- Write T and let the group go on; PROGRESS of a RULE that a save left part-way reads 0 again (R328). -/
def ruleDone (s : State) (core gid : Nat) (x : RuleRun) (status : Nat) (extra : List Word) : State :=
  let s := s.updCore core fun k => { k with rules := k.rules.filter fun r => decide (r.req ≠ x.req) }
  (wake s gid).updGroup gid fun g =>
    let r := (g.r.setGs ((List.range 3).map (x.p + 1 + ·)) extra).setG x.t (BitVec.ofNat 32 status)
    { g with r := { r with progress := if x.part then 0 else r.progress } }

/-- RULE_COMPLETE: the RULE that Lyre has taken does its work, or parks at a unit on a translation fault (R250, R325); no row starts while
the allowance is spent (R46). -/
def evRuleComplete (core : Nat) (s : State) : Option State :=
  match (s.core core).rules with
  | [] => none
  | x :: rest =>
    (s.group? x.group).bind fun g =>
      let runs : Bool := x.step.isSome || (decide (x.mode = 1) && (stepOf s g x).toOption.isSome)
      if !x.started || decide (x.token ≠ 0) || !deviceLive s g.info.vdev || (runs && decide ((s.cluster (clusterOf core)).energy ≤ 0)) then none
      else if x.mode = 3 then
        let lim := limOf s g
        let off := blkW x.block 0
        if lim.getD 1 0 < off + 64 then some (ruleDone s core x.group x 3 [])
        else
          let b := (s.core core).lsBytes (lim.getD 0 0 + off) 64
          let h := tileHdr b
          some (ruleDone s core x.group x (if (s.core core).lsBad (lim.getD 0 0 + off) 64 then csPoison else 0)
            [BitVec.ofNat 32 h.gen, BitVec.ofNat 32 h.prog, if tileHdrOk off b && lsRangeOk lim off 64 && tileInRange lim h then BitVec.ofNat 32 h.bw else BitVec.allOnes 32])
      else match (if x.mode = 0 then ruleLoad s g x else if x.mode = 1 then ruleStep s g x else ruleXch s g x) with
        | .done s st => some (ruleDone s core x.group x st [])
        | .stall s t => some (s.updCore core fun k => { k with rules := { x with step := some t } :: rest })
        | .park s u bad va =>
          let r := newToken s g.info.vdev (.wait x.group)
          let s := r.1.updCore core fun k => { k with rules := { x with unit_ := u, bad := bad, token := r.2 } :: rest }
          some (logEvent s g.info.vdev evXlate 0x20 0 127 g.info.gen va x.pc core g.info.slot r.2)

/-- RETRY of a parked RULE: its unit is tried again; ABORT completes it with FAULT (R198, R310). -/
def answerRule (s : State) (gid token : Nat) (retry : Bool) : State :=
  match s.group? gid with
  | none => s
  | some g => match (s.core g.info.core).rules.find? fun x => decide (x.group = gid) && decide (x.token = token) with
    | none => s
    | some x =>
      if retry then s.updCore g.info.core fun k => { k with rules := k.rules.map fun y => if y.req = x.req then { y with token := 0 } else y }
      else ruleDone s g.info.core gid x csFault []

def execRuleStart (core : Nat) (s : State) : Host.Outcome State Fault Refusal := ofEvent (evRuleStart core s) s
def execRuleComplete (core : Nat) (s : State) : Host.Outcome State Fault Refusal := ofEvent (evRuleComplete core s) s

end Sys2Proof.Machine
end

