-- ==== Sys2Proof/Machine/Wire.lean ====
section
/-! DEFINITION. Koto's encodings (13): fields and deltas (R263), key histories (R272), substitutes (R273), datagrams and record entries
(R264, R265, R267, R268), and the frames that carry them (R2, R260). -/
namespace Sys2Proof.Machine

/-- Cycles of a number of microseconds (R29). -/
def usCc (n : Nat) : Nat := 800 * n

/-- The distance from `b` up to `a` modulo 2^32, and whether `a` precedes `b` (R264). -/
def dist32 (a b : Nat) : Nat := (a + 2 ^ 32 - b % 2 ^ 32) % 2 ^ 32
def precedes (a b : Nat) : Bool := decide (dist32 (b + 2 ^ 32 - 1) a < 2 ^ 31)

/-- A number of `n` bits as a signed integer, and as a signed 32-bit one. -/
def signed (n v : Nat) : Int := (BitVec.ofNat n v).toInt
def wrap (n : Nat) (v : Int) : Nat := (v % (2 ^ n : Nat)).toNat

/-! ## Fields (R261, R263) -/

/-- q of a QF field: the exact quotient by STEP rounded to nearest even and saturated; a NaN takes the lowest code. -/
def qfOf (f : FieldDesc) (v : Word) : Int :=
  let hi : Int := 2 ^ (f.wb - 1) - 1
  match f32 v, f32 f.step with
  | .nan, _ => -(2 ^ (f.wb - 1))
  | .inf s, _ => if s then -hi else hi
  | .fin s m e, .fin _ n g =>
    let num := m * 2 ^ (e - g).toNat
    let den := n * 2 ^ (g - e).toNat
    let k := num / den
    let r := num % den
    let k := if den < 2 * r ∨ (2 * r = den ∧ k % 2 = 1) then k + 1 else k
    max (-hi) (min hi (if s then -(k : Int) else k))
  | _, _ => 0

/-- The value of a QF code; the lowest one stands for a NaN, which is never sent as a delta. -/
def qfVal (f : FieldDesc) (q : Int) (absolute : Bool) : Word :=
  if absolute ∧ q = -(2 ^ (f.wb - 1)) then nan32 else (rne32 (Ex.mul (Ex.ofInt q) (f32 f.step)).1).1

/-- What the history keeps of a sent or decoded value as the base of deltas: q for QF, the value otherwise. -/
def baseOf (f : FieldDesc) (v : Word) : Nat := if f.type_ = 2 then wrap 32 (qfOf f v) else v.toNat

/-- Wire bits of a field in absolute form and as a delta. -/
def fieldWidth (f : FieldDesc) (absolute : Bool) : Nat := if f.type_ = 2 ∨ (f.dlt ∧ !absolute) then f.wb else 32

/-- The delta of a value against a base, and whether it fits WB bits. -/
def deltaOf (f : FieldDesc) (v : Word) (base : Nat) : Int :=
  if f.type_ = 2 then qfOf f v - signed 32 base else signed 32 (dist32 v.toNat base)
def deltaFits (f : FieldDesc) (d : Int) : Bool := decide (-(2 ^ (f.wb - 1)) ≤ d) && decide (d < 2 ^ (f.wb - 1))

/-- Whether a field's value is a NaN that QF sends in absolute form. -/
def qfNan (f : FieldDesc) (v : Word) : Bool := decide (f.type_ = 2) && decide (f32 v = .nan)

/-- The wire bits of a value in one of the two forms. -/
def rawOf (f : FieldDesc) (v : Word) (base : Nat) (absolute : Bool) : Nat :=
  if absolute then (if f.type_ = 2 then wrap f.wb (qfOf f v) else v.toNat) else wrap f.wb (deltaOf f v base)

/-- A decoded field: value, and new base. -/
def decodeRaw (f : FieldDesc) (raw base : Nat) (absolute : Bool) : Word × Nat :=
  if f.type_ = 2 then
    let q := if absolute then signed f.wb raw else signed 32 base + signed f.wb raw
    (qfVal f q absolute, wrap 32 q)
  else
    let v := if absolute then raw else (base + wrap 32 (signed f.wb raw)) % 2 ^ 32
    (BitVec.ofNat 32 v, v)

/-! ## Key histories (R272) -/

/-- A key history entry. -/
structure Hist where
  v : Bool
  key : Nat
  seq0 : Nat
  frm0 : Nat
  frm1 : Nat
  subm0 : Nat
  subm1 : Nat
  hn : Nat
  qvm : Nat
  qseq : Nat
  cnt : Nat
  h0 : List Word
  h1 : List Word
  qb : List Nat
  deriving DecidableEq, Repr, Inhabited

def histOf (b : List Byte) : Hist :=
  let w := field b 0 4
  { v := bit w 24
    key := bitsAt w 23 0
    seq0 := field b 4 4
    frm0 := field b 8 4
    frm1 := field b 0xC 4
    subm0 := field b 0x10 2
    subm1 := field b 0x12 2
    hn := bitsAt (field b 0x14 4) 17 16
    qvm := field b 0x14 2
    qseq := field b 0x18 4
    cnt := field b 0x1C 4
    h0 := bytesWords 16 ((b.drop 0x20).take 64)
    h1 := bytesWords 16 ((b.drop 0x60).take 64)
    qb := (bytesWords 16 ((b.drop 0xA0).take 64)).map (·.toNat) }

/-- A list of 16 words. -/
def pad16 (l : List Word) : List Word := (List.range 16).map fun i => l.getD i 0

def histBytes (h : Hist) : List Byte :=
  leBytes 4 (h.v.toNat * 2 ^ 24 + h.key) ++ leBytes 4 h.seq0 ++ leBytes 4 h.frm0 ++ leBytes 4 h.frm1
    ++ leBytes 4 (h.subm1 * 2 ^ 16 + h.subm0) ++ leBytes 4 (h.hn * 2 ^ 16 + h.qvm) ++ leBytes 4 h.qseq ++ leBytes 4 h.cnt
    ++ wordBytes (pad16 h.h0) ++ wordBytes (pad16 h.h1) ++ wordBytes (pad16 (h.qb.map (BitVec.ofNat 32))) ++ List.replicate 32 0

/-- An entry with nothing in it but a key. -/
def Hist.fresh (key : Nat) : Hist := ⟨false, key, 0, 0, 0, 0, 0, 0, 0, 0, 0, [], [], []⟩

/-- The entry of a key from what stands in its place: another key's is cleared; the flag says that one was taken over. -/
def Hist.forKey (h : Hist) (key : Nat) : Hist × Bool := if h.v && decide (h.key = key) then (h, false) else (Hist.fresh key, h.v)

/-! ## Record entries (R263, R265) -/

/-- Whether the count or the distance makes every delta field absolute. -/
def allAbsolute (fs : List FieldDesc) (h : Hist) (seq : Nat) : Bool :=
  !h.v || decide (2 ^ 16 ≤ dist32 seq h.qseq) || fs.any fun f => f.dlt && decide (2 ^ f.rfr ≤ h.cnt)

/-- Whether a field of a record is sent in absolute form. -/
def sendAbs (f : FieldDesc) (k : Nat) (h : Hist) (force : Bool) (v : Word) : Bool :=
  !f.dlt || force || qfNan f v || !deltaFits f (deltaOf f v (h.qb.getD k 0))

/-- The fields of a record with their number, value and form. -/
def sendForms (fs : List FieldDesc) (h : Hist) (seq : Nat) (ws : List Word) : List (FieldDesc × Nat × Word × Bool) :=
  fs.zipIdx.map fun x => (x.1, x.2, ws.getD x.2 0, sendAbs x.1 x.2 h (allAbsolute fs h seq) (ws.getD x.2 0))

/-- Fields of varying width as one bit stream. -/
def packVar : List (Nat × Nat) → Nat
  | [] => 0
  | (w, v) :: t => v % 2 ^ w + 2 ^ w * packVar t

/-- The record entry of a record, and the sender's history after it. -/
def encodeRec (fs : List FieldDesc) (h : Hist) (key seq : Nat) (ws : List Word) : List Byte × Hist :=
  let l := sendForms fs h seq ws
  let delta := l.any fun x => !x.2.2.2
  let absM := l.foldl (fun m x => if x.1.dlt && x.2.2.2 then m + 2 ^ x.2.1 else m) 0
  let bits := l.map fun x => (fieldWidth x.1 x.2.2.2, rawOf x.1 x.2.2.1 (h.qb.getD x.2.1 0) x.2.2.2)
  let n := bits.foldl (fun n x => n + x.1) 0
  (leBytes 3 key ++ leBytes 2 absM ++ leBytes 2 (if delta then dist32 seq h.qseq else 0) ++ leBytes ((n + 7) / 8) (packVar bits),
    { h with v := true, key := key, qseq := seq, qvm := 0xFFFF, cnt := if delta then h.cnt + 1 else 1,
             qb := l.map fun x => baseOf x.1 x.2.2.1 })

/-- A void entry. -/
def voidEntry : List Byte := [0, 0, 0, 0xFF, 0xFF, 0xFF, 0xFF]

/-- The raw bits of fields taken from a bit stream. -/
def unpackVar : List Nat → Nat → List Nat
  | [], _ => []
  | w :: t, v => v % 2 ^ w :: unpackVar t (v / 2 ^ w)

/-- One entry at the head of some bytes: a record or a void, with what follows; none when it does not end within them or is malformed. -/
def readEntry (fs : List FieldDesc) (frame cg : Nat) (b : List Byte) : Option (Option WireRec × List Byte) :=
  if b.length < 7 then none
  else
    let key := field b 0 3
    let absM := field b 3 2
    let rd := field b 5 2
    if absM = 0xFFFF ∧ rd = 0xFFFF then (if key = 0 then some (none, b.drop 7) else none)
    else
      let ws := fs.zipIdx.map fun x => fieldWidth x.1 (bit absM x.2)
      let n := (ws.foldl (· + ·) 0 + 7) / 8
      if b.length < 7 + n then none
      else some (some ⟨key, absM, rd, unpackVar ws (leNat ((b.drop 7).take n)), frame, cg⟩, b.drop (7 + n))

/-- All entries of a datagram; none when they do not end exactly at its end (R269). -/
def readEntries (fs : List FieldDesc) (frame cg : Nat) : Nat → List Byte → Option (List (Option WireRec))
  | 0, b => if b = [] then some [] else none
  | n + 1, b => (readEntry fs frame cg b).bind fun x => (readEntries fs frame cg n x.2).map fun l => x.1 :: l

/-! ## Substitutes (R273) -/

/-- A quotient of finite values, to far more bits than F32 keeps. -/
def exDiv : Ex → Ex → Ex
  | .fin s m e, .fin t n f =>
    if n = 0 then .nan
    else if m = 0 then .fin (s != t) 0 0
    else let q := quotSticky m n 80; .fin (s != t) q.1 (e - f + q.2)
  | _, _ => .nan

/-- A value of a type as an exact integer. -/
def typeInt (f : FieldDesc) (v : Word) : Int := if f.type_ = 3 then v.toInt else v.toNat

/-- A substitute field from the key's entry for frame `fr`, and whether it was predicted (R273, R274). -/
def substField (f : FieldDesc) (k : Nat) (h : Hist) (fr : Nat) : Word × Bool :=
  let h0 := h.h0.getD k 0
  let h1 := h.h1.getD k 0
  if f.pol = 2 then (0, false)
  else if f.pol = 3 ∨ h.hn = 0 then (f.dflt, false)
  else if f.pol = 0 ∨ h.hn = 1 then (h0, false)
  else
    let t := signed 32 (dist32 fr h.frm0)
    let u := signed 32 (dist32 h.frm0 h.frm1)
    if u ≤ 0 ∨ f.type_ = 0 then (h0, false)
    else if f.type_ ≤ 2 then
      let d := (rne32 (Ex.add false (f32 h0) (f32 h1).neg).1).1
      let g := (rne32 (exDiv (f32 (rne32 (Ex.ofInt t)).1) (f32 (rne32 (Ex.ofInt u)).1))).1
      let p := (rne32 (Ex.mul (f32 d) (f32 g)).1).1
      ((rne32 (Ex.add false (f32 h0) (f32 p)).1).1, true)
    else
      let v := typeInt f h0 + ((typeInt f h0 - typeInt f h1) * t).tdiv u
      let lo : Int := if f.type_ = 3 then -(2 ^ 31 : Nat) else 0
      let hi : Int := if f.type_ = 3 then 2 ^ 31 - 1 else 2 ^ 32 - 1
      (BitVec.ofInt 32 (max lo (min hi v)), true)

/-- A field of a placed record: value, new base when it was decoded, whether it was predicted. -/
structure FieldOut where
  v : Word
  base : Option Nat
  pred : Bool
  deriving DecidableEq, Repr

/-- The fields of a received record, or of a substitute (R272 to R274). -/
def placeFields (fs : List FieldDesc) (h : Hist) (seq frame : Nat) (r : Option WireRec) : List FieldOut :=
  fs.zipIdx.map fun x =>
    let sub : FieldOut := let y := substField x.1 x.2 h frame; ⟨y.1, none, y.2⟩
    match r with
    | none => sub
    | some r =>
      let a := !x.1.dlt || bit r.abs x.2
      if a || (h.v && decide (r.rdist = dist32 seq h.qseq) && bit h.qvm x.2) then
        let y := decodeRaw x.1 (r.raws.getD x.2 0) (h.qb.getD x.2 0) a
        ⟨y.1, some y.2, false⟩
      else sub

/-- The status bits of placed fields (R274): SUB, PRED. -/
def fieldStatus (l : List FieldOut) : Nat := (l.any fun x => x.base.isNone).toNat + 2 * (l.any (·.pred)).toNat

/-- The receiver's history after a placement (R272). -/
def histAfter (h : Hist) (seq frame : Nat) (l : List FieldOut) : Hist :=
  let subm := l.zipIdx.foldl (fun m x => if x.1.base.isNone then m + 2 ^ x.2 else m) 0
  { h with
    v := true
    seq0 := seq
    frm1 := h.frm0
    frm0 := frame
    subm1 := h.subm0
    subm0 := subm
    hn := min 2 (h.hn + 1)
    h1 := pad16 h.h0
    h0 := pad16 (l.map (·.v))
    qseq := seq
    qvm := l.zipIdx.foldl (fun m x => if x.1.base.isSome then m + 2 ^ x.2 else m) 0
    qb := l.zipIdx.map fun x => x.1.base.getD (h.qb.getD x.2 0) }

/-! ## Datagrams (R264, R267, R268) -/

/-- The head of a datagram of a type. -/
def dgHead (type_ cg eid sid : Nat) : List Byte := leBytes 1 (0x10 + type_) ++ leBytes 1 (cg % 16 * 16) ++ leBytes 2 eid ++ leBytes 4 sid

/-- A data datagram: its manifest is given as words, its entries as bytes. (DEDUCED, log 60) -/
def dataDg (cg eid sid dseq frame seq0 nrec voidm : Nat) (manifest : List Nat) (body : List Byte) : List Byte :=
  dgHead 0 cg eid sid ++ leBytes 4 dseq ++ leBytes 4 frame ++ leBytes 4 seq0 ++ leBytes 1 nrec ++ leBytes 1 voidm ++ leBytes 2 body.length
    ++ manifest.flatMap (leBytes 4) ++ body

/-- The exclusive or of byte strings, each padded with zeros to the longest. -/
def xorBytes (l : List (List Byte)) : List Byte :=
  (List.range (l.foldl (fun n b => max n b.length) 0)).map fun i => l.foldl (fun a b => a ^^^ b.getD i 0) 0

/-- A parity datagram of some members. -/
def parityDg (cg eid sid first : Nat) (ms : List (List Byte)) : List Byte :=
  dgHead 1 cg eid sid ++ leBytes 4 first ++ (List.range 4).flatMap (fun i => leBytes 2 (ms.getD i []).length) ++ xorBytes ms

/-- A message of the reliable lane, and an acknowledgement. -/
def reliableMsg (kind num sid rseq frame total off : Nat) (body : List Byte) : List Byte :=
  leBytes 1 0x12 ++ leBytes 1 kind ++ leBytes 2 num ++ leBytes 4 sid ++ leBytes 4 rseq ++ leBytes 4 frame ++ leBytes 4 total ++ leBytes 4 off ++ body
def ackMsg (sid expect : Nat) : List Byte := leBytes 1 0x13 ++ leBytes 3 0 ++ leBytes 4 sid ++ leBytes 4 expect ++ leBytes 4 0

/-! ## The port and the reliable lane (R260, R268) -/

/-- Numbers in the byte order of IEEE 802.3, IPv6 and UDP (R2). -/
def beBytes (n v : Nat) : List Byte := (leBytes n v).reverse
def beNat (b : List Byte) : Nat := leNat b.reverse
def beField (b : List Byte) (off n : Nat) : Nat := beNat ((b.drop off).take n)

/-- The sum of the 16-bit words of some bytes, a last odd byte standing high. -/
def sum16 : List Byte → Nat
  | [] => 0
  | [a] => a.toNat * 256
  | a :: b :: t => a.toNat * 256 + b.toNat + sum16 t

/-- A sum reduced to 16 bits in ones' complement. -/
def fold16 (n : Nat) : Nat := if n = 0 then 0 else (n - 1) % 65535 + 1

/-- The sum that a UDP checksum makes all ones: the pseudo-header's addresses, length and protocol, and the datagram. -/
def udpSum (src dst udp : List Byte) : Nat := fold16 (sum16 (src ++ dst ++ beBytes 4 udp.length ++ beBytes 4 17) + sum16 udp)

/-- A UDP datagram between two addresses and ports, with its checksum (R260). -/
def udpOf (src dst : List Byte) (sport dport : Nat) (body : List Byte) : List Byte :=
  let head (c : Nat) : List Byte := beBytes 2 sport ++ beBytes 2 dport ++ beBytes 2 (8 + body.length) ++ beBytes 2 c
  let c := 65535 - udpSum src dst (head 0 ++ body)
  head (if c = 0 then 65535 else c) ++ body

/-- The flow label of a Koto payload: EID + 2^16 * CDC; EID 0 for what names no edge (R260; DESIGN CHOICE, log 60). -/
def flowOf (codec : Nat) (b : List Byte) : Nat :=
  let named : Bool := decide (field b 0 1 % 16 ≤ 1) || (decide (field b 0 1 % 16 = 2) && decide (field b 1 1 = 4))
  codec % 2 * 2 ^ 16 + if named then field b 2 2 else 0

/-- The Ethernet frame that carries a Koto payload to a peer (R259, R260): Ethernet II, the fixed IPv6 header with hop limit 64, UDP. -/
def frameOf (c : Codec) (codec peer : Nat) (b : List Byte) : List Byte :=
  let src := peerBytes c peer 0 16
  let dst := peerBytes c peer 0x10 16
  let udp := udpOf src dst (peerNum c peer 0x28 2) (peerNum c peer 0x2A 2) b
  peerBytes c peer 0x20 6 ++ (List.range 6).map (Config.portMac (peerPort c peer)) ++ beBytes 2 0x86DD
    ++ beBytes 4 (6 * 2 ^ 28 + peerTc c peer * 2 ^ 20 + flowOf codec b) ++ beBytes 2 udp.length ++ [17, 64] ++ src ++ dst ++ udp

/-- Hand a Koto payload to a codec's port. -/
def sendWire (s : State) (codec peer : Nat) (b : List Byte) : State :=
  s.updCodec codec fun c => { c with wire := c.wire ++ [(peerPort c peer, frameOf c codec peer b)] }

/-- A Koto payload as it arrived, with the address and the port it was sent to. -/
structure Arrived where
  dst : List Byte
  port : Nat
  body : List Byte
  deriving DecidableEq, Repr

/-- What the far port takes from a frame (R260): Ethernet II with EtherType 0x86DD of at most 9,022 bytes, the fixed IPv6 header with UDP next to
it, a UDP datagram with a good checksum. Anything else is dropped. -/
def arrivedOf (f : List Byte) : Option Arrived :=
  let ip := f.drop 14
  let udp := (ip.drop 40).take (beField ip 44 2)
  let src := (ip.drop 8).take 16
  let dst := (ip.drop 24).take 16
  if decide (f.length ≤ 9022) && decide (62 ≤ f.length) && decide (beField f 12 2 = 0x86DD) && decide (beField ip 0 1 / 16 = 6) && decide (beField ip 6 1 = 17)
      && decide (8 ≤ beField ip 44 2) && decide (beField ip 44 2 ≤ beField ip 4 2) && decide (beField ip 4 2 + 54 ≤ f.length)
      && decide (beField udp 6 2 ≠ 0) && decide (udpSum src dst udp = 65535) then
    some ⟨dst, beField udp 2 2, udp.drop 8⟩
  else none

/-- What a codec takes from a frame that arrives; a dropped one is counted in the codec's port counters. `f` sees what is taken. -/
def ofFrame (s : State) (codec : Nat) (f : List Byte) (g : Arrived → Option State) : Option State :=
  match arrivedOf f with
  | some a => g a
  | none => if codec < 2 then some (s.updCodec codec fun c => { c with dropped := c.dropped + 1 }) else none

/-- Whether a peer entry is the one that an arrival names: V, local address, local port, SID (R260). -/
def peerTakes (c : Codec) (a : Arrived) (sid p : Nat) : Bool :=
  peerV c p && decide (peerSid c p = sid) && decide (peerBytes c p 0 16 = a.dst) && decide (peerNum c p 0x28 2 = a.port)

/-- Send a message on the reliable lane of a session: first resend after 100 µs. -/
def sendReliable (s : State) (codec peer kind num frame total off : Nat) (body : List Byte) : State :=
  let c := s.codec codec
  let x := mget (⟨0, [], 0, []⟩ : Session) c.sessions peer
  let m := reliableMsg kind num (peerSid c peer) x.next frame total off body
  let y : Session := { x with next := (x.next + 1) % 2 ^ 32, unacked := x.unacked ++ [(x.next, m, s.now + usCc 100, usCc 100)] }
  sendWire (s.updCodec codec fun c => { c with sessions := mset c.sessions peer y }) codec peer m

/-- The valid peer entry with a session identifier, and the one that an arrival names. -/
def peerOfSid (c : Codec) (sid : Nat) : Option Nat := (List.range 64).find? fun p => peerV c p && decide (peerSid c p = sid)
def peerOf (c : Codec) (a : Arrived) (sid : Nat) : Option Nat := (List.range 64).find? (peerTakes c a sid)

end Sys2Proof.Machine
end

