-- ==== Sys2Proof/Machine/Koto.lean ====
section
/-! DEFINITION. The edge codecs at work (13): draining a sender's ring into datagrams (R266, R267), the receiver's settlement, placement
and corrections (R269 to R275), and the end of a remote edge (R285). -/
namespace Sys2Proof.Machine

/-! ## Memory as a codec reaches it -/

/-- Write bytes in pieces of physical memory. -/
def putRuns (s : State) : List Run → List Byte → State
  | .phys a n :: t, bs | .nc a n :: t, bs => putRuns ((s.storeBelow a (bs.take n) false).wroteAs false a n) t (bs.drop n)
  | _, _ => s

/-- Write bytes of a context's memory below the L1s, whole or not at all: a translation fault lets the codec wait, after any other fault it goes on
(DEDUCED, log 57); poison in a page-table entry is logged (R347). -/
def sysWrite (s : State) (vdev va : Nat) (bs : List Byte) : Option State :=
  match engRuns s vdev none 2 (bs.length / 4096 + 2) va bs.length with
  | .ok l => some (putRuns s l bs)
  | .xlate _ => none
  | x => some (fePoison s vdev x)

/-- The key history entry of a key, with whether another key's was taken over (R272); `none` where the table does not translate, and an empty entry
where it cannot be read for another reason (DEDUCED, log 57). -/
def histGet (s : State) (vdev : Nat) (m : Remote) (key : Nat) : Option (State × Hist × Bool) :=
  let a := m.kht + 256 * (key % 2 ^ m.kcl)
  match sysBytes s vdev 1 2 a 256 with
  | .ok b => some (s.sysReads vdev [(a, 256)], (histOf b).forKey key)
  | .xlate _ => none
  | x => some (fePoison s vdev x, Hist.fresh key, false)

def histPut (s : State) (vdev : Nat) (m : Remote) (h : Hist) : Option State :=
  sysWrite s vdev (m.kht + 256 * (h.key % 2 ^ m.kcl)) (histBytes h)

/-- Count on a remote edge (R283). -/
def Remote.count (m : Remote) (i n : Nat) : Remote := if n = 0 then m else { m with cnt := dset 0 m.cnt i ((mget 0 m.cnt i + n) % 2 ^ 32) }

/-- Whether a codec serves a context's edge now: those of a saved context too (R316); those of a context whose VSIDE changed while it was in use stand
still until RESET (R257). -/
def codecServes (s : State) (e : Edge) : Bool :=
  !e.stuck s && match (s.vdev e.vdev).st with
  | .free | .resetting => false
  | _ => true

/-- Whether a codec reaches an edge's ring now: one in FIFO banks stands on its partition only while its device is LIVE (R316). -/
def ringServes (s : State) (e : Edge) : Bool := codecServes s e && (!e.loc || deviceLive s e.vdev)

/-- A remote edge with its codec state. -/
def remoteAt (s : State) (edge : Nat) : Option (Edge × Remote) :=
  (find? s.edges edge).bind fun e => (find? s.remotes edge).map fun m => (e, m)

/-- CG of the context that owns an edge (R11, R264). -/
def cgOf (s : State) (vdev : Nat) : Nat := (s.vdev vdev).cutgen % 16

/-! ## The sender (R264 to R267) -/

/-- Manifest word i of a datagram whose first sequence is `seq0`, and whether its VOIDM bit is set. -/
def manifestEntry (m : Remote) (seq0 i : Nat) : Nat × Bool :=
  let n := (seq0 + 2 ^ 32 + i - 8) % 2 ^ 32
  if m.sentVoids.contains n then (0, true)
  else match find? m.sentKeys n with
    | some (fr, key) => (fr % 256 * 2 ^ 24 + key, false)
    | none => (0, false)

/-- Close the open parity group: its parity datagram is sent, and the next data datagram starts a group (R267). -/
def sendParity (s : State) (edge : Nat) : State :=
  match remoteAt s edge with
  | none => s
  | some (e, m) =>
    if m.members = [] then s
    else
      let first := (m.dseq + 2 ^ 32 - m.members.length) % 2 ^ 32
      let s := sendWire s m.codec m.peer (parityDg (cgOf s e.vdev) m.eid (peerSid (s.codec m.codec) m.peer) first m.members)
      s.updRemote edge fun m => { m.count 13 1 with members := [], dseq := (m.dseq + 3) / 4 * 4 % 2 ^ 32 }

/-- Hand one data datagram to the port: with its group's fourth member the parity follows (R267). -/
def sendData (s : State) (edge frame seq0 nrec : Nat) (body : List Byte) : State :=
  match remoteAt s edge with
  | none => s
  | some (e, m) =>
    let ms := (List.range 8).map (manifestEntry m seq0)
    let voidm := (ms.zipIdx).foldl (fun v x => if x.1.2 then v + 2 ^ x.2 else v) 0
    let d := dataDg (cgOf s e.vdev) m.eid (peerSid (s.codec m.codec) m.peer) m.dseq frame seq0 nrec voidm (ms.map (·.1)) body
    let s := (sendWire s m.codec m.peer d).updRemote edge fun m =>
      { m with dseq := (m.dseq + 1) % 2 ^ 32, members := m.members ++ [d], sentSince := true }
    if m.members.length = 3 then sendParity s edge else s

/-- Send the datagram being packed, if there is one; its slots are reclaimed (R266). -/
def sendPack (s : State) (edge : Nat) : State :=
  match find? s.remotes edge with
  | none => s
  | some m =>
    if m.pack = [] then s
    else
      let s := sendData s edge m.packFrame m.packFrom m.pack.length m.pack.flatten
      let s := s.updRemote edge fun m => { m with pack := [] }
      (List.range m.pack.length).foldl (fun s i =>
        let n := (m.packFrom + i) % 2 ^ 32
        s.updEdge edge fun e => { e with finished := nins e.finished n, ready := ndel e.ready n, voided := ndel e.voided n }) s

/-- Bytes of entries that a datagram of an edge holds (R260, R264). -/
def packRoom (s : State) (m : Remote) : Nat := peerMtu (s.codec m.codec) m.peer - 48 - 0x38

/-- Put an entry of sequence `n` into the datagram being packed, after sending what it does not fit (R266). `rec?` names the frame and
key of a record, none of a void. -/
def packEntry (s : State) (edge n frame : Nat) (rec? : Option Nat) (b : List Byte) : State :=
  match find? s.remotes edge with
  | none => s
  | some m =>
    let full : Bool := decide (m.packFrame ≠ frame) || decide (m.pack.length = 255) || decide (packRoom s m < m.pack.flatten.length + b.length)
    let s := if m.pack ≠ [] ∧ full then sendPack s edge else s
    s.updRemote edge fun m =>
      let m := if m.pack = [] then { m with packFrom := n, packFrame := frame, packAt := s.now } else m
      let m := m.count (if rec?.isSome then 0 else 6) 1
      let near (k : Nat) : Bool := decide (dist32 n k < 512)
      { m with next := (n + 1) % 2 ^ 32
               pack := m.pack ++ [b]
               sentKeys := mfilter (match rec? with | some key => mset m.sentKeys n (frame, key) | none => m.sentKeys) fun k _ => near k
               sentVoids := (if rec?.isSome then m.sentVoids else nins m.sentVoids n).filter near }

/-- Read the record of a slot, encode it as sequence `n` of a sender's edge and put it into the datagram being packed. -/
def drainRecord (s : State) (edge n frame : Nat) (e : Edge) (m : Remote) (bs : List Byte) : Option State :=
  let key := leNat ((bs.drop 4).take 3)
  (histGet s e.vdev m key).bind fun (s, h, evict) =>
    let x := encodeRec m.fields h key n (bytesWords (2 * e.rs) (bs.drop 8))
    (histPut s e.vdev m x.2).map fun s =>
      packEntry (s.updRemote edge fun m => m.count 12 evict.toNat) edge n frame (some key) x.1

/-- Put a void of sequence `n` into the datagram being packed. -/
def drainVoid (s : State) (edge n frame : Nat) : State := packEntry s edge n frame none voidEntry

/-- The second sending of a cut move's losing side (R278): the next record of the local edge that a remote edge of the new descriptor takes the
place of, in slot order, takes the next sequence of the remote edge; frames below Fs - 1 are passed over. (DEDUCED, log 59) -/
def secondSend (s : State) (edge : Nat) (e : Edge) (m : Remote) : Option State :=
  (s.edges.find? fun x => decide (x.2.vdev = e.vdev) && x.2.second.isSome && decide (x.2.consumer = e.consumer) && decide (x.1 ≠ edge)).bind fun (k, old) =>
    let q := old.second.getD 0
    let frame := mget 0 old.frames q
    let fs := ((s.vdev e.vdev).move.map (·.fs)).getD 0
    let next (s : State) : State := s.updEdge k fun o => { o with second := some ((q + 1) % 2 ^ 32) }
    if q = edgeRsv s old then
      if (s.vdev e.vdev).cut = old.graph then none else some (s.updEdge k fun o => { o with second := none })
    else if precedes frame ((fs + 2 ^ 32 - 1) % 2 ^ 32) then some (next s)
    else if edgeFree s e = 0 then none
    else
      let void (s : State) : State := let x := reserveOne s edge frame; next (drainVoid x.1 edge x.2 frame)
      if old.voided.contains q then some (void s)
      else if isPublished s old q || old.given.contains q || old.finished.contains q then
        match ringRead s none old q (old.rs + 1) with
        | (_, .xlate _) => none
        | (s, .ok (bs, bad)) =>
          if bad.any id then some (void s)
          else let x := reserveOne s edge frame; (drainRecord x.1 edge x.2 frame { e with rs := old.rs } m bs).map next
        | (s, .poison pa) => some (void (logPoison s e.vdev pa 0 0 0))
        | (s, .fatal _) => some (void s)
      else none

/-- SLOT_DRAIN: the next slot of a sender's ring, published or voided, is encoded into the datagram being packed (R263, R266, R272). A
slot that cannot be read parks or is voided as the former's are (R348). -/
def evSlotDrain (edge : Nat) (s : State) : Option State :=
  (remoteAt s edge).bind fun (e, m) =>
    let n := m.next
    let frame := mget 0 e.frames n
    if decide (e.role ≠ roleSender) || !ringServes s e then none
    else if n = edgeRsv s e then secondSend s edge e m
    else if e.voided.contains n then some (drainVoid s edge n frame)
    else if !isPublished s e n || e.parkedAt.contains n then none
    else match ringRead s none e n (e.rs + 1) with
      | (_, .xlate va) =>
        let r := newToken s e.vdev (.slot edge n)
        let s := r.1.updEdge edge fun e => { e with parkedAt := nins e.parkedAt n }
        some (logEvent s e.vdev evXlate 0x20 0 127 (s.vdev e.vdev).gen va 0 0 0 r.2)
      | (_, .fatal c) => some (voidRead s edge e c n (e.slotEa n) 0)
      | (_, .poison pa) => some (voidRead (logPoison s e.vdev pa 0 0 0) edge e 0x13 n (e.slotEa n) 0)
      | (s, .ok (bs, bad)) =>
        if bad.any id then some (voidRead s edge e 0x13 n (e.slotEa n) 0)
        else drainRecord s edge n frame e m bs

/-- PACK_WINDOW_EXPIRY: PW µs have passed since the first entry of the datagram being packed (R266). -/
def evPackWindowExpiry (edge : Nat) (s : State) : Option State :=
  (remoteAt s edge).bind fun (e, m) =>
    if decide (m.pack ≠ []) && codecServes s e && decide (m.packAt + usCc m.pw ≤ s.now) then some (sendPack s edge) else none

/-- What a sender's codec does on one edge when the frame counter advances from `j` (R266). -/
def advanceEdge (s : State) (edge j : Nat) : State :=
  match remoteAt s edge with
  | none => s
  | some (e, m) =>
    if e.role ≠ roleSender then s
    else
      let s := sendPack s edge
      let quiet : Bool := (find? s.remotes edge).any fun m => !m.sentSince
      let s := if quiet then sendData s edge j m.next 0 [] else s
      s.updRemote edge fun m => { m with sentSince := false }

/-- EDGE_CLOSE: on the sending part, when every producer stage has completed and every slot has been drained (R285). -/
def evEdgeClose (edge : Nat) (s : State) : Option State :=
  (remoteAt s edge).bind fun (e, m) =>
    if decide (e.role = roleSender) && codecServes s e && !m.closeSent && producersDone s edge e && decide (m.next = edgeRsv s e) then
      let s := sendParity (sendPack s edge) edge
      let s := sendReliable s m.codec m.peer 4 m.eid (s.vdev e.vdev).frame 4 0 (leBytes 4 m.next)
      some (s.updRemote edge fun m => { m with closeSent := true })
    else none

/-! ## Settlement (R270) -/

/-- Whether a sequence lies in the reorder window. -/
def Remote.inWindow (m : Remote) (n : Nat) : Bool := decide (dist32 n m.np < 2 ^ m.rwl)

/-- The sequences of the window that precede `limit` become known in a frame, unless they are known already. -/
def Remote.knowBelow (m : Remote) (limit frame : Nat) : Remote :=
  if precedes limit m.np then m
  else (List.range (min (dist32 limit m.np) (2 ^ m.rwl))).foldl (fun m i =>
    let n := (m.np + i) % 2 ^ 32
    if (find? m.known n).isSome then m else { m with known := mset m.known n frame }) m

/-- What the highest SEQ0 and the final sequence make known as the window stands. -/
def Remote.enter (m : Remote) : Remote :=
  let m := match m.top with | some (n, fr) => m.knowBelow n fr | none => m
  match m.fin with | some (n, fr) => m.knowBelow n fr | none => m

/-- Settle a sequence, unless it is settled. -/
def Remote.decide_ (m : Remote) (n : Nat) (d : Decision) : Remote :=
  if (find? m.decided n).isSome then m else { m with decided := mset m.decided n d }

/-- Whether a frame's deadline has passed: t(F) is the admission for the frame that stood then and earlier ones (R270). -/
def deadlinePassed (s : State) (vdev : Nat) (m : Remote) (frame : Nat) : Bool :=
  let t := if frame = m.admFrame ∨ precedes frame m.admFrame then some m.admAt else find? (s.vdev vdev).frameAt frame
  t.any fun t => decide (t + usCc m.lb ≤ s.now)

/-- Settle the known sequences of the frames that `due` names: a substitute where a key has arrived, a void otherwise. -/
def Remote.settleDue (m : Remote) (due : Nat → Bool) : Remote :=
  m.known.foldl (fun m x =>
    if due x.2 then m.decide_ x.1 (match find? m.keys x.1 with | some key => .subst key x.2 | none => .void) else m) m

/-- Settle whatever is due on an edge now. -/
def settleEdge (s : State) (edge : Nat) (e : Edge) : State := s.updRemote edge fun m => m.settleDue (deadlinePassed s e.vdev m)

/-- FRAME_DEADLINE: a frame's deadline has passed; its known sequences are settled (R270). -/
def evFrameDeadline (edge frame : Nat) (s : State) : Option State :=
  (remoteAt s edge).bind fun (e, m) =>
    let n := m.settleDue fun fr => decide (fr = frame) && deadlinePassed s e.vdev m fr
    if decide (e.role = roleReceiver) && codecServes s e && decide (n ≠ m) then some { s with remotes := mset s.remotes edge n } else none

/-! ## Records of an old generation (R278, R279) -/

/-- The frame from which a receiver accepts only the new generation. -/
def Move.from_ (mv : Move) : Option Nat := if mv.losing then mv.learned else mv.taken

/-- The stages that move: those whose SIDE differs between the two graphs (R277). -/
def movingStages (s : State) (vdev : Nat) (mv : Move) : List Program :=
  let ps (g : Nat) : List Program := ((find? (s.vdev vdev).graphs g).map (·.stages)).getD []
  (ps mv.graph).filter fun p => (ps mv.oldGraph).any fun q => decide (q.stage = p.stage) && decide (q.side ≠ p.side)

/-- The output edges of the moving stages, by either of the two graphs. -/
def movedOuts (s : State) (vdev : Nat) (mv : Move) : List Nat :=
  let l := movingStages s vdev mv
  let old := ((find? (s.vdev vdev).graphs mv.oldGraph).map (·.stages)).getD []
  l.flatMap (·.outs) ++ (old.filter fun q => l.any fun p => decide (p.stage = q.stage)).flatMap (·.outs)

/-- Whether a record is dropped as STALE: an edge fed by a moving stage, a frame from k on, another generation (R279). -/
def stale (s : State) (e : Edge) (frame cg : Nat) : Bool :=
  match (s.vdev e.vdev).move with
  | none => false
  | some mv => match mv.from_ with
    | none => false
    | some k => (movedOuts s e.vdev mv).contains e.desc
        && (decide (frame = k) || precedes k frame) && decide (cg ≠ (mv.oldCg + 1) % 16)

/-- Whether a newly remote edge discards a record: its frame is below k on the gaining side (R278). -/
def belowTake (s : State) (e : Edge) (frame : Nat) : Bool :=
  match (s.vdev e.vdev).move with
  | none => false
  | some mv => match mv.taken with
    | none => false
    | some k => decide (e.graph = mv.graph) && decide (e.born = mv.graph) && precedes frame k

/-! ## The receiver (R264 to R270) -/

/-- Whether a sequence lies at or above the final one of CLOSE (R285). -/
def pastEnd (m : Remote) (n : Nat) : Bool := m.fin.any fun f => !precedes n f.1

/-- A record of sequence `n` arrives; one at or above the final sequence is dropped as malformed, which the port counts too (R260, R285). (DEDUCED,
log 58) -/
def recvRecord (s : State) (edge : Nat) (e : Edge) (n : Nat) (r : WireRec) : State :=
  let s := match find? s.remotes edge with
    | some m => if pastEnd m n then s.updCodec m.codec fun c => { c with malformed := c.malformed + 1 } else s
    | none => s
  s.updRemote edge fun m =>
    let done := precedes n m.np || (find? m.decided n).isSome
    if pastEnd m n then m.count 10 1
    else if !done && !m.inWindow n then m.count 9 1
    else if stale s e r.frame r.cg then
      if done then m.count 11 1 else ({ m with known := mset m.known n r.frame, keys := mset m.keys n r.key }.count 11 1).decide_ n .void
    else if done then
      if belowTake s e r.frame then m else if e.late = 1 then { m with late := m.late ++ [(n, r)] } else m.count 7 1
    else
      let m := { m with known := mset m.known n r.frame, keys := mset m.keys n r.key }
      if belowTake s e r.frame then m.decide_ n .void
      else (m.count 1 1).decide_ n (.received r)

/-- A void entry, or a VOIDM bit, for a sequence. -/
def Remote.recvVoid (m : Remote) (n frame : Nat) : Remote :=
  if !precedes n m.np && m.inWindow n && (find? m.decided n).isNone then { m with known := mset m.known n frame }.decide_ n .void else m

/-- A manifest entry (R264): sequences that precede NP or lie outside the window are ignored. -/
def Remote.recvManifest (m : Remote) (frame seq0 i word : Nat) (void : Bool) : Remote :=
  let n := (seq0 + 2 ^ 32 + i - 8) % 2 ^ 32
  let fr := (frame + 2 ^ 32 - (frame + 2 ^ 32 - word / 2 ^ 24) % 256) % 2 ^ 32
  if void then m.recvVoid n fr
  else if !precedes n m.np && m.inWindow n && (find? m.decided n).isNone then
    { m with known := mset m.known n fr, keys := mset m.keys n (word % 2 ^ 24) }
  else m

/-- The entries of a datagram, from a sequence on. -/
def recvEntries (edge : Nat) (e : Edge) (frame : Nat) : Nat → List (Option WireRec) → State → State
  | _, [], s => s
  | n, none :: t, s => recvEntries edge e frame ((n + 1) % 2 ^ 32) t (s.updRemote edge fun m => m.recvVoid n frame)
  | n, some r :: t, s => recvEntries edge e frame ((n + 1) % 2 ^ 32) t (recvRecord s edge e n r)

/-- The members of a parity group that have arrived or been rebuilt, by place. -/
def Remote.missing (m : Remote) (g : Nat) (par : List Byte) : List Nat :=
  (List.range 4).filter fun i => decide (field par (0x0C + 2 * i) 2 ≠ 0) && (find? m.rx (4 * g + i)).isNone

/-- The member that a parity group's other members and its parity give (R267). -/
def Remote.rebuild (m : Remote) (g : Nat) : Option (List Byte) :=
  (find? m.par g).bind fun par =>
    match m.missing g par with
    | [i] =>
      let others := (List.range 4).filterMap fun k => if k = i then none else find? m.rx (4 * g + k)
      some ((xorBytes (par.drop 0x14 :: others)).take (field par (0x0C + 2 * i) 2))
    | _ => none

/-- Count a datagram that the port drops: one that matches nothing, or a duplicate (R260). -/
def dropWire (s : State) (codec : Nat) : State := s.updCodec codec fun c => { c with dropped := c.dropped + 1 }

/-- Count a malformed datagram of an edge (R269). -/
def malformedAt (s : State) (codec edge : Nat) : State :=
  (s.updCodec codec fun c => { c with malformed := c.malformed + 1 }).updRemote edge fun m => m.count 10 1

/-- A data datagram of an edge: duplicates and malformed ones are dropped, the others are taken (R264, R265, R269, R270). -/
def takeData (s : State) (codec edge : Nat) (b : List Byte) : State :=
  match remoteAt s edge with
  | none => s
  | some (e, m) =>
    let dseq := field b 8 4
    let frame := field b 0xC 4
    let seq0 := field b 0x10 4
    let nrec := field b 0x14 1
    let cg := field b 1 1 / 16
    if b.length < 0x38 ∨ field b 0 1 ≠ 0x10 ∨ field b 1 1 % 16 ≠ 0 ∨ field b 0x16 2 ≠ b.length - 0x38 then malformedAt s codec edge
    else match readEntries m.fields frame cg nrec (b.drop 0x38) with
      | none => malformedAt s codec edge
      | some l =>
        if m.seen.contains dseq then (dropWire s codec).updRemote edge fun m => m.count 10 1
        else
          let s := settleEdge s edge e
          let s := s.updRemote edge fun m =>
            let m := { m with seen := nins m.seen dseq, rx := mset m.rx dseq b }
            let m := (List.range 8).foldl (fun m i => m.recvManifest frame seq0 i (field b (0x18 + 4 * i) 4) (bit (field b 0x15 1) i)) m
            match m.top with
            | some t => if precedes t.1 seq0 then { m with top := some (seq0, frame) } else m
            | none => { m with top := some (seq0, frame) }
          let s := recvEntries edge e frame seq0 l s
          let s := s.updRemote edge fun m => (m.knowBelow seq0 frame).enter
          settleEdge s edge e

/-- Rebuild a member of a parity group when exactly one is missing; it arrives at that moment (R267). -/
def tryRebuild (s : State) (codec edge g : Nat) : State :=
  match (find? s.remotes edge).bind fun m => m.rebuild g with
  | none => s
  | some b => takeData (s.updRemote edge fun m => m.count 2 1) codec edge b

/-- The receiving edge that a datagram names by local address, local port, SID and EID (R260). -/
def matchEdge (s : State) (codec : Nat) (a : Arrived) (eid sid : Nat) : Option Nat :=
  let c := s.codec codec
  (s.remotes.find? fun x => decide (x.2.codec = codec) && decide (x.2.eid = eid) && peerTakes c a sid x.2.peer
    && (find? s.edges x.1).any fun e => decide (e.role = roleReceiver) && codecServes s e).map (·.1)

/-- DATA_DATAGRAM: a data datagram arrives at a codec (R260, R270). -/
def evDataDatagram (codec : Nat) (f : List Byte) (s : State) : Option State := ofFrame s codec f fun a =>
  let b := a.body
  if 2 ≤ codec ∨ field b 0 1 % 16 = 1 ∨ field b 0 1 % 16 = 2 ∨ field b 0 1 % 16 = 3 then none
  else match matchEdge s codec a (field b 2 2) (field b 4 4) with
    | none => some (dropWire s codec)
    | some edge =>
      let s := takeData s codec edge b
      some (tryRebuild s codec edge (field b 8 4 / 4))

/-- PARITY_DATAGRAM: a parity datagram arrives (R267, R269). -/
def evParityDatagram (codec : Nat) (f : List Byte) (s : State) : Option State := ofFrame s codec f fun a =>
  let b := a.body
  if 2 ≤ codec ∨ field b 0 1 % 16 ≠ 1 then none
  else match matchEdge s codec a (field b 2 2) (field b 4 4) with
    | none => some (dropWire s codec)
    | some edge =>
      let lens := (List.range 4).map fun i => field b (0x0C + 2 * i) 2
      if b.length < 0x14 ∨ field b 0 1 ≠ 0x11 ∨ field b 1 1 % 16 ≠ 0 ∨ field b 8 4 % 4 ≠ 0 ∨ b.length ≠ 0x14 + lens.foldl max 0 then
        some (malformedAt s codec edge)
      else
        let g := field b 8 4 / 4
        some (tryRebuild (s.updRemote edge fun m => { m with par := mset m.par g b }) codec edge g)

/-! ## Placement (R271 to R275) -/

/-- Place a record in the next slot of the receiving ring and publish it; none when its slot cannot be written (R271). -/
def placeRecord (s : State) (edge : Nat) (e : Edge) (status key frame : Nat) (ws : List Word) : Option State :=
  let x := reserveOne s edge frame
  let words := (List.range (2 * e.rs)).map fun i => ws.getD i 0
  let bs := slotHeader status key x.2 ++ wordBytes words
  let a := e.slotEa x.2
  if e.loc then some (publish (writeFifo x.1 (ringCluster s e) (sramOffset a) bs) edge x.2)
  else (sysWrite x.1 e.vdev a bs).map fun s => publish s edge x.2

/-- Fields predicted, and fields held, zeroed or defaulted, of a placed record (R283). -/
def fieldCounts (m : Remote) (l : List FieldOut) : Remote :=
  (m.count 4 (l.countP (·.pred))).count 5 (l.countP fun x => x.base.isNone && !x.pred)

/-- NP goes on: what the window now takes in becomes known (R270). -/
def Remote.advance (m : Remote) : Remote :=
  let n := m.np
  { m with np := (n + 1) % 2 ^ 32, known := merase m.known n, keys := merase m.keys n, decided := merase m.decided n }.enter

/-- Place the decision of NP (R271, R272, R274). -/
def placeNp (s : State) (edge : Nat) (e : Edge) (m : Remote) (d : Decision) : Option State :=
  let n := m.np
  match d with
  | .void =>
    let x := reserveOne s edge (mget 0 m.known n)
    some ((voidSlot x.1 edge x.2).updRemote edge fun m => (m.count 6 1).advance)
  | .received _ | .subst _ _ =>
    let r : Option WireRec := match d with | .received r => some r | _ => none
    let key := match d with | .subst k _ => k | .received r => r.key | .void => 0
    let frame := match d with | .subst _ f => f | .received r => r.frame | .void => 0
    let cg := match d with | .received r => r.cg | _ => cgOf s e.vdev
    (histGet s e.vdev m key).bind fun (s, h, evict) =>
      let l := placeFields m.fields h n frame r
      (histPut s e.vdev m (histAfter h n frame l)).bind fun s =>
        (placeRecord s edge e (fieldStatus l + 16 * cg) key frame (l.map (·.v))).map fun s =>
          s.updRemote edge fun m =>
            let m := fieldCounts ((m.count 12 evict.toNat).count 3 r.isNone.toNat) l
            { m with lastKey := mset m.lastKey key n }.advance

/-- Place a late record as a correction, or drop it when a later sequence of its key has been placed (R275). -/
def placeLate (s : State) (edge : Nat) (e : Edge) (m : Remote) (n : Nat) (r : WireRec) (rest : List (Nat × WireRec)) : Option State :=
  if (find? m.lastKey r.key).any fun k => precedes n k then some (s.updRemote edge fun m => { m.count 7 1 with late := rest })
  else (histGet s e.vdev m r.key).bind fun (s, h, _) =>
    let l := placeFields m.fields h n r.frame (some r)
    (placeRecord s edge e (fieldStatus l + 4 + 16 * r.cg) r.key r.frame (l.map (·.v))).map fun s =>
      s.updRemote edge fun m => { fieldCounts (m.count 8 1) l with late := rest, lastKey := mset m.lastKey r.key n }

/-- Whether a newly remote edge still waits for the frame k of its move (R278). -/
def awaitsTake (s : State) (e : Edge) : Bool :=
  (s.vdev e.vdev).move.any fun mv => decide (e.born = mv.graph) && !mv.losing && mv.taken.isNone && decide (mv.state < 4)

/-- A decision as it is placed: the gaining side of a move places no record of a frame below its TAKE on a newly remote edge (R278). -/
def Decision.placed (s : State) (e : Edge) : Decision → Decision
  | .received r => if belowTake s e r.frame then .void else .received r
  | .subst key frame => if belowTake s e frame then .void else .subst key frame
  | .void => .void

/-- RECORD_PLACEMENT: the codec places the next settled sequence, or a late record that waits (R271, R275). A full ring holds it, and so does one in
FIFO banks of a context that is saved (R316). -/
def evRecordPlacement (edge : Nat) (s : State) : Option State :=
  (remoteAt s edge).bind fun (e, m) =>
    if decide (e.role ≠ roleReceiver) || !ringServes s e || decide (edgeFree s e = 0) || awaitsTake s e then none
    else match m.late.filter fun x => precedes x.1 m.np with
      | (n, r) :: _ => placeLate s edge e m n r (m.late.filter fun x => decide (x.1 ≠ n))
      | [] => (find? m.decided m.np).bind fun d => placeNp s edge e m (d.placed s e)

/-! ## Meanings of the events -/

def execSlotDrain (edge : Nat) (s : State) : Host.Outcome State Fault Refusal := ofEvent (evSlotDrain edge s) s
def execPackWindowExpiry (edge : Nat) (s : State) : Host.Outcome State Fault Refusal := ofEvent (evPackWindowExpiry edge s) s
def execEdgeClose (edge : Nat) (s : State) : Host.Outcome State Fault Refusal := ofEvent (evEdgeClose edge s) s
def execDataDatagram (codec : Nat) (payload : List Byte) (s : State) : Host.Outcome State Fault Refusal := ofEvent (evDataDatagram codec payload s) s
def execParityDatagram (codec : Nat) (payload : List Byte) (s : State) : Host.Outcome State Fault Refusal := ofEvent (evParityDatagram codec payload s) s
def execFrameDeadline (edge frame : Nat) (s : State) : Host.Outcome State Fault Refusal := ofEvent (evFrameDeadline edge frame s) s
/-- RECORD_PLACEMENT; on an edge that did not start with R12's values its effect is not defined. -/
def execRecordPlacement (edge : Nat) (s : State) : Host.Outcome State Fault Refusal :=
  match evRecordPlacement edge s with
  | some t => if (find? s.edges edge).any (·.undef) then .fault .edgeInitial else .next t
  | none => .next s

end Sys2Proof.Machine
end

