-- ==== Sys2Proof/Machine/Moves.lean ====
section
/-! DEFINITION. The frame counter's advance (R6, R266, R278), moving the cut (R277 to R279), and the reliable lane of a session (R268). -/
namespace Sys2Proof.Machine

/-! ## Moving the cut -/

/-- A move of which nothing is known yet. -/
def Move.none_ : Move where
  state := 0
  fs := 0
  cut := []
  graph := 0
  oldGraph := 0
  codec := 0
  peer := 0
  losing := false
  mine := none
  theirs := none
  early := none
  blocks := []
  blockLen := []
  taken := none
  learned := none
  stopped := none
  stopAcked := false
  oldCg := 0
  added := []

/-- Whether a move of the context is unfinished (R277). -/
def moveUnfinished (s : State) (vdev : Nat) : Bool := (s.vdev vdev).move.any fun m => decide (1 ≤ m.state) && decide (m.state ≤ 3)

def updMove (s : State) (vdev : Nat) (f : Move → Move) : State := s.updVdev vdev fun d => { d with move := d.move.map f }

/-- A move ends FAILED: the sticky error and an event record it; the current cut stays, and the edges that the move took in go again (R277, R320,
R334). -/
def failMove (s : State) (vdev : Nat) : State :=
  let mv := (s.vdev vdev).move.getD Move.none_
  let s := stickyError s vdev ⟨5, 0x42, 0, mv.graph, 0, 0, 0, 0⟩
  let s := logEvent s vdev evMovefail 0x42 0 127 (s.vdev vdev).gen 0 0 0 0 0
  ({ s with
      edges := mfilter s.edges fun k _ => !mv.added.contains k
      remotes := mfilter s.remotes fun k _ => !mv.added.contains k } : State).updVdev vdev fun d => { d with move := some { mv with state := 5 } }

/-- Window 3 of a moving stage on this part (R278): address and length, by the graph that this part's role goes by. -/
def stateWindows (s : State) (vdev : Nat) (mv : Move) : List (Nat × Nat × Nat) :=
  let ps := ((find? (s.vdev vdev).graphs (if mv.losing then mv.oldGraph else mv.graph)).map (·.stages)).getD []
  (movingStages s vdev mv).filterMap fun p => (ps.find? fun q => decide (q.stage = p.stage)).map fun q =>
    let w := q.wins.getD 3 (0, 0)
    (q.stage, w.1, w.2)

/-- Both MOVE messages are held: the move begins, or fails on sizes that differ (R277). -/
def beginMove (s : State) (vdev : Nat) : State :=
  match (s.vdev vdev).move with
  | none => s
  | some mv => match mv.mine, mv.theirs with
    | some a, some b =>
      if a.2 ≠ b.2 then failMove s vdev
      else updMove s vdev fun mv => { mv with fs := max a.1 b.1, state := 2 }
    | _, _ => s

/-- The edges of a graph that the context has not had. -/
def newEdges (s : State) (vdev : Nat) (es : List EdgeRead) : List Nat :=
  (es.map fun r => edgeKey vdev r.edge.desc).filter fun k => (find? s.edges k).isNone

/-- Take in the edges of a new graph that the context has not had, in the roles that the graph gives them. -/
def addGraph (s : State) (vdev gva : Nat) (ps : List Program) (es : List EdgeRead) : State :=
  let s := s.updVdev vdev fun d => { d with graphs := mset d.graphs gva ⟨ps⟩ }
  let fe := (feOf s vdev).getD 0
  es.foldl (fun s r =>
    let k := edgeKey vdev r.edge.desc
    if (find? s.edges k).isSome then s
    else
      let e := { r.edge with graph := gva, born := gva, fe := fe, producers := (producersOf ps r.edge.desc).map (·.stage)
                             role := roleIn s vdev ps r.edge, runs := runsHere s vdev ps r.edge }
      let s := { s with edges := mset s.edges k e }
      match r.remote with
      | some m => { s with remotes := mset s.remotes k m }
      | none => s) s

/-- Start a move (R277): the new graph is read and checked, and MOVE is sent. The answer is the address of a translation fault, if any. A graph
that is refused fails the move. -/
def startMove (s : State) (vdev fs graph : Nat) (cut : List Nat) : Except Nat State :=
  let old := (s.vdev vdev).move
  let theirs := old.bind fun m => if m.state = 0 then m.theirs else m.early
  let cwb := ((feOf s vdev).map fun f => (s.fe f).cwb.toNat).getD 0
  let mv := { Move.none_ with fs := fs, cut := cut, graph := graph, theirs := theirs, oldCg := cgOf s vdev }
  let reads := graphReads s vdev graph
  match readGraph s vdev graph (2 ^ 16) cwb with
  | .error (.xlate va) => .error va
  | .error x => .ok (failMove ((admPoison s vdev x).updVdev vdev fun d => { d with move := some mv }) vdev)
  | .ok (ps, es) =>
    let s := s.sysReads vdev reads
    let named : Option Remote := (es.find? fun (r : EdgeRead) => cut.contains r.edge.desc && r.remote.isSome).bind fun r => r.remote
    match (match named with | some m => some m | none => es.findSome? fun (r : EdgeRead) => r.remote) with
    | none => .ok (failMove (s.updVdev vdev fun d => { d with move := some mv }) vdev)
    | some m =>
      let mv := { mv with oldGraph := (s.vdev vdev).cut, codec := m.codec, peer := m.peer, added := newEdges s vdev es }
      let s := addGraph s vdev graph ps es
      let losing := (movingStages s vdev mv).any fun p => !sideHere s vdev p.side
      let mv := { mv with losing := losing }
      let size := (stateWindows s vdev mv).foldl (fun (n : Nat) (w : Nat × Nat × Nat) => n + w.2.2) 0
      let s := s.updVdev vdev fun d => { d with move := some { mv with state := 1, mine := some (fs, size) } }
      let s := sendReliable s mv.codec mv.peer 1 0 (s.vdev vdev).frame 8 0 (leBytes 4 fs ++ leBytes 4 size)
      .ok (beginMove s vdev)

/-- A program of the old graph as the new descriptor connects its stage. -/
def Program.rewire (old : Nat) (ps : List Program) (p : Program) : Program :=
  if p.graph = old then
    match ps.find? fun q => decide (q.stage = p.stage) with
    | some q => { p with graph := q.graph, side := q.side, inEdge := q.inEdge, outs := q.outs }
    | none => p
  else p

/-- A group's program, and those of its threads, by the new descriptor. -/
def Group.rewire (old : Nat) (ps : List Program) (g : Group) : Group :=
  { g with info := { g.info with prog := g.info.prog.rewire old ps }
           r := { g.r with home := mmapv g.r.home fun _ h => { h with prog := h.prog.rewire old ps } } }

/-- Everything of a context that runs goes by the new descriptor: groups, workgroups, grids, former entries, operations. -/
def rewireContext (s : State) (vdev old : Nat) (ps : List Program) : State :=
  { s with
    groups := mmapv s.groups fun _ g => if g.info.vdev = vdev then g.rewire old ps else g
    wgs := mmapv s.wgs fun _ w => if w.vdev = vdev then { w with prog := w.prog.rewire old ps } else w
    grids := mmapv s.grids fun _ g => if g.vdev = vdev then { g with prog := g.prog.rewire old ps } else g
    ops := mmapv s.ops fun _ o => if o.vdev = vdev then { o with prog := o.prog.rewire old ps } else o
    cores := mmapv s.cores fun _ k =>
      { k with entries := k.entries.map fun f => if f.vdev = vdev then { f with prog := f.prog.rewire old ps } else f } }

/-- A stage opens its input edge on this part (R36). -/
def openInput (s : State) (vdev inEdge walk : Nat) : State :=
  if inEdge = 0 then s
  else reopen (s.updEdge (edgeKey vdev inEdge) fun e => { e with opened := true, walk := walk }) (edgeKey vdev inEdge)

/-- What a switch does for one stage of the new graph (R278, R279): a moving stage starts or stops here; a stage that stays here and is open goes
over to its new input edge, and its old one takes no further record. (DEDUCED, log 59) -/
def switchStage (s : State) (vdev : Nat) (moving olds : List Program) (p : Program) : State :=
  let old := olds.find? fun q => decide (q.stage = p.stage)
  let oldIn := (old.map (·.inEdge)).getD 0
  let oldKey := edgeKey vdev oldIn
  if moving.any fun q => decide (q.stage = p.stage) then
    if sideHere s vdev p.side then openInput (stageStarts s p vdev) vdev p.inEdge 0
    else
      let s := (old.map fun q => stageDone s q vdev).getD s
      ((stageDone s p vdev).updEdge (edgeKey vdev p.inEdge) fun e => { e with opened := false, walk := 0 }).updEdge oldKey
        fun e => { e with opened := false, walk := 0, runs := false }
  else match find? s.edges oldKey with
    | some e =>
      if sideHere s vdev p.side ∧ oldIn ≠ 0 ∧ oldIn ≠ p.inEdge ∧ e.opened then
        openInput ((stageStarts s p vdev).updEdge oldKey fun e => { e with prodDone := List.range e.nprod }) vdev p.inEdge e.walk
      else s
    | none => s

/-- Switch to the new descriptor (R278, R279): roles change, CUTGEN rises, and the moving stages start or stop here. Where it cannot be read nothing is
switched; poison in a page-table entry is logged (R347). -/
def switchGraph (s : State) (vdev : Nat) (mv : Move) : Except State State :=
  let fe := (feOf s vdev).getD 0
  let reads := graphReads s vdev mv.graph
  match readGraph s vdev mv.graph (2 ^ 16) (s.fe fe).cwb.toNat with
  | .error x => .error (admPoison s vdev x)
  | .ok (ps, es) =>
    let s := s.sysReads vdev reads
    let moving := movingStages s vdev mv
    let olds := ((find? (s.vdev vdev).graphs mv.oldGraph).map (·.stages)).getD []
    let s := installGraph s vdev fe mv.graph ps es
    let s := s.updVdev vdev fun d => { d with cutgen := (d.cutgen + 1) % 2 ^ 32, cut := mv.graph }
    .ok (rewireContext (ps.foldl (fun s p => switchStage s vdev moving olds p) s) vdev mv.oldGraph ps)

/-- The chunks of a state block: offset and bytes. -/
def chunksOf (k : Nat) : Nat → Nat → List Byte → List (Nat × List Byte)
  | 0, _, _ => []
  | fuel + 1, off, b => if b.length ≤ k then [(off, b)] else (off, b.take k) :: chunksOf k fuel (off + k) (b.drop k)

/-- Ship window 3 of each moving stage as the state block of a frame (R278). (DEDUCED, log 59) -/
def shipBlocks (s : State) (vdev : Nat) (mv : Move) (frame : Nat) : State :=
  let room := peerMtu (s.codec mv.codec) mv.peer - 48 - 0x18
  (stateWindows s vdev mv).foldl (fun s w =>
    match sysBytes s vdev 1 (w.2.2 / 4096 + 2) w.2.1 w.2.2 with
    | .ok b =>
      (chunksOf room (w.2.2 + 1) 0 b).foldl (fun s c => sendReliable s mv.codec mv.peer 0 w.1 frame w.2.2 c.1 c.2) (s.sysReads vdev [w.2])
    | x => fePoison s vdev x) s

/-- The state block of a stage for a frame, once all of it is held. -/
def Move.block (mv : Move) (frame stage : Nat) : Option (List Byte) :=
  let k := frame * 2 ^ 16 + stage
  (find? mv.blockLen k).bind fun n =>
    let b := mget [] mv.blocks k
    if b.length = n then some (b.map (·.2)) else none

/-- A newly remote edge as the gaining side takes over at a frame: what is settled or late of lower frames is discarded (R278). -/
def Remote.takenAt (m : Remote) (frame : Nat) : Remote :=
  { m with
    late := m.late.filter fun x => !precedes x.2.frame frame
    decided := mmapv m.decided fun _ d => match d with
      | .received r => if precedes r.frame frame then .void else d
      | .subst _ f => if precedes f frame then .void else d
      | .void => d }

/-- The gaining side takes over at a frame when it holds every state block of the frame before (R278). -/
def takeOver (s : State) (vdev : Nat) (mv : Move) (frame : Nat) : Option State :=
  let prev := (frame + 2 ^ 32 - 1) % 2 ^ 32
  let ws := stateWindows s vdev mv
  if ws.any fun w => (mv.block prev w.1).isNone then none
  else
    (ws.foldl (fun (s : Option State) w => s.bind fun s => sysWrite s vdev w.2.1 ((mv.block prev w.1).getD [])) (some s)).bind fun s =>
      match switchGraph s vdev mv with
      | .error s => some s
      | .ok s =>
        let s := updMove s vdev fun mv => { mv with taken := some frame, state := 3 }
        let s := sendReliable s mv.codec mv.peer 2 0 frame 4 0 (leBytes 4 frame)
        some { s with remotes := mmapv s.remotes fun k m =>
          if (find? s.edges k).any fun e => decide (e.vdev = vdev) && decide (e.born = mv.graph) then m.takenAt frame else m }

/-- The losing side begins to send a second time the records of the local edges that the new descriptor makes remote: from what stands in their
rings on (R278). -/
def startSecond (s : State) (vdev : Nat) (mv : Move) : State :=
  let news := (s.edges.filter fun x => decide (x.2.vdev = vdev) && decide (x.2.graph = mv.graph) && decide (x.2.role = roleSender)).map (·.2.consumer)
  { s with edges := mmapv s.edges fun _ e =>
      if e.vdev = vdev && decide (e.graph = mv.oldGraph) && decide (e.role = roleLocal) && e.second.isNone && news.contains e.consumer
      then { e with second := some (edgeRcl s e) } else e }

/-- What a move does when the frame counter has become `frame` (R278, R279). -/
def moveBoundary (s : State) (vdev frame : Nat) : State :=
  match (s.vdev vdev).move with
  | none => s
  | some mv =>
    let sends : Bool := mv.losing && decide (2 ≤ mv.state) && decide (mv.state ≤ 3) && mv.stopped.isNone
      && !precedes frame ((mv.fs + 2 ^ 32 - 1) % 2 ^ 32)
    let s := if sends then startSecond s vdev mv else s
    if mv.state < 2 ∨ 3 < mv.state ∨ precedes frame mv.fs then s
    else if mv.losing then
      if mv.stopped.isSome then s
      else if mv.learned.isSome then
        let last := (frame + 2 ^ 32 - 1) % 2 ^ 32
        match switchGraph s vdev mv with
        | .error s => s
        | .ok s =>
          let s := updMove s vdev fun mv => { mv with stopped := some last }
          sendReliable s mv.codec mv.peer 3 0 frame 4 0 (leBytes 4 last)
      else shipBlocks s vdev mv ((frame + 2 ^ 32 - 1) % 2 ^ 32)
    else if mv.taken.isSome then s
    else (takeOver s vdev mv frame).getD s

/-- Advance a context's frame counter (R6, R266, R278): senders close their frame, the counter rises, a move goes on. -/
def advanceFrame (s : State) (vdev : Nat) : State :=
  let j := (s.vdev vdev).frame
  let n := (j + 1) % 2 ^ 32
  let s := ((s.remotes.map (·.1)).filter fun k => (find? s.edges k).any fun e => decide (e.vdev = vdev)).foldl (fun s k => advanceEdge s k j) s
  let s := s.updVdev vdev fun d => { d with frame := n, frameAt := mset d.frameAt n s.now }
  moveBoundary s vdev n

/-! ## The reliable lane (R268) -/

def Session.new : Session := ⟨0, [], 0, []⟩

/-- Hand one message on. -/
def applyMessage (s : State) (codec peer : Nat) (b : List Byte) : State :=
  let vdev := peerVdev (s.codec codec) peer
  let num := field b 2 2
  let frame := field b 0xC 4
  let total := field b 0x10 4
  let off := field b 0x14 4
  let body := b.drop 0x18
  match field b 1 1 with
  | 0 =>
    updMove s vdev fun mv =>
      if mv.losing then mv
      else
        let k := frame * 2 ^ 16 + num
        { mv with blockLen := mset mv.blockLen k total
                  blocks := mset mv.blocks k ((body.zipIdx).foldl (fun m x => mset m (off + x.2) x.1) (mget [] mv.blocks k)) }
  | 1 =>
    let x := (field body 0 4, field body 4 4)
    if moveUnfinished s vdev then
      let s := updMove s vdev fun mv => if mv.theirs.isNone then { mv with theirs := some x } else { mv with early := some x }
      if (s.vdev vdev).move.any fun m => decide (m.state = 1) then beginMove s vdev else s
    else s.updVdev vdev fun d => { d with move := match d.move with
      | none => some { Move.none_ with theirs := some x }
      | some m => if m.state = 0 then some { m with theirs := some x } else some { m with early := some x } }
  | 2 => updMove s vdev fun mv => if mv.losing && decide (mv.state = 2) then { mv with learned := some (field body 0 4), state := 3 } else mv
  | 3 => updMove s vdev fun mv => if !mv.losing && decide (mv.state = 3) then { mv with stopped := some (field body 0 4), state := 4 } else mv
  | _ =>
    match s.remotes.find? fun x => decide (x.2.codec = codec) && decide (x.2.peer = peer) && decide (x.2.eid = num)
        && (find? s.edges x.1).any fun e => decide (e.role = roleReceiver) && codecServes s e with
    | none => s
    | some (k, _) =>
      let s := s.updRemote k fun m => { m with fin := some (field body 0 4, frame), closed := true }.enter
      match find? s.edges k with
      | some e => settleEdge s k e
      | none => s

/-- Hand on the stored messages that follow, in RSEQ order. -/
def deliverStored (codec peer : Nat) : Nat → State → State
  | 0, s => s
  | fuel + 1, s =>
    let x := mget Session.new (s.codec codec).sessions peer
    match find? x.store x.expect with
    | none => s
    | some b =>
      let y : Session := { x with expect := (x.expect + 1) % 2 ^ 32, store := merase x.store x.expect }
      deliverStored codec peer fuel (applyMessage (s.updCodec codec fun c => { c with sessions := mset c.sessions peer y }) codec peer b)

/-- Whether a message has the form R268 gives it. -/
def messageOk (b : List Byte) : Bool :=
  let kind := field b 1 1
  let n := b.length - 0x18
  decide (0x18 ≤ b.length) && decide (field b 0 1 = 0x12) && decide (kind ≤ 4)
    && (if kind = 0 then decide (field b 0x14 4 + n ≤ field b 0x10 4) && decide (field b 0x10 4 ≤ 65536)
        else decide (field b 0x10 4 = n) && decide (field b 0x14 4 = 0) && decide (n = if kind = 1 then 8 else 4)
          && (decide (kind = 4) || decide (field b 2 2 = 0)))

/-- A message of the reliable lane arrives: delivered in RSEQ order, kept, or a duplicate; then acknowledged (R268, R269). -/
def evMessage (kind codec : Nat) (f : List Byte) (s : State) : Option State := ofFrame s codec f fun a =>
  let b := a.body
  if 2 ≤ codec ∨ !(decide (field b 1 1 = kind) || (decide (kind = 0) && decide (4 < field b 1 1))) then none
  else if !messageOk b then some (s.updCodec codec fun c => { c with malformed := c.malformed + 1 })
  else match peerOf (s.codec codec) a (field b 4 4) with
    | none => some (dropWire s codec)
    | some peer =>
      let x := mget Session.new (s.codec codec).sessions peer
      let q := field b 8 4
      let s := if precedes q x.expect then s
        else
          let y : Session := { x with store := mset x.store q b }
          deliverStored codec peer (y.store.length + 1) (s.updCodec codec fun c => { c with sessions := mset c.sessions peer y })
      some (sendWire s codec peer (ackMsg (field b 4 4) (mget Session.new (s.codec codec).sessions peer).expect))

def evStateMessage (codec : Nat) (b : List Byte) (s : State) : Option State := evMessage 0 codec b s
def evMoveMessage (codec : Nat) (b : List Byte) (s : State) : Option State := evMessage 1 codec b s
def evTakeMessage (codec : Nat) (b : List Byte) (s : State) : Option State := evMessage 2 codec b s
def evStoppedMessage (codec : Nat) (b : List Byte) (s : State) : Option State := evMessage 3 codec b s
def evCloseMessage (codec : Nat) (b : List Byte) (s : State) : Option State := evMessage 4 codec b s

/-- ACK_MESSAGE: what it acknowledges is sent no more; an acknowledged STOPPED completes the losing side's move (R268, R279). -/
def evAckMessage (codec : Nat) (f : List Byte) (s : State) : Option State := ofFrame s codec f fun a =>
  let b := a.body
  if 2 ≤ codec ∨ field b 0 1 % 16 ≠ 3 then none
  else if b.length ≠ 16 ∨ field b 0 1 ≠ 0x13 ∨ field b 1 3 ≠ 0 ∨ field b 0xC 4 ≠ 0 then
    some (s.updCodec codec fun c => { c with malformed := c.malformed + 1 })
  else match peerOf (s.codec codec) a (field b 4 4) with
    | none => some (dropWire s codec)
    | some peer =>
      let x := mget Session.new (s.codec codec).sessions peer
      let gone := x.unacked.filter fun u => precedes u.1 (field b 8 4)
      let y : Session := { x with unacked := x.unacked.filter fun u => !precedes u.1 (field b 8 4) }
      let s := s.updCodec codec fun c => { c with sessions := mset c.sessions peer y }
      some (if gone.any fun u => decide (field u.2.1 1 1 = 3) then
          updMove s (peerVdev (s.codec codec) peer) fun mv => if mv.losing && decide (mv.state = 3) then { mv with stopAcked := true, state := 4 } else mv
        else s)

/-- RELIABLE_RESEND: the unacknowledged messages of a session whose time has come are sent again; the interval doubles up to 6.4 ms (R268). -/
def evReliableResend (codec sid : Nat) (s : State) : Option State :=
  (peerOfSid (s.codec codec) sid).bind fun peer =>
    let x := mget Session.new (s.codec codec).sessions peer
    let due := x.unacked.filter fun u => decide (u.2.2.1 ≤ s.now)
    if due = [] then none
    else
      let again (u : Nat × List Byte × Nat × Nat) : Nat × List Byte × Nat × Nat :=
        if u.2.2.1 ≤ s.now then
          let iv := min (2 * u.2.2.2) (usCc 6400)
          (u.1, u.2.1, s.now + iv, iv)
        else u
      let y : Session := { x with unacked := x.unacked.map again }
      some (due.foldl (fun s u => sendWire s codec peer u.2.1) (s.updCodec codec fun c => { c with sessions := mset c.sessions peer y }))

/-! ## Meanings of the events -/

def execStateMessage (codec : Nat) (payload : List Byte) (s : State) : Host.Outcome State Fault Refusal := ofEvent (evStateMessage codec payload s) s
def execMoveMessage (codec : Nat) (payload : List Byte) (s : State) : Host.Outcome State Fault Refusal := ofEvent (evMoveMessage codec payload s) s
def execTakeMessage (codec : Nat) (payload : List Byte) (s : State) : Host.Outcome State Fault Refusal := ofEvent (evTakeMessage codec payload s) s
def execStoppedMessage (codec : Nat) (payload : List Byte) (s : State) : Host.Outcome State Fault Refusal :=
  ofEvent (evStoppedMessage codec payload s) s
def execCloseMessage (codec : Nat) (payload : List Byte) (s : State) : Host.Outcome State Fault Refusal := ofEvent (evCloseMessage codec payload s) s
def execAckMessage (codec : Nat) (payload : List Byte) (s : State) : Host.Outcome State Fault Refusal := ofEvent (evAckMessage codec payload s) s
def execReliableResend (codec sid : Nat) (s : State) : Host.Outcome State Fault Refusal := ofEvent (evReliableResend codec sid s) s

end Sys2Proof.Machine
end

