-- ==== Sys2Proof/Machine/Walker.lean ====
section
/-! DEFINITION. Front ends and graph walkers (R24 to R33): the register block and partitions, node stores, start stamps, the nodes. -/
namespace Sys2Proof.Machine

/-! ## Partitions and registers (R24, R25) -/

/-- A register write that the front end's state or its value forbids: ignored, error 0x01 (R24). -/
def feIgnored (s : State) (fe : Nat) : State := s.updFe fe fun f => { f with err := 1 }

/-- Whether two cluster ranges meet. -/
def rangesMeet (a b c d : Nat) : Bool := decide (a ≤ d) && decide (c ≤ b)

/-- Whether EN may be set (R25). -/
def partitionOk (s : State) (fe base limit : Nat) : Bool :=
  let f := s.fe fe
  decide (base ≤ limit) && decide (limit ≤ 199) && decide (f.color ≠ 0)
    && s.fes.all fun o => decide (o.1 = fe) || !o.2.en || (!rangesMeet base limit o.2.base o.2.limit && decide (f.color &&& o.2.color = 0))

/-- Whether a partition holds a live grid, an open stage or a context (R25). -/
def partitionBusy (s : State) (fe : Nat) : Bool :=
  let f := s.fe fe
  s.grids.any (fun g => decide (g.2.fe = fe)) || s.edges.any (fun e => e.2.opened && decide (e.2.fe = fe)) || decide (f.queue ≠ [])
    || (f.vdevV && match (s.vdev f.vdev).st with | .free | .saved => false | _ => true)

/-- A write of FEPART (R24, R25). A refused enable stores BASE and LIMIT all the same. (DESIGN CHOICE, log 88) -/
def writePart (s : State) (fe val : Nat) : State :=
  let f := s.fe fe
  let base := bitsAt val 7 0
  let limit := bitsAt val 15 8
  let en := bit val 16
  if val / 2 ^ 17 ≠ 0 then feIgnored s fe
  else if f.en then
    if base ≠ f.base ∨ limit ≠ f.limit then feIgnored s fe
    else if en then s
    else if f.st ≠ .idle ∨ partitionBusy s fe then feIgnored s fe
    else s.updFe fe fun f => { f with en := false }
  else
    let s := s.updFe fe fun f => { f with base := base, limit := limit }
    if !en then s
    else if partitionOk s fe base limit then s.updFe fe fun f => { f with en := true }
    else s.updFe fe fun f => { f with err := 2 }

/-- PARTITION_ENABLE: a write of FEPART with EN = 1; from another mode than hypervisor it is ignored (R24, R25). -/
def evPartitionEnable (fe : Nat) (val : Word) (hyp : Bool) (s : State) : Option State :=
  if !s.host hyp ∨ 20 ≤ fe ∨ !bit val.toNat 16 then none else some (writePart s fe val.toNat)

/-- PARTITION_DISABLE: a write of FEPART with EN = 0 (R25). -/
def evPartitionDisable (fe : Nat) (val : Word) (hyp : Bool) (s : State) : Option State :=
  if !s.host hyp ∨ 20 ≤ fe ∨ bit val.toNat 16 then none else some (writePart s fe val.toNat)

/-- Whether the GW is IDLE or HALT. -/
def FrontEnd.quiet (f : FrontEnd) : Bool := decide (f.st = .idle) || decide (f.st = .halt)

/-- A write of one of the registers without an event of its own: FECOLOR, FEGRAPH, FECWB, FEPOWER, FESTAT, FEVDEV (R24). The cache lines in colours
that FECOLOR gives up leave at once (R26). (DEDUCED, log 52) -/
def writeFeReg (s : State) (fe off val : Nat) : State :=
  let f := s.fe fe
  let v : DWord := BitVec.ofNat 64 val
  if off = 0x008 then if f.en then feIgnored s fe else (s.dropColors (f.color &&& ~~~v)).updFe fe fun f => { f with color := v }
  else if off = 0x018 then if f.quiet && decide (val % 32 = 0) then s.updFe fe fun f => { f with graph := v } else feIgnored s fe
  else if off = 0x028 then if f.quiet && decide (val % 1024 = 0) then s.updFe fe fun f => { f with cwb := v } else feIgnored s fe
  else if off = 0x030 then if val < 2 ^ 12 then s.updFe fe fun f => { f with power := some val } else feIgnored s fe
  else if off = 0x040 then
    let bound := bit val 8 && s.fes.any fun o => decide (o.1 ≠ fe) && o.2.vdevV && decide (o.2.vdev = val % 256)
    if f.quiet && decide (val < 2 ^ 9) && !bound then s.updFe fe fun f => { f with vdevV := bit val 8, vdev := val % 256 } else feIgnored s fe
  else feIgnored s fe

/-! ## Walker reads (R28, R31) -/

/-- A walker's read of a number in its context's memory: SYS class, below the L1s. -/
def walkRead (s : State) (vdev va n : Nat) : EGot Nat :=
  match sysBytes s vdev 1 2 va n with
  | .ok b => .ok (leNat b)
  | .xlate a => .xlate a
  | .fatal c => .fatal c
  | .poison pa => .poison pa

/-- The context of a front end: bound and created. -/
def feContext (s : State) (f : FrontEnd) : Bool := f.vdevV && decide ((s.vdev f.vdev).st ≠ .free)

/-- FEWATCH_WRITE: the dword at the new address gives the sequence last accepted; 0 watches no address (R28). A write whose read fails is
ignored. (DESIGN CHOICE, log 51) -/
def evFewatchWrite (fe : Nat) (val : DWord) (hyp : Bool) (s : State) : Option State :=
  let f := s.fe fe
  if !s.host hyp ∨ 20 ≤ fe then none
  else if !f.quiet || decide (val.toNat % 8 ≠ 0) || decide (2 ^ 57 ≤ val.toNat) then some (feIgnored s fe)
  else if val = 0 then some (s.updFe fe fun f => { f with watch := 0 })
  else if !feContext s f then some (feIgnored s fe)
  else match walkRead s f.vdev val.toNat 8 with
    | .ok d => some ((s.sysReads f.vdev [(val.toNat, 8)]).updFe fe fun f => { f with watch := val, accepted := d / 2 ^ 16, stampBad := false })
    | x => some (feIgnored (fePoison s f.vdev x) fe)

/-! ## Starting a walk (R28) -/

/-- Whether an index names a valid entry of the node store. -/
def FrontEnd.has (f : FrontEnd) (i : Nat) : Bool := (find? f.nodes i).isSome

/-- The GW accepts a stamp: the walk begins at the entry node, or fails at once (R28). -/
def acceptStamp (s : State) (fe : Nat) (stamp : DWord) : State :=
  let v := stamp.toNat
  let s := s.updFe fe fun f => { f with accepted := v / 2 ^ 16, pending := none, counts := [], walks := f.walks + 1, endWait := false
                                        launchWait := false, st := .walk, node := v % 2 ^ 12 }
  if bitsAt v 15 12 ≠ 0 ∨ !(s.fe fe).has (v % 2 ^ 12) then walkError s fe 4 else toNode s fe (v % 2 ^ 12)

/-- Whether a front end's walker acts: its partition is enabled and its device LIVE. -/
def feActs (s : State) (f : FrontEnd) : Bool := f.en && f.vdevV && deviceLive s f.vdev

/-- START_STAMP: the GW observes a new stamp; it begins a walk or holds the stamp pending, in place of one that it holds (R28). A read of the stamp
that fails does nothing more than log its poison once (R347). (DESIGN CHOICE, log 51) -/
def evStartStamp (fe : Nat) (s : State) : Option State :=
  let f := s.fe fe
  if !feActs s f || decide (f.watch = 0) then none
  else match walkRead s f.vdev f.watch.toNat 8 with
    | .ok v =>
      let q := v / 2 ^ 16
      let t := s.sysReads f.vdev [(f.watch.toNat, 8)]
      if q = f.accepted ∨ f.pending = some (BitVec.ofNat 64 v) then none
      else if f.st = .idle then some (acceptStamp t fe (BitVec.ofNat 64 v))
      else some (t.updFe fe fun f => { f with pending := some (BitVec.ofNat 64 v)
                                              collapsed := if f.pending.isSome then min 255 (f.collapsed + 1) else f.collapsed })
    | .poison pa => if f.stampBad then none else some ((logPoison s f.vdev pa 0 0 0).updFe fe fun f => { f with stampBad := true })
    | _ => none

/-- A node store loaded from bytes. -/
def nodeStore (n : Nat) (b : List Byte) : AMap (List Word) := (List.range n).map fun i => (i, bytesWords 8 ((b.drop (32 * i)).take 32))

/-- FELOAD: n nodes are copied from FEGRAPH; a load in HALT returns to IDLE and accepts a pending stamp (R27, R28). A load that cannot read
its nodes is ignored. (DESIGN CHOICE, log 51) -/
def evFeload (fe : Nat) (val : Word) (hyp : Bool) (s : State) : Option State :=
  let f := s.fe fe
  let n := val.toNat + 1
  if !s.host hyp ∨ 20 ≤ fe then none
  else if 2 ^ 12 ≤ val.toNat then some (feIgnored s fe)
  else if !f.quiet then some (s.updFe fe fun f => { f with err := 3 })
  else if !feContext s f then some (feIgnored s fe)
  else match sysBytes s f.vdev 1 (32 * n / 4096 + 2) f.graph.toNat (32 * n) with
    | .ok b =>
      let s := (s.sysReads f.vdev [(f.graph.toNat, 32 * n)]).updFe fe fun f => { f with nodes := nodeStore n b, st := .idle }
      match f.st, f.pending with
      | .halt, some p => some (acceptStamp s fe p)
      | _, _ => some s
    | .xlate va => some (feIgnored (logEvent s f.vdev evXlate 0x20 0 127 (s.vdev f.vdev).gen va 0 0 0 0) fe)
    | x => some (feIgnored (fePoison s f.vdev x) fe)

/-! ## Nodes (R29 to R32) -/

def nodeKind (w : List Word) : Nat := blkW w 0 % 256
def nodeNext (w : List Word) : Nat := bitsAt (blkW w 0) 31 20
def nodeDep (w : List Word) : Bool := bit (blkW w 0) 8 || decide (5 ≤ nodeKind w)

/-- The bits that words 1 to 7 of a kind of node may hold (R29). -/
def nodeBits (kind : Nat) : List Nat :=
  let f := 2 ^ 32 - 1
  match kind with
  | 1 => [0xFFFF, f, f, f, f, 0, 0]
  | 2 => [0x7FFFFF, 0, 0, 0, 0, 0, 0]
  | 3 => [0x7FFFFF, f, 0, 0, 0, 0, 0]
  | 4 => [3, f, f, f, f, f, 0]
  | 5 | 8 => [0x1FF, f, f, f, f, 0, 0]
  | 7 => [0x7F, f, f, f, 0, f, f]
  | _ => [0, 0, 0, 0, 0, 0, 0]

/-- Whether a node is well formed (R29, R30); `has` says which indices name valid entries. R29 asks for alignment in WAIT and SIGNAL; the dwords of a cut
list are aligned too; END's address is not: the worked program of chapter 19 stores its completion 4 bytes off. (DEDUCED, log 72) -/
def nodeOk (has : Nat → Bool) (w : List Word) : Bool :=
  let k := nodeKind w
  let w1 := blkW w 1
  decide (1 ≤ k) && decide (k ≤ 8) && decide (bitsAt (blkW w 0) 19 9 = 0)
    && ((nodeBits k).zipIdx).all (fun x => decide ((w.getD (x.2 + 1) 0) &&& ~~~(BitVec.ofNat 32 x.1) = 0))
    && (decide (k = 8) || has (nodeNext w))
    && (!(decide (k = 2) || decide (k = 3)) || (decide (bitsAt w1 22 20 ≤ 5) && has (bitsAt w1 19 8)))
    && (decide (k ≠ 4) || decide (w1 % 4 ≠ 3)) && (!(decide (k = 4) || decide (k = 5) || decide (k = 7)) || decide (blkP w 2 % 8 = 0))
    && (decide (k ≠ 7) || (decide (1 ≤ w1) && decide (w1 ≤ 64)))

/-- The node that a walker stands at and may act on: of a kind, with DEP fulfilled (R30, R32). A malformed node ends the walk. -/
def atNode (fe kind : Nat) (s : State) (body : FrontEnd → List Word → Option State) : Option State :=
  let f := s.fe fe
  if !feActs s f || decide (f.st ≠ .walk) || decide (f.parked ≠ 0) || f.launchWait || f.endWait then none
  else
    let w := (find? f.nodes f.node).getD []
    if !nodeOk f.has w then some (walkError s fe 5)
    else if decide (nodeKind w ≠ kind) || (nodeDep w && !f.fenced && decide (kind ≠ 8)) then none
    else body f w

/-- Whether the walk still has grids or open stages (R31, R32), and how many the GW has in all (R33). -/
def walkBusy (s : State) (fe : Nat) : Bool :=
  let n := (s.fe fe).walks
  s.grids.any (fun g => decide (g.2.fe = fe) && decide (g.2.walk = n)) || s.edges.any fun e => e.2.opened && decide (e.2.fe = fe) && decide (e.2.walk = n)
def walkCount (s : State) (fe : Nat) : Nat :=
  s.grids.countP (fun g => decide (g.2.fe = fe) && decide (g.2.walk ≠ 0)) + s.edges.countP fun e => e.2.opened && decide (e.2.fe = fe) && decide (e.2.walk ≠ 0)

/-- WALKER_FENCE: the walk's earlier work has completed, and the GW performs the cumulative fence at device scope (R32). -/
def evWalkerFence (fe : Nat) (s : State) : Option State :=
  let f := s.fe fe
  let w := (find? f.nodes f.node).getD []
  if feActs s f && (decide (f.st = .walk)) && decide (f.parked = 0) && !f.launchWait && !f.fenced && nodeOk f.has w && nodeDep w
      && (f.endWait || decide (nodeKind w ≠ 8)) && !walkBusy s fe then
    let cores := (clustersOf f).flatMap fun c => (List.range 4).map (4 * c + ·)
    let s := cores.foldl (fun s c => s.writeBackAll c) s
    let s := cores.foldl (fun s c => (s.dropClean c).dropSmp c) s
    some (s.updFe fe fun f => { f with fenced := true })
  else none

/-- What a walker does when an access of it fails: it stalls on a translation fault; other faults make the node a bad one (R35, R347). -/
def walkFault {α : Type} (s : State) (fe vdev : Nat) : EGot α → State
  | .xlate va => walkStall s fe vdev va
  | .poison pa => walkError (logPoison s vdev pa 0 0 0) fe 5
  | _ => walkError s fe 5

/-- LAUNCH: the launch joins the queue; the walker waits for its admission (R31, R33, R35). -/
def evLaunchNode (fe : Nat) (s : State) : Option State :=
  atNode fe 1 s fun f w =>
    if 64 ≤ walkCount s fe ∨ 64 ≤ f.queue.length then none
    else
      let l : LaunchReq := ⟨f.vdev, true, 0, 0, blkP w 2, blkP w 4, blkW w 1, false⟩
      some (s.updFe fe fun f => { f with queue := f.queue ++ [l], launchWait := true })

/-- CC of COND and WHILE (R29). -/
def ccHolds (cc : Nat) (v : Int) : Bool :=
  match cc with
  | 0 => decide (v = 0)
  | 1 => decide (v ≠ 0)
  | 2 => decide (v < 0)
  | 3 => decide (0 ≤ v)
  | 4 => decide (0 < v)
  | _ => decide (v ≤ 0)

/-- Read a condition word and test it (R31, R34): the state after the read, and the outcome. -/
def condTest (s : State) (f : FrontEnd) (w : List Word) : EGot (State × Bool) :=
  let a := (f.cwb.toNat + 4 * (blkW w 1 % 256)) % 2 ^ 64
  match walkRead s f.vdev a 4 with
  | .ok v => .ok (s.sysReads f.vdev [(a, 4)], ccHolds (bitsAt (blkW w 1) 22 20) (signed 32 v))
  | .xlate a => .xlate a
  | .fatal c => .fatal c
  | .poison pa => .poison pa

/-- COND (R31). -/
def evCondNode (fe : Nat) (s : State) : Option State :=
  atNode fe 2 s fun f w => some (match condTest s f w with
    | .ok (s, b) => toNode s fe (if b then nodeNext w else bitsAt (blkW w 1) 19 8)
    | x => walkFault s fe f.vdev x)

/-- WHILE: BODY while the test holds and the limit is not reached; error 0x08 is only recorded (R31). -/
def evWhileNode (fe : Nat) (s : State) : Option State :=
  atNode fe 3 s fun f w => some (match condTest s f w with
    | .ok (s, b) =>
      let n := mget 0 f.counts f.node
      let limit := blkW w 2
      if b && (decide (limit = 0) || decide (n < limit)) then
        toNode (s.updFe fe fun f => { f with counts := mset f.counts f.node (n + 1) }) fe (bitsAt (blkW w 1) 19 8)
      else toNode (s.updFe fe fun f => { f with counts := merase f.counts f.node, err := if b then 8 else f.err }) fe (nodeNext w)
    | x => walkFault s fe f.vdev x)

/-- WAIT's comparison (R29, R31). -/
def waitHolds (cmp v value : Nat) : Bool := if cmp = 0 then decide (value ≤ v) else if cmp = 1 then decide (v = value) else decide (v ≠ value)

/-- WAIT: the first read; it goes on, or the walker waits with its timeout running (R31). -/
def evWaitNode (fe : Nat) (s : State) : Option State :=
  atNode fe 4 s fun f w => some (match walkRead s f.vdev (blkP w 2) 8 with
    | .ok v =>
      let s := s.sysReads f.vdev [(blkP w 2, 8)]
      if waitHolds (blkW w 1 % 4) v (blkP w 4) then toNode s fe (nodeNext w)
      else s.updFe fe fun f => { f with st := .wait, deadline := if blkW w 6 = 0 then none else some (s.now + usCc (blkW w 6)) }
    | x => walkFault s fe f.vdev x)

/-- WAIT_NODE_POLL: a repeated read finds the comparison satisfied (R31). -/
def evWaitNodePoll (fe : Nat) (s : State) : Option State :=
  let f := s.fe fe
  if !feActs s f || decide (f.st ≠ .wait) || decide (f.parked ≠ 0) then none
  else
    let w := (find? f.nodes f.node).getD []
    match walkRead s f.vdev (blkP w 2) 8 with
    | .ok v => if waitHolds (blkW w 1 % 4) v (blkP w 4) then some (toNode (s.sysReads f.vdev [(blkP w 2, 8)]) fe (nodeNext w)) else none
    | x => some (walkFault s fe f.vdev x)

/-- WAIT_TIMEOUT: the timeout of a WAIT expires (R31). -/
def evWaitTimeout (fe : Nat) (s : State) : Option State :=
  let f := s.fe fe
  if feActs s f && decide (f.st = .wait) && f.deadline.any fun d => decide (d ≤ s.now) then some (walkError s fe 6) else none

/-- A walker's store of a dword, release at system scope (R31): the fence before it wrote every L1 back. -/
def walkStore (s : State) (vdev va v : Nat) : EGot State :=
  match engRuns s vdev none 2 2 va 8 with
  | .ok l => .ok (putRuns s l (leBytes 8 v))
  | .xlate a => .xlate a
  | .fatal c => .fatal c
  | .poison pa => .poison pa

/-- SIGNAL (R31). -/
def evSignalNode (fe : Nat) (s : State) : Option State :=
  atNode fe 5 s fun f w => some (match walkStore s f.vdev (blkP w 2) (blkP w 4) with
    | .ok t => toNode (if bit (blkW w 1) 8 then raiseVector t (blkW w 1 % 256) else t) fe (nodeNext w)
    | .xlate va => walkFault s fe f.vdev (.xlate va : EGot State)
    | .fatal c => walkFault s fe f.vdev (.fatal c : EGot State)
    | .poison pa => walkFault s fe f.vdev (.poison pa : EGot State))

/-- FRAME (R6, R31). -/
def evFrameNode (fe : Nat) (s : State) : Option State :=
  atNode fe 6 s fun f w => some (toNode (advanceFrame s f.vdev) fe (nodeNext w))

/-- CUTMOVE: it waits while a move of the context is unfinished (R31, R277). -/
def evCutmoveNode (fe : Nat) (s : State) : Option State :=
  atNode fe 7 s fun f w =>
    if moveUnfinished s f.vdev then none
    else
      let n := blkW w 1
      some (match sysBytes s f.vdev 1 2 (blkP w 2) (8 * n) with
        | .ok b => match startMove (s.sysReads f.vdev [(blkP w 2, 8 * n)]) f.vdev (blkW w 4) (blkP w 6) ((List.range n).map fun i => field b (8 * i) 8) with
          | .ok t => toNode t fe (nodeNext w)
          | .error va => walkStall s fe f.vdev va
        | x => walkFault s fe f.vdev x)

/-- END_NODE: the walker begins to wait for the walk's work (R31). -/
def evEndNode (fe : Nat) (s : State) : Option State :=
  atNode fe 8 s fun _ _ => some (s.updFe fe fun f => { f with endWait := true })

/-- END_COMPLETE: the work has completed and the fence is made; completion value, vector, then a pending stamp or IDLE (R28, R31). -/
def evEndComplete (fe : Nat) (s : State) : Option State :=
  let f := s.fe fe
  if !feActs s f || !f.endWait || !f.fenced || decide (f.parked ≠ 0) then none
  else
    let w := (find? f.nodes f.node).getD []
    let done (s : State) : State :=
      let s := if bit (blkW w 1) 8 then raiseVector s (blkW w 1 % 256) else s
      match f.pending with
      | some p => acceptStamp s fe p
      | none => s.updFe fe fun f => { f with st := .idle, endWait := false, fenced := false }
    if blkP w 2 = 0 then some (done s)
    else some (match walkStore s f.vdev (blkP w 2) (blkP w 4) with
      | .ok t => done t
      | x => walkFault s fe f.vdev x)

/-! ## Meanings of the events -/

def execPartitionEnable (fe : Nat) (val : Word) (hyp : Bool) (s : State) : Host.Outcome State Fault Refusal := ofEvent (evPartitionEnable fe val hyp s) s
def execPartitionDisable (fe : Nat) (val : Word) (hyp : Bool) (s : State) : Host.Outcome State Fault Refusal :=
  ofEvent (evPartitionDisable fe val hyp s) s
def execFewatchWrite (fe : Nat) (val : DWord) (hyp : Bool) (s : State) : Host.Outcome State Fault Refusal := ofEvent (evFewatchWrite fe val hyp s) s
def execFeload (fe : Nat) (val : Word) (hyp : Bool) (s : State) : Host.Outcome State Fault Refusal := ofEvent (evFeload fe val hyp s) s
def execStartStamp (fe : Nat) (s : State) : Host.Outcome State Fault Refusal := ofEvent (evStartStamp fe s) s
def execLaunchNode (fe : Nat) (s : State) : Host.Outcome State Fault Refusal := ofEvent (evLaunchNode fe s) s
def execCondNode (fe : Nat) (s : State) : Host.Outcome State Fault Refusal := ofEvent (evCondNode fe s) s
def execWhileNode (fe : Nat) (s : State) : Host.Outcome State Fault Refusal := ofEvent (evWhileNode fe s) s
def execWaitNode (fe : Nat) (s : State) : Host.Outcome State Fault Refusal := ofEvent (evWaitNode fe s) s
def execWaitNodePoll (fe : Nat) (s : State) : Host.Outcome State Fault Refusal := ofEvent (evWaitNodePoll fe s) s
def execWaitTimeout (fe : Nat) (s : State) : Host.Outcome State Fault Refusal := ofEvent (evWaitTimeout fe s) s
def execSignalNode (fe : Nat) (s : State) : Host.Outcome State Fault Refusal := ofEvent (evSignalNode fe s) s
def execFrameNode (fe : Nat) (s : State) : Host.Outcome State Fault Refusal := ofEvent (evFrameNode fe s) s
def execCutmoveNode (fe : Nat) (s : State) : Host.Outcome State Fault Refusal := ofEvent (evCutmoveNode fe s) s
def execEndNode (fe : Nat) (s : State) : Host.Outcome State Fault Refusal := ofEvent (evEndNode fe s) s
def execEndComplete (fe : Nat) (s : State) : Host.Outcome State Fault Refusal := ofEvent (evEndComplete fe s) s
def execWalkerFence (fe : Nat) (s : State) : Host.Outcome State Fault Refusal := ofEvent (evWalkerFence fe s) s

end Sys2Proof.Machine
end

