-- ==== Sys2Proof/Machine/Edge.lean ====
section
/-! DEFINITION. The EDGE instructions (R280 to R284). -/
namespace Sys2Proof.Machine

/-- Statuses of EDGE (R280). -/
def esOk : Nat := 0
def esInvalid : Nat := 2
def esState : Nat := 4
def esLocal : Nat := 6
def esFault : Nat := 0x14

/-- What an EDGE instruction comes to: a status, or a translation fault that stalls it. -/
inductive EdgeEnd where
  | done (s : State) (status : Nat)
  | stall (va : Nat)
  deriving DecidableEq, Repr

/-- An access of an EDGE instruction that failed (R280, R347). (DEDUCED, log 57) -/
def edgeFault {α : Type} (s : State) (c : Ctx) : EGot α → EdgeEnd
  | .xlate va => .stall va
  | .poison pa => .done (logPoison s c.g.info.vdev pa c.pc c.g.info.core c.g.info.slot) esFault
  | _ => .done s esFault

/-- The shape of EDGE (R280): the block is read at issue, T receives the status; a translation fault stalls the instruction, which
executes again after a RETRY (R198). -/
def edgeWith (i : Instr) (p t : Fin 56) (wait : Group → Bool) (body : Ctx → List Word → State → EdgeEnd) (s : State) :
    Host.Outcome State Fault Refusal :=
  issueW i { (Need.ofUni.ublk p.val 4).udst (.g t) with even := [p.val] } wait (fun _ _ => 0) (fun c s =>
    match body c (ublock c.g p.val 4) s with
    | .done s st => uniResult (.g t) 0 (fun _ _ => BitVec.ofNat 32 st) c s
    | .stall va =>
      let r := newToken s c.g.info.vdev (.wait c.gid)
      let s := r.1.updGroup c.gid fun g =>
        { g with c := { g.c with wait := .edge t.val, paths := setCur g.c.paths fun p => { p with pc := c.pc } } }
      logEvent s c.g.info.vdev evXlate 0x20 0 127 c.g.info.gen va c.pc c.g.info.core c.g.info.slot r.2) s

/-- EDGE.FRAME: a release over LSU and EDG at device scope, then the frame counter advances (R281). -/
def edgeFrameBody (c : Ctx) (b : List Word) (s : State) : EdgeEnd :=
  if b.any fun w => decide (w ≠ 0) then .done s esInvalid
  else .done (advanceFrame (s.writeBackAll c.g.info.core) c.g.info.vdev) esOk

def execEdgeFrame (p t : Fin 56) (s : State) : Host.Outcome State Fault Refusal :=
  edgeWith (.edgeFrame p t) p t (fun g => outstanding g [clsLSU, clsEDG]) edgeFrameBody s

/-- EDGE.CUTMOVE: the image of a CUTMOVE node is read and the move starts (R282). -/
def edgeCutmoveBody (c : Ctx) (b : List Word) (s : State) : EdgeEnd :=
  let vdev := c.g.info.vdev
  let a := blkP b 0
  if blkP b 2 ≠ 0 ∨ a % 32 ≠ 0 then .done s esInvalid
  else match sysBytes s vdev 1 2 a 32 with
    | .ok bs =>
      let w := bytesWords 8 bs
      let s := s.sysReads vdev [(a, 32)]
      if nodeKind w ≠ 7 ∨ !nodeOk (fun _ => true) w then .done s esInvalid
      else if moveUnfinished s vdev then .done s esState
      else
        let n := blkW w 1
        match sysBytes s vdev 1 2 (blkP w 2) (8 * n) with
        | .ok l => match startMove (s.sysReads vdev [(blkP w 2, 8 * n)]) vdev (blkW w 4) (blkP w 6) ((List.range n).map fun i => field l (8 * i) 8) with
          | .ok t => .done t esOk
          | .error va => .stall va
        | x => edgeFault s c x
    | x => edgeFault s c x

def execEdgeCutmove (p t : Fin 56) (s : State) : Host.Outcome State Fault Refusal :=
  edgeWith (.edgeCutmove p t) p t (fun _ => false) edgeCutmoveBody s

/-- The counter words of an edge (R283). -/
def edgeCounters (s : State) (edge : Nat) (e : Edge) : List Word :=
  let cnt (i : Nat) : Nat := match find? s.remotes edge with
    | some m => if e.role = roleSender ∨ e.role = roleReceiver then mget 0 m.cnt i else 0
    | none => 0
  (List.range 14).map (fun i => BitVec.ofNat 32 (cnt i))
    ++ [BitVec.ofNat 32 (((s.vdev e.vdev).move.map (·.state)).getD 0), BitVec.ofNat 32 (s.vdev e.vdev).cutgen]

/-- EDGE.STATUS: 16 counter words are written (R283). -/
def edgeStatusBody (c : Ctx) (b : List Word) (s : State) : EdgeEnd :=
  let edge := edgeKey c.g.info.vdev (blkP b 0)
  match find? s.edges edge with
  | none => .done s esInvalid
  | some e =>
    if blkP b 2 % 64 ≠ 0 then .done s esInvalid
    else match engRuns s c.g.info.vdev c.g.info.gang 2 2 (blkP b 2) 64 with
      | .ok l => .done (writeRuns s (clusterOf c.g.info.core) false l (wordBytes (edgeCounters s edge e))) esOk
      | x => edgeFault s c x

def execEdgeStatus (p t : Fin 56) (s : State) : Host.Outcome State Fault Refusal :=
  edgeWith (.edgeStatus p t) p t (fun _ => false) edgeStatusBody s

/-- EDGE.FLUSH: a sender sends the datagram being packed and closes the parity group (R284). -/
def edgeFlushBody (c : Ctx) (b : List Word) (s : State) : EdgeEnd :=
  let edge := edgeKey c.g.info.vdev (blkP b 0)
  match find? s.edges edge with
  | none => .done s esInvalid
  | some e =>
    if blkP b 2 ≠ 0 then .done s esInvalid
    else if e.role = roleSender then .done (sendParity (sendPack s edge) edge) esOk
    else if e.role = roleReceiver then .done s esOk
    else .done s esLocal

def execEdgeFlush (p t : Fin 56) (s : State) : Host.Outcome State Fault Refusal :=
  edgeWith (.edgeFlush p t) p t (fun _ => false) edgeFlushBody s

/-- The answer to a stalled EDGE (R198, R310): a RETRY lets it execute again; an ABORT completes it with FAULT. -/
def answerEdge (s : State) (gid : Nat) (retry : Bool) : State :=
  match s.group? gid with
  | none => s
  | some g => match g.c.wait with
    | .edge t =>
      if retry then s.updGroup gid fun g => { g with c := { g.c with wait := .none } }
      else s.updGroup gid fun g =>
        { g with r := g.r.setG t (BitVec.ofNat 32 esFault)
                 c := { g.c with wait := .none, paths := setCur g.c.paths fun p => { p with pc := (p.pc + 4) % 2 ^ 64 } } }
    | _ => s

end Sys2Proof.Machine
end

