-- ==== Sys2Proof/Machine/Bank.lean ====
section
/-! DEFINITION. Bank modes of a cluster (R163 to R165, R185). -/
namespace Sys2Proof.Machine

/-- Bank modes (R163). -/
def bmCache : Nat := 0
def bmScratch : Nat := 1
def bmFifo : Nat := 2

/-- Statuses of a bank request (R164). -/
def bsDone : Nat := 0
def bsBusy : Nat := 1
def bsRefused : Nat := 2

/-- Whether a started graph is not complete yet. -/
def graphRuns (s : State) (vdev graph : Nat) : Bool :=
  s.edges.any (fun e => decide (e.2.vdev = vdev) && decide (e.2.graph = graph) && e.2.opened)
    || s.grids.any fun g => decide (g.2.vdev = vdev) && decide (g.2.prog.graph = graph)

/-- Whether a ring of such a graph touches a bank (R164). -/
def ringInBank (s : State) (cl bank : Nat) : Bool :=
  s.edges.any fun x =>
    let e := x.2
    let lo := sramOffset e.base
    e.loc && decide (ringCluster s e = cl) && decide (lo < (bank + 1) * 65536) && decide (bank * 65536 < lo + e.slots * (8 * e.rs + 8))
      && graphRuns s e.vdev e.graph

/-- Whether a gang holds a unit of a bank. -/
def gangInBank (s : State) (cl bank : Nat) : Bool := s.gangs.any fun a => decide (a.2.cluster = cl) && a.2.units.any fun u => decide (u / 16 = bank)

/-- What R164's table decides for a request: a status at once, or the stage at which its work begins. -/
inductive BankStep where
  | status (n : Nat)
  | work (stage : Nat)
  deriving DecidableEq, Repr

/-- The mode a request finds: that of the last request decided before it (R164), or the bank's own. -/
def modeBefore (k : Cluster) (bank : Nat) : Nat :=
  ((k.bankReqs.filter fun r => decide (r.bank = bank) && decide (r.stage = 3)).getLast?.map (·.mode)).getD (mget bmCache k.bankMode bank)

/-- R164's table: a switch out of CACHE starts with a drain, any other with the zeroing. A mode of 3 or above is refused (DEDUCED, log 63). -/
def bankStep (s : State) (cl bank mode : Nat) : BankStep :=
  let cur := modeBefore (s.cluster cl) bank
  if 3 ≤ mode then .status bsRefused
  else if cur = mode then .status bsDone
  else if cur = bmScratch ∧ gangInBank s cl bank then .status bsBusy
  else if cur = bmFifo ∧ ringInBank s cl bank then .status bsBusy
  else .work (if cur = bmCache then 1 else 2)

/-- Write a uniform register that a bank request answers, and free its scoreboard entry; 56 discards it. (DEDUCED, log 73) -/
def bankAnswer (g : Group) (reg st : Nat) : Group :=
  if 56 ≤ reg then g
  else
    let g := { g with r := g.r.setG reg (BitVec.ofNat 32 st) }
    match g.c.sb.find? fun e => decide (e.2.gregs = [reg]) && e.2.ready.isNone with
    | some e => g.freeEntry e.1
    | none => g

/-- Answer a request: BANK's register, of a resident or a saved group, or BANKSTAT (R165, R185). -/
def answerBank (s : State) (cl : Nat) (r : BankReq) (st : Nat) : State :=
  match r.group with
  | none => s.updCluster cl fun k => { k with bankBusy := false, bankStatus := st }
  | some (gid, reg) =>
    let s := s.updGroup gid fun g => bankAnswer g reg st
    { s with vdevs := mmapv s.vdevs fun _ d =>
      { d with saved := d.saved.map fun v => { v with groups := mupd v.groups gid fun g => bankAnswer g reg st } } }

/-- The requests still at work that are answered, which hold no other up, and those from the first that is not. -/
def doneBanks (l : List BankReq) : List BankReq := l.takeWhile fun r => decide (r.stage = 3)
def openBanks (l : List BankReq) : List BankReq := l.dropWhile fun r => decide (r.stage = 3)

/-- Decide the requests of a cluster in their order, until one waits for its drain and zeroing: a switch out of SCRATCH or FIFO is done at
once, and the bank is zeroed (R164, R165, R185). -/
def decideBanks (cl : Nat) : Nat → State → State
  | 0, s => s
  | fuel + 1, s =>
    let l := (s.cluster cl).bankReqs
    match openBanks l with
    | [] => s
    | r :: t =>
      if r.stage ≠ 0 then s
      else match bankStep s cl r.bank r.mode with
        | .status st => decideBanks cl fuel (answerBank (s.updCluster cl fun k => { k with bankReqs := doneBanks l ++ t }) cl r st)
        | .work n =>
          if n = 1 then s.updCluster cl fun k => { k with bankReqs := doneBanks l ++ { r with stage := 1 } :: t }
          else decideBanks cl fuel (answerBank
            (s.updCluster cl fun k => { k with bankReqs := doneBanks l ++ { r with stage := 3, since := s.now } :: t }) cl r bsDone)

/-- A request joins the cluster's queue. -/
def askBank (s : State) (cl : Nat) (r : BankReq) : State :=
  let s := s.updCluster cl fun k => { k with bankReqs := k.bankReqs ++ [r] }
  decideBanks cl ((s.cluster cl).bankReqs.length + 1) s

/-- BANK (R185): a bank of 32 or more is refused at once. -/
def execBank (d : UDst) (a b : USrc) (s : State) : Host.Outcome State Fault Refusal :=
  issue (.bank d a b) { ((Need.ofUni.usrc a).usrc b).udst d with priv := true } (fun c s =>
    let bank := (usrc s c.g a).toNat
    let cl := clusterOf c.g.info.core
    if 32 ≤ bank then uniResult d 0 (fun _ _ => BitVec.ofNat 32 bsRefused) c s
    else
      let reg := match d with | .g r => r.val | .zero => 56
      let s := match d with | .g r => (takeSb s c.gid ⟨[], [r.val], 0, false, none⟩).1 | .zero => s
      let q : BankReq := ⟨bank, (usrc s c.g b).toNat, some (c.gid, reg), 0, 0⟩
      match d with
      | .zero => askBank s cl { q with group := some (0, 56) }
      | .g _ => askBank s cl q) s

/-- BANKREQ_WRITE (R165): ignored while BUSY, with a reserved bit set, or from another mode than hypervisor. -/
def evBankreqWrite (cl : Nat) (val : Word) (hyp : Bool) (s : State) : Option State :=
  let v := val.toNat
  if !s.host hyp || decide (200 ≤ cl) || (s.cluster cl).bankBusy || decide (2 ^ 13 ≤ v) || decide (bitsAt v 7 2 ≠ 0) then none
  else some (askBank (s.updCluster cl fun k => { k with bankBusy := true }) cl ⟨bitsAt v 12 8, v % 4, none, 0, 0⟩)

/-- The lines that a draining bank holds leave the cluster cache; dirty sectors go to the last-level cache (R164). -/
def drainLines (s : State) (cl bank : Nat) : State :=
  ((s.cluster cl).lines.filter fun e => decide (e.2.bank = bank)).foldl (fun s e => s.ccDrop cl e.1) s

/-- BANK_DRAIN_COMPLETE: the bank holds no valid line; zeroing begins (R164). -/
def evBankDrainComplete (cl : Nat) (s : State) : Option State :=
  let l := (s.cluster cl).bankReqs
  match openBanks l with
  | r :: t =>
    if r.stage = 1 then
      some ((drainLines s cl r.bank).updCluster cl fun k => { k with bankReqs := doneBanks l ++ { r with stage := 2, since := s.now } :: t })
    else none
  | [] => none

/-- The first request whose bank is being zeroed, with the requests without it. -/
def firstZeroing : List BankReq → Option (BankReq × List BankReq)
  | [] => none
  | r :: t => if 2 ≤ r.stage then some (r, t) else (firstZeroing t).map fun x => (x.1, r :: x.2)

/-- BANK_ZERO_COMPLETE: after 512 cc all 64 KiB read 0 and the new mode takes effect; a request out of CACHE is then decided (R164, R165). -/
def evBankZeroComplete (cl : Nat) (s : State) : Option State :=
  match firstZeroing (s.cluster cl).bankReqs with
  | some (r, t) =>
    if r.since + 512 ≤ s.now then
      let s := s.updCluster cl fun k => { k with bankReqs := t
                                                 bankMode := dset bmCache k.bankMode r.bank r.mode
                                                 sram := mfilter k.sram fun a _ => decide (a / 65536 ≠ r.bank)
                                                 sramPoison := k.sramPoison.filter fun u => decide (u / 512 ≠ r.bank)
                                                 sramOwner := mfilter k.sramOwner fun u _ => decide (u / 16 ≠ r.bank) }
      some (if r.stage = 2 then decideBanks cl (t.length + 1) (answerBank s cl r bsDone) else s)
    else none
  | none => none

/-! ## Meanings of the events -/

def execBankreqWrite (cluster : Nat) (val : Word) (hyp : Bool) (s : State) : Host.Outcome State Fault Refusal := ofEvent (evBankreqWrite cluster val hyp s) s
def execBankDrainComplete (cluster : Nat) (s : State) : Host.Outcome State Fault Refusal := ofEvent (evBankDrainComplete cluster s) s
def execBankZeroComplete (cluster : Nat) (s : State) : Host.Outcome State Fault Refusal := ofEvent (evBankZeroComplete cluster s) s

end Sys2Proof.Machine
end

