-- ==== Sys2Proof/Machine/Responses.lean ====
section
/-! DEFINITION. Answers of system software to tokens: FRESP (R304, R310, R317, R321, R322, R348). -/
namespace Sys2Proof.Machine

/-- A trap's answer (R304): CONTINUE moves the path that stopped, which its token names by its stamp, past the stopping instruction, whichever path is
current now; KILL kills the group with the trap's code (R303). -/
def answerTrap (s : State) (gid stamp : Nat) (retry : Bool) : State :=
  match s.group? gid with
  | none => s
  | some g => match g.c.wait with
    | .trapped _ code =>
      if retry then s.updGroup gid fun g =>
        { g with c := { g.c with wait := .none, readyCc := s.now, paths := g.c.paths.map fun p => if p.stamp = stamp then { p with pc := (p.pc + 4) % 2 ^ 64 } else p } }
      else
        let p := g.c.paths.find? fun p => decide (p.stamp = stamp)
        takeKillAt s gid code ((p.map (·.pc)).getD 0) 0 ((p.map (·.mask)).getD 0)
    | _ => s

/-- A ring slot's answer (R348): RETRY reads it again; ABORT voids it and sets the sticky error with code 0x20. -/
def answerSlot (s : State) (edge seq core : Nat) (retry : Bool) : State :=
  match find? s.edges edge with
  | none => s
  | some e =>
    let s := s.updEdge edge fun e => { e with parkedAt := ndel e.parkedAt seq }
    if retry then s else stickyError (voidSlot s edge seq) e.vdev (slotErr e 0x20 seq core)

/-- A walker's answer (R35), at the front end that the device is bound to now, since tokens outlive a save (R321): it tries its node again; an ABORT is a memory fault of the read, so that a LAUNCH is refused and another
node is a bad one (DEDUCED, log 34). -/
def answerWalker (s : State) (vdev token : Nat) (retry : Bool) : State :=
  match feOf s vdev with
  | none => s
  | some fe =>
  let f := s.fe fe
  if f.parked ≠ token then s
  else if retry then s.updFe fe fun f => { f with parked := 0 }
  else walkError s fe (if nodeKind ((find? f.nodes f.node).getD []) = 1 then 7 else 5)

/-- What an answer does by the kind of its token. -/
def answerKind (s : State) (vdev token note : Nat) (retry : Bool) : TokKind → State
  | .packets .. => answerPackets s vdev token retry
  | .trap g => answerTrap s g note retry
  | .unit_ op | .stamp op => if retry then retryOp s op else abortOp s op
  | .bursts op _ => answerBursts s op token retry
  | .slot edge seq => answerSlot s edge seq note retry
  | .walker _ => answerWalker s vdev token retry
  | .wait gid => match s.group? gid with
    | none => s
    | some g => match g.c.wait with
      | .edge _ => answerEdge s gid retry
      | _ => answerRule s gid token retry
  | .spawn => s

/-- Apply an answer: the token is used up; one that names nothing, or whose source is of an older generation, is ignored. -/
def applyFresp (vdev : Nat) (s : State) (r : Nat × Nat) : State :=
  let d := s.vdev vdev
  match find? d.tokens r.1 with
  | none => s
  | some t =>
    let s := s.updVdev vdev fun d => { d with tokens := merase d.tokens r.1 }
    if t.gen ≠ d.gen then s else answerKind s vdev r.1 t.note (decide (r.2 = 0)) t.kind

/-- Whether an answer ends the stop of a group inside a latch chain, for which a save waits (R71, R304). -/
def endsChainStop (s : State) (vdev : Nat) : TokKind → Bool
  | .trap gid => decide ((s.vdev vdev).st = .saving) && (s.group? gid).any (inChain s)
  | _ => false

/-- A write of FRESP by the application cores in hypervisor mode (R317): in a state other than LIVE it takes effect at the restore (R321), but for
one that a save waits for (R304). `trap` says whether it answers a stopped group. -/
def evFresp (trap : Bool) (action vdev token : Nat) (hyp : Bool) (s : State) : Option State :=
  if !s.host hyp ∨ 256 ≤ vdev then none
  else (find? (s.vdev vdev).tokens token).bind fun t =>
    let isTrap : Bool := match t.kind with | .trap _ => true | _ => false
    if isTrap != trap then none
    else if decide ((s.vdev vdev).st = .live) || endsChainStop s vdev t.kind then some (applyFresp vdev s (token, action))
    else some (s.updVdev vdev fun d => { d with pendFresp := d.pendFresp ++ [(token, action)] })

def evFrespRetry (vdev token : Nat) (hyp : Bool) (s : State) : Option State := evFresp false 0 vdev token hyp s
def evFrespAbort (vdev token : Nat) (hyp : Bool) (s : State) : Option State := evFresp false 1 vdev token hyp s
def evFrespContinue (vdev token : Nat) (hyp : Bool) (s : State) : Option State := evFresp true 0 vdev token hyp s
def evFrespKill (vdev token : Nat) (hyp : Bool) (s : State) : Option State := evFresp true 1 vdev token hyp s

/-! ## Meanings of the events -/

def execFrespRetry (vdev token : Nat) (hyp : Bool) (s : State) : Host.Outcome State Fault Refusal := ofEvent (evFrespRetry vdev token hyp s) s
def execFrespAbort (vdev token : Nat) (hyp : Bool) (s : State) : Host.Outcome State Fault Refusal := ofEvent (evFrespAbort vdev token hyp s) s
def execFrespContinue (vdev token : Nat) (hyp : Bool) (s : State) : Host.Outcome State Fault Refusal := ofEvent (evFrespContinue vdev token hyp s) s
def execFrespKill (vdev token : Nat) (hyp : Bool) (s : State) : Host.Outcome State Fault Refusal := ofEvent (evFrespKill vdev token hyp s) s

end Sys2Proof.Machine
end

