-- ==== Sys2Proof/Machine/Devices.lean ====
section
/-! DEFINITION. Virtual devices (R311 to R322): commands and their completion, what a save holds and a restore puts back (R313 to R316),
held events, and the invalidation of translations. -/
namespace Sys2Proof.Machine

/-! ## Commands (R318) -/

/-- Command statuses. -/
def cmBadState : Nat := 1
def cmNoBind : Nat := 2
def cmTooSmall : Nat := 3
def cmNoFit : Nat := 4

/-- The status of a command, with what it changes. -/
def command (s : State) (vdev status : Nat) (f : VDev → VDev) : State :=
  s.updVdev vdev fun d => if status = 0 then { f d with status := 0 } else { d with status := status }

/-- The hardware-owned areas of a context region, by physical address (R319). -/
def ownedCells (s : State) (vdev : Nat) : AMap Byte :=
  let d := s.vdev vdev
  let b := crb s vdev
  mfilter s.mem fun a _ => (decide (b + 0x40 ≤ a) && decide (a < b + 0x80)) || (decide (b + 0x100 ≤ a) && decide (a < b + 0x1000))
    || (decide (b + 0x10000 ≤ a) && decide (a < b + d.crsz * 65536))

/-- CREATE: FREE becomes SAVED with an empty context, its frame counter at 0 (R6, R318). -/
def evCreate (vdev : Nat) (hyp : Bool) (s : State) : Option State :=
  let d := s.vdev vdev
  if !s.host hyp ∨ 256 ≤ vdev then none
  else
    let st := if d.st ≠ .free then cmBadState else if d.crsz < 1 + 112 * (d.maxcl + 1) then cmTooSmall else 0
    some (command s vdev st fun d => { d with st := .saved, frame := 0, cutgen := 0, frameAt := [], image := ownedCells s vdev })

/-- SAVE: LIVE becomes SAVING. -/
def evSave (vdev : Nat) (hyp : Bool) (s : State) : Option State :=
  if !s.host hyp ∨ 256 ≤ vdev then none
  else some (command s vdev (if (s.vdev vdev).st = .live then 0 else cmBadState) fun d => { d with st := .saving })

/-- Whether a partition fits a restore: at most MAXCL clusters, and all the saved offsets. -/
def restoreFits (s : State) (vdev : Nat) (f : FrontEnd) : Bool :=
  let d := s.vdev vdev
  decide (partSize f ≤ d.maxcl + 1) && decide (((d.saved.map (·.maxOffset)).getD 0) + 1 ≤ partSize f)

/-- RESTORE: SAVED becomes RESTORING on the partition whose FEVDEV names the device. -/
def evRestore (vdev : Nat) (hyp : Bool) (s : State) : Option State :=
  if !s.host hyp ∨ 256 ≤ vdev then none
  else
    let st := if (s.vdev vdev).st ≠ .saved then cmBadState
      else match feOf s vdev with
        | none => cmNoBind
        | some fe => if restoreFits s vdev (s.fe fe) then 0 else cmNoFit
    some (command s vdev st fun d => { d with st := .restoring })

/-- RESET: LIVE or SAVED becomes RESETTING. -/
def evReset (vdev : Nat) (hyp : Bool) (s : State) : Option State :=
  let d := s.vdev vdev
  if !s.host hyp ∨ 256 ≤ vdev then none
  else some (command s vdev (if d.st = .live ∨ d.st = .saved then 0 else cmBadState) fun d => { d with st := .resetting })

/-! ## Saving (R313 to R316) -/

/-- Whether a request in flight may become a request packet of a save (R315): a read, an MMAR, a launch, a line not yet sent, a reservation or a
slot write that its edge's home has not taken, an atomic that an older access still holds back. The others are waited for. -/
def savesAsPacket (s : State) (g : Group) (req : Nat) (r : Req) : Bool :=
  !r.sent || match r.instr with
    | .ld .. | .ldp .. | .smp .. | .uld .. | .uldp .. | .dispatch .. | .launch .. | .mmar .. => true
    | .emit .. | .resv .. => decide (r.ops = [])
    | .atom .. => reqBlocked s g req r
    | _ => false

/-- Whether the group's next generation tag is free: no answer to a request sent under an equal tag is outstanding (R315). -/
def tagFree (g : Group) : Bool := !(g.c.stray.any fun e => decide (e.2 = (g.c.tag + 1) % 256))

/-- Whether a group can stop for a save now (R71, R313, R315). -/
def groupStops (s : State) (g : Group) : Bool :=
  !inChain s g && tagFree g && g.c.reqs.all fun e => decide (e.2.token ≠ 0) || savesAsPacket s g e.1 e.2

/-- The RULE that a group has in Lyre, stopped for a save: a STEP at a row boundary (R253). The answer has its PROGRESS; a RULE that an earlier save
left part-way and that Lyre has not taken again keeps the old one (R328). One parked on a translation fault keeps its token, which stays valid (R321),
and restarts once that is answered. (DEDUCED, log 105) -/
def stopRule (s : State) (gid : Nat) (g : Group) : State × Nat :=
  match (s.core g.info.core).rules.find? fun x => decide (x.group = gid) with
  | none => (s, 0)
  | some x =>
    if !x.started then (s, if x.part then g.r.progress.toNat else 0)
    else
      let r := match x.step with
        | some t => stopStep s g.info.core t
        | none => (s, 0, false)
      (r.1.updCore g.info.core fun k =>
        { k with rules := k.rules.map fun y =>
            if y.req = x.req then { y with started := false, unit_ := 0, bad := r.2.2, step := none, part := x.step.isSome } else y }, r.2.1)

/-- The quarter of an MMAR that a save interrupts, 0 before its first (R235). (DESIGN CHOICE, log 68) -/
def mmarProgress (k : Core) (gid : Nat) : Nat := ((k.mmars.find? fun m => decide (m.group = gid)).map (·.quarter)).getD 0

/-- The line at which a save leaves a multi-line access, 0 where there is none (R177). (DESIGN CHOICE, log 68) -/
def lineProgress (g : Group) : Nat := ((nextLine g).map (·.2.line)).getD 0

/-- Whether a read that a save overtakes is sent anew after the restore (R315). -/
def resends (r : Req) : Bool := r.sent && decide (r.token = 0) && (match r.instr with
  | .ld .. | .ldp .. | .smp .. | .uld .. | .uldp .. | .dispatch .. => true
  | _ => false)

/-- Whether a request belongs to an access that a save leaves part-way (R177, R328): a line of it is not sent yet. -/
def leftPart (c : GCtl) (r : Req) : Bool := !r.sent || c.reqs.any fun e => !e.2.sent && decide (e.2.token = 0) && decide (e.2.entry = r.entry)

/-- A group's requests under its next tag (R315): reads that were sent take fresh numbers, and the answers to the old ones are astray; the lines of an
access with a line not sent, and an MMAR after a quarter, are left part-way. `n` is the first free number. -/
def retag (k : Core) (gid n : Nat) (c : GCtl) : GCtl :=
  let tag := (c.tag + 1) % 256
  let old := c.reqs.filter fun e => resends e.2
  let keep := mfilter c.reqs fun _ r => !resends r
  let keep := mmapv keep fun q r =>
    if r.token = 0 then { r with tag := tag, part := r.part || leftPart c r || k.mmars.any fun m => decide (m.group = gid) && decide (m.req = q) && decide (m.quarter ≠ 0) }
    else r
  { c with
    tag := tag
    chain := none
    packed := []
    stray := old.foldl (fun m e => mset m e.1 e.2.tag) c.stray
    reqs := old.zipIdx.foldl (fun m e => mset m (n + e.2) { e.1.2 with tag := tag, part := e.1.2.part || leftPart c e.1.2, issuedAs := e.1.2.order e.1.1 }) keep }

/-- Stop a group: PROGRESS, no latch, the next generation tag (R71, R313, R315). -/
def stopGroup (s : State) (gid : Nat) : State :=
  match s.group? gid with
  | none => s
  | some g =>
    let r := stopRule s gid g
    let k := r.1.core g.info.core
    let p := max r.2 (max (mmarProgress k gid) (lineProgress g))
    { r.1 with nextId := r.1.nextId + g.c.reqs.length }.updGroup gid fun g =>
      { g with r := { g.r with progress := BitVec.ofNat 32 p, latch := [] }, c := retag k gid r.1.nextId g.c }

/-- Whether a byte of local store or of the operand buffer lies in a window or region of some workgroups of a core. -/
def lsHeld (ws : List Wg) (a : Nat) : Bool := ws.any fun w => decide (w.lsBase ≤ a) && decide (a < w.lsBase + w.lsLen)
def obHeld (ws : List Wg) (a : Nat) : Bool := ws.any fun w => decide (w.obBase * 256 ≤ a) && decide (a < (w.obBase + w.obLen) * 256)

/-- A core as a save holds it (R314, R316): the windows and regions of the context's workgroups, the reservation slots, the former, the engines'
queues and TAGS; its caches are written back and left, its B latches dropped (R232). -/
def Core.saved (k : Core) (ws : List Wg) : Core :=
  { Core.initial with
    ls := mfilter k.ls fun a _ => lsHeld ws a
    lsPoison := k.lsPoison.filter fun p => lsHeld ws (128 * p)
    lsOwner := mfilter k.lsOwner fun u _ => lsHeld ws (256 * u)
    ob := mfilter k.ob fun a _ => obHeld ws a
    obTag := mfilter k.obTag fun u _ => obHeld ws (256 * u)
    obPoison := k.obPoison.filter fun p => obHeld ws (128 * p)
    resv := k.resv
    resvGen := mfilter k.resvGen fun h _ => (find? k.resv h).isSome
    tags := k.tags
    tagLsu := k.tagLsu
    mmars := k.mmars.map fun m => { m with frag := none, keep := false }
    rules := k.rules
    entries := k.entries
    oldestBlocked := k.oldestBlocked }

/-- What stays in a core that a context has left: its storage as it stands (R300, R331), no queue, no former entry, no reservation, no line. -/
def Core.left (k : Core) : Core :=
  { Core.initial with tlb := k.tlb, ls := k.ls, lsPoison := k.lsPoison, lsOwner := k.lsOwner, ob := k.ob, obTag := k.obTag, obPoison := k.obPoison, resvGen := k.resvGen }

/-- A saved core put back: what the context held stands as it was, the rest of the storage as it is. -/
def Core.restored (o k : Core) (ws : List Wg) : Core :=
  { k with
    tlb := o.tlb
    ls := mjoin (mfilter o.ls fun a _ => !lsHeld ws a) k.ls
    lsPoison := k.lsPoison.foldl nins (o.lsPoison.filter fun p => !lsHeld ws (128 * p))
    lsOwner := mjoin o.lsOwner k.lsOwner
    ob := mjoin (mfilter o.ob fun a _ => !obHeld ws a) k.ob
    obTag := mjoin (mfilter o.obTag fun u _ => !obHeld ws (256 * u)) k.obTag
    obPoison := k.obPoison.foldl nins (o.obPoison.filter fun p => !obHeld ws (128 * p))
    resvGen := mjoin o.resvGen k.resvGen }

/-- Whether a byte of cluster SRAM belongs to a context (R314): a scratch unit of one of its gangs, or a ring of its edges in FIFO banks. Gangs and
rings name the cluster by offset from BASE. -/
def sramHeld (edges : AMap Edge) (gangs : AMap Gang) (vdev i a : Nat) : Bool :=
  gangs.any (fun x => decide (x.2.cluster = i) && x.2.units.contains (a / 4096))
    || edges.any fun x => decide (x.2.vdev = vdev) && x.2.loc && decide (x.2.base / 2 ^ 21 % 2 ^ 8 = i) && decide (sramOffset x.2.base ≤ a)
      && decide (a < sramOffset x.2.base + x.2.slots * (8 * x.2.rs + 8))

/-- The banks of a cluster offset that hold some of it. -/
def banksHeld (edges : AMap Edge) (gangs : AMap Gang) (vdev i : Nat) : List Nat :=
  (List.range 32).filter fun b => (List.range 16).any (fun u => gangs.any fun x => decide (x.2.cluster = i) && x.2.units.contains (16 * b + u))
    || edges.any fun x => decide (x.2.vdev = vdev) && x.2.loc && decide (x.2.base / 2 ^ 21 % 2 ^ 8 = i) && decide (sramOffset x.2.base < (b + 1) * 65536)
      && decide (b * 65536 < sramOffset x.2.base + x.2.slots * (8 * x.2.rs + 8))

/-- A cluster as a save holds it: the scratch and FIFO banks that the context holds (R314). -/
def Cluster.saved (k : Cluster) (banks : List Nat) (held : Nat → Bool) : Cluster :=
  { Cluster.initial with
    bankMode := mfilter k.bankMode fun b _ => banks.contains b
    sram := mfilter k.sram fun a _ => held a
    sramPoison := k.sramPoison.filter fun p => held (128 * p)
    sramOwner := mfilter k.sramOwner fun u _ => held (4096 * u) }

/-- The same put back. -/
def Cluster.restored (o k : Cluster) (banks : List Nat) (held : Nat → Bool) : Cluster :=
  { o with
    bankMode := mjoin (mfilter o.bankMode fun b _ => !banks.contains b) k.bankMode
    sram := mjoin (mfilter o.sram fun a _ => !held a) k.sram
    sramPoison := k.sramPoison.foldl nins (o.sramPoison.filter fun p => !held (128 * p))
    sramOwner := mjoin o.sramOwner k.sramOwner }

/-- Objects of a context, split off. -/
def mine {α : Type} (vdev : Nat) (of_ : α → Nat) (m : AMap α) : AMap α := mfilter m fun _ x => decide (of_ x = vdev)
def others {α : Type} (vdev : Nat) (of_ : α → Nat) (m : AMap α) : AMap α := mfilter m fun _ x => decide (of_ x ≠ vdev)

/-- A walker at rest: what a save leaves of a front end. -/
def FrontEnd.left (f : FrontEnd) : FrontEnd :=
  { f with st := .idle, pending := none, counts := [], deadline := none, fenced := false, parked := 0, queue := [], endWait := false
           launchWait := false }

/-- The clusters of a context's partition: base and number. -/
def contextBase (s : State) (vdev : Nat) : Nat × Nat :=
  match feOf s vdev with
  | some fe => ((s.fe fe).base, partSize (s.fe fe))
  | none => (0, 0)

/-- The highest cluster offset that holds state (R318). -/
def topOffset (v : Saved) : Nat :=
  let m := v.groups.foldl (fun n x => max n (clusterOf x.2.info.core)) 0
  let m := v.wgs.foldl (fun n x => max n (clusterOf x.2.core)) m
  let m := v.gangs.foldl (fun n x => max n x.2.cluster) m
  let m := v.ops.foldl (fun n x => max n (clusterOf x.2.core)) m
  let m := v.cores.foldl (fun n x => if x.2.entries = [] ∧ x.2.resv = [] ∧ x.2.tags = 0 then n else max n (clusterOf x.1)) m
  v.sram.foldl (fun n x => max n x.1) m

/-- The cores of an edge's keys as offsets from BASE, and back on a partition that begins at core `lo` and has `n` cores (R314). -/
def Edge.offKeys (e : Edge) (lo : Nat) : Edge := { e with keyCore := mmapv e.keyCore fun _ c => c - lo }
def Edge.onKeys (e : Edge) (lo n : Nat) : Edge := { e with keyCore := mmapv (mfilter e.keyCore fun _ c => decide (c < n)) fun _ c => c + lo }

/-- Take a context off its partition (R314 to R316): cores and clusters by offset from BASE, and of these only what holds something. -/
def takeContext (s : State) (vdev : Nat) : State :=
  let (base, n) := contextBase s vdev
  let gids := (mine vdev (·.info.vdev) s.groups).map (·.1)
  let s := gids.foldl stopGroup s
  let s := (List.range (4 * n)).foldl (fun s i => s.writeBackAll (4 * base + i)) s
  let off (core : Nat) : Nat := core - 4 * base
  let gs := mmapv (mine vdev (·.info.vdev) s.groups) fun _ g => { g with info := { g.info with core := off g.info.core } }
  let ws := mmapv (mine vdev (·.vdev) s.wgs) fun _ w => { w with core := off w.core }
  let as := mmapv (mine vdev (·.vdev) s.gangs) fun _ a => { a with cluster := a.cluster - base }
  let os := mmapv (mine vdev (·.vdev) s.ops) fun _ o => { o with core := off o.core }
  let cs : AMap Core := ((List.range (4 * n)).map fun i =>
    (i, (s.core (4 * base + i)).saved ((ws.filter fun w => decide (w.2.core = i)).map (·.2)))).filter fun x => decide (x.2 ≠ Core.initial)
  let sr : AMap Cluster := ((List.range n).map fun i =>
    (i, (s.cluster (base + i)).saved (banksHeld s.edges as vdev i) (sramHeld s.edges as vdev i))).filter fun x => !(banksHeld s.edges as vdev x.1).isEmpty
  let fe := feOf s vdev
  let v : Saved := {
    groups := gs
    wgs := ws
    gangs := as
    ops := os
    cores := cs
    sram := sr
    queue := (fe.map fun f => (s.fe f).queue).getD []
    grids := mine vdev (·.vdev) s.grids
    maxOffset := 0
    walker := fe.map s.fe }
  let s : State := { s with
    groups := others vdev (·.info.vdev) s.groups
    wgs := others vdev (·.vdev) s.wgs
    gangs := others vdev (·.vdev) s.gangs
    ops := others vdev (·.vdev) s.ops
    grids := others vdev (·.vdev) s.grids
    edges := mmapv s.edges fun _ e => if e.vdev = vdev then e.offKeys (4 * base) else e }
  let s := (List.range (4 * n)).foldl (fun s i => s.updCore (4 * base + i) Core.left) s
  let s := match fe with
    | some f => s.updFe f FrontEnd.left
    | none => s
  s.updVdev vdev fun d => { d with saved := some { v with maxOffset := topOffset v } }

/-- Log the end of a command: an event of type STATE whose ADDR is the command (R318, R320). -/
def stateEvent (s : State) (vdev cmd : Nat) : State := logEvent s vdev evState 0 0 127 (s.vdev vdev).gen cmd 0 0 0 0

/-- SAVE_COMPLETE: every group of the context has stopped and the state is saved (R313 to R316), with what the kills of this cc break (R332). -/
def evSaveComplete (vdev : Nat) (s : State) : Option State :=
  if (s.vdev vdev).st ≠ .saving || !(s.groups.all fun g => decide (g.2.info.vdev ≠ vdev) || groupStops s g.2) then none
  else some (stateEvent ((takeContext (applyBreaks s) vdev).updVdev vdev fun d => { d with st := .saved }) vdev 2)

/-! ## Restoring -/

/-- A group as it resumes (R6, R80, R314). -/
def resumeGroup (base frame now : Nat) (g : Group) : Group :=
  { g with
    info := { g.info with core := g.info.core + 4 * base, frame := frame }
    c := { g.c with
      readyCc := now
      wait := match g.c.wait with
        | .spawnFull => .none
        | w => w
      reqs := mmapv g.c.reqs fun _ r => if resends r then { r with early := now + 24 } else r } }

/-- A front end's walker as it resumes (R316): at its node, a WAIT from its first read. -/
def resumeWalker (f w : FrontEnd) (queue : List LaunchReq) : FrontEnd :=
  { f with st := if w.st = .wait then .walk else w.st
           node := w.node
           err := w.err
           collapsed := w.collapsed
           counts := w.counts
           pending := w.pending
           walks := w.walks
           parked := w.parked
           launchWait := w.launchWait
           queue := queue }

/-- Put a saved context onto the partition of a front end. A bank that leaves CACHE for it gives up its lines (R164). -/
def putContext (s : State) (vdev fe : Nat) (v : Saved) : State :=
  let base := (s.fe fe).base
  let join {α : Type} (m n : AMap α) : AMap α := mjoin m n
  let cores := 4 * partSize (s.fe fe)
  let s : State := { s with
    groups := join s.groups (mmapv v.groups fun _ g => resumeGroup base (s.vdev vdev).frame s.now g)
    wgs := join s.wgs (mmapv v.wgs fun _ w => { w with core := w.core + 4 * base })
    gangs := join s.gangs (mmapv v.gangs fun _ a => { a with cluster := a.cluster + base })
    ops := join s.ops (mmapv v.ops fun _ o => { o with core := o.core + 4 * base })
    grids := join s.grids (mmapv v.grids fun _ g => { g with fe := fe })
    edges := mmapv s.edges fun _ e => if e.vdev = vdev then { e.onKeys (4 * base) cores with fe := fe } else e }
  let s := (v.cores.filter fun k => decide (k.1 < cores)).foldl (fun s k =>
    s.updCore (4 * base + k.1) fun o => o.restored k.2 ((v.wgs.filter fun w => decide (w.2.core = k.1)).map (·.2))) s
  let s := v.sram.foldl (fun s k =>
    ((k.2.bankMode.map (·.1)).foldl (fun s b => drainLines s (base + k.1) b) s).updCluster (base + k.1) fun o => o.restored k.2 (banksHeld s.edges v.gangs vdev k.1) (sramHeld s.edges v.gangs vdev k.1)) s
  match v.walker with
  | some w => s.updFe fe fun f => resumeWalker f w v.queue
  | none => s

/-- RESTORE_COMPLETE: the state is back and the device LIVE; answers given meanwhile take effect; one vector is raised if events wait
(R318, R321). After a write to a hardware-owned area of its region the restore, undefined for that context only, never completes (R319; DESIGN
CHOICE, log 89). -/
def evRestoreComplete (vdev : Nat) (s : State) : Option State :=
  let d := s.vdev vdev
  if d.st ≠ .restoring ∨ ownedCells s vdev ≠ d.image then none
  else (feOf s vdev).map fun fe =>
    let s := match d.saved with
      | some v => putContext s vdev fe v
      | none => s
    let s := stateEvent s vdev 3
    let s := s.updVdev vdev fun d => { d with st := .live, saved := none, pendFresp := [] }
    let s := if d.ien ∧ s.num (crb s vdev + 0x20) 4 ≠ s.num (crb s vdev + 0x24) 4 then raiseVector s d.vector else s
    d.pendFresp.foldl (applyFresp vdev) s

/-! ## Reset and destroy -/

/-- Complete an operation with ABORTED (R332): its tag and its stamp are still produced. -/
def abortForReset (s : State) (op : Nat) : State :=
  let s := s.updOp op fun o => { o with abort := true }
  (evEngineCompletion op s).getD s

/-- Forget that a context ever held local store or scratch: a later context, or the same one anew, finds zeros. -/
def forgetStorage (s : State) (vdev : Nat) : State :=
  { s with
    cores := mmapv s.cores fun _ k => { k with lsOwner := mfilter k.lsOwner fun _ o => decide (o ≠ vdev + 1) }
    clusters := mmapv s.clusters fun _ k => { k with sramOwner := mfilter k.sramOwner fun _ o => decide (o ≠ vdev + 1) } }

/-- A core after its context was reset: the generations of the slots that were in use advance (R331), unless the workgroup's end did that. -/
def Core.reset (k : Core) : Core := ((k.resv.map (·.1)).foldl freeSlot k).left

/-- A core's reservation slots that are in use, with TAGS: what a reset of the context takes from it. -/
def Core.used (k : Core) : Core := { k with resvGen := mfilter k.resvGen fun h _ => (find? k.resv h).isSome }

/-- A context with nothing in it but the cores' TAGS, which no event returns, and the generations of the slots that were reserved, which advance
(R331). -/
def tagsOnly (cs : AMap Core) : Saved where
  groups := []
  wgs := []
  gangs := []
  ops := []
  cores := mfilter (mmapv cs fun _ k => { Core.initial with tags := k.tags, tagLsu := k.tagLsu, resvGen := k.reset.resvGen })
    fun _ k => decide (k ≠ Core.initial)
  sram := []
  queue := []
  grids := []
  maxOffset := 0
  walker := none

/-- Empty a context: groups, workgroups, grids, edges, operations, tokens, queued launches (R318); `running` says that it stands on its
partition, where a STEP is left at a row boundary (R253). -/
def emptyContext (s : State) (vdev : Nat) (running : Bool) : State :=
  let (base, n) := contextBase s vdev
  let s := if running then (mine vdev (·.info.vdev) s.groups).foldl (fun s x => killSteps s x.2.info.core x.1) s else s
  let tags : AMap Core := if running then (List.range (4 * n)).map fun i => (i, (s.core (4 * base + i)).used) else (((s.vdev vdev).saved.map (·.cores)).getD [])
  let s := if running then (List.range (4 * n)).foldl (fun s i => (s.writeBackAll (4 * base + i)).updCore (4 * base + i) Core.reset) s else s
  let s := if running then match feOf s vdev with
      | some f => s.updFe f FrontEnd.left
      | none => s
    else s
  let s : State := { s with
    cur := match s.cur with | some g => if ((s.group? g).any fun x => decide (x.info.vdev = vdev)) then none else some g | none => none
    groups := others vdev (·.info.vdev) s.groups
    wgs := others vdev (·.vdev) s.wgs
    gangs := others vdev (·.vdev) s.gangs
    ops := others vdev (·.vdev) s.ops
    grids := others vdev (·.vdev) s.grids
    remotes := mfilter s.remotes fun k _ => decide (k / 2 ^ 64 ≠ vdev)
    edges := others vdev (·.vdev) s.edges }
  s.updVdev vdev fun d => { d with
    graphs := []
    tokens := []
    heldEvents := []
    pendFresp := []
    move := none
    saved := some { tagsOnly tags with maxOffset := topOffset (tagsOnly tags) }
    spawnUsed := 0
    frame := 0
    cutgen := 0
    frameAt := []
    remoteUndef := false
    cut := 0 }

/-- The place from which the operations of a saved context complete at a RESET: no core of the part. -/
def nowhere : Nat := 2 ^ 20

/-- The operations of a saved context end ABORTED (R318, R332): each sets its tag in the context's saved TAGS and makes its stamp increase. -/
def abortSaved (s : State) (vdev : Nat) (v : Saved) : State :=
  let s : State := { s with ops := v.ops.foldl (fun m x => mset m x.1 { x.2 with core := nowhere + x.2.core }) s.ops }
  let s := v.cores.foldl (fun s k => s.updCore (nowhere + k.1) fun _ => k.2) s
  let s := (v.ops.map (·.1)).foldl abortForReset s
  let cs : AMap Core := (s.cores.filter fun k => decide (nowhere ≤ k.1)).map fun k => (k.1 - nowhere, k.2)
  ({ s with
      cores := mfilter s.cores fun k _ => decide (k < nowhere)
      clusters := mfilter s.clusters fun k _ => decide (k < nowhere / 4) } : State).updVdev vdev fun d => { d with saved := some { v with cores := cs } }

/-- RESET_COMPLETE: every operation ends ABORTED, everything of the context is discarded, GEN rises, the event log is emptied; the
device stays SAVED (R318). (DESIGN CHOICE, log 62) -/
def evResetComplete (vdev : Nat) (s : State) : Option State :=
  let d := s.vdev vdev
  if d.st ≠ .resetting then none
  else
    let s := match d.saved with
      | some v => abortSaved s vdev v
      | none => ((mine vdev (·.vdev) s.ops).map (·.1)).foldl abortForReset s
    let s := emptyContext s vdev d.saved.isNone
    let s := s.updVdev vdev fun d => { d with gen := (d.gen + 1) % 2 ^ 32, st := .saved }
    some (stateEvent (s.setNum (crb s vdev + 0x20) 4 (s.num (crb s vdev + 0x24) 4)) vdev 4)

/-- DESTROY: SAVED becomes FREE. -/
def evDestroy (vdev : Nat) (hyp : Bool) (s : State) : Option State :=
  if !s.host hyp ∨ 256 ≤ vdev then none
  else if (s.vdev vdev).st ≠ .saved then some (command s vdev cmBadState id)
  else some (command (forgetStorage (emptyContext s vdev false) vdev) vdev 0 fun d => { d with st := .free, saved := none })

/-! ## Held events (R321) -/

/-- EVENT_HELD_RELEASE: the oldest held event is logged once there is room; one of an old generation is dropped. -/
def evEventHeldRelease (vdev : Nat) (s : State) : Option State :=
  match (s.vdev vdev).heldEvents with
  | [] => none
  | e :: t =>
    let drop (s : State) : State := s.updVdev vdev fun d => { d with heldEvents := t }
    if e.gen ≠ (s.vdev vdev).gen then some (drop s) else if evRoom s vdev then some (putEvent (drop s) vdev e.words) else none

/-! ## Invalidation (R311, R312) -/

/-- Whether an invalidation removes a combined entry. -/
def Inval.hits (i : Inval) (t : Tlb) : Bool :=
  let own := decide (t.vmid = i.vmid)
  let as := decide (t.asid = i.asid)
  match i.kind with
  | 0 => own && (t.glob || as) && decide (t.va / t.s1 = i.addr / t.s1)
  | 1 => own && as
  | 2 => own && decide (t.gpa / t.s2 = i.addr / t.s2)
  | 3 => own
  | _ => true

/-- A write of INVCTL that starts an invalidation of a kind: with a reserved bit set it is ignored; with 16 outstanding it is held. -/
def evInvalidate (kind : Nat) (val : Word) (hyp : Bool) (s : State) : Option State :=
  let v := val.toNat
  if !s.host hyp || decide (v % 8 ≠ kind) || decide (bitsAt v 7 3 ≠ 0) || decide (16 ≤ s.sys.invals.length) then none
  else some { s with sys := { s.sys with invals := s.sys.invals ++ [⟨kind, bitsAt v 31 16, bitsAt v 15 8, s.sys.invaddr.toNat⟩] } }

def evInvalidatePage (val : Word) (hyp : Bool) (s : State) : Option State := evInvalidate 0 val hyp s
def evInvalidateAsid (val : Word) (hyp : Bool) (s : State) : Option State := evInvalidate 1 val hyp s
def evInvalidateGuestPage (val : Word) (hyp : Bool) (s : State) : Option State := evInvalidate 2 val hyp s
def evInvalidateVmid (val : Word) (hyp : Bool) (s : State) : Option State := evInvalidate 3 val hyp s
def evInvalidateAll (val : Word) (hyp : Bool) (s : State) : Option State := evInvalidate 4 val hyp s

/-- INVALIDATION_ACK: the oldest invalidation's entries are gone everywhere and INVDONE advances; accesses in flight translate when they
are performed (R312). -/
def evInvalidationAck (s : State) : Option State :=
  match s.sys.invals with
  | [] => none
  | i :: t => some { s with
      cores := mmapv s.cores fun _ k => { k with tlb := k.tlb.filter fun e => !i.hits e }
      clusters := mmapv s.clusters fun _ k => { k with tlb := k.tlb.filter fun e => !i.hits e }
      sys := { s.sys with invals := t, invdone := (s.sys.invdone + 1) % 2 ^ 64 } }

/-! ## Meanings of the events -/

def execCreate (vdev : Nat) (hyp : Bool) (s : State) : Host.Outcome State Fault Refusal := ofEvent (evCreate vdev hyp s) s
def execSave (vdev : Nat) (hyp : Bool) (s : State) : Host.Outcome State Fault Refusal := ofEvent (evSave vdev hyp s) s
def execReset (vdev : Nat) (hyp : Bool) (s : State) : Host.Outcome State Fault Refusal := ofEvent (evReset vdev hyp s) s
def execDestroy (vdev : Nat) (hyp : Bool) (s : State) : Host.Outcome State Fault Refusal := ofEvent (evDestroy vdev hyp s) s
def execSaveComplete (vdev : Nat) (s : State) : Host.Outcome State Fault Refusal := ofEvent (evSaveComplete vdev s) s
def execRestoreComplete (vdev : Nat) (s : State) : Host.Outcome State Fault Refusal := ofEvent (evRestoreComplete vdev s) s
def execResetComplete (vdev : Nat) (s : State) : Host.Outcome State Fault Refusal := ofEvent (evResetComplete vdev s) s
def execEventHeldRelease (vdev : Nat) (s : State) : Host.Outcome State Fault Refusal := ofEvent (evEventHeldRelease vdev s) s
def execInvalidatePage (val : Word) (hyp : Bool) (s : State) : Host.Outcome State Fault Refusal := ofEvent (evInvalidatePage val hyp s) s
def execInvalidateAsid (val : Word) (hyp : Bool) (s : State) : Host.Outcome State Fault Refusal := ofEvent (evInvalidateAsid val hyp s) s
def execInvalidateGuestPage (val : Word) (hyp : Bool) (s : State) : Host.Outcome State Fault Refusal := ofEvent (evInvalidateGuestPage val hyp s) s
def execInvalidateVmid (val : Word) (hyp : Bool) (s : State) : Host.Outcome State Fault Refusal := ofEvent (evInvalidateVmid val hyp s) s
def execInvalidateAll (val : Word) (hyp : Bool) (s : State) : Host.Outcome State Fault Refusal := ofEvent (evInvalidateAll val hyp s) s
def execInvalidationAck (s : State) : Host.Outcome State Fault Refusal := ofEvent (evInvalidationAck s) s

def execRestore (vdev : Nat) (hyp : Bool) (s : State) : Host.Outcome State Fault Refusal := ofEvent (evRestore vdev hyp s) s

end Sys2Proof.Machine
end

