-- ==== Sys2Proof/Machine/Special.lean ====
section
/-! DEFINITION. The special functions of op 0x17 and FDIV (R143, R144). Where R143 gives only a bound, the delivered value is
`Config.specialChoice`, a fixed function of the input with no body, kept only where it lies within the bound, and otherwise the
nearest F32 value to the approximation (DESIGN CHOICE, log 7). Approximations are fixed-point numbers with 192 fraction bits, good to 2^-170. -/
namespace Sys2Proof.Machine

/-- 2^192, the unit of the fixed-point approximations. -/
def fix1 : Nat := 2 ^ 192
/-- π in that unit. -/
def fixPi : Nat := 0x3243f6a8885a308d313198a2e03707344a4093822299f31d0
/-- log2 e in that unit. -/
def fixLog2E : Nat := 0x171547652b82fe1777d0ffda0d23a7d11d6aef551bad2b4b1

/-- 2^x for a fixed-point x below 1: the product over its bits of 2^(2^-i), `c` being the last of them. -/
def exp2Fix : Nat → Nat → Nat → Nat → Nat
  | 0, _, _, acc => acc
  | n + 1, c, x, acc =>
    let c := isqrt (c * fix1)
    if x / 2 ^ n % 2 = 1 then exp2Fix n c x (acc * c / fix1) else exp2Fix n c x acc

/-- The terms of the sine series from `t` on, alternating; `k` is the next even denominator factor. -/
def sinSeries : Nat → Nat → Nat → Nat → Int
  | 0, _, _, _ => 0
  | n + 1, t, y2, k => (t : Int) - sinSeries n (t * y2 / fix1 / (k * (k + 1))) y2 (k + 2)

/-- sin(π r) for a fixed-point r from 0 up to 2. -/
def sinPiFix (r : Nat) : Int :=
  let half := if fix1 ≤ r then r - fix1 else r
  let q := if fix1 < 2 * half then fix1 - half else half
  let y := q * fixPi / fix1
  let v := sinSeries 36 y (y * y / fix1) 2
  if fix1 ≤ r then -v else v

/-- |x| mod 2 as a fixed-point number. -/
def mod2Fix (m : Nat) (e : Int) : Nat :=
  if 0 ≤ e then m * 2 ^ e.toNat % 2 * fix1
  else m % 2 ^ ((-e).toNat + 1) * fix1 / 2 ^ (-e).toNat

/-- Whether a finite magnitude is an integer. -/
def isIntMag (m : Nat) (e : Int) : Bool := decide (0 ≤ e) || decide (m % 2 ^ (-e).toNat = 0)

/-- Whether a finite magnitude is a power of two. -/
def isPow2 (m : Nat) : Bool := decide (m ≠ 0) && decide (m = 2 ^ (bitLen m - 1))

/-- The exponent of a finite magnitude's leading bit. -/
def topExp (m : Nat) (e : Int) : Int := e + bitLen m - 1

/-- One unit in the last place of F32 at a leading exponent, subnormals included (R143). -/
def ulpExp (top : Int) : Int := max top (-126) - 23

/-- Whether the F32 pattern `d` lies within `n` units of 2^q, plus 2^slack, of the approximation (R143). -/
def within (d : Word) (approx : Ex) (n : Nat) (q slack : Int) : Bool :=
  match (Ex.add false (f32 d) approx.neg).1 with
  | .fin _ m e => decide (Ex.cmp (.fin false m e) (Ex.add false (.fin false n q) (.fin false 1 slack)).1 ≤ 0)
  | _ => false

/-- The delivered value of special function `fn`: the part's choice where it is within the bound and meets `ok`, else the value of
F32 nearest the approximation. NX, and UF where the exact result is tiny (R143). -/
def deliver (fn : Nat) (a : Word) (approx : Ex) (n : Nat) (q slack : Int) (ok : Word → Bool) (tiny : Bool) : Word × Flags :=
  let c := Config.specialChoice fn a
  let d := if within c approx n q slack && ok c then c else (rne32 approx).1
  (d, flagNX ||| flagIf tiny flagUF)

/-- An exact value as an F32 pattern with no flag: used for results R143 lists as exact. -/
def exact32 (x : Ex) : Word × Flags := ((rne32 x).1, 0)

/-- FRCP (R143). A result beyond the largest finite value overflows as R120 gives for RNE (DEDUCED, log 20). -/
def specRcp (a : Word) : Word × Flags :=
  match f32 a with
  | .nan => (nan32, 0)
  | .inf s => exact32 (.fin s 0 0)
  | .fin s m e =>
    if m = 0 then ((exact32 (.inf s)).1, flagDZ)
    else
      let (k, f) := quotSticky 1 m 160
      let x : Ex := .fin s k (f - e)
      if Ex.cmp (.fin false k (f - e)) (f32 0x7F7FFFFF) > 0 then
        ((exact32 (.inf s)).1, flagOver)
      else if isPow2 m then exact32 (.fin s 1 (-(topExp m e)))
      else deliver 0 a x 1 (ulpExp (topExp k (f - e))) (topExp k (f - e) - 130) (fun _ => true) (decide (topExp m e ≥ 126))

/-- An approximation of 1 / sqrt(m * 2^e), `e` even, relative to 2^-100 or better. -/
def rsqApprox (m : Nat) (e : Int) : Ex :=
  let (m, e) := if e % 2 = 0 then (m, e) else (2 * m, e - 1)
  .fin false (isqrt (2 ^ 300 / m)) (-150 - e / 2)

/-- FRSQ (R143). -/
def specRsq (a : Word) : Word × Flags :=
  match f32 a with
  | .nan => (nan32, 0)
  | .inf s => if s then (nan32, flagNV) else (0, 0)
  | .fin s m e =>
    if m = 0 then ((exact32 (.inf s)).1, flagDZ)
    else if s then (nan32, flagNV)
    else if isPow2 m && decide (topExp m e % 2 = 0) then exact32 (.fin false 1 (-(topExp m e) / 2))
    else
      match rsqApprox m e with
      | .fin _ k f => deliver 1 a (.fin false k f) 1 (ulpExp (topExp k f)) (topExp k f - 130) (fun _ => true) false
      | _ => (nan32, 0)

/-- FSQRT: correctly rounded, RNE, with a sticky last bit (R143). -/
def specSqrt (a : Word) : Word × Flags :=
  match f32 a with
  | .nan => (nan32, 0)
  | .inf s => if s then (nan32, flagNV) else (a, 0)
  | .fin s m e =>
    if m = 0 then (a, 0)
    else if s then (nan32, flagNV)
    else
      let (m, e) := if e % 2 = 0 then (m, e) else (2 * m, e - 1)
      let n := m * 2 ^ 80
      let r := isqrt n
      rne32 (.fin false (2 * r + (if r * r = n then 0 else 1)) (e / 2 - 41))

/-- An approximation of 2^x for a finite x not above 128; far below the subnormals it is 2^-300. -/
def exp2Approx (s : Bool) (m : Nat) (e : Int) : Ex :=
  if topExp m e ≥ 9 then .fin false 1 (-300)
  else
    let mag := if 0 ≤ e then m * 2 ^ e.toNat * fix1 else m * fix1 / 2 ^ (-e).toNat
    let fixed : Int := if s then -(mag : Int) else mag
    .fin false (exp2Fix 192 (2 * fix1) (fixed % fix1).toNat fix1) (fixed / fix1 - 192)

/-- FEXP2 (R143). The exact result of a negative operand lies below 1, so its unit is never that of 1. -/
def specExp2 (a : Word) : Word × Flags :=
  match f32 a with
  | .nan => (nan32, 0)
  | .inf s => if s then (0, 0) else (a, 0)
  | .fin s m e =>
    if !s && decide (Ex.cmp (.fin false m e) (.fin false 128 0) ≥ 0) then (0x7F800000, flagOver)
    else if isIntMag m e && decide (Ex.cmp (.fin s m e) (.fin true 149 0) ≥ 0) then
      let n : Int := if 0 ≤ e then m * 2 ^ e.toNat else (m / 2 ^ (-e).toNat : Nat)
      exact32 (.fin false 1 (if s then -n else n))
    else
      match exp2Approx s m e with
      | .fin _ k f => deliver 3 a (.fin false k f) 2 (ulpExp (if s then min (-1) (topExp k f) else topExp k f)) (topExp k f - 170) (fun _ => true)
          (decide (Ex.cmp (.fin s m e) (.fin true 126 0) < 0))
      | _ => (nan32, 0)

/-- FLOG2 (R143). -/
def specLog2 (a : Word) : Word × Flags :=
  match f32 a with
  | .nan => (nan32, 0)
  | .inf s => if s then (nan32, flagNV) else (a, 0)
  | .fin s m e =>
    if m = 0 then (0xFF800000, flagDZ)
    else if s then (nan32, flagNV)
    else if isPow2 m then exact32 (Ex.ofInt (topExp m e))
    else
      let frac := log2Bits 140 300 (m * 2 ^ 300 / 2 ^ (bitLen m - 1))
      let v : Int := topExp m e * 2 ^ 140 + frac
      let x : Ex := .fin (decide (v < 0)) v.natAbs (-140)
      let near := decide (Ex.cmp (f32 a) (.fin false 3 (-2)) ≥ 0) && decide (Ex.cmp (f32 a) (.fin false 3 (-1)) ≤ 0)
      if near then deliver 4 a x 1 (-22) (-130) (fun _ => true) false
      else deliver 4 a x 2 (ulpExp (topExp (v.natAbs + 2 ^ 10) (-140))) (-130) (fun _ => true) false

/-- A fixed-point number as an exact value. -/
def Ex.ofFix (v : Int) : Ex := .fin (decide (v < 0)) v.natAbs (-192)

/-- FSIN: sin(π a) (R143). -/
def specSin (a : Word) : Word × Flags :=
  match f32 a with
  | .nan => (nan32, 0)
  | .inf _ => (nan32, flagNV)
  | .fin s m e =>
    if isIntMag m e then exact32 (.fin s 0 0)
    else
      let r := mod2Fix m e
      if isIntMag (2 * m) e then exact32 (.fin (s != decide (fix1 < r)) 1 0)
      else
        let v := sinPiFix r
        deliver 5 a (Ex.ofFix (if s then -v else v)) 1 (-22) (-170) (fun _ => true)
          (decide (Ex.cmp (.fin false (m * fixPi) (e - 192)) (.fin false 1 (-126)) < 0))

/-- FCOS: cos(π a) (R143). No operand but an integer has a result of magnitude 1, so that no value 2^-22 beyond 1 is within the bound. -/
def specCos (a : Word) : Word × Flags :=
  match f32 a with
  | .nan => (nan32, 0)
  | .inf _ => (nan32, flagNV)
  | .fin _ m e =>
    let r := mod2Fix m e
    if isIntMag m e then exact32 (.fin (decide (r = fix1)) 1 0)
    else if isIntMag (2 * m) e then (0, 0)
    else deliver 6 a (Ex.ofFix (sinPiFix ((r + fix1 / 2) % (2 * fix1)))) 1 (-22) (-170)
      (fun d => decide ((d &&& 0x7FFFFFFF) < (0x3F800002 : Word))) false

/-- An approximation of tanh of a positive magnitude, as a fixed-point number. -/
def tanhFix (m : Nat) (e : Int) : Nat :=
  if topExp m e ≥ 7 then fix1
  else
    let x := if 0 ≤ e then m * 2 ^ e.toNat * fix1 else m * fix1 / 2 ^ (-e).toNat
    let t := 2 * x * fixLog2E / fix1
    let p := exp2Fix 192 (2 * fix1) (t % fix1) fix1 * 2 ^ (t / fix1)
    (p - fix1) * fix1 / (p + fix1)

/-- FTANH (R143). -/
def specTanh (a : Word) : Word × Flags :=
  match f32 a with
  | .nan => (nan32, 0)
  | .inf s => exact32 (.fin s 1 0)
  | .fin s m e =>
    if m = 0 then (a, 0)
    else
      let v : Int := tanhFix m e
      deliver 7 a (Ex.ofFix (if s then -v else v)) 1 (-22) (-170)
        (fun d => decide ((d &&& 0x7FFFFFFF) ≤ (0x3F800000 : Word)))
        (decide (Ex.cmp (.fin false m e) (.fin false 1 (-126)) ≤ 0))

/-- FDIV (R144): correctly rounded, with a sticky last bit. -/
def fdiv32 (mode : Rnd) (a b : Word) : Word × Flags :=
  match f32 a, f32 b with
  | .nan, _ => (nan32, 0)
  | _, .nan => (nan32, 0)
  | .inf _, .inf _ => (nan32, flagNV)
  | .inf s, .fin t _ _ => exact32 (.inf (s != t))
  | .fin s _ _, .inf t => exact32 (.fin (s != t) 0 0)
  | .fin s m e, .fin t n f =>
    if n = 0 then (if m = 0 then (nan32, flagNV) else ((exact32 (.inf (s != t))).1, flagDZ))
    else if m = 0 then exact32 (.fin (s != t) 0 0)
    else let (q, g) := quotSticky m n 80; rnd32 mode (.fin (s != t) q (g + e - f))

end Sys2Proof.Machine
end

