-- ==== Sys2Proof/Machine/LaneFloat.lean ====
section
/-! DEFINITION. FP32 arithmetic, selection, comparison and rounding on pipe b1, special functions and division on b3 (R138 to R144),
packed 16-bit arithmetic (R145, R146). -/
namespace Sys2Proof.Machine

/-! ## Shapes: 37 pJ a quarter, held by the power rules (R45, R46) -/

/-- What a floating-point instruction of a pipe needs before its operands are added. -/
def needFp (pipe : Nat) : Need := { Need.ofPipe pipe with pj := 37, fp := true }

/-- A word with the flags raised in making it. -/
def outWF (r : Word × Flags) : LaneOut := ⟨[r.1], r.2⟩

/-- A result of one source. -/
def fp1 (i : Instr) (pipe lat : Nat) (d : LDst) (a : LSrc) (f : Word → Word × Flags) (s : State) : Host.Outcome State Fault Refusal :=
  issue i (((needFp pipe).src a).dst d) (laneResult (dstReg d) 1 pipe lat fun g l => outWF (f (lsrc g l a))) s

/-- A result of two sources. -/
def fp2 (i : Instr) (pipe lat : Nat) (d : LDst) (a b : LSrc) (f : Word → Word → Word × Flags) (s : State) :
    Host.Outcome State Fault Refusal :=
  issue i ((((needFp pipe).src a).src b).dst d) (laneResult (dstReg d) 1 pipe lat fun g l => outWF (f (lsrc g l a) (lsrc g l b))) s

/-- A result of two sources and the destination's old value (R131). -/
def fp3 (i : Instr) (d : Fin 112) (a b : LSrc) (f : Word → Word → Word → Word × Flags) (s : State) : Host.Outcome State Fault Refusal :=
  issue i (((((needFp 1).src a).src b).vblk d.val 1 1).dstN d.val 1 1)
    (laneResult (some d.val) 1 1 4 fun g l => outWF (f (lsrc g l a) (lsrc g l b) (g.r.getV l d.val))) s

/-! ## FP32 functions -/

/-- a + b, a − b, a × b rounded once (R138). -/
def fadd32 (m : Rnd) (a b : Word) : Word × Flags := add32 m (f32 a) (f32 b)
def fsub32 (m : Rnd) (a b : Word) : Word × Flags := add32 m (f32 a) (f32 b).neg
def fmul32 (m : Rnd) (a b : Word) : Word × Flags :=
  let (p, f) := (f32 a).mul (f32 b)
  let (w, g) := rnd32 m p
  (w, f ||| g)

/-- a × b + d: exact product, one rounding (R138). -/
def fma32 (m : Rnd) (a b d : Word) : Word × Flags :=
  let (p, f) := (f32 a).mul (f32 b)
  let (w, g) := add32 m p (f32 d)
  (w, (match f32 d with | .nan => 0 | _ => f) ||| g)

/-- Whether an F32 pattern is a NaN. -/
def isNan32 (a : Word) : Bool := decide (f32 a = .nan)

/-- The smaller or larger of two values that are not NaN, −0 below +0 (R139). -/
def pickMin (x y : Ex) (a b : Word) : Word :=
  if Ex.cmp x y < 0 then a else if Ex.cmp x y > 0 then b else a ||| b
def pickMax (x y : Ex) (a b : Word) : Word :=
  if Ex.cmp x y < 0 then b else if Ex.cmp x y > 0 then a else a &&& b

/-- FMIN and FMAX (R139). -/
def fmin32 (a b : Word) : Word :=
  match f32 a, f32 b with
  | .nan, .nan => nan32
  | .nan, _ => b
  | _, .nan => a
  | x, y => pickMin x y a b
def fmax32 (a b : Word) : Word :=
  match f32 a, f32 b with
  | .nan, .nan => nan32
  | .nan, _ => b
  | _, .nan => a
  | x, y => pickMax x y a b

/-- FABS, FNEG, FCOPYSIGN, FSAT (R139). -/
def fabs32 (a : Word) : Word := if isNan32 a then nan32 else a &&& 0x7FFFFFFF
def fneg32 (a : Word) : Word := if isNan32 a then nan32 else a ^^^ 0x80000000
def fcopysign32 (a b : Word) : Word := if isNan32 a then nan32 else (a &&& 0x7FFFFFFF) ||| (b &&& 0x80000000)
def fsat32 (a : Word) : Word :=
  if isNan32 a then 0
  else if a.getLsbD 31 then 0
  else if Ex.cmp (f32 a) (.fin false 1 0) > 0 then 0x3F800000 else a

/-- FCLASS (R140). -/
def fclass32 (a : Word) : Word :=
  match f32 a with
  | .nan => 0x100
  | .inf s => if s then 1 else 0x80
  | .fin s m _ =>
    if m = 0 then (if s then 8 else 0x10)
    else if m < 2 ^ 23 then (if s then 4 else 0x20)
    else (if s then 2 else 0x40)

/-- A float condition on two values, and whether it raises NV (R141). -/
def fcond (c : FCond) (a b : Word) : Bool × Flags :=
  let nan := isNan32 a || isNan32 b
  let r := Ex.cmp (f32 a) (f32 b)
  match c with
  | .eq => (!nan && decide (r = 0), 0)
  | .ne => (nan || decide (r ≠ 0), 0)
  | .lt => (!nan && decide (r < 0), flagIf nan flagNV)
  | .le => (!nan && decide (r ≤ 0), flagIf nan flagNV)
  | .gt => (!nan && decide (r > 0), flagIf nan flagNV)
  | .ge => (!nan && decide (r ≥ 0), flagIf nan flagNV)
  | .un => (nan, 0)
  | .ord => (!nan, 0)

/-- FRND: to an integral value; it raises no flag (R142). -/
def frnd32 (m : Rnd) (a : Word) : Word :=
  match f32 a with
  | .nan => nan32
  | .inf _ => a
  | .fin s v e => (rne32 (.fin s (roundInt m 0 s v e).1 0)).1

/-- FFRACT: a − floor(a), below 1 (R142). -/
def ffract32 (a : Word) : Word × Flags :=
  match f32 a with
  | .nan => (nan32, 0)
  | .inf _ => (nan32, flagNV)
  | .fin s v e =>
    if v = 0 then (0, 0)
    else
      let k := (roundInt .rdn 0 s v e).1
      let (w, f) := rne32 (Ex.add false (.fin s v e) (.fin (!s) k 0)).1
      (if w = 0x3F800000 then 0x3F7FFFFF else w, f)

/-! ## Packed 16-bit (R145, R146) -/

/-- The 16-bit format that a packed instruction names. -/
def pkFmt (bf : Bool) : Fmt := if bf then fmtBF16 else fmtF16

/-- Element i of a packed register (R116). -/
def half (a : Word) (i : Nat) : Nat := a.toNat / 2 ^ (16 * i) % 2 ^ 16

/-- A packed result from its two elements. -/
def packHalves (x y : Nat × Flags) : Word × Flags := (BitVec.ofNat 32 (x.1 + y.1 * 2 ^ 16), x.2 ||| y.2)

/-- rne16 of an exact value that carries flags of its own. -/
def rnd16 (f : Fmt) (x : Ex × Flags) : Nat × Flags := let (v, g) := f.rnd .rne false 0 x.1; (v, x.2 ||| g)

/-- Element-wise sum and product. -/
def pkadd32 (bf : Bool) (a b : Word) : Word × Flags :=
  let e (i : Nat) := rnd16 (pkFmt bf) (Ex.add false ((pkFmt bf).value (half a i)) ((pkFmt bf).value (half b i)))
  packHalves (e 0) (e 1)
def pkmul32 (bf : Bool) (a b : Word) : Word × Flags :=
  let e (i : Nat) := rnd16 (pkFmt bf) (((pkFmt bf).value (half a i)).mul ((pkFmt bf).value (half b i)))
  packHalves (e 0) (e 1)

/-- An exact fused product and sum: a NaN addend hides the product's invalid operation (R138: a NaN operand raises no flag). -/
def fmaEx (a b d : Ex) : Ex × Flags :=
  let (p, f) := a.mul b
  let (x, g) := Ex.add false p d
  (x, (match d with | .nan => 0 | _ => f) ||| g)

def pkfma32 (bf : Bool) (a b d : Word) : Word × Flags :=
  let v (w : Word) (i : Nat) := (pkFmt bf).value (half w i)
  let e (i : Nat) := rnd16 (pkFmt bf) (fmaEx (v a i) (v b i) (v d i))
  packHalves (e 0) (e 1)

/-- FMIN or FMAX on one half (R145). -/
def half1 (bf mx : Bool) (a b : Nat) : Nat :=
  let f := pkFmt bf
  match f.value a, f.value b with
  | .nan, .nan => f.defaultNan
  | .nan, _ => b
  | _, .nan => a
  | x, y =>
    let p := if mx then pickMax x y (BitVec.ofNat 32 a) (BitVec.ofNat 32 b) else pickMin x y (BitVec.ofNat 32 a) (BitVec.ofNat 32 b)
    p.toNat

def pkminmax32 (bf mx : Bool) (a b : Word) : Word × Flags :=
  packHalves (half1 bf mx (half a 0) (half b 0), 0) (half1 bf mx (half a 1) (half b 1), 0)

/-- The exact sum of some products, S of R126: NaN with NV for 0 × ∞ or infinities of both signs; a NaN element raises no flag. (DEDUCED, log 41) -/
def dotEx (ps : List (Ex × Ex)) : Ex × Flags :=
  let prods := ps.map fun p => p.1.mul p.2
  let f := prods.foldl (fun a p => a ||| p.2) 0
  let both := (prods.any fun p => decide (p.1 = .inf false)) && prods.any fun p => decide (p.1 = .inf true)
  if both || prods.any fun p => decide (p.1 = .nan) then (.nan, f ||| flagIf both flagNV)
  else (prods.foldl (fun acc p => (Ex.add false acc p.1).1) (.fin true 0 0), f)

/-- PKDOT: two exact products and the accumulator summed exactly, one rounding (R146). -/
def pkdot32 (bf : Bool) (a b d : Word) : Word × Flags :=
  let v (w : Word) (i : Nat) := (pkFmt bf).value (half w i)
  let (x, f) := dotEx [(v a 0, v b 0), (v a 1, v b 1)]
  let (w, g) := add32 .rne x (f32 d)
  (w, f ||| g)

/-! ## Meanings -/

def execFadd (rm : Rnd4) (d : LDst) (a b : LSrc) (s : State) := fp2 (.fadd rm d a b) 1 4 d a b (fadd32 (rnd4 rm)) s
def execFsub (rm : Rnd4) (d : LDst) (a b : LSrc) (s : State) := fp2 (.fsub rm d a b) 1 4 d a b (fsub32 (rnd4 rm)) s
def execFmul (rm : Rnd4) (d : LDst) (a b : LSrc) (s : State) := fp2 (.fmul rm d a b) 1 4 d a b (fmul32 (rnd4 rm)) s
def execFma (rm : Rnd4) (d : Fin 112) (a b : LSrc) (s : State) := fp3 (.fma rm d a b) d a b (fma32 (rnd4 rm)) s
def execFmin (d : LDst) (a b : LSrc) (s : State) := fp2 (.fmin d a b) 1 4 d a b (fun x y => (fmin32 x y, 0)) s
def execFmax (d : LDst) (a b : LSrc) (s : State) := fp2 (.fmax d a b) 1 4 d a b (fun x y => (fmax32 x y, 0)) s
def execFabs (d : LDst) (a : LSrc) (s : State) := fp1 (.fabs d a) 1 4 d a (fun x => (fabs32 x, 0)) s
def execFneg (d : LDst) (a : LSrc) (s : State) := fp1 (.fneg d a) 1 4 d a (fun x => (fneg32 x, 0)) s
def execFcopysign (d : LDst) (a b : LSrc) (s : State) := fp2 (.fcopysign d a b) 1 4 d a b (fun x y => (fcopysign32 x y, 0)) s
def execFclass (d : LDst) (a : LSrc) (s : State) := fp1 (.fclass d a) 1 4 d a (fun x => (fclass32 x, 0)) s
def execFsat (d : LDst) (a : LSrc) (s : State) := fp1 (.fsat d a) 1 4 d a (fun x => (fsat32 x, 0)) s
def execFcmp (cc : FCond) (d : LDst) (a b : LSrc) (s : State) :=
  fp2 (.fcmp cc d a b) 1 4 d a b (fun x y => (if (fcond cc x y).1 then BitVec.allOnes 32 else 0, (fcond cc x y).2)) s
def execFrnd (rm : Rnd4) (d : LDst) (a : LSrc) (s : State) := fp1 (.frnd rm d a) 1 4 d a (fun x => (frnd32 (rnd4 rm) x, 0)) s
def execFfract (d : LDst) (a : LSrc) (s : State) := fp1 (.ffract d a) 1 4 d a ffract32 s
def execFrcp (d : LDst) (a : LSrc) (s : State) := fp1 (.frcp d a) 3 12 d a specRcp s
def execFrsq (d : LDst) (a : LSrc) (s : State) := fp1 (.frsq d a) 3 12 d a specRsq s
def execFsqrt (d : LDst) (a : LSrc) (s : State) := fp1 (.fsqrt d a) 3 20 d a specSqrt s
def execFexp2 (d : LDst) (a : LSrc) (s : State) := fp1 (.fexp2 d a) 3 12 d a specExp2 s
def execFlog2 (d : LDst) (a : LSrc) (s : State) := fp1 (.flog2 d a) 3 12 d a specLog2 s
def execFsin (d : LDst) (a : LSrc) (s : State) := fp1 (.fsin d a) 3 12 d a specSin s
def execFcos (d : LDst) (a : LSrc) (s : State) := fp1 (.fcos d a) 3 12 d a specCos s
def execFtanh (d : LDst) (a : LSrc) (s : State) := fp1 (.ftanh d a) 3 12 d a specTanh s
def execFdiv (rm : Rnd4) (d : LDst) (a b : LSrc) (s : State) := fp2 (.fdiv rm d a b) 3 20 d a b (fdiv32 (rnd4 rm)) s
def execPkadd (bf : Bool) (d : LDst) (a b : LSrc) (s : State) := fp2 (.pkadd bf d a b) 1 4 d a b (pkadd32 bf) s
def execPkmul (bf : Bool) (d : LDst) (a b : LSrc) (s : State) := fp2 (.pkmul bf d a b) 1 4 d a b (pkmul32 bf) s
def execPkfma (bf : Bool) (d : Fin 112) (a b : LSrc) (s : State) := fp3 (.pkfma bf d a b) d a b (pkfma32 bf) s
def execPkmax (bf : Bool) (d : LDst) (a b : LSrc) (s : State) := fp2 (.pkmax bf d a b) 1 4 d a b (pkminmax32 bf true) s
def execPkmin (bf : Bool) (d : LDst) (a b : LSrc) (s : State) := fp2 (.pkmin bf d a b) 1 4 d a b (pkminmax32 bf false) s
def execPkdot (bf : Bool) (d : Fin 112) (a b : LSrc) (s : State) := fp3 (.pkdot bf d a b) d a b (pkdot32 bf) s

end Sys2Proof.Machine
end

