-- ==== Sys2Proof/Machine/LaneInt.lean ====
section
/-! DEFINITION. Integer and logical per-lane instructions of pipe b0 (R133 to R137) and WFLD (R109). They raise no flag (R132). -/
namespace Sys2Proof.Machine

/-! ## Shapes: latency 4 (R69), 9 pJ a quarter (R45) -/

/-- What a b0 instruction needs before its operands are added. -/
def needB0 : Need := { Need.ofPipe 0 with pj := 9 }

/-- A result with no source. -/
def alu0 (i : Instr) (d : LDst) (f : Group → Nat → Word) (s : State) : Host.Outcome State Fault Refusal :=
  issue i (needB0.dst d) (laneResult (dstReg d) 1 0 4 fun g l => ⟨[f g l], 0⟩) s

/-- A result of one source. -/
def alu1 (i : Instr) (d : LDst) (a : LSrc) (f : Word → Word) (s : State) : Host.Outcome State Fault Refusal :=
  issue i ((needB0.src a).dst d) (laneResult (dstReg d) 1 0 4 fun g l => ⟨[f (lsrc g l a)], 0⟩) s

/-- A result of two sources. -/
def alu2 (i : Instr) (d : LDst) (a b : LSrc) (f : Word → Word → Word) (s : State) : Host.Outcome State Fault Refusal :=
  issue i (((needB0.src a).src b).dst d) (laneResult (dstReg d) 1 0 4 fun g l => ⟨[f (lsrc g l a) (lsrc g l b)], 0⟩) s

/-- A result of two sources and the destination's old value (R131). -/
def alu3 (i : Instr) (d : Fin 112) (a b : LSrc) (f : Word → Word → Word → Word) (s : State) : Host.Outcome State Fault Refusal :=
  issue i ((((needB0.src a).src b).vblk d.val 1 1).dstN d.val 1 1)
    (laneResult (some d.val) 1 0 4 fun g l => ⟨[f (lsrc g l a) (lsrc g l b) (g.r.getV l d.val)], 0⟩) s

/-- A pair result as its words; the latch receives the low one (R53). -/
def pairOut (x : DWord) : LaneOut := ⟨[loWord x, hiWord x], 0⟩

/-- A pair result of a pair and a single source (R136). -/
def alu64 (i : Instr) (d : Fin 112) (a : LPair) (b : LSrc) (f : DWord → DWord → DWord) (s : State) : Host.Outcome State Fault Refusal :=
  issue i (((needB0.pair a).src b).dstN d.val 2 2)
    (laneResult (some d.val) 2 0 4 fun g l => pairOut (f (lpair g l a) ((lsrc g l b).signExtend 64))) s

/-- A pair result of two single sources and the destination pair (R136). -/
def alu64acc (i : Instr) (d : Fin 112) (a b : LSrc) (f : Word → Word → DWord → DWord) (s : State) : Host.Outcome State Fault Refusal :=
  issue i ((((needB0.src a).src b).vblk d.val 2 2).dstN d.val 2 2)
    (laneResult (some d.val) 2 0 4 fun g l => pairOut (f (lsrc g l a) (lsrc g l b) (getPair g l d.val))) s

/-- A comparison of a pair with a sign-extended single source (R136). -/
def cmp64 (i : Instr) (d : LDst) (a : LPair) (b : LSrc) (f : DWord → DWord → Bool) (s : State) : Host.Outcome State Fault Refusal :=
  issue i (((needB0.pair a).src b).dst d)
    (laneResult (dstReg d) 1 0 4 fun g l => ⟨[if f (lpair g l a) ((lsrc g l b).signExtend 64) then BitVec.allOnes 32 else 0], 0⟩) s

/-! ## The functions -/

/-- All ones or zero (R135). -/
def truth (b : Bool) : Word := if b then BitVec.allOnes 32 else 0

/-- Minimum and maximum. -/
def minS (a b : Word) : Word := if a.slt b then a else b
def maxS (a b : Word) : Word := if a.slt b then b else a
def minN (a b : Word) : Word := if a < b then a else b
def maxN (a b : Word) : Word := if a < b then b else a

/-- Absolute value; that of 0x8000_0000 is itself (R133). -/
def iabs32 (a : Word) : Word := if a.slt 0 then -a else a

/-- Number of set bits. -/
def popc32 (a : Word) : Word := BitVec.ofNat 32 ((List.range 32).countP fun i => a.getLsbD i)

/-- Number of leading zero bits, 32 for 0. -/
def clz32 (a : Word) : Word := BitVec.ofNat 32 (((List.range 32).reverse.takeWhile fun i => !a.getLsbD i).length)

/-- Bits reversed. -/
def brev32 (a : Word) : Word := a.reverse

/-- High words of products (R133). -/
def mulHiS (a b : Word) : Word := hiWord (a.signExtend 64 * b.signExtend 64)
def mulHiN (a b : Word) : Word := hiWord (a.setWidth 64 * b.setWidth 64)

/-- Shifts: a count of 32 or more gives 0, or copies of the sign (R134). -/
def shl32 (a b : Word) : Word := if b < 32 then a <<< b.toNat else 0
def shr32 (a b : Word) : Word := a >>> b.toNat
def sar32 (a b : Word) : Word := a.sshiftRight b.toNat
def rotl32 (a b : Word) : Word := a.rotateLeft (b.toNat % 32)

/-- The position and clipped length of a bit field, none when it is empty or starts beyond the word (R134). -/
def bitField (b : Word) : Option (Nat × Nat) :=
  let pos := b.toNat % 256
  let len := b.toNat / 256 % 256
  if len = 0 ∨ 32 ≤ pos then none else some (pos, min len (32 - pos))

/-- A mask of `len` low bits. -/
def lowMask (len : Nat) : Word := BitVec.ofNat 32 (2 ^ len - 1)

/-- BFE.N and BFE.S (R134). -/
def bfeN32 (a b : Word) : Word :=
  match bitField b with
  | none => 0
  | some (pos, len) => (a >>> pos) &&& lowMask len
def bfeS32 (a b : Word) : Word :=
  match bitField b with
  | none => 0
  | some (pos, len) => ((a <<< (32 - pos - len))).sshiftRight (32 - len)

/-- BFI (R134). -/
def bfi32 (a b d : Word) : Word :=
  match bitField b with
  | none => d
  | some (pos, len) => (d &&& ~~~(lowMask len <<< pos)) ||| ((a &&& lowMask len) <<< pos)

/-- FSHR: a funnel shift with d as the high word (R134). -/
def fshr32 (a b d : Word) : Word := loWord (dword a d >>> (b.toNat % 32))

/-- An integer condition (R56, R135). -/
def icond (c : ICond) (a b : Word) : Bool :=
  match c with
  | .eq => decide (a = b)
  | .ne => decide (a ≠ b)
  | .ltS => a.slt b
  | .leS => a.sle b
  | .ltN => decide (a < b)
  | .leN => decide (a ≤ b)
  | .gtS => b.slt a
  | .gtN => decide (b < a)

/-- Field `k` of a work identifier under field widths (R18, R109): 0 for a field of width 0. -/
def widField (widths : List Nat) (k : Nat) (wid : DWord) : Word :=
  BitVec.ofNat 32 (wid.toNat / 2 ^ (widths.take k).sum % 2 ^ (widths.getD k 0))

/-! ## Meanings -/

def execIadd (d : LDst) (a b : LSrc) (s : State) := alu2 (.iadd d a b) d a b (fun x y => x + y) s
def execIsub (d : LDst) (a b : LSrc) (s : State) := alu2 (.isub d a b) d a b (fun x y => x - y) s
def execImul (d : LDst) (a b : LSrc) (s : State) := alu2 (.imul d a b) d a b (fun x y => x * y) s
def execImulhS (d : LDst) (a b : LSrc) (s : State) := alu2 (.imulhS d a b) d a b mulHiS s
def execImulhN (d : LDst) (a b : LSrc) (s : State) := alu2 (.imulhN d a b) d a b mulHiN s
def execImad (d : Fin 112) (a b : LSrc) (s : State) := alu3 (.imad d a b) d a b (fun x y z => x * y + z) s
def execIminS (d : LDst) (a b : LSrc) (s : State) := alu2 (.iminS d a b) d a b minS s
def execIminN (d : LDst) (a b : LSrc) (s : State) := alu2 (.iminN d a b) d a b minN s
def execImaxS (d : LDst) (a b : LSrc) (s : State) := alu2 (.imaxS d a b) d a b maxS s
def execImaxN (d : LDst) (a b : LSrc) (s : State) := alu2 (.imaxN d a b) d a b maxN s
def execIabs (d : LDst) (a : LSrc) (s : State) := alu1 (.iabs d a) d a iabs32 s
def execIneg (d : LDst) (a : LSrc) (s : State) := alu1 (.ineg d a) d a (fun x => -x) s
def execPopc (d : LDst) (a : LSrc) (s : State) := alu1 (.popc d a) d a popc32 s
def execClz (d : LDst) (a : LSrc) (s : State) := alu1 (.clz d a) d a clz32 s
def execBrev (d : LDst) (a : LSrc) (s : State) := alu1 (.brev d a) d a brev32 s
def execIdiffN (d : LDst) (a b : LSrc) (s : State) := alu2 (.idiffN d a b) d a b (fun x y => maxN x y - minN x y) s
def execAnd (d : LDst) (a b : LSrc) (s : State) := alu2 (.and d a b) d a b (fun x y => x &&& y) s
def execOr (d : LDst) (a b : LSrc) (s : State) := alu2 (.or d a b) d a b (fun x y => x ||| y) s
def execXor (d : LDst) (a b : LSrc) (s : State) := alu2 (.xor d a b) d a b (fun x y => x ^^^ y) s
def execAndn (d : LDst) (a b : LSrc) (s : State) := alu2 (.andn d a b) d a b (fun x y => x &&& ~~~y) s
def execNot (d : LDst) (a : LSrc) (s : State) := alu1 (.not d a) d a (fun x => ~~~x) s
def execMov (d : LDst) (a : LSrc) (s : State) := alu1 (.mov d a) d a (fun x => x) s
def execSel (d : Fin 112) (a b : LSrc) (s : State) := alu3 (.sel d a b) d a b (fun x y z => if z ≠ 0 then x else y) s
def execShl (d : LDst) (a b : LSrc) (s : State) := alu2 (.shl d a b) d a b shl32 s
def execShr (d : LDst) (a b : LSrc) (s : State) := alu2 (.shr d a b) d a b shr32 s
def execSar (d : LDst) (a b : LSrc) (s : State) := alu2 (.sar d a b) d a b sar32 s
def execRotl (d : LDst) (a b : LSrc) (s : State) := alu2 (.rotl d a b) d a b rotl32 s
def execBfeN (d : LDst) (a b : LSrc) (s : State) := alu2 (.bfeN d a b) d a b bfeN32 s
def execBfeS (d : LDst) (a b : LSrc) (s : State) := alu2 (.bfeS d a b) d a b bfeS32 s
def execBfi (d : Fin 112) (a b : LSrc) (s : State) := alu3 (.bfi d a b) d a b bfi32 s
def execFshr (d : Fin 112) (a b : LSrc) (s : State) := alu3 (.fshr d a b) d a b fshr32 s
def execIcmp (cc : ICond) (d : LDst) (a b : LSrc) (s : State) := alu2 (.icmp cc d a b) d a b (fun x y => truth (icond cc x y)) s
def execIadd64 (d : Fin 112) (a : LPair) (b : LSrc) (s : State) := alu64 (.iadd64 d a b) d a b (fun x y => x + y) s
def execIsub64 (d : Fin 112) (a : LPair) (b : LSrc) (s : State) := alu64 (.isub64 d a b) d a b (fun x y => x - y) s
/-- SHL64: the count is the single source, unsigned; 64 or more gives 0 (R136). -/
def execShl64 (d : Fin 112) (a : LPair) (b : LSrc) (s : State) :=
  alu64 (.shl64 d a b) d a b (fun x y => if loWord y < 64 then x <<< (loWord y).toNat else 0) s
/-- SHR64 (R136). -/
def execShr64 (d : Fin 112) (a : LPair) (b : LSrc) (s : State) :=
  alu64 (.shr64 d a b) d a b (fun x y => x >>> (loWord y).toNat) s
def execImadwN (d : Fin 112) (a b : LSrc) (s : State) :=
  alu64acc (.imadwN d a b) d a b (fun x y z => z + x.setWidth 64 * y.setWidth 64) s
def execImadwS (d : Fin 112) (a b : LSrc) (s : State) :=
  alu64acc (.imadwS d a b) d a b (fun x y z => z + x.signExtend 64 * y.signExtend 64) s
def execIcmp64Eq (d : LDst) (a : LPair) (b : LSrc) (s : State) := cmp64 (.icmp64Eq d a b) d a b (fun x y => decide (x = y)) s
def execIcmp64LtN (d : LDst) (a : LPair) (b : LSrc) (s : State) := cmp64 (.icmp64LtN d a b) d a b (fun x y => decide (x < y)) s
def execIaddi (d : LDst) (a : LSrc) (imm : BitVec 10) (s : State) := alu1 (.iaddi d a imm) d a (fun x => x + imm.signExtend 32) s
def execAndi (d : LDst) (a : LSrc) (imm : BitVec 10) (s : State) := alu1 (.andi d a imm) d a (fun x => x &&& imm.setWidth 32) s
def execOri (d : LDst) (a : LSrc) (imm : BitVec 10) (s : State) := alu1 (.ori d a imm) d a (fun x => x ||| imm.setWidth 32) s
def execShli (d : LDst) (a : LSrc) (n : Fin 32) (s : State) := alu1 (.shli d a n) d a (fun x => x <<< n.val) s
def execShri (d : LDst) (a : LSrc) (n : Fin 32) (s : State) := alu1 (.shri d a n) d a (fun x => x >>> n.val) s
def execMovi (d : LDst) (imm : BitVec 10) (s : State) := alu0 (.movi d imm) d (fun _ _ => imm.signExtend 32) s
/-- WFLD: the widths are those of the header of the launch that created the thread, or of the HREAD block (R109). -/
def execWfld (k : Fin 6) (d : LDst) (s : State) :=
  alu0 (.wfld k d) d (fun g l => widField (g.laneFields l) k.val (mget 0 g.r.wid l)) s

end Sys2Proof.Machine
end

