-- ==== Sys2Proof/Machine/System.lean ====
section
/-! DEFINITION. The part in its system: power epochs and heat (R44, R47), check-code errors (R167 to R171), control-space registers (R338),
vectors (R339), the root ports (R340), Ivmar (R341, R342), boot, attestation and the management controller (R343 to R346). -/
namespace Sys2Proof.Machine

/-! ## Power epochs and heat -/

/-- EPOCH_START: every 800 cc, counted from the release of the compute dies (R336), each cluster of an enabled partition receives its allowance,
less a deficit (R44, R46). What it was given stands for the epoch, whatever the budget, the cap or the heat then becomes (R47, R345). -/
def evEpochStart (s : State) : Option State :=
  if s.now < s.sys.cycBase + 800 * s.epoch then none
  else
    let give (s : State) (x : Nat × FrontEnd) : State :=
      if x.2.en then (clustersOf x.2).foldl (fun s c =>
        s.updCluster c fun k => { k with given := allowance s x.2 c, energy := allowance s x.2 c + min 0 k.energy }) s
      else s
    some { s.fes.foldl give s with epoch := s.epoch + 1 }

/-- Whether a condition with threshold `t` holds after the index becomes `v` (R47). -/
def heatCond (was : Bool) (t v : Nat) : Bool := if t ≤ v then true else if v + 6 ≤ t then false else was

/-- The contexts of a die: bound to an enabled partition with a cluster on it. -/
def dieContexts (s : State) (die : Nat) : List Nat :=
  (s.fes.filterMap fun x => if x.2.en && x.2.vdevV && decide ((s.vdev x.2.vdev).st ≠ .free) && (clustersOf x.2).any (fun c => decide (dieOf c = die))
    then some x.2.vdev else none).dedup

/-- HEAT_INDEX_CHANGE: the index of a die, the conditions it enters or leaves; at 210 the MC and the affected contexts are told (R47). -/
def evHeatIndexChange (die value : Nat) (s : State) : Option State :=
  if 5 ≤ die ∨ 256 ≤ value then none
  else
    let d := s.die die
    let n : Die := { d with heat := value, c190 := heatCond d.c190 190 value, c200 := heatCond d.c200 200 value, c210 := heatCond d.c210 210 value }
    let s := s.setDie die n
    if n.c210 && !d.c210 then
      let s : State := { s with sys := { s.sys with log := s.sys.log ++ [(evThermal, die)] } }
      some ((dieContexts s die).foldl (fun s v => logEvent s v evThermal 0x41 0 127 (s.vdev v).gen 0 0 0 0 0) s)
    else some s

/-! ## Check-code errors -/

/-- Whether a second-stage table of a level reaches a physical address by one of its leaves. -/
def mapsTo (s : State) (pa : Nat) : Nat → Nat → Nat → Bool
  | level, top, table => (List.range (2 ^ top)).any fun i =>
    match pteAt s (table + 8 * i) with
    | .val pte =>
      if !bit pte 0 then false
      else if bit pte 1 || bit pte 2 || bit pte 3 then match leafOf level pte with
        | .leaf base size _ _ _ => decide (base ≤ pa) && decide (pa < base + size)
        | _ => false
      else match level with
        | 0 => false
        | l + 1 => mapsTo s pa l 9 (pte / 2 ^ 10 % 2 ^ 44 * 4096)
    | _ => false
termination_by structural level => level

/-- The context that owns a physical address: its region or its second stage covers it. (DEDUCED, log 64) -/
def ownerOf (s : State) (pa : Nat) : Option Nat :=
  (s.vdevs.find? fun x => decide (x.2.st ≠ .free) && ((decide (loc x.2.crb.toNat ≤ loc pa) && decide (loc pa < loc x.2.crb.toNat + x.2.crsz * 65536))
    || mapsTo s pa 4 11 (x.2.hgatp.toNat % 2 ^ 44 / 4 * 4 * 4096))).map (·.1)

/-- The context of a core. -/
def coreOwner (s : State) (core : Nat) : Option Nat :=
  (s.fes.find? fun x => x.2.en && x.2.vdevV && decide (x.2.base ≤ clusterOf core) && decide (clusterOf core ≤ x.2.limit)).map fun x => x.2.vdev

/-- Log new poison in the owning context and at the MC (R169). -/
def poisonEvent (s : State) (owner : Option Nat) (pa : Nat) : State :=
  match owner with
  | some v => logPoison s v pa 0 0 0
  | none => { s with sys := { s.sys with log := s.sys.log ++ [(evPoison, pa)] } }

/-- An error that a check code corrects: only the die's counter shows it (R167). -/
def corrected (die : Nat) (s : State) : State :=
  if 5 ≤ die then s else s.setDie die { s.die die with softErrors := (s.die die).softErrors + 1 }

/-- A soft error on a core's die, whose clean copy is fetched again (R167, R168). -/
def softError (s : State) (core : Nat) : State := corrected (dieOf (clusterOf core)) s

/-- A spawn-buffer entry whose registers are all poisoned: those its record, its task or its thread brings (R167, R169). -/
def poisonEntry (e : FEntry) : FEntry :=
  let m : Mark := ⟨0x13, 0, 0, 0⟩
  { e with
    marks := match e.source with
      | .split => (List.range (8 * e.alloc)).map fun i => (i, m)
      | _ => e.regs.map fun x => (x.1, m)
    gmarks := (List.range e.g.length).map fun i => (i, m) }

/-- A coherent cache without one sector; the line's other sector stays (R158). -/
def dropSector (m : AMap CcLine) (pa : Nat) : AMap CcLine :=
  match find? m (pa / 256) with
  | none => m
  | some l =>
    let v := l.valid &&& ~~~ sectorBit pa
    if v = 0 then merase m (pa / 256) else mset m (pa / 256) { l with valid := v }

/-- What an error in one sector of a coherent cache's line comes to: the clean copy is fetched again, a dirty one is poison (R168, R169). -/
def lineError (s : State) (l : CcLine) (pa : Nat) (drop : State → State) : State :=
  if l.dirty &&& sectorBit pa ≠ 0 then poisonEvent (s.setPoison pa) (ownerOf s pa) pa
  else drop s

/-- UNCORRECTABLE_ERROR: a clean copy is discarded and fetched again; otherwise the unit is poisoned and the event logged; a register's
parity error waits for its read (R168, R169, R171). -/
def evUncorrectableError (site : ErrSite) (s : State) : Option State :=
  match site with
  | .sector pa => if region s pa = .hbm then some (poisonEvent (s.setPoison pa) (ownerOf s pa) pa) else none
  | .l1 core pa => (find? (s.core core).l1 (pa / 128)).map fun l =>
      if l.dirty = 0 then softError (s.updCore core fun k => { k with l1 := merase k.l1 (pa / 128) }) core
      else poisonEvent (s.updCore core fun k => { k with l1 := mset k.l1 (pa / 128) { l with poison := true } }) (coreOwner s core) pa
  | .sampler core pa => (find? (s.core core).smp (pa / 128)).map fun _ =>
      softError (s.updCore core fun k => { k with smp := merase k.smp (pa / 128) }) core
  | .ls core u => if core < 800 ∧ u < 2048 then
        some (poisonEvent (s.updCore core fun k => { k with lsPoison := nins k.lsPoison u }) (coreOwner s core) (128 * u))
      else none
  | .ob core b => if core < 800 ∧ b < 262144 then
        some (poisonEvent (s.updCore core fun k => { k with obPoison := nins k.obPoison (b / 128) }) (coreOwner s core) b)
      else none
  | .vreg gid lane reg => (s.group? gid).bind fun g =>
      if g.info.born.getLsbD lane && decide (reg < 8 * g.c.alloc) then some (s.updGroup gid fun g => { g with r := g.r.markV lane reg ⟨0x25, 0, 0, 0⟩ })
      else none
  | .greg gid reg => (s.group? gid).bind fun _ =>
      if reg < 56 then some (s.updGroup gid fun g => { g with r := { g.r with gmark := mset g.r.gmark reg ⟨0x25, 0, 0, 0⟩ } }) else none
  | .line cl pa => (find? (s.cluster cl).lines (pa / 256)).map fun l => lineError s l pa fun s =>
      softError (s.updCluster cl fun k => { k with lines := dropSector k.lines pa }) (4 * cl)
  | .slice pa => (find? s.llc (pa / 256)).map fun l => lineError s l pa fun s => corrected 4 { s with llc := dropSector s.llc pa }
  | .sram cl a => if cl < 200 ∧ a < 2097152 then
        some (poisonEvent (s.updCluster cl fun k => { k with sramPoison := nins k.sramPoison (a / 128) }) (coreOwner s (4 * cl)) a)
      else none
  | .spawn core n => ((s.core core).entries.find? fun e => decide (e.order = n)).map fun e =>
      poisonEvent (s.updCore core fun k => { k with entries := k.entries.map fun e => if e.order = n then poisonEntry e else e }) (some e.vdev) 0

/-! ## Vectors and the domain (R339, R341) -/

/-- VECTOR_ROUTE_WRITE: a route; setting EN delivers a pending vector once (R339). -/
def evVectorRouteWrite (n : Nat) (val : Word) (s : State) : Option State :=
  if !s.sys.hartsReleased || decide (256 ≤ n) || decide (bitsAt val.toNat 30 6 ≠ 0) then none
  else
    let s : State := { s with sys := { s.sys with routes := dset 0 s.sys.routes n val } }
    if val.getLsbD 31 && s.sys.vecPending.contains n then
      some { s with sys := { s.sys with vecPending := ndel s.sys.vecPending n, msis := s.sys.msis ++ [(val.toNat % 64, n + 1)] } }
    else some s

/-- Every copy that the caches hold is written back and given up: the part's own addresses are about to change their part number (R175, R341). -/
def emptyCaches (s : State) : State :=
  let s := s.cores.foldl (fun s e => s.writeBackAll e.1) s
  { s with
    cores := mmapv s.cores fun _ k => { k with l1 := [], l1Order := [], smp := [], smpOrder := [] }
    clusters := mmapv s.clusters fun _ k => { k with lines := [] }
    llc := [] }

/-- DOMAIN_ENABLE: DEN is set; PARTNO is taken with it and becomes visible in PART (R341). The ports that are down begin to train, and
what the caches hold is written back under its old address. (DESIGN CHOICE, log 36, log 66) -/
def evDomainEnable (val : Word) (s : State) : Option State :=
  if !s.sys.hartsReleased || s.sys.den || !val.getLsbD 31 || decide (bitsAt val.toNat 30 12 ≠ 0) then none
  else
    let s := emptyCaches s
    let ports := (List.range 16).foldl (fun m p =>
      let k := mget (⟨0, 0, 0, 0⟩ : Port) m p
      if k.st = 0 then mset m p { k with st := 1 } else m) s.sys.ports
    some { s with sys := { s.sys with partno := bitsAt val.toNat 11 0, den := true, ports := ports } }

/-! ## Control-space registers (R338) -/

/-- One half of a 64-bit register replaced. -/
def putHalf (old : Nat) (hi : Bool) (v : Nat) : Nat := if hi then old % 2 ^ 32 + v * 2 ^ 32 else old / 2 ^ 32 * 2 ^ 32 + v

/-- A write in an FE's block (R24): registers with an event of their own are not written here. -/
def writeFe (s : State) (fe r size val : Nat) : Option State :=
  let f := s.fe fe
  let wide (off : Nat) (old : DWord) : Option State :=
    some (writeFeReg s fe off (if size = 8 then val else putHalf old.toNat (decide (r % 8 = 4)) val))
  if r / 8 = 1 then wide 0x008 f.color
  else if r / 8 = 3 then wide 0x018 f.graph
  else if r / 8 = 5 then wide 0x028 f.cwb
  else if r = 0 then (if f.en || bit val 16 then none else some (writePart s fe val))
  else if r = 0x030 ∨ r = 0x038 ∨ r = 0x040 then some (writeFeReg s fe r val)
  else none

/-- A write in a virtual device's entry (R317); none where it is ignored or has an event of its own. -/
def writeVdev (s : State) (v r size val : Nat) : Option State :=
  let d := s.vdev v
  let free : Bool := decide (d.st = .free)
  let rest : Bool := free || decide (d.st = .saved)
  let put (ok : Bool) (f : VDev → VDev) : Option State := if ok then some (s.updVdev v f) else none
  let wide (old : DWord) : Nat := if size = 8 then val else putHalf old.toNat (decide (r % 8 = 4)) val
  if r / 8 = 0 then put (free && decide (wide d.crb % 65536 = 0)) fun d => { d with crb := BitVec.ofNat 64 (wide d.crb) }
  else if r = 0x08 then put (free && decide (val < 2 ^ 8)) fun d => { d with maxcl := val }
  else if r = 0x0C then put free fun d => { d with crsz := val }
  else if r / 8 = 2 then put rest fun d => { d with hgatp := BitVec.ofNat 64 (wide d.hgatp) }
  else if r = 0x24 then put (decide (val < 2 ^ 9)) fun d => { d with ien := bit val 8, vector := val % 256 }
  else if r = 0x2C then put (rest && decide (1 ≤ val) && decide (val < 2 ^ 12)) fun d => { d with window := val }
  else if r = 0x30 then put (rest && decide (val < 2)) fun d => { d with vside := val }
  else none

/-- A write in a codec's peer table: only while the entry's V is 0 (R259). -/
def writePeer (s : State) (codec o size val : Nat) : Option State :=
  if peerV (s.codec codec) (o / 64) then none
  else some (s.updCodec codec fun c => { c with peers := (leBytes size val).zipIdx.foldl (fun m x => dset 0 m (o + x.2) x.1) c.peers })

/-- A write in the domain block while DEN = 0 (R341; DESIGN CHOICE, log 36). -/
def writeDomain (s : State) (o val : Nat) : Option State :=
  if s.sys.den then none
  else if o = 0 then (if 2 ^ 12 ≤ val then none else some { s with sys := { s.sys with partno := val } })
  else if 0x1000 ≤ o ∧ o < 0x5000 ∧ val < 2 ^ 16 then
    some { s with sys := { s.sys with portRoutes := dset 0 s.sys.portRoutes ((o - 0x1000) / 4) val } }
  else none

/-- A write of one register, or of one half of a wide one. -/
def writeControl (s : State) (off size val : Nat) : Option State :=
  if off < 0x14000 then writeFe s (off / 0x1000) (off % 0x1000) size val
  else if 0x100000 ≤ off ∧ off < 0x102000 then
    (if off % 0x1000 < 0x1000 then writePeer s ((off - 0x100000) / 0x1000) (off % 0x1000) size val else none)
  else if 0x200000 ≤ off ∧ off < 0x204000 then writeVdev s ((off - 0x200000) / 64) (off % 64) size val
  else if 0x300000 ≤ off ∧ off < 0x300008 then
    let v := if size = 8 then val else putHalf s.sys.invaddr.toNat (decide (off % 8 = 4)) val
    if v % 4096 = 0 then some { s with sys := { s.sys with invaddr := BitVec.ofNat 64 v } } else none
  else if 0x500000 ≤ off ∧ off < 0x505000 then writeDomain s (off - 0x500000) val
  else none

/-- The 32-bit half of a 64-bit register that an offset names. -/
def regHalf (r : Nat) (v : DWord) : Nat := if r % 8 = 4 then v.toNat / 2 ^ 32 else v.toNat % 2 ^ 32

/-- The codes of a graph walker's state (R24) and of a virtual device's (R318). -/
def gwCode : GwSt → Nat
  | .idle => 0 | .walk => 1 | .wait => 2 | .halt => 3
def devCode : DevSt → Nat
  | .free => 0 | .live => 1 | .saving => 2 | .saved => 3 | .restoring => 4 | .resetting => 5

/-- A word of an FE's block (R24); the default of FEPOWER is rounded down to whole watts, and a write-only register reads 0 (DESIGN CHOICE,
log 77). -/
def readFe (f : FrontEnd) (r : Nat) : Nat :=
  if r = 0 then f.base + 2 ^ 8 * f.limit + 2 ^ 16 * f.en.toNat
  else if r / 8 = 1 then regHalf r f.color
  else if r / 8 = 2 then regHalf r f.watch
  else if r / 8 = 3 then regHalf r f.graph
  else if r / 8 = 5 then regHalf r f.cwb
  else if r = 0x030 then budget2 f / 2
  else if r = 0x038 then 2 ^ 28 * gwCode f.st + 2 ^ 16 * (f.node % 2 ^ 12) + 2 ^ 8 * (f.err % 2 ^ 8) + f.collapsed % 2 ^ 8
  else if r = 0x040 then 2 ^ 8 * f.vdevV.toNat + f.vdev % 2 ^ 8
  else 0

/-- A word of a virtual device's entry (R317). -/
def readVdev (d : VDev) (r : Nat) : Nat :=
  if r / 8 = 0 then regHalf r d.crb
  else if r = 0x08 then d.maxcl
  else if r = 0x0C then d.crsz
  else if r / 8 = 2 then regHalf r d.hgatp
  else if r = 0x18 then d.gen
  else if r = 0x20 then 2 ^ 8 * (d.status % 2 ^ 8) + devCode d.st
  else if r = 0x24 then 2 ^ 8 * d.ien.toNat + d.vector
  else if r = 0x2C then d.window
  else if r = 0x30 then d.vside
  else 0

/-- A word of an Ivmar port's block: state, retries, flits sent, flits received. (DESIGN CHOICE, log 36) -/
def readPort (p : Port) (r : Nat) : Nat := ([p.st, p.retries, p.sent, p.received].getD (r / 4) 0) % 2 ^ 32

/-- A word of the domain block (R341; DESIGN CHOICE, log 36). -/
def readDomain (y : Sys) (r : Nat) : Nat :=
  if r = 0 then y.partno + 2 ^ 31 * y.den.toNat
  else if 0x1000 ≤ r ∧ r < 0x5000 then mget 0 y.portRoutes ((r - 0x1000) / 4)
  else 0

/-- A word of a cluster's bank registers (R163, R165). -/
def readBank (k : Cluster) (r : Nat) : Nat :=
  if r < 8 then regHalf r (BitVec.ofNat 64 ((List.range 32).foldl (fun n b => n + mget 0 k.bankMode b * 4 ^ b) 0))
  else if r = 0xC then 2 ^ 31 * k.bankBusy.toNat + k.bankStatus % 2 ^ 8
  else 0

/-- An aligned word of control space as a read finds it (R338). -/
def controlWord (s : State) (off : Nat) : Nat :=
  if off < 0x14000 then readFe (s.fe (off / 0x1000)) (off % 0x1000)
  else if 0x100000 ≤ off ∧ off < 0x102000 then
    leNat ((List.range 4).map fun i => mget 0 (s.codec ((off - 0x100000) / 0x1000)).peers (off % 0x1000 + i))
  else if 0x200000 ≤ off ∧ off < 0x204000 then readVdev (s.vdev ((off - 0x200000) / 64)) (off % 64)
  else if off = 0x300000 ∨ off = 0x300004 then regHalf off s.sys.invaddr
  else if off = 0x300010 ∨ off = 0x300014 then regHalf off (BitVec.ofNat 64 s.sys.invdone)
  else if 0x400000 ≤ off ∧ off < 0x410000 then readPort (mget ⟨0, 0, 0, 0⟩ s.sys.ports ((off - 0x400000) / 0x1000)) (off % 0x1000)
  else if 0x500000 ≤ off ∧ off < 0x505000 then readDomain s.sys (off - 0x500000)
  else if 0x700000 ≤ off ∧ off < 0x700400 then (mget 0 s.sys.routes ((off - 0x700000) / 4)).toNat
  else if 0x800000 ≤ off ∧ off < 0x800C80 then readBank (s.cluster ((off - 0x800000) / 16)) (off % 16)
  else 0

/-- A read of control space (R338): one narrower than 32 bits or not aligned reads 0. -/
def controlRead (s : State) (off n : Nat) : List Byte :=
  if n % 4 ≠ 0 ∨ off % max 1 n ≠ 0 then List.replicate n 0
  else (List.range (n / 4)).flatMap fun i => leBytes 4 (controlWord s (off + 4 * i))

/-- Whether an offset lies in a 64-bit register, which an 8-byte write changes at once. -/
def wideAt (off : Nat) : Bool :=
  if off < 0x14000 then decide (off % 0x1000 / 8 = 1) || decide (off % 0x1000 / 8 = 3) || decide (off % 0x1000 / 8 = 5)
  else if off < 0x102000 then true
  else if off < 0x204000 then decide (off % 64 / 8 = 0) || decide (off % 64 / 8 = 2)
  else decide (off < 0x300008)

/-- Whether an application core may write a block: the domain's in any mode (R341), the others in hypervisor mode (R24, R259, R311, R317). -/
def mayWrite (s : State) (off : Nat) (hyp : Bool) : Bool :=
  s.sys.hartsReleased && (hyp || (decide (0x500000 ≤ off) && decide (off < 0x600000)))

/-- What a write of 4 or 8 aligned bytes leaves (R338): 8 bytes over two 32-bit registers write both. -/
def controlWritten (off size : Nat) (val : DWord) (hyp : Bool) (s : State) : Option State :=
  if !mayWrite s off hyp || decide (size ≠ 4 ∧ size ≠ 8) || decide (off % size ≠ 0) then none
  else if size = 4 then writeControl s off 4 (val.toNat % 2 ^ 32)
  else if wideAt off then writeControl s off 8 val.toNat
  else
    let t := writeControl s off 4 (val.toNat % 2 ^ 32)
    match writeControl (t.getD s) (off + 4) 4 (val.toNat / 2 ^ 32) with
    | some u => some u
    | none => t

/-- Whether a context's stage is open, or one of its remote edges holds a record not yet drained (R257). -/
def sideInUse (s : State) (vdev : Nat) : Bool :=
  s.edges.any fun x => decide (x.2.vdev = vdev) && (x.2.opened
    || (x.2.rmt && match find? s.remotes x.1 with | some m => decide (x.2.role = roleSender) && decide (m.next ≠ edgeRsv s x.2) | none => false))

/-- CONTROL_REGISTER_WRITE (R24, R259, R311, R317, R338, R341). A change of VSIDE while a stage is open or a remote edge holds a record leaves that
context's remote edges undefined until RESET, and no other context's (R257): they stand still. (DESIGN CHOICE, log 78) -/
def evControlRegisterWrite (off size : Nat) (val : DWord) (hyp : Bool) (s : State) : Option State :=
  (controlWritten off size val hyp s).map fun t =>
    let v := (off - 0x200000) / 64
    if decide (0x200000 ≤ off) && decide (off < 0x204000) && decide ((t.vdev v).vside ≠ (s.vdev v).vside) && sideInUse s v then
      t.updVdev v fun d => { d with remoteUndef := true }
    else t

/-! ## Ivmar and the root ports -/

def State.port (s : State) (p : Nat) : Port := mget ⟨0, 0, 0, 0⟩ s.sys.ports p
def State.setPort (s : State) (p : Nat) (v : Port) : State := { s with sys := { s.sys with ports := mset s.sys.ports p v } }

/-- FLIT_RETRY: a flit failed its check and is sent again (R341); the count falls back to 0 when a flit has passed (`sentOn`). -/
def evFlitRetry (p : Nat) (s : State) : Option State :=
  let k := s.port p
  if 16 ≤ p ∨ k.st ≠ 2 ∨ 8 ≤ k.retries then none else some (s.setPort p { k with retries := k.retries + 1, sent := k.sent + 1 })

/-- IVMAR_PORT_DOWN: after 8 failed retries the port is down; requests in flight on it take the next path (R341, R342). (DESIGN CHOICE, log 66) -/
def evIvmarPortDown (p : Nat) (s : State) : Option State :=
  let k := s.port p
  if 16 ≤ p ∨ k.st ≠ 2 ∨ k.retries < 8 then none
  else
    let s := s.setPort p { k with st := 0, retries := 0 }
    some { s with sys := { s.sys with log := s.sys.log ++ [(evMemfault, p)]
                                      outbox := s.sys.outbox.map fun r => if r.port = p then { r with port := outPort s r.pa } else r } }

/-- IVMAR_PORT_UP: a link finishes training (R341). -/
def evIvmarPortUp (p : Nat) (s : State) : Option State :=
  let k := s.port p
  if 16 ≤ p ∨ k.st = 2 then none else some (s.setPort p { k with st := 2, retries := 0 })

/-- An answer to a party outside. -/
def State.reply (s : State) (b : List Byte) : State := { s with sys := { s.sys with replies := s.sys.replies ++ [b] } }

/-- Whether every byte of a range stands in one kind of place. -/
def allIn (s : State) (r : Region) (pa n : Nat) : Bool := (List.range n).all fun i => decide (region s (pa + i) = r)

/-- An access performed at the slice for a party outside (R183, R340, R342), of class SYS (R288): a store, a read whose bytes are the reply, or an
atomic whose reply is what it found; one that reaches no memory, or meets poison, answers nothing. -/
def serve (s : State) (pa : Nat) (acc : InAcc) (data : List Byte) : State :=
  let bad (n : Nat) : Bool := (sectorAddrs pa n).any s.poisoned
  match acc with
  | .write => if allIn s .hbm pa data.length then (s.storeBelow pa data false).wroteAs false pa data.length else s.reply []
  | .read => if allIn s .hbm pa data.length && !bad data.length then s.reply (s.bytes (loc pa) data.length) else s.reply []
  | .atomic op wide =>
    let n := aopSize wide
    if !allIn s .hbm pa n || decide (pa % n ≠ 0) || bad n then s.reply []
    else
      let old := s.bytes (loc pa) n
      ((s.setBytes (loc pa) (aopBytes op wide old (bytesWords (data.length / 4) data))).wroteAs false pa n).reply old

/-- A request counted on the port it came by: the one that this part's own requests to its sender take. (DESIGN CHOICE, log 66) -/
def receivedFrom (s : State) (src pa : Nat) : State :=
  if upPorts s src = [] then s
  else
    let p := outPort s (src * 2 ^ 44 + loc pa)
    s.setPort p { s.port p with received := (s.port p).received + 1 }

/-- IVMAR_REQUEST: an access of another part of the domain (R342); `data` gives a read's length and an atomic's operands. -/
def evIvmarRequest (src pa : Nat) (acc : InAcc) (data : List Byte) (s : State) : Option State :=
  if !s.sys.den || decide (src = 0) || decide (3072 < src) || decide (src = s.sys.partno) || decide (pa / 2 ^ 44 ≠ s.part) then none
  else some (serve (receivedFrom s src pa) pa acc data)

/-- PCIE_INBOUND_REQUEST: translated by the IOMMU, then performed at system scope (R340), here or, by its part number, over the Ivmar
ports (R175, R342). -/
def evPcieInboundRequest (endpoint addr : Nat) (write : Bool) (data : List Byte) (s : State) : Option State :=
  if !s.sys.powered then none
  else
    let t : State := { s with tick := s.tick + 1 }
    some (match Config.iommu s.tick endpoint addr with
      | some pa =>
        if !data.isEmpty && allIn t .remote pa data.length then
          if write then t.sendLines pa data else ((linesOf pa data.length).foldl (·.asked ·) t).reply ((List.range data.length).map fun i => t.below (pa + i))
        else serve t pa (if write then .write else .read) data
      | none => t.reply [])

/-! ## Boot and attestation (R343, R344; DESIGN CHOICE, log 35) -/

/-- The boot manifest in the MC's flash, at these places (DESIGN CHOICE, log 35). -/
def flashBytes (y : Sys) (a n : Nat) : List Byte := (List.range n).map fun i => mget 0 y.flash (a + i)
def manifestLen : Nat := 0x10 + 80 * 16
def manifestSvn (y : Sys) : Nat := leNat (flashBytes y 4 4)
def manifestCount (y : Sys) : Nat := leNat (flashBytes y 8 4)
def signatureLen : Nat := 1280

/-- An entry: load address, length, digest. -/
structure BootEntry where
  load : Nat
  len : Nat
  digest : List Byte
  deriving DecidableEq, Repr

def bootEntry (y : Sys) (i : Nat) : BootEntry :=
  ⟨leNat (flashBytes y (0x10 + 80 * i) 8), leNat (flashBytes y (0x18 + 80 * i) 8), flashBytes y (0x20 + 80 * i) 64⟩

/-- The images, one after another behind the signature. -/
def bootImages (y : Sys) : Nat → Nat → Nat → List (BootEntry × List Byte)
  | 0, _, _ => []
  | n + 1, i, a => let e := bootEntry y i; (e, flashBytes y a e.len) :: bootImages y n (i + 1) (a + e.len)

/-- Refusal codes of the root of trust (DESIGN CHOICE, log 35). -/
def bootRefusal (y : Sys) (l : List (BootEntry × List Byte)) : Nat :=
  if 16 < manifestCount y ∨ !Config.falconVerify (shake256 (flashBytes y 0 manifestLen) 64) (flashBytes y manifestLen signatureLen) then 1
  else if l.any fun x => decide (shake256 x.2 64 ≠ x.1.digest) then 2
  else if manifestSvn y < y.fusedSvn then 3
  else 0

/-- A measurement register. -/
def measured (y : Sys) (i : Nat) : List Byte := mget (List.replicate 64 0) y.meas i
def extendMeas (y : Sys) (i : Nat) (digest : List Byte) : Sys := { y with meas := mset y.meas i (shake256 (measured y i ++ digest) 64) }

/-- The part after main power has gone: the MC and the root of trust, which the standby clock drives (R336), keep what they hold, everything else
stands as after reset (R345). -/
def powerOff (s : State) : State :=
  { State.reset with
    now := s.now
    agenda := s.agenda
    tick := s.tick
    nextId := s.nextId
    nextTok := s.nextTok
    sys := { Sys.initial with powered := false, mcUp := s.sys.mcUp, hartsReleased := false, flash := s.sys.flash, fusedSvn := s.sys.fusedSvn
                              serial := s.sys.serial, log := s.sys.log, cap := s.sys.cap, rails := s.sys.rails, meas := s.sys.meas
                              quotes := s.sys.quotes, cycBase := s.sys.cycBase } }

/-- The root of trust's boot: the compute dies leave reset, so that their cc counters start together (R336); the measurement registers start at
zero; images are loaded and measured and hart 0 is released, or a refusal stands (R343). -/
def boot (s : State) : State :=
  let s : State := { s with epoch := 0, sys := { s.sys with meas := [], cycBase := s.now } }
  let y := s.sys
  let l := bootImages y (min 16 (manifestCount y)) 0 (manifestLen + signatureLen)
  match bootRefusal y l with
  | 0 =>
    let s := l.foldl (fun s x => s.setBytes (loc x.1.load) x.2) s
    let y := (l.zipIdx).foldl (fun y x => extendMeas y x.2 x.1.1.digest) y
    { s with sys := { y with powered := true, hartsReleased := true, refusal := 0 } }
  | c => { s with sys := { y with powered := true, hartsReleased := false, refusal := c } }

/-- MC_STANDBY_START (R343). -/
def evMcStandbyStart (s : State) : Option State := if s.sys.mcUp then none else some { s with sys := { s.sys with mcUp := true } }

/-- MAIN_POWER_ON (R343). -/
def evMainPowerOn (s : State) : Option State := if s.sys.mcUp && !s.sys.powered then some (boot s) else none

/-- MAIN_POWER_OFF, MODULE_RESET (R345). -/
def evMainPowerOff (s : State) : Option State := if s.sys.mcUp && s.sys.powered then some (powerOff s) else none
def evModuleReset (s : State) : Option State := if s.sys.mcUp then some (boot (powerOff s)) else none

/-- THERMAL_TRIP: a die at index 220; the MC removes main power and keeps a record (R346). -/
def evThermalTrip (die : Nat) (s : State) : Option State :=
  if 5 ≤ die ∨ (s.die die).heat < 220 ∨ !s.sys.powered then none
  else
    let t := powerOff s
    some { t with sys := { t.sys with log := t.sys.log ++ [(evThermal, die)] } }

/-- COOLANT_ALARM: inlet above 45 °C, or flow below 1.0 L/min, given in mL/min (R346). -/
def evCoolantAlarm (inlet flow : Nat) (s : State) : Option State :=
  if s.sys.mcUp && (decide (45 < inlet) || decide (flow < 1000)) then some { s with sys := { s.sys with log := s.sys.log ++ [(evThermal, inlet * 65536 + flow)] } }
  else none

/-- FIRMWARE_UPDATE: new images in the MC's flash, for the next boot (R345). -/
def evFirmwareUpdate (addr : Nat) (image : List Byte) (s : State) : Option State :=
  if !s.sys.mcUp then none
  else some { s with sys := { s.sys with flash := (image.zipIdx).foldl (fun m x => dset 0 m (addr + x.2) x.1) s.sys.flash } }

/-- COMPUTE_CAP_SET (R345). -/
def evComputeCapSet (c : Nat) (s : State) : Option State :=
  if s.sys.mcUp && decide (400 ≤ c) && decide (c ≤ 1100) then some { s with sys := { s.sys with cap := some c } } else none

/-- Whether the root of trust runs: on standby power (R336). -/
def rootRuns (y : Sys) : Bool := y.mcUp || y.powered

/-- MEASUREMENT_EXTEND (R344). -/
def evMeasurementExtend (i : Nat) (digest : List Byte) (s : State) : Option State :=
  if rootRuns s.sys && decide (i < 16) && decide (digest.length = 64) then some { s with sys := extendMeas s.sys i digest } else none

/-- The fields of a quote (R344). -/
def quoteFields (y : Sys) (nonce : List Byte) : List Byte :=
  nonce ++ leBytes 4 y.partno ++ leBytes 4 y.fusedSvn ++ leBytes 8 y.serial ++ (List.range 16).flatMap (measured y)

/-- QUOTE_REQUEST: the signed quote that an application core or the MC asks for (R344). -/
def evQuoteRequest (byMc : Bool) (nonce : List Byte) (s : State) : Option State :=
  if (if byMc then s.sys.mcUp else s.sys.hartsReleased) && decide (nonce.length = 32) then
    let q := quoteFields s.sys nonce
    some { s with sys := { s.sys with quotes := s.sys.quotes ++ [q ++ Config.falconSign (shake256 q 64)] } }
  else none

/-! ## Meanings of the events -/

def execControlRegisterWrite (off size : Nat) (val : DWord) (hyp : Bool) (s : State) : Host.Outcome State Fault Refusal :=
  ofEvent (evControlRegisterWrite off size val hyp s) s
def execEpochStart (s : State) : Host.Outcome State Fault Refusal := ofEvent (evEpochStart s) s
def execHeatIndexChange (die value : Nat) (s : State) : Host.Outcome State Fault Refusal := ofEvent (evHeatIndexChange die value s) s
def execUncorrectableError (site : ErrSite) (s : State) : Host.Outcome State Fault Refusal := ofEvent (evUncorrectableError site s) s
def execVectorRouteWrite (n : Nat) (val : Word) (s : State) : Host.Outcome State Fault Refusal := ofEvent (evVectorRouteWrite n val s) s
def execDomainEnable (val : Word) (s : State) : Host.Outcome State Fault Refusal := ofEvent (evDomainEnable val s) s
def execFlitRetry (port : Nat) (s : State) : Host.Outcome State Fault Refusal := ofEvent (evFlitRetry port s) s
def execIvmarPortDown (port : Nat) (s : State) : Host.Outcome State Fault Refusal := ofEvent (evIvmarPortDown port s) s
def execIvmarPortUp (port : Nat) (s : State) : Host.Outcome State Fault Refusal := ofEvent (evIvmarPortUp port s) s
def execIvmarRequest (src pa : Nat) (acc : InAcc) (data : List Byte) (s : State) : Host.Outcome State Fault Refusal :=
  ofEvent (evIvmarRequest src pa acc data s) s
def execPcieInboundRequest (endpoint addr : Nat) (write : Bool) (data : List Byte) (s : State) : Host.Outcome State Fault Refusal :=
  ofEvent (evPcieInboundRequest endpoint addr write data s) s
def execMcStandbyStart (s : State) : Host.Outcome State Fault Refusal := ofEvent (evMcStandbyStart s) s
def execMainPowerOn (s : State) : Host.Outcome State Fault Refusal := ofEvent (evMainPowerOn s) s
def execMainPowerOff (s : State) : Host.Outcome State Fault Refusal := ofEvent (evMainPowerOff s) s
def execModuleReset (s : State) : Host.Outcome State Fault Refusal := ofEvent (evModuleReset s) s
def execThermalTrip (die : Nat) (s : State) : Host.Outcome State Fault Refusal := ofEvent (evThermalTrip die s) s
def execCoolantAlarm (inlet flow : Nat) (s : State) : Host.Outcome State Fault Refusal := ofEvent (evCoolantAlarm inlet flow s) s
def execFirmwareUpdate (addr : Nat) (image : List Byte) (s : State) : Host.Outcome State Fault Refusal := ofEvent (evFirmwareUpdate addr image s) s
def execComputeCapSet (c : Nat) (s : State) : Host.Outcome State Fault Refusal := ofEvent (evComputeCapSet c s) s
def execMeasurementExtend (i : Nat) (digest : List Byte) (s : State) : Host.Outcome State Fault Refusal := ofEvent (evMeasurementExtend i digest s) s
def execQuoteRequest (byMc : Bool) (nonce : List Byte) (s : State) : Host.Outcome State Fault Refusal := ofEvent (evQuoteRequest byMc nonce s) s

end Sys2Proof.Machine
end

