-- ==== Sys2Proof/Machine/Uniform.lean ====
section
/-! DEFINITION. Uniform arithmetic (R83 to R86): once for the group, no flag, no latch. -/
namespace Sys2Proof.Machine

/-! ## Shapes -/

/-- A uniform result of two sources. -/
def uni2 (i : Instr) (lat : Nat) (d : UDst) (a b : USrc) (f : Word → Word → Word) (s : State) : Host.Outcome State Fault Refusal :=
  issue i (((Need.ofUni.usrc a).usrc b).udst d) (uniResult d lat fun s g => f (usrc s g a) (usrc s g b)) s

/-- A uniform result of one source. -/
def uni1 (i : Instr) (lat : Nat) (d : UDst) (a : USrc) (f : Word → Word) (s : State) : Host.Outcome State Fault Refusal :=
  issue i ((Need.ofUni.usrc a).udst d) (uniResult d lat fun s g => f (usrc s g a)) s

/-- A pair result of two pairs. -/
def uniPair (i : Instr) (lat : Nat) (d a b : UDst) (f : DWord → DWord → DWord) (s : State) : Host.Outcome State Fault Refusal :=
  issue i (((Need.ofUni.upair a).upair b).udstPair d) (uniResult64 d lat fun _ g => f (upair g a) (upair g b)) s

/-- A pair result of a pair and a single source. -/
def uniPair1 (i : Instr) (lat : Nat) (d a : UDst) (b : USrc) (f : DWord → Word → DWord) (s : State) : Host.Outcome State Fault Refusal :=
  issue i (((Need.ofUni.upair a).usrc b).udstPair d) (uniResult64 d lat fun s g => f (upair g a) (usrc s g b)) s

/-! ## Functions -/

/-- A uniform integer condition (R84): the conditions of ICMP. -/
def ucond (c : ICond) (a b : Word) : Bool :=
  match c with
  | .eq => decide (a = b)
  | .ne => decide (a ≠ b)
  | .ltS => a.slt b
  | .leS => a.sle b
  | .ltN => decide (a < b)
  | .leN => decide (a ≤ b)
  | .gtS => b.slt a
  | .gtN => decide (b < a)

/-! ## Meanings -/

def execUadd (d : UDst) (a b : USrc) (s : State) := uni2 (.uadd d a b) 2 d a b (fun x y => x + y) s
def execUsub (d : UDst) (a b : USrc) (s : State) := uni2 (.usub d a b) 2 d a b (fun x y => x - y) s
def execUmul (d : UDst) (a b : USrc) (s : State) := uni2 (.umul d a b) 4 d a b (fun x y => x * y) s
def execUand (d : UDst) (a b : USrc) (s : State) := uni2 (.uand d a b) 2 d a b (fun x y => x &&& y) s
def execUor (d : UDst) (a b : USrc) (s : State) := uni2 (.uor d a b) 2 d a b (fun x y => x ||| y) s
def execUxor (d : UDst) (a b : USrc) (s : State) := uni2 (.uxor d a b) 2 d a b (fun x y => x ^^^ y) s
def execUminS (d : UDst) (a b : USrc) (s : State) := uni2 (.uminS d a b) 2 d a b (fun x y => if x.slt y then x else y) s
def execUmaxS (d : UDst) (a b : USrc) (s : State) := uni2 (.umaxS d a b) 2 d a b (fun x y => if x.slt y then y else x) s
/-- USHL and USHR: a count of 32 or more gives 0 (R84). -/
def execUshl (d : UDst) (a b : USrc) (s : State) := uni2 (.ushl d a b) 2 d a b (fun x y => if y < 32 then x <<< y.toNat else 0) s
def execUshr (d : UDst) (a b : USrc) (s : State) := uni2 (.ushr d a b) 2 d a b (fun x y => x >>> y.toNat) s
def execUsar (d : UDst) (a b : USrc) (s : State) := uni2 (.usar d a b) 2 d a b (fun x y => x.sshiftRight y.toNat) s
def execUminN (d : UDst) (a b : USrc) (s : State) := uni2 (.uminN d a b) 2 d a b (fun x y => if x < y then x else y) s
def execUmaxN (d : UDst) (a b : USrc) (s : State) := uni2 (.umaxN d a b) 2 d a b (fun x y => if x < y then y else x) s
/-- USEL: D is read as the selector, then written; a destination of 56 reads as 0 and discards (R57, R84). -/
def execUsel (d : UDst) (a b : USrc) (s : State) : Host.Outcome State Fault Refusal :=
  let sel (g : Group) : Word := match d with | .g r => g.ug r.val | .zero => 0
  let n := (Need.ofUni.usrc a).usrc b
  let n := match d with | .g r => n.ublk r.val 1 | .zero => n
  issue (.usel d a b) (n.udst d) (uniResult d 2 fun s g => if sel g ≠ 0 then usrc s g a else usrc s g b) s
def execUmov (d : UDst) (a : USrc) (s : State) := uni1 (.umov d a) 2 d a (fun x => x) s
def execUcmp (cc : ICond) (d : UDst) (a b : USrc) (s : State) :=
  uni2 (.ucmp cc d a b) 2 d a b (fun x y => if ucond cc x y then BitVec.allOnes 32 else 0) s
def execUaddi (d : UDst) (a : USrc) (imm : BitVec 13) (s : State) := uni1 (.uaddi d a imm) 2 d a (fun x => x + imm.signExtend 32) s
def execUandi (d : UDst) (a : USrc) (imm : BitVec 13) (s : State) := uni1 (.uandi d a imm) 2 d a (fun x => x &&& imm.setWidth 32) s
def execUmovi (d : UDst) (imm : BitVec 13) (s : State) : Host.Outcome State Fault Refusal :=
  issue (.umovi d imm) (Need.ofUni.udst d) (uniResult d 2 fun _ _ => imm.signExtend 32) s
def execUadd64 (d a b : UDst) (s : State) := uniPair (.uadd64 d a b) 2 d a b (fun x y => x + y) s
def execUsub64 (d a b : UDst) (s : State) := uniPair (.usub64 d a b) 2 d a b (fun x y => x - y) s
/-- USHL64 and USHR64: a count of 64 or more gives 0 (R86). -/
def execUshl64 (d a : UDst) (b : USrc) (s : State) := uniPair1 (.ushl64 d a b) 2 d a b (fun x y => if y < 64 then x <<< y.toNat else 0) s
def execUshr64 (d a : UDst) (b : USrc) (s : State) := uniPair1 (.ushr64 d a b) 2 d a b (fun x y => x >>> y.toNat) s
def execUmul64 (d a b : UDst) (s : State) := uniPair (.umul64 d a b) 4 d a b (fun x y => x * y) s

end Sys2Proof.Machine
end

