-- ==== Sys2Proof/Machine/Dispatch.lean ====
section
/-! DEFINITION. One arm per instruction: each is one call of its meaning. -/
namespace Sys2Proof.Machine

def exec (i : Instr) (s : State) : Host.Outcome State Fault Refusal :=
  match i with
  | .iadd d a b => Sys2Proof.Machine.execIadd d a b s
  | .isub d a b => Sys2Proof.Machine.execIsub d a b s
  | .imul d a b => Sys2Proof.Machine.execImul d a b s
  | .imulhS d a b => Sys2Proof.Machine.execImulhS d a b s
  | .imulhN d a b => Sys2Proof.Machine.execImulhN d a b s
  | .imad d a b => Sys2Proof.Machine.execImad d a b s
  | .iminS d a b => Sys2Proof.Machine.execIminS d a b s
  | .iminN d a b => Sys2Proof.Machine.execIminN d a b s
  | .imaxS d a b => Sys2Proof.Machine.execImaxS d a b s
  | .imaxN d a b => Sys2Proof.Machine.execImaxN d a b s
  | .iabs d a => Sys2Proof.Machine.execIabs d a s
  | .ineg d a => Sys2Proof.Machine.execIneg d a s
  | .popc d a => Sys2Proof.Machine.execPopc d a s
  | .clz d a => Sys2Proof.Machine.execClz d a s
  | .brev d a => Sys2Proof.Machine.execBrev d a s
  | .idiffN d a b => Sys2Proof.Machine.execIdiffN d a b s
  | .and d a b => Sys2Proof.Machine.execAnd d a b s
  | .or d a b => Sys2Proof.Machine.execOr d a b s
  | .xor d a b => Sys2Proof.Machine.execXor d a b s
  | .andn d a b => Sys2Proof.Machine.execAndn d a b s
  | .not d a => Sys2Proof.Machine.execNot d a s
  | .mov d a => Sys2Proof.Machine.execMov d a s
  | .sel d a b => Sys2Proof.Machine.execSel d a b s
  | .shl d a b => Sys2Proof.Machine.execShl d a b s
  | .shr d a b => Sys2Proof.Machine.execShr d a b s
  | .sar d a b => Sys2Proof.Machine.execSar d a b s
  | .rotl d a b => Sys2Proof.Machine.execRotl d a b s
  | .bfeN d a b => Sys2Proof.Machine.execBfeN d a b s
  | .bfeS d a b => Sys2Proof.Machine.execBfeS d a b s
  | .bfi d a b => Sys2Proof.Machine.execBfi d a b s
  | .fshr d a b => Sys2Proof.Machine.execFshr d a b s
  | .icmp cc d a b => Sys2Proof.Machine.execIcmp cc d a b s
  | .iadd64 d a b => Sys2Proof.Machine.execIadd64 d a b s
  | .isub64 d a b => Sys2Proof.Machine.execIsub64 d a b s
  | .shl64 d a b => Sys2Proof.Machine.execShl64 d a b s
  | .shr64 d a b => Sys2Proof.Machine.execShr64 d a b s
  | .imadwN d a b => Sys2Proof.Machine.execImadwN d a b s
  | .imadwS d a b => Sys2Proof.Machine.execImadwS d a b s
  | .icmp64Eq d a b => Sys2Proof.Machine.execIcmp64Eq d a b s
  | .icmp64LtN d a b => Sys2Proof.Machine.execIcmp64LtN d a b s
  | .iaddi d a imm => Sys2Proof.Machine.execIaddi d a imm s
  | .andi d a imm => Sys2Proof.Machine.execAndi d a imm s
  | .ori d a imm => Sys2Proof.Machine.execOri d a imm s
  | .shli d a n => Sys2Proof.Machine.execShli d a n s
  | .shri d a n => Sys2Proof.Machine.execShri d a n s
  | .movi d imm => Sys2Proof.Machine.execMovi d imm s
  | .wfld k d => Sys2Proof.Machine.execWfld k d s
  | .fadd rm d a b => Sys2Proof.Machine.execFadd rm d a b s
  | .fsub rm d a b => Sys2Proof.Machine.execFsub rm d a b s
  | .fmul rm d a b => Sys2Proof.Machine.execFmul rm d a b s
  | .fma rm d a b => Sys2Proof.Machine.execFma rm d a b s
  | .fmin d a b => Sys2Proof.Machine.execFmin d a b s
  | .fmax d a b => Sys2Proof.Machine.execFmax d a b s
  | .fabs d a => Sys2Proof.Machine.execFabs d a s
  | .fneg d a => Sys2Proof.Machine.execFneg d a s
  | .fcopysign d a b => Sys2Proof.Machine.execFcopysign d a b s
  | .fclass d a => Sys2Proof.Machine.execFclass d a s
  | .fsat d a => Sys2Proof.Machine.execFsat d a s
  | .fcmp cc d a b => Sys2Proof.Machine.execFcmp cc d a b s
  | .frnd rm d a => Sys2Proof.Machine.execFrnd rm d a s
  | .ffract d a => Sys2Proof.Machine.execFfract d a s
  | .frcp d a => Sys2Proof.Machine.execFrcp d a s
  | .frsq d a => Sys2Proof.Machine.execFrsq d a s
  | .fsqrt d a => Sys2Proof.Machine.execFsqrt d a s
  | .fexp2 d a => Sys2Proof.Machine.execFexp2 d a s
  | .flog2 d a => Sys2Proof.Machine.execFlog2 d a s
  | .fsin d a => Sys2Proof.Machine.execFsin d a s
  | .fcos d a => Sys2Proof.Machine.execFcos d a s
  | .ftanh d a => Sys2Proof.Machine.execFtanh d a s
  | .fdiv rm d a b => Sys2Proof.Machine.execFdiv rm d a b s
  | .pkadd bf d a b => Sys2Proof.Machine.execPkadd bf d a b s
  | .pkmul bf d a b => Sys2Proof.Machine.execPkmul bf d a b s
  | .pkfma bf d a b => Sys2Proof.Machine.execPkfma bf d a b s
  | .pkmax bf d a b => Sys2Proof.Machine.execPkmax bf d a b s
  | .pkmin bf d a b => Sys2Proof.Machine.execPkmin bf d a b s
  | .pkdot bf d a b => Sys2Proof.Machine.execPkdot bf d a b s
  | .cvt c rm d a => Sys2Proof.Machine.execCvt c rm d a s
  | .cvtq t d a b => Sys2Proof.Machine.execCvtq t d a b s
  | .cvtdq t d a b => Sys2Proof.Machine.execCvtdq t d a b s
  | .hadm inv d a b => Sys2Proof.Machine.execHadm inv d a b s
  | .shfl mode d a b => Sys2Proof.Machine.execShfl mode d a b s
  | .ballot d a => Sys2Proof.Machine.execBallot d a s
  | .vany d a => Sys2Proof.Machine.execVany d a s
  | .vall d a => Sys2Proof.Machine.execVall d a s
  | .match_ d a => Sys2Proof.Machine.execMatch d a s
  | .pfxadd d a => Sys2Proof.Machine.execPfxadd d a s
  | .rdcadd d a => Sys2Proof.Machine.execRdcadd d a s
  | .rdcmax d a => Sys2Proof.Machine.execRdcmax d a s
  | .rdcmin d a => Sys2Proof.Machine.execRdcmin d a s
  | .ld sz ch d a off => Sys2Proof.Machine.execLd sz ch d a off s
  | .st sz ch d a off => Sys2Proof.Machine.execSt sz ch d a off s
  | .ldl sz d a off => Sys2Proof.Machine.execLdl sz d a off s
  | .stl sz d a off => Sys2Proof.Machine.execStl sz d a off s
  | .ldp sz win d a off => Sys2Proof.Machine.execLdp sz win d a off s
  | .smp sz ch d a off => Sys2Proof.Machine.execSmp sz ch d a off s
  | .atom op wide sc o d a => Sys2Proof.Machine.execAtom op wide sc o d a s
  | .red op wide sc o d a => Sys2Proof.Machine.execRed op wide sc o d a s
  | .atoml op wide sc o d a => Sys2Proof.Machine.execAtoml op wide sc o d a s
  | .ldo sz d a off => Sys2Proof.Machine.execLdo sz d a off s
  | .sto sz d a off => Sys2Proof.Machine.execSto sz d a off s
  | .emit d a e => Sys2Proof.Machine.execEmit d a e s
  | .resv d e => Sys2Proof.Machine.execResv d e s
  | .wrec d a e => Sys2Proof.Machine.execWrec d a e s
  | .publ d e => Sys2Proof.Machine.execPubl d e s
  | .spawn d a e => Sys2Proof.Machine.execSpawn d a e s
  | .mmar f ru d a g z => Sys2Proof.Machine.execMmar f ru d a g z s
  | .brd c j off => Sys2Proof.Machine.execBrd c j off s
  | .brs c off => Sys2Proof.Machine.execBrs c off s
  | .brxd c j => Sys2Proof.Machine.execBrxd c j s
  | .uadd d a b => Sys2Proof.Machine.execUadd d a b s
  | .usub d a b => Sys2Proof.Machine.execUsub d a b s
  | .umul d a b => Sys2Proof.Machine.execUmul d a b s
  | .uand d a b => Sys2Proof.Machine.execUand d a b s
  | .uor d a b => Sys2Proof.Machine.execUor d a b s
  | .uxor d a b => Sys2Proof.Machine.execUxor d a b s
  | .uminS d a b => Sys2Proof.Machine.execUminS d a b s
  | .umaxS d a b => Sys2Proof.Machine.execUmaxS d a b s
  | .ushl d a b => Sys2Proof.Machine.execUshl d a b s
  | .ushr d a b => Sys2Proof.Machine.execUshr d a b s
  | .usar d a b => Sys2Proof.Machine.execUsar d a b s
  | .uminN d a b => Sys2Proof.Machine.execUminN d a b s
  | .umaxN d a b => Sys2Proof.Machine.execUmaxN d a b s
  | .usel d a b => Sys2Proof.Machine.execUsel d a b s
  | .umov d a => Sys2Proof.Machine.execUmov d a s
  | .ucmp cc d a b => Sys2Proof.Machine.execUcmp cc d a b s
  | .uaddi d a imm => Sys2Proof.Machine.execUaddi d a imm s
  | .uandi d a imm => Sys2Proof.Machine.execUandi d a imm s
  | .umovi d imm => Sys2Proof.Machine.execUmovi d imm s
  | .uadd64 d a b => Sys2Proof.Machine.execUadd64 d a b s
  | .usub64 d a b => Sys2Proof.Machine.execUsub64 d a b s
  | .ushl64 d a b => Sys2Proof.Machine.execUshl64 d a b s
  | .ushr64 d a b => Sys2Proof.Machine.execUshr64 d a b s
  | .umul64 d a b => Sys2Proof.Machine.execUmul64 d a b s
  | .uld sz d a off => Sys2Proof.Machine.execUld sz d a off s
  | .ust sz d a off => Sys2Proof.Machine.execUst sz d a off s
  | .uldp wide d win off => Sys2Proof.Machine.execUldp wide d win off s
  | .bra off => Sys2Proof.Machine.execBra off s
  | .call off => Sys2Proof.Machine.execCall off s
  | .ret => Sys2Proof.Machine.execRet s
  | .brc cc a off => Sys2Proof.Machine.execBrc cc a off s
  | .jmpi a => Sys2Proof.Machine.execJmpi a s
  | .join j => Sys2Proof.Machine.execJoin j s
  | .dispatch n d a b => Sys2Proof.Machine.execDispatch n d a b s
  | .exit => Sys2Proof.Machine.execExit s
  | .yield => Sys2Proof.Machine.execYield s
  | .acq => Sys2Proof.Machine.execAcq s
  | .give res d a b => Sys2Proof.Machine.execGive res d a b s
  | .claim res d a => Sys2Proof.Machine.execClaim res d a s
  | .mtokPass d a => Sys2Proof.Machine.execMtokPass d a s
  | .mtokTake d => Sys2Proof.Machine.execMtokTake d s
  | .launch p t => Sys2Proof.Machine.execLaunch p t s
  | .rdsr d r => Sys2Proof.Machine.execRdsr d r s
  | .wrsr r a => Sys2Proof.Machine.execWrsr r a s
  | .bar sc d a b => Sys2Proof.Machine.execBar sc d a b s
  | .bara sc d a b => Sys2Proof.Machine.execBara sc d a b s
  | .barw sc d a b => Sys2Proof.Machine.execBarw sc d a b s
  | .fence sc => Sys2Proof.Machine.execFence sc s
  | .fenceX sc f t => Sys2Proof.Machine.execFenceX sc f t s
  | .efence => Sys2Proof.Machine.execEfence s
  | .mwait cc wide sc d a b => Sys2Proof.Machine.execMwait cc wide sc d a b s
  | .tagwAny d a => Sys2Proof.Machine.execTagwAny d a s
  | .tagwAll d a => Sys2Proof.Machine.execTagwAll d a s
  | .tagwFirst d a => Sys2Proof.Machine.execTagwFirst d a s
  | .tagwClear d a => Sys2Proof.Machine.execTagwClear d a s
  | .copyLin p t => Sys2Proof.Machine.execCopyLin p t s
  | .copyTile p t => Sys2Proof.Machine.execCopyTile p t s
  | .copyCb p t => Sys2Proof.Machine.execCopyCb p t s
  | .copyGath p t => Sys2Proof.Machine.execCopyGath p t s
  | .hread p t => Sys2Proof.Machine.execHread p t s
  | .gridRestrict p t => Sys2Proof.Machine.execGridRestrict p t s
  | .gridProlong p t => Sys2Proof.Machine.execGridProlong p t s
  | .gridConvert p t => Sys2Proof.Machine.execGridConvert p t s
  | .mtile p t => Sys2Proof.Machine.execMtile p t s
  | .obresRsv p t => Sys2Proof.Machine.execObresRsv p t s
  | .obresRel p t => Sys2Proof.Machine.execObresRel p t s
  | .obresQry p t => Sys2Proof.Machine.execObresQry p t s
  | .ruleLoad p t => Sys2Proof.Machine.execRuleLoad p t s
  | .ruleStep p t => Sys2Proof.Machine.execRuleStep p t s
  | .ruleXch p t => Sys2Proof.Machine.execRuleXch p t s
  | .ruleQuery p t => Sys2Proof.Machine.execRuleQuery p t s
  | .edgeFrame p t => Sys2Proof.Machine.execEdgeFrame p t s
  | .edgeCutmove p t => Sys2Proof.Machine.execEdgeCutmove p t s
  | .edgeStatus p t => Sys2Proof.Machine.execEdgeStatus p t s
  | .edgeFlush p t => Sys2Proof.Machine.execEdgeFlush p t s
  | .cond sc a b => Sys2Proof.Machine.execCond sc a b s
  | .trap code => Sys2Proof.Machine.execTrap code s
  | .bkpt code => Sys2Proof.Machine.execBkpt code s
  | .unop x => Sys2Proof.Machine.execUnop x s
  | .bank d a b => Sys2Proof.Machine.execBank d a b s
  | .illegalWord w => Sys2Proof.Machine.execIllegalWord w s
  | .controlRegisterWrite off size val hyp => Sys2Proof.Machine.execControlRegisterWrite off size val hyp s
  | .partitionEnable fe val hyp => Sys2Proof.Machine.execPartitionEnable fe val hyp s
  | .partitionDisable fe val hyp => Sys2Proof.Machine.execPartitionDisable fe val hyp s
  | .fewatchWrite fe val hyp => Sys2Proof.Machine.execFewatchWrite fe val hyp s
  | .feload fe val hyp => Sys2Proof.Machine.execFeload fe val hyp s
  | .startStamp fe => Sys2Proof.Machine.execStartStamp fe s
  | .launchNode fe => Sys2Proof.Machine.execLaunchNode fe s
  | .condNode fe => Sys2Proof.Machine.execCondNode fe s
  | .whileNode fe => Sys2Proof.Machine.execWhileNode fe s
  | .waitNode fe => Sys2Proof.Machine.execWaitNode fe s
  | .waitNodePoll fe => Sys2Proof.Machine.execWaitNodePoll fe s
  | .waitTimeout fe => Sys2Proof.Machine.execWaitTimeout fe s
  | .signalNode fe => Sys2Proof.Machine.execSignalNode fe s
  | .frameNode fe => Sys2Proof.Machine.execFrameNode fe s
  | .cutmoveNode fe => Sys2Proof.Machine.execCutmoveNode fe s
  | .endNode fe => Sys2Proof.Machine.execEndNode fe s
  | .endComplete fe => Sys2Proof.Machine.execEndComplete fe s
  | .walkerFence fe => Sys2Proof.Machine.execWalkerFence fe s
  | .launchAdmission fe => Sys2Proof.Machine.execLaunchAdmission fe s
  | .stageClose stage => Sys2Proof.Machine.execStageClose stage s
  | .gangPlacement fe => Sys2Proof.Machine.execGangPlacement fe s
  | .backfillTimeout fe => Sys2Proof.Machine.execBackfillTimeout fe s
  | .slotHandover stage seq => Sys2Proof.Machine.execSlotHandover stage seq s
  | .deliveryBatch stage => Sys2Proof.Machine.execDeliveryBatch stage s
  | .epochStart => Sys2Proof.Machine.execEpochStart s
  | .heatIndexChange die value => Sys2Proof.Machine.execHeatIndexChange die value s
  | .starvationPromotion group => Sys2Proof.Machine.execStarvationPromotion group s
  | .resultWriteback group entry => Sys2Proof.Machine.execResultWriteback group entry s
  | .yieldExpiry group => Sys2Proof.Machine.execYieldExpiry group s
  | .acqGrant core => Sys2Proof.Machine.execAcqGrant core s
  | .claimGrant group => Sys2Proof.Machine.execClaimGrant group s
  | .tokenTakeGrant wg => Sys2Proof.Machine.execTokenTakeGrant wg s
  | .binLaunch core bin => Sys2Proof.Machine.execBinLaunch core bin s
  | .formWindowExpiry core bin => Sys2Proof.Machine.execFormWindowExpiry core bin s
  | .binStarvationTimeout core => Sys2Proof.Machine.execBinStarvationTimeout core s
  | .bankreqWrite cluster val hyp => Sys2Proof.Machine.execBankreqWrite cluster val hyp s
  | .bankDrainComplete cluster => Sys2Proof.Machine.execBankDrainComplete cluster s
  | .bankZeroComplete cluster => Sys2Proof.Machine.execBankZeroComplete cluster s
  | .uncorrectableError site => Sys2Proof.Machine.execUncorrectableError site s
  | .pageWalk core vdev va access => Sys2Proof.Machine.execPageWalk core vdev va access s
  | .loadReturn group req => Sys2Proof.Machine.execLoadReturn group req s
  | .memoryFaultDetect group req => Sys2Proof.Machine.execMemoryFaultDetect group req s
  | .edgeHomeReserve group req => Sys2Proof.Machine.execEdgeHomeReserve group req s
  | .slotReclaim edge => Sys2Proof.Machine.execSlotReclaim edge s
  | .engineOpStart op => Sys2Proof.Machine.execEngineOpStart op s
  | .engineUnit op => Sys2Proof.Machine.execEngineUnit op s
  | .engineCompletion op => Sys2Proof.Machine.execEngineCompletion op s
  | .hreadBurstReturn op burst => Sys2Proof.Machine.execHreadBurstReturn op burst s
  | .lastBurstEvent op => Sys2Proof.Machine.execLastBurstEvent op s
  | .cbTableWait op => Sys2Proof.Machine.execCbTableWait op s
  | .tagwWake group => Sys2Proof.Machine.execTagwWake group s
  | .mmarQuarter core => Sys2Proof.Machine.execMmarQuarter core s
  | .mtileUnit core => Sys2Proof.Machine.execMtileUnit core s
  | .obresRelComplete group => Sys2Proof.Machine.execObresRelComplete group s
  | .ruleStart core => Sys2Proof.Machine.execRuleStart core s
  | .ruleComplete core => Sys2Proof.Machine.execRuleComplete core s
  | .slotDrain edge => Sys2Proof.Machine.execSlotDrain edge s
  | .packWindowExpiry edge => Sys2Proof.Machine.execPackWindowExpiry edge s
  | .dataDatagram codec payload => Sys2Proof.Machine.execDataDatagram codec payload s
  | .parityDatagram codec payload => Sys2Proof.Machine.execParityDatagram codec payload s
  | .ackMessage codec payload => Sys2Proof.Machine.execAckMessage codec payload s
  | .reliableResend codec sid => Sys2Proof.Machine.execReliableResend codec sid s
  | .stateMessage codec payload => Sys2Proof.Machine.execStateMessage codec payload s
  | .moveMessage codec payload => Sys2Proof.Machine.execMoveMessage codec payload s
  | .takeMessage codec payload => Sys2Proof.Machine.execTakeMessage codec payload s
  | .stoppedMessage codec payload => Sys2Proof.Machine.execStoppedMessage codec payload s
  | .closeMessage codec payload => Sys2Proof.Machine.execCloseMessage codec payload s
  | .frameDeadline edge frame => Sys2Proof.Machine.execFrameDeadline edge frame s
  | .recordPlacement edge => Sys2Proof.Machine.execRecordPlacement edge s
  | .edgeClose edge => Sys2Proof.Machine.execEdgeClose edge s
  | .mwaitWake group => Sys2Proof.Machine.execMwaitWake group s
  | .fenceComplete group => Sys2Proof.Machine.execFenceComplete group s
  | .efenceComplete group => Sys2Proof.Machine.execEfenceComplete group s
  | .frespRetry vdev token hyp => Sys2Proof.Machine.execFrespRetry vdev token hyp s
  | .frespAbort vdev token hyp => Sys2Proof.Machine.execFrespAbort vdev token hyp s
  | .frespContinue vdev token hyp => Sys2Proof.Machine.execFrespContinue vdev token hyp s
  | .frespKill vdev token hyp => Sys2Proof.Machine.execFrespKill vdev token hyp s
  | .invalidatePage val hyp => Sys2Proof.Machine.execInvalidatePage val hyp s
  | .invalidateAsid val hyp => Sys2Proof.Machine.execInvalidateAsid val hyp s
  | .invalidateGuestPage val hyp => Sys2Proof.Machine.execInvalidateGuestPage val hyp s
  | .invalidateVmid val hyp => Sys2Proof.Machine.execInvalidateVmid val hyp s
  | .invalidateAll val hyp => Sys2Proof.Machine.execInvalidateAll val hyp s
  | .invalidationAck => Sys2Proof.Machine.execInvalidationAck s
  | .create vdev hyp => Sys2Proof.Machine.execCreate vdev hyp s
  | .save vdev hyp => Sys2Proof.Machine.execSave vdev hyp s
  | .restore vdev hyp => Sys2Proof.Machine.execRestore vdev hyp s
  | .reset vdev hyp => Sys2Proof.Machine.execReset vdev hyp s
  | .destroy vdev hyp => Sys2Proof.Machine.execDestroy vdev hyp s
  | .saveComplete vdev => Sys2Proof.Machine.execSaveComplete vdev s
  | .restoreComplete vdev => Sys2Proof.Machine.execRestoreComplete vdev s
  | .resetComplete vdev => Sys2Proof.Machine.execResetComplete vdev s
  | .eventHeldRelease vdev => Sys2Proof.Machine.execEventHeldRelease vdev s
  | .workgroupComplete wg => Sys2Proof.Machine.execWorkgroupComplete wg s
  | .gridComplete grid => Sys2Proof.Machine.execGridComplete grid s
  | .vectorRouteWrite n val => Sys2Proof.Machine.execVectorRouteWrite n val s
  | .domainEnable val => Sys2Proof.Machine.execDomainEnable val s
  | .flitRetry port => Sys2Proof.Machine.execFlitRetry port s
  | .ivmarPortDown port => Sys2Proof.Machine.execIvmarPortDown port s
  | .ivmarRequest src pa acc data => Sys2Proof.Machine.execIvmarRequest src pa acc data s
  | .pcieInboundRequest endpoint addr write data => Sys2Proof.Machine.execPcieInboundRequest endpoint addr write data s
  | .mcStandbyStart => Sys2Proof.Machine.execMcStandbyStart s
  | .mainPowerOn => Sys2Proof.Machine.execMainPowerOn s
  | .measurementExtend reg digest => Sys2Proof.Machine.execMeasurementExtend reg digest s
  | .quoteRequest byMc nonce => Sys2Proof.Machine.execQuoteRequest byMc nonce s
  | .mainPowerOff => Sys2Proof.Machine.execMainPowerOff s
  | .moduleReset => Sys2Proof.Machine.execModuleReset s
  | .firmwareUpdate addr image => Sys2Proof.Machine.execFirmwareUpdate addr image s
  | .computeCapSet c => Sys2Proof.Machine.execComputeCapSet c s
  | .thermalTrip die => Sys2Proof.Machine.execThermalTrip die s
  | .coolantAlarm inlet flow => Sys2Proof.Machine.execCoolantAlarm inlet flow s
  | .ivmarPortUp port => Sys2Proof.Machine.execIvmarPortUp port s

end Sys2Proof.Machine
end

