-- ==== Sys2Proof/Machine/Schedule.lean ====
section
/-! DEFINITION. Who acts next (DESIGN CHOICE, log 3): a group fetches and issues (R48, R51), alone or packed with others (R68); another agent takes a
step; time passes; what an empty agenda runs: the groups that R67 selects and the steps that the part's agents take by themselves. -/
namespace Sys2Proof.Machine

/-! ## One action -/

/-- A group fetches the instruction of its current path and issues it (R48, R49, R66). -/
def runGroup (gid : Nat) (s : State) : Host.Outcome State Fault Refusal :=
  let s := { s with cur := some gid }
  match s.group? gid with
  | none => .next s
  | some g =>
    match curPath g.c.paths with
    | none => .next s
    | some p =>
      if !mayRun s gid g then .next s
      else
        let r := fetchInstr s g.info.core g.info.vdev p.pc
        match r.2 with
        | .instr i => exec i r.1
        | .illegal w => exec (.illegalWord w) r.1
        | f => .next (fetchFault r.1 gid f)

/-- Whether an instruction is a step of another agent: it has no word, and it is not the illegal word of a group. -/
def isEvent (i : Instr) : Bool :=
  match i with
  | .illegalWord _ => false
  | i => (encodeNat i).isNone

/-- An application core stores to memory of class SYS: local, another part's, or a port's window (R288, R312, R319, R337). A store to control
space is one of the register events, not this. -/
def hostStore (pa : Nat) (bytes : List Byte) (s : State) : State :=
  if s.sys.hartsReleased && (allIn s .hbm pa bytes.length || allIn s .pcie pa bytes.length || allIn s .remote pa bytes.length) then
    (s.storeBelow pa bytes false).wroteAs false pa bytes.length
  else s

/-- What an application core's read of `n` bytes returns: nothing where it meets poison or where nothing stands (R337, R338). -/
def hostRead (s : State) (pa n : Nat) : List Byte :=
  if allIn s .control pa n then controlRead s (loc pa - 0xF0000000000) n
  else if allIn s .hbm pa n || allIn s .pcie pa n || allIn s .remote pa n then
    if (sectorAddrs pa n).any s.poisoned then [] else (List.range n).map fun i => s.below (pa + i)
  else []

/-- An application core reads memory or control space, one request a line; its answer is kept with the address (R338, R342). -/
def hostLoad (pa n : Nat) (s : State) : State :=
  if s.sys.hartsReleased then
    let t := (linesOf pa n).foldl (·.asked ·) s
    { t with sys := { t.sys with answers := t.sys.answers ++ [(pa, hostRead s pa n)] } }
  else s

/-- A page that a TLB entry covers. -/
def Tlb.covers (t : Tlb) (va : Nat) : Bool := decide (t.va ≤ va) && decide (va < t.va + t.size)

/-- A cache or a TLB gives up what it holds of a sector, a line or a page; `unit` is the core or the cluster (DESIGN CHOICE, log 9). -/
def evict (unit what x : Nat) (s : State) : State :=
  match what with
  | 0 => s.flushSector unit x
  | 1 => s.updCore unit fun k => { k with smp := merase k.smp x }
  | 2 => s.updCore unit fun k => { k with tlb := k.tlb.filter fun t => !t.covers x }
  | 3 => s.ccDrop unit x
  | 4 => s.updCluster unit fun k => { k with tlb := k.tlb.filter fun t => !t.covers x }
  | _ => { s with llc := merase s.llc x }

/-! ## Packing (R68) -/

/-- Whether a group can issue now: its issue changes some group, or stops the machine. -/
def canIssue (gid : Nat) (s : State) : Bool :=
  match runGroup gid s with
  | .next t => decide (t.groups ≠ s.groups)
  | _ => true

/-- Whether a group is ready (R67): neither the scoreboard nor a wait nor the power rule holds its next instruction; that another group's latch
chain has the slot does not matter. -/
def isReady (s : State) (gid : Nat) : Bool :=
  canIssue gid { s with groups := mmapv s.groups fun i g => if i = gid then g else { g with c := { g.c with chain := none } } }

/-- Whether two groups may share a fetch (R68): narrow, in one slot, of one context, at one program counter. -/
def sameFetch (a b : Group) : Bool :=
  decide (a.info.core = b.info.core) && decide (a.info.slot = b.info.slot) && decide (a.info.vdev = b.info.vdev) && decide (a.info.width < 64)
    && decide ((curPath a.c.paths).map (·.pc) = (curPath b.c.paths).map (·.pc))

/-- A group put into a list in age order. -/
def insAge (e : Nat × Group) : List (Nat × Group) → List (Nat × Group)
  | [] => [e]
  | b :: r => if e.2.info.age < b.2.info.age then e :: b :: r else b :: insAge e r

/-- Groups in age order. -/
def byAge (l : List (Nat × Group)) : List (Nat × Group) := l.foldl (fun r e => insAge e r) []

/-- Candidates added, oldest first, until the next would take the sum of widths over 64 (R68). -/
def addMates (sum : Nat) : List (Nat × Group) → List (Nat × Group)
  | [] => []
  | b :: r => if sum + b.2.info.width ≤ 64 then b :: addMates (sum + b.2.info.width) r else []

/-- The groups packed with a chosen one, with it, in age order (R68). -/
def packOf (s : State) (gid : Nat) (g : Group) : List Nat :=
  let mates := if nextPerLane s g then
      byAge (s.groups.filter fun e => decide (e.1 ≠ gid) && sameFetch g e.2 && (!inChain s e.2 || g.c.packed.contains e.1) && isReady s e.1)
    else []
  (byAge ((gid, g) :: addMates g.info.width mates)).map (·.1)

/-- One of some packed groups issues; a chain that it opens holds for the others of them too (R71). -/
def runOne (all : List Nat) (gid : Nat) (s : State) : Host.Outcome State Fault Refusal :=
  match runGroup gid s with
  | .next t => .next (t.updGroup gid fun g =>
      if g.c.chain.any fun c => decide (c.len = 1) then { g with c := { g.c with packed := all.filter fun x => decide (x ≠ gid) } } else g)
  | o => o

/-- Groups issue one after another in one cc; the first stop ends the action. -/
def runAll (all : List Nat) : List Nat → State → Host.Outcome State Fault Refusal
  | [], s => .next s
  | gid :: r, s =>
    match runOne all gid s with
    | .next t => runAll all r t
    | o => o

/-- Packed groups issue on one fetch (R68): those of a list, headed by the chosen one, that may be packed with it, each on its own lanes. An illegal
word kills each, the first in age order being the first that its error can name (R49). -/
def runPacked (gids : List Nat) (s : State) : Host.Outcome State Fault Refusal :=
  match gids with
  | [] => .next s
  | gid :: _ =>
    match s.group? gid with
    | none => .next s
    | some g =>
      let l := (packOf s gid g).filter gids.contains
      runAll l l s

/-! ## One action -/

/-- Time passes: the kills of the cc break their barrier objects (R333), a group that is not ready begins its count anew (R67), a core notes since when its oldest bin is blocked (R77).
Over several cc a group counts as ready throughout if it was at their start. (DESIGN CHOICE, log 67) -/
def passTime (cc : Nat) (s : State) : State :=
  let now := s.now + cc
  let ready := s.groups.filterMap fun e => if isReady s e.1 then some e.1 else none
  let s := s.cores.foldl (fun s e => noteBlocked s e.1) (applyBreaks s)
  { s with
    now := now
    groups := mmapv s.groups fun gid g => if ready.contains gid then g else { g with c := { g.c with readyCc := now } } }

/-- One action. -/
def runAct (a : Act) (s : State) : Host.Outcome State Fault Refusal :=
  match a with
  | .issue gid => runGroup gid s
  | .packed gids => runPacked gids s
  | .line gid req => .next (sendLine gid req s)
  | .event i => if isEvent i then exec i s else .next s
  | .advance cc => .next (passTime cc s)
  | .hostStore pa bytes => .next (hostStore pa bytes s)
  | .hostLoad pa n => .next (hostLoad pa n s)
  | .corrected die => .next (corrected die s)
  | .measured rail power => .next { s with sys := { s.sys with rails := dset 0 s.sys.rails rail power } }
  | .evict unit what x => .next (evict unit what x s)

/-! ## Selection (R67) -/

/-- One action of the default schedule. -/
abbrev Action := State → Host.Outcome State Fault Refusal

/-- Whether a run leads anywhere. -/
def leads (s : State) (r : Action) : Bool :=
  match r s with
  | .next t => decide ({ t with cur := s.cur } ≠ s)
  | _ => true

/-- Whether a group comes before another in its slot (R67): one that has been ready for 256 cc first, then the class, then the age. -/
def comesBefore (now : Nat) (a b : Group) : Bool :=
  let sa := decide (a.c.readyCc + 256 ≤ now)
  let sb := decide (b.c.readyCc + 256 ≤ now)
  if sa ≠ sb then sa
  else if !sa && decide (a.info.prio ≠ b.info.prio) then decide (a.info.prio < b.info.prio)
  else decide (a.info.age < b.info.age)

/-- The group that a slot selects for its per-lane or its uniform instruction (R67). -/
def selectGroup (s : State) (core slot : Nat) (lane : Bool) : Option Nat :=
  let ready := s.groups.filter fun e => decide (e.2.info.core = core) && decide (e.2.info.slot = slot) && mayRun s e.1 e.2
    && decide (nextPerLane s e.2 = lane) && canIssue e.1 s
  (ready.foldl (fun (b : Option (Nat × Group)) e => match b with
    | none => some e
    | some q => if comesBefore s.now e.2 q.2 then some e else b) none).map (·.1)

/-- The slots that hold a group. -/
def slotsInUse (s : State) : List (Nat × Nat) :=
  (s.groups.map fun e => (e.2.info.core, e.2.info.slot)).eraseDups

/-- What every slot may issue next: the chosen group with those packed beside it, and a uniform instruction (R67, R68). -/
def issueRuns (s : State) : List Action :=
  (slotsInUse s).flatMap fun x =>
    (match (selectGroup s x.1 x.2 true) with
      | some gid => [fun s => match s.group? gid with
          | some g => if g.info.width < 64 then runPacked (gid :: packOf s gid g) s else runGroup gid s
          | none => .next s]
      | none => []) ++ (selectGroup s x.1 x.2 false).toList.map runGroup

/-! ## The steps that agents take by themselves -/

/-- Steps about a group and its requests. -/
def groupSteps (gid : Nat) (g : Group) : List Action :=
  g.c.sb.map (fun e => execResultWriteback gid e.1) ++ g.c.stray.map (fun e => execLoadReturn gid e.1)
    ++ (nextLine g).toList.map (fun e => fun s => .next (sendLine gid e.1 s))
    ++ g.c.reqs.flatMap (fun e => [execEdgeHomeReserve gid e.1, execMemoryFaultDetect gid e.1, execLoadReturn gid e.1])
    ++ [execYieldExpiry gid, execClaimGrant gid, execTagwWake gid, execObresRelComplete gid, execFenceComplete gid, execEfenceComplete gid,
      execMwaitWake gid]

/-- Steps of a core's former and engines. -/
def coreSteps (core : Nat) (k : Core) : List Action :=
  (k.entries.map (·.order)).flatMap (fun b => [execFormWindowExpiry core b, execBinLaunch core b])
    ++ [execBinStarvationTimeout core, execAcqGrant core, execMmarQuarter core, execMtileUnit core, execRuleStart core, execRuleComplete core]
    ++ k.resv.map (fun r => execObresRelComplete r.2.owner)

/-- Steps of an edge, here and in its codec. -/
def edgeSteps (s : State) (edge : Nat) (e : Edge) : List Action :=
  (publishedSeqs s e).map (fun q => execSlotHandover edge q)
    ++ ((find? s.remotes edge).elim [] fun m => (m.known.map (·.2)).eraseDups.map (fun f => execFrameDeadline edge f))
    ++ [execDeliveryBatch edge, execSlotReclaim edge, execStageClose edge, execSlotDrain edge, execPackWindowExpiry edge, execEdgeClose edge,
      execRecordPlacement edge]

/-- Steps of an engine operation. -/
def opSteps (op : Nat) (o : EngOp) : List Action :=
  [execEngineOpStart op, execCbTableWait op, execEngineUnit op] ++ o.bursts.map (fun i => execHreadBurstReturn op i)
    ++ [execLastBurstEvent op, execEngineCompletion op]

/-- Steps of a front end and its walker. -/
def feSteps (fe : Nat) : List Action :=
  [execStartStamp fe, execWalkerFence fe, execLaunchNode fe, execCondNode fe, execWhileNode fe, execWaitNode fe, execWaitNodePoll fe,
    execWaitTimeout fe, execSignalNode fe, execFrameNode fe, execCutmoveNode fe, execEndNode fe, execEndComplete fe, execLaunchAdmission fe,
    execGangPlacement fe, execBackfillTimeout fe]

/-- Every step that an agent of the part may be about to take by itself. -/
def ownSteps (s : State) : List Action :=
  [execEpochStart, execInvalidationAck] ++ (List.range 5).map execThermalTrip
    ++ s.groups.flatMap (fun e => groupSteps e.1 e.2)
    ++ s.cores.flatMap (fun e => coreSteps e.1 e.2)
    ++ s.wgs.flatMap (fun e => [execTokenTakeGrant e.1, execWorkgroupComplete e.1])
    ++ s.grids.map (fun e => execGridComplete e.1)
    ++ s.edges.flatMap (fun e => edgeSteps s e.1 e.2)
    ++ s.ops.flatMap (fun e => opSteps e.1 e.2)
    ++ s.fes.flatMap (fun e => feSteps e.1)
    ++ s.clusters.flatMap (fun e => [execBankDrainComplete e.1, execBankZeroComplete e.1])
    ++ s.vdevs.flatMap (fun e => [execSaveComplete e.1, execRestoreComplete e.1, execResetComplete e.1, execEventHeldRelease e.1])
    ++ s.codecs.flatMap (fun e => e.2.sessions.map fun x => execReliableResend e.1 x.1)

/-- What an empty agenda may run, the place of the first rotating with the time so that nothing waits for ever (DESIGN CHOICE, log 3). -/
def defaultRuns (s : State) : List Action :=
  let l := ownSteps s ++ issueRuns s
  let n := s.now % max 1 l.length
  l.drop n ++ l.take n

/-- One step of an empty agenda: the first run that leads anywhere, and one cc passes. (DESIGN CHOICE, log 4) -/
def defaultStep (s : State) : Host.Outcome State Fault Refusal :=
  match (defaultRuns s).find? (leads s) with
  | none => .next (passTime 1 s)
  | some r =>
    match r s with
    | .next t => .next (passTime 1 t)
    | o => o

/-! ## Placing an instruction at the next fetch -/

/-- The group that runs a placed instruction: group 0, 64 lanes wide, on slot 0 of core 0, all of v0 to v111 its own. -/
def placedGroup : Group where
  info :=
    { vdev := 0, core := 0, slot := 0, age := 0, width := 64, born := BitVec.allOnes 64, wg := 0, f1 := 0, source := .launched, parent := 0,
      prog := default, fields := [], prio := 0, owner := .grid 0, role := 0, gang := none, gangSize := 0, frame := 0, gen := 0 }
  r :=
    { v := [], g := [], vmark := [], gmark := [], latch := [], wid := [], recs := [], home := [], stack := [], laneWin := [], fstat := 0, readcount := 0,
      seedkey := 0, rsr := 0, errst := 0, progress := 0 }
  c :=
    { paths := [⟨0, BitVec.allOnes 64, .run, 0⟩], nextStamp := 1, joins := [], chain := none, alloc := 14, lsBase := 0, lsLen := 0, lsQuota := 0,
      obQuota := 0, obUsed := 0, sb := [], reqs := [], fatal := [], tag := 0, wait := .none, readyCc := 0, slots := [], packed := [], stray := [], stored := [] }

/-- The device it belongs to: LIVE, its context region at 2^32, its second stage of the mode that R172 asks for. -/
def placedDevice : VDev := { VDev.initial with crb := 0x100000000, st := .live, hgatp := 0xA000000000000000 }

/-- Its code page: virtual page 0 at physical 2^20, readable and executable. -/
def placedPage : Tlb := ⟨0, 0, true, 0, 4096, 0x100000, 0x100000, 5, 0, 4096, 4096⟩

/-- Put the machine where its next step fetches the bytes `bs` for a group of a launched program (DESIGN CHOICE, log 10). -/
def placeBytes (s : State) (bs : List Byte) : State :=
  let s := { s with
    vdevs := mset s.vdevs 0 placedDevice
    groups := mset s.groups 0 placedGroup
    cores := mset s.cores 0 { s.core 0 with tlb := [placedPage] }
    clusters := mset s.clusters 0 { s.cluster 0 with energy := 5500000 }
    agenda := [.issue 0] }
  (s.setByte (0x100000000 + 0xF) 0xA0).setBytes 0x100000 bs

end Sys2Proof.Machine
end

