-- ==== Sys2Proof/Machine/Step.lean ====
section
/-! DEFINITION. One step of the part: the first action of the agenda, or the default one when it is empty (DESIGN CHOICE, log 3). -/
namespace Sys2Proof.Machine

/-- One step. -/
def step (s : State) : Host.Outcome State Fault Refusal :=
  match s.agenda with
  | [] => defaultStep s
  | a :: rest => runAct a { s with agenda := rest }

/-- The state with an instruction stored where the next step fetches: `w` holds its bits, the first word lowest (DESIGN CHOICE, log 10). -/
def State.withFetchWord (s : State) (nbits w : Nat) : State := placeBytes s (leBytes 8 (w % 2 ^ nbits))

end Sys2Proof.Machine
end

