-- ==== Sys2Proof/Safety.lean ====
section
/-! DEFINITION. What statements about the part are said in: the invariant that every step keeps, the effect of an instruction with a
result in its lanes or in a uniform register, and what it leaves alone. -/
namespace Sys2Proof.Machine

/-- The invariant of the machine: local memory is in its canonical form. -/
def Inv (s : State) : Prop := Memory.wf s.mem

/-- What an issue changes outside its group (R45): the cluster's allowance, the model's counter, identifiers the model gives out. -/
structure OnlyGroup (s t : State) (gid : Nat) : Prop where
  /-- Every other field of the state is as before: memory, caches, local stores, operand buffers, workgroups, edges, devices. -/
  rest : t = { s with groups := t.groups, clusters := t.clusters, tick := t.tick, nextId := t.nextId }
  /-- Every other group is as before. -/
  others : ∀ k, k ≠ gid → t.group? k = s.group? k
  /-- Clusters change in their allowance only. -/
  clusters : ∀ k, t.cluster k = { s.cluster k with energy := (t.cluster k).energy }

/-- The word that stands in register `k` after a result of `cnt` words at `d` (none: no register). -/
def destWord (d : Option Nat) (cnt : Nat) (ws : List Word) (k : Nat) (old : Word) : Word :=
  match d with
  | some r => if r ≤ k ∧ k < r + cnt then ws.getD (k - r) 0 else old
  | none => old

/-- The effect of a per-lane instruction with a result in every active lane (R48, R53, R66, R69, R128): `val l` are the words of lane `l`,
`flags` what the lanes raise together, `lat` the latency, `pipe` the latch that takes the first word. That one which writes only a latch takes a
scoreboard entry too is the model's choice (log 93). -/
structure LaneEffect (s t : State) (c : Ctx) (d : Option Nat) (cnt pipe lat : Nat) (val : Nat → List Word) (flags : Flags) : Prop where
  frame : OnlyGroup s t c.gid
  group : ∃ g, t.group? c.gid = some g ∧ g.info = c.g.info ∧
    (∀ l k, k < 128 → g.r.getV l k = if l < 64 ∧ c.mask.getLsbD l then destWord d cnt (val l) k (c.g.r.getV l k) else c.g.r.getV l k) ∧
    (∀ l p, p < 4 → getLatch g l p = if l < 64 ∧ c.mask.getLsbD l ∧ p = pipe then (val l).headD 0 else getLatch c.g l p) ∧
    g.r = { c.g.r with v := g.r.v, latch := g.r.latch, vmark := g.r.vmark } ∧
    g.c.paths = setCur c.g.c.paths (fun p => { p with pc := (p.pc + c.size) % 2 ^ 64 }) ∧
    ∃ e, find? g.c.sb e = some ⟨(match d with | some r => (List.range cnt).map (r + ·) | none => []), [], flags, decide (pipe ≠ 0),
      some (s.now + lat)⟩

/-- The effect of a uniform instruction with a result of `cnt` words `ws` in `d` (R57, R83, R84): 56 discards it and takes no entry. -/
structure UniEffect (s t : State) (c : Ctx) (d : UDst) (ws : List Word) (lat : Nat) : Prop where
  frame : OnlyGroup s t c.gid
  group : ∃ g, t.group? c.gid = some g ∧ g.info = c.g.info ∧
    (∀ k, g.ug k = match d with
      | .g r => if r.val ≤ k ∧ k < r.val + ws.length then ws.getD (k - r.val) 0 else c.g.ug k
      | .zero => c.g.ug k) ∧
    g.r = { c.g.r with g := g.r.g, gmark := g.r.gmark } ∧
    g.c.paths = setCur c.g.c.paths (fun p => { p with pc := (p.pc + c.size) % 2 ^ 64 }) ∧
    match d with
    | .g r => ∃ e, find? g.c.sb e = some ⟨[], (List.range ws.length).map (r.val + ·), 0, false, some (s.now + lat)⟩
    | .zero => g.c.sb = c.g.c.sb

/-- The path table of an issuing group with its program counter moved past the instruction (R48). -/
def advanced (c : Ctx) : List PathEntry := setCur c.g.c.paths fun p => { p with pc := (p.pc + c.size) % 2 ^ 64 }

/-- An access entered as a request that a later event answers (R69, R176, R179): its scoreboard entry, the request under some name, and
nothing else but the program counter. -/
structure RequestEffect (s t : State) (c : Ctx) (p : Pend) (q : Nat → Req) : Prop where
  frame : OnlyGroup s t c.gid
  group : ∃ g e k, t.group? c.gid = some g ∧ g.info = c.g.info ∧ g.r = c.g.r ∧ g.c.paths = advanced c ∧ find? g.c.sb e = some p ∧
    find? g.c.reqs k = some (q e)

/-- An access entered as requests, one a line (R177): the one of line 0 is sent, the others wait for their turn. -/
structure LineRequests (s t : State) (c : Ctx) (p : Pend) (lines : List Mask) (q : Nat → Req) : Prop where
  frame : OnlyGroup s t c.gid
  group : ∃ g e, t.group? c.gid = some g ∧ g.info = c.g.info ∧ g.r = c.g.r ∧ g.c.paths = advanced c ∧ find? g.c.sb e = some p ∧
    ∀ j m, lines[j]? = some m → ∃ k, find? g.c.reqs k = some ((q e).only m j)

/-- Masks that share the lanes of `m` out by a value of a lane: lanes of one value together, in order of the lowest lane (R177). -/
structure SharedOut (m : Mask) (value : Nat → Nat) (l : List Mask) : Prop where
  all : ∀ i, i < 64 → m.getLsbD i = true → ∃ x ∈ l, x.getLsbD i = true
  same : ∀ x ∈ l, ∀ i, i < 64 → x.getLsbD i = true → ∀ k, k < 64 → (x.getLsbD k = true ↔ m.getLsbD k = true ∧ value k = value i)
  order : ∀ (j k : Nat) x y, j < k → l[j]? = some x → l[k]? = some y → ∃ i, x.getLsbD i = true ∧ ∀ h, y.getLsbD h = true → i < h

/-- The entry of a load of `n` registers from `d` up: a later event frees it. -/
def loadPend (d n : Nat) : Pend := ⟨(List.range n).map (d + ·), [], 0, false, none⟩

/-- The entry of a uniform load. -/
def uniPend (d : UDst) (n : Nat) : Pend := ⟨[], uregs d n, 0, false, none⟩

/-- What a load performed at issue leaves in its group (R69, R161): words in the active lanes, an entry, the program counter. -/
structure LoadEffect (s t : State) (c : Ctx) (d cnt : Nat) (val : Nat → List Word) : Prop where
  group : ∃ g, t.group? c.gid = some g ∧ g.info = c.g.info ∧
    (∀ l k, k < 128 → g.r.getV l k = if l < 64 ∧ c.mask.getLsbD l then destWord (some d) cnt (val l) k (c.g.r.getV l k) else c.g.r.getV l k) ∧
    g.r = { c.g.r with v := g.r.v, vmark := g.r.vmark } ∧ g.c.paths = advanced c ∧
    ∃ e p, find? g.c.sb e = some p ∧ p.vregs = (List.range cnt).map (d + ·)
  others : ∀ k, k ≠ c.gid → t.group? k = s.group? k
  memory : ∀ a, t.byte a = s.byte a

/-- The places that the lanes of a store of global memory reach, each found in the state its lane meets. -/
def storedAt (f : LaneAcc) (g : Group) (r : Req) (n need : Nat) (io : Bool) : List Nat → State → List Place
  | [], _ => []
  | l :: t, s =>
    (match (place s g r.pc (r.at l) n need io true).2 with
      | .ok p => [p]
      | _ => []) ++ storedAt f g r n need io t (f s g r l).1

/-- Every lane's access passes, in the state that it meets. -/
def Passes (f : LaneAcc) (g : Group) (r : Req) (lanes : List Nat) (s : State) : Prop := (performLanes f g r lanes s).2.2 = []

/-- A byte of local memory is as before, or is what the L1 of a core held dirty for it, written back (R158, R289). -/
def KeptByte (s t : State) (core a : Nat) : Prop :=
  t.byte a = s.byte a ∨
    ∃ x l, (x / 128, l) ∈ (s.core core).l1 ∧ loc x = a ∧ l.dirty.getLsbD (x % 128) = true ∧ t.byte a = secByte l.data (x % 128)

/-- What a store of `n` bytes a lane to global memory leaves when the accesses of its first line pass (R177, R180, R182): its group's registers
and scoreboard, every other group, local stores and operand buffers as before; the further lines as requests; outside the places stored to, every
byte of memory and of cluster SRAM as before, but for what the core's L1 held dirty. -/
structure StoreEffect (s t : State) (c : Ctx) (r : Req) (lines : List Mask) (n : Nat) (places : List Place) : Prop where
  group : ∃ g, t.group? c.gid = some g ∧ g.info = c.g.info ∧ g.r = c.g.r ∧ g.c.paths = advanced c ∧ g.c.sb = c.g.c.sb ∧
    ∀ j m, 0 < j → lines[j]? = some m → ∃ k, find? g.c.reqs k = some (r.only m j)
  others : ∀ k, k ≠ c.gid → t.group? k = s.group? k
  stores : ∀ k, (t.core k).ls = (s.core k).ls ∧ (t.core k).ob = (s.core k).ob
  memory : ∀ a, (∀ pa mt, .phys pa mt ∈ places → a < loc pa ∨ loc pa + n ≤ a) → KeptByte s t c.g.info.core a
  sram : ∀ k x, (k = clusterOf c.g.info.core → ∀ b, .scratch b ∈ places → x < b ∨ b + n ≤ x) → (t.cluster k).sramByte x = (s.cluster k).sramByte x

/-- `bs` stand at a place after a store: in what the core's LSU path finds there, or in its cluster's SRAM (R156, R158). -/
def Stored (t : State) (core : Nat) (p : Place) (bs : List Byte) : Prop :=
  match p with
  | .phys pa mt => ∀ i, i < bs.length → (if mt = 0 then t.seen core (pa + i) else t.byte (loc pa + i)) = bs.getD i 0
  | .scratch a => (t.cluster (clusterOf core)).sramBytes a bs.length = bs

/-- No line of a core's L1 but that of `pa` is of the same place of local memory: physical addresses have 56 bits (R172). -/
def OwnLine (s : State) (core pa : Nat) : Prop :=
  ∀ e ∈ (s.core core).l1, region s (e.1 * 128) = .hbm → loc (e.1 * 128) = loc (pa / 128 * 128) → e.1 = pa / 128

/-- Where a store's bytes are looked for: local memory, aligned, or cluster SRAM. -/
def Place.plain (s : State) (n : Nat) : Place → Prop
  | .phys pa _ => region s pa = .hbm ∧ pa % 128 + n ≤ 128
  | .scratch _ => True

/-- A control instruction's effect: its group's registers and every other object stay, `f` says what the group's control state is. -/
structure CtlEffect (s t : State) (c : Ctx) (f : Group → Prop) : Prop where
  frame : OnlyGroup s t c.gid
  group : ∃ g, t.group? c.gid = some g ∧ g.info = c.g.info ∧ f g

/-- The current path stands at `pc`, otherwise as it stood. -/
def AtPc (c : Ctx) (pc : Nat) (g : Group) : Prop :=
  (curPath g.c.paths).map (fun p => (p.pc, p.mask)) = some (pc, c.mask)

/-- A path that split into sets of lanes (R73, R90, R91): the first set is the current entry, the others wait right after it. -/
def Splits (c : Ctx) (sets : List (Nat × Mask)) (g : Group) : Prop :=
  ∀ pc m rest, sets = (pc, m) :: rest → g.c.paths =
    settle (insertAfterRun (rest.zipIdx.map fun x => ⟨x.1.1, x.1.2, .wait, c.g.c.nextStamp + x.2⟩)
      (setCur (advanced c) fun p => { p with pc := pc, mask := m }))

/-- A path that split, with the record `j` open over all its lanes (R73, R91). -/
def SplitTo (c : Ctx) (j : Nat) (sets : List (Nat × Mask)) (g : Group) : Prop :=
  g.r = c.g.r ∧ find? g.c.joins j = some ((find? c.g.c.joins j).getD ⟨c.mask, 0⟩) ∧ Splits c sets g

/-- Lanes `x.2` left their group for the former of its core, one entry a thread, to run on at `x.1` (R75, R76); the sides of the path stand in its
table, and neither that nor an open record holds a lane that left. -/
structure Left (s t : State) (c : Ctx) (x : Nat × Mask) (sides : List (Nat × Mask)) : Prop where
  entered : ∃ new, (t.core c.g.info.core).entries = (s.core c.g.info.core).entries ++ new ∧
    new.map (fun e => (e.source, e.pc, e.wid, e.regs)) = (lanesOf x.2).map fun l => (.split, x.1, mget 0 c.g.r.wid l, laneRegs c.g.r.v l)
  group : ∃ g, t.group? c.gid = some g ∧ g.r.v = c.g.r.v ∧ (∀ p ∈ g.c.paths, p.mask &&& x.2 = 0) ∧
    (∀ r ∈ g.c.joins, r.2.expect &&& x.2 = 0 ∧ r.2.arrived &&& x.2 = 0) ∧ ∀ y ∈ sides, ∃ p ∈ g.c.paths, p.pc = y.1 ∧ p.mask = y.2

/-- A path with a full table splits into the sides `a` and `b` and needs one entry (R74): the WAIT or ARRIVED entry of the oldest stamp leaves when its
threads find room, and both sides stand; else, where every other entry is PARKED, the new side `b` leaves itself. -/
def SplitsFull (s t : State) (c : Ctx) (a b : Nat × Mask) : Prop :=
  let ps := setCur (advanced c) fun p => { p with pc := a.1, mask := a.2 }
  let free := fun p : PathEntry => p.st ≠ .run ∧ p.st ≠ .parked
  (∀ p ∈ ps, free p → (∀ q ∈ ps, free q → q = p ∨ p.stamp < q.stamp) → p.mask &&& c.mask = 0 → roomFor s c.g (laneCount p.mask) = true →
    Left s t c (p.pc, p.mask) [a, b]) ∧
  ((∀ p ∈ ps, ¬ free p) → roomFor s c.g (laneCount b.2) = true → Left s t c b [a])

/-- An instruction stalled for want of room in the former (R80): its path stands where it stood, its registers are as before. -/
def Stalled (t : State) (c : Ctx) : Prop :=
  ∃ g, t.group? c.gid = some g ∧ g.c.wait = .spawnFull ∧ g.r = c.g.r ∧ AtPc c (c.pc % 2 ^ 64) g

/-- The effect of an event on one group: every other object stays, `f` says what the group is then. -/
structure GroupEffect (s t : State) (gid : Nat) (f : Group → Prop) : Prop where
  frame : OnlyGroup s t gid
  group : ∃ g, t.group? gid = some g ∧ f g

/-- A value in a uniform destination once an instruction has issued, whatever else it does: 56 discards it (R57). -/
def UniValue (t : State) (c : Ctx) (d : UDst) (v : Word) : Prop :=
  ∃ g, t.group? c.gid = some g ∧ g.info = c.g.info ∧ g.c.paths = advanced c ∧ ∀ r, d = .g r → g.ug r.val = v

/-- What an issue that changes a workgroup leaves alone: every other group and workgroup, and every other object. -/
structure WgFrame (s t : State) (gid wg : Nat) : Prop where
  rest : t = { s with groups := t.groups, wgs := t.wgs, clusters := t.clusters, tick := t.tick, nextId := t.nextId }
  others : ∀ k, k ≠ gid → t.group? k = s.group? k
  wgs : ∀ k, k ≠ wg → t.wg? k = s.wg? k
  clusters : ∀ k, t.cluster k = { s.cluster k with energy := (t.cluster k).energy }

/-- Registers in which only a uniform destination took a value: 56 discards it (R57). -/
def OnlyD (d : UDst) (v : Word) (old new : GRegs) : Prop :=
  new = { old with g := new.g, gmark := new.gmark } ∧
    ∀ k, mget 0 new.g k = match d with
      | .g r => if k = r.val then v else mget 0 old.g k
      | .zero => mget 0 old.g k

/-- Registers of a group whose allotment went from `a` to `b` units (R42, R101, R102): a register it keeps stays, every other reads 0. -/
def Resized (a b : Nat) (old new : GRegs) : Prop :=
  new = { old with v := new.v, vmark := new.vmark, g := new.g, gmark := new.gmark } ∧
    ∀ l k, k < 128 → new.getV l k = if k < 8 * min a b then old.getV l k else 0

/-- Box `f` of a workgroup holds `n` units of resource `i` afterwards, and no other box or unit count moved (R100). -/
def BoxHolds (w w' : Wg) (f i n : Nat) : Prop :=
  boxOf w' f i = n ∧ (∀ f' k, k < 3 → (f' ≠ f ∨ k ≠ i) → boxOf w' f' k = boxOf w f' k) ∧ w' = { w with boxes := w'.boxes }

/-! ## What errors and events leave in a context's region (R319 to R321, R334) -/

/-- A record of the event log (R320). -/
structure EventRec where
  type : Nat
  code : Nat
  skid : Nat
  lane : Nat
  gen : Nat
  addr : Nat
  pc : Nat
  core : Nat
  slot : Nat
  token : Nat

/-- Its 32 bytes. -/
def EventRec.bytes (e : EventRec) : List Byte :=
  leBytes 4 (e.type * 2 ^ 24 + e.code * 2 ^ 16 + e.skid * 2 ^ 8 + e.lane) ++ leBytes 4 e.gen ++ leBytes 8 e.addr ++ leBytes 8 e.pc ++
    leBytes 4 (e.core / 4 * 2 ^ 16 + e.core % 4 * 2 ^ 14 + e.slot * 2 ^ 12) ++ leBytes 4 (e.token * 2 ^ 16)

/-- An event reaches a context's log (R321): one of an older generation is dropped; with room it stands at EVPROD mod 1,920 and EVPROD rises; with none
an XLATE or a SPAWNX is held, and another is dropped with EVLOST rising. -/
def Logged (s t : State) (v : Nat) (e : EventRec) : Prop :=
  let prod := s.num (crb s v + 0x20) 4
  let lost := s.num (crb s v + 0x28) 4
  let room := (prod + 2 ^ 32 - s.num (crb s v + 0x24) 4) % 2 ^ 32 < 1920
  let left := t.num (crb s v + 0x20) 4 = prod ∧ (t.vdev v).heldEvents = (s.vdev v).heldEvents
  (e.gen ≠ (s.vdev v).gen → left ∧ t.num (crb s v + 0x28) 4 = lost) ∧
  (e.gen = (s.vdev v).gen → room → t.num (crb s v + 0x20) 4 = (prod + 1) % 2 ^ 32 ∧ t.num (crb s v + 0x28) 4 = lost ∧
    t.bytes (crb s v + 0x1000 + 32 * (prod % 1920)) 32 = e.bytes) ∧
  (e.gen = (s.vdev v).gen → ¬ room → e.type = evXlate ∨ e.type = evSpawnx → t.num (crb s v + 0x20) 4 = prod ∧ t.num (crb s v + 0x28) 4 = lost ∧
    ∃ h, (t.vdev v).heldEvents = (s.vdev v).heldEvents ++ [h] ∧ wordBytes h.words = e.bytes ∧ h.gen = e.gen) ∧
  (e.gen = (s.vdev v).gen → ¬ room → e.type ≠ evXlate → e.type ≠ evSpawnx → left ∧ t.num (crb s v + 0x28) 4 = (lost + 1) % 2 ^ 32)

/-- The sticky error of a context is set (R334, R335): its count rises, and the first-error record is written when none is held. -/
def StickySet (s t : State) (v : Nat) (e : ErrRec) : Prop :=
  let a := crb s v + 0x80
  let w := s.num a 4
  t.num a 4 = 2 ^ 31 + min ((if w < 2 ^ 31 then 0 else w % 2 ^ 16) + 1) 65535 ∧
  (w < 2 ^ 31 → t.bytes (a + 4) 124 = leBytes 4 (e.src * 2 ^ 24 + e.code * 2 ^ 16) ++ leBytes 4 (s.vdev v).gen ++
    leBytes 4 (e.place + deviceFe s v) ++ leBytes 8 e.pc ++ leBytes 8 (e.word % 2 ^ 32) ++ leBytes 8 e.wid ++ leBytes 8 e.aux ++ leBytes 80 (e.aux2 % 2 ^ 32)) ∧
  (2 ^ 31 ≤ w → t.bytes (a + 4) 124 = s.bytes (a + 4) 124)

/-- No byte that a core's L1 holds dirty lies in a context's region, where its write-back would hide what the hardware wrote. -/
def RegionApart (s : State) (core v : Nat) : Prop :=
  ∀ x l, (x / 128, l) ∈ (s.core core).l1 → l.dirty.getLsbD (x % 128) = true → loc x < crb s v ∨ crb s v + 0x10000 ≤ loc x

/-- A group is killed with a code that lanes `m` raised at `pc` (R49, R303): it is gone, the sticky error is set with the code, an event of type KILL is
logged; no other group changes. -/
structure Killed (s t : State) (gid code pc word : Nat) (m : Mask) : Prop where
  gone : t.group? gid = none
  others : ∀ k, k ≠ gid → t.group? k = s.group? k
  region : ∀ g, s.group? gid = some g → RegionApart s g.info.core g.info.vdev →
    StickySet s t g.info.vdev (groupErr g code pc word m) ∧
    Logged s t g.info.vdev ⟨evKill, code, 0, lowLane m, g.info.gen, 0, pc, g.info.core, g.info.slot, 0⟩

/-- Lanes of a parked path take the memory fault of their fatal marks, of which `f` of `lane` is the first (R306): they leave the group, ERRST takes
KIND 2, the code and the skid, the sticky error is set and an event of type MEMFAULT is logged. -/
structure Faulted (s t : State) (c : Ctx) (lane : Nat) (f : FMark) (lanes : List Nat) : Prop where
  group : ∀ g, t.group? c.gid = some g → g.r.errst = .ofNat 32 (2 * 2 ^ 28 + min f.skid 255 * 2 ^ 8 + f.code) ∧
    ∀ l ∈ lanes, ∀ p ∈ g.c.paths, p.mask.getLsbD l = false
  region : RegionApart s c.g.info.core c.g.info.vdev →
    StickySet s t c.g.info.vdev (groupErr c.g f.code c.pc 0 (laneBit lane)) ∧
    Logged s t c.g.info.vdev ⟨evMemfault, f.code, min f.skid 255, lane, c.g.info.gen, f.va, c.pc, c.g.info.core, c.g.info.slot, 0⟩

/-! ## Reservations (R186, R187, R190) -/

/-- Whether a lane's output takes reservations on this part (R186, R190, R257). -/
def reserves (s : State) (g : Group) (o l : Nat) : Bool :=
  (laneEdge s g l o).any fun x => decide (x.2.role = roleLocal ∨ x.2.role = roleSender)

/-- A reservation has issued: the lanes whose output has no edge here read 0xFFFFFFFE, and for every other the home of its edge has a request of all
lanes with that edge, whose result comes 12 cc on for a ring in FIFO banks and 140 cc on for one in memory, at the earliest (R187). -/
structure Reserved (s t : State) (c : Ctx) (i : Instr) (d o : Nat) (data : Group → Nat → List Word) : Prop where
  frame : OnlyGroup s t c.gid
  group : ∃ g, t.group? c.gid = some g ∧ g.info = c.g.info ∧ g.c.paths = advanced c ∧ g.r = { c.g.r with v := g.r.v, vmark := g.r.vmark } ∧
    (∀ l k, k < 128 → g.r.getV l k =
      if l < 64 ∧ c.mask.getLsbD l ∧ k = d ∧ reserves s c.g o l = false then 0xFFFFFFFE else c.g.r.getV l k) ∧
    ∀ l x, l < 64 → c.mask.getLsbD l = true → reserves s c.g o l = true → laneEdge s c.g l o = some x → ∃ q r, find? g.c.reqs q = some r ∧
      find? g.c.sb r.entry = some (loadPend d 1) ∧
      r = (mkReq i c (fun _ _ => 0) data [] r.entry (s.now + if x.2.loc then 12 else 140)).only r.lanes 0 ∧
      ∀ j, j < 64 → (r.lanes.getLsbD j = true ↔ c.mask.getLsbD j = true ∧ reserves s c.g o j = true ∧ laneEdge s c.g j o = some x)

/-- A walker that stands at a well-formed node `w` of kind `k` and may act on it (R24, R30, R32). -/
structure AtNode (s : State) (fe k : Nat) (w : List Word) : Prop where
  acts : feActs s (s.fe fe) = true
  walks : (s.fe fe).st = .walk
  free : (s.fe fe).parked = 0 ∧ (s.fe fe).launchWait = false ∧ (s.fe fe).endWait = false
  node : find? (s.fe fe).nodes (s.fe fe).node = some w
  ok : nodeOk (s.fe fe).has w = true
  kind : nodeKind w = k
  dep : nodeDep w = true → k = 8 ∨ (s.fe fe).fenced = true

/-- The walker goes on at a node (R31). -/
def WalksTo (s : State) (fe node : Nat) : Prop := (s.fe fe).node = node ∧ (s.fe fe).st = .walk ∧ (s.fe fe).fenced = false

/-- A LAUNCH instruction that waited has its status in T and its request and its entry are gone (R104, R105). -/
def Answered (s u : State) (l : LaunchReq) (st : Word) : Prop :=
  ∀ g r p t, s.group? l.group = some g → find? g.c.reqs l.req = some r → r.instr = .launch p t →
    ∃ h, u.group? l.group = some h ∧ h.ug t.val = st ∧ find? h.c.reqs l.req = none ∧ find? h.c.sb r.entry = none

/-- A front end has decided the oldest launch of its queue (R30, R35): a walk goes on at the next node or halts with error 7. -/
def Decided (s u : State) (fe : Nat) (l : LaunchReq) (rest : List LaunchReq) (st : Word) : Prop :=
  (u.fe fe).queue = rest ∧ (l.walk = false → Answered s u l st) ∧
    (l.walk = true → if st = 0 then WalksTo u fe (nodeNext ((find? (s.fe fe).nodes (s.fe fe).node).getD []))
      else (u.fe fe).st = .halt ∧ (u.fe fe).err = 7)

/-- What main power leaves when it goes (R345): the part as after reset, with what standby power holds (R336): the controller's flash and cap, the
root of trust's registers and quotes. -/
def PoweredOff (s u : State) : Prop :=
  u.sys.powered = false ∧ u.sys.hartsReleased = false ∧ u.sys.mcUp = s.sys.mcUp ∧ u.sys.flash = s.sys.flash ∧ u.sys.cap = s.sys.cap ∧
    u.sys.meas = s.sys.meas ∧ u.sys.quotes = s.sys.quotes ∧ u.now = s.now ∧ u.groups = [] ∧ u.wgs = [] ∧ u.edges = [] ∧ u.ops = [] ∧
    u.cores = [] ∧ u.clusters = [] ∧ u.vdevs = [] ∧ u.fes = [] ∧ u.mem = []

/-- A Koto payload on the wire, as a codec hands it to a port for a peer (R260). -/
def carried (c : Codec) (codec peer : Nat) (b : List Byte) : Nat × List Byte := (peerPort c peer, frameOf c codec peer b)

/-- The images of a boot (R343). -/
def imagesOf (y : Sys) : List (BootEntry × List Byte) := bootImages y (min 16 (manifestCount y)) 0 (manifestLen + signatureLen)

/-- What a boot leaves (R336, R343, R344): the cycle counters start; hart 0 runs exactly when nothing was refused; then every image has extended its
register from zero and stands at its load address, unless a later one overlaps it. -/
def Booted (y : Sys) (u : State) : Prop :=
  u.sys.powered = true ∧ u.sys.cycBase = u.now ∧ u.epoch = 0 ∧ u.sys.refusal = bootRefusal y (imagesOf y) ∧
    (u.sys.hartsReleased = true ↔ bootRefusal y (imagesOf y) = 0) ∧
    (bootRefusal y (imagesOf y) = 0 → ∀ (i : Nat) x, (imagesOf y)[i]? = some x →
      measured u.sys i = shake256 (List.replicate 64 0 ++ x.1.digest) 64 ∧
      ((∀ (j : Nat) z, i < j → (imagesOf y)[j]? = some z →
        loc z.1.load + z.2.length ≤ loc x.1.load ∨ loc x.1.load + x.2.length ≤ loc z.1.load) → u.bytes (loc x.1.load) x.2.length = x.2))

/-- An instruction completes with a result in its lanes in every state in which nothing holds it, traps it or is poisoned. -/
def LaneResultOf (i : Instr) (n : Need) (d : Option Nat) (cnt pipe lat : Nat) (out : Ctx → Nat → LaneOut) : Prop :=
  ∀ s c, gate i n (fun _ => false) (fun _ _ => 0) s = .go c 0 →
    ∃ t, exec i s = .next t ∧ LaneEffect s t c d cnt pipe lat (fun l => (out c l).words) (flagsOf (out c) (lanesOf c.mask))

/-- An instruction completes with a uniform result in every state in which nothing holds it, traps it or is poisoned. -/
def UniResultOf (i : Instr) (n : Need) (d : UDst) (lat : Nat) (ws : State → Group → List Word) : Prop :=
  ∀ s c, gate i n (fun _ => false) (fun _ _ => 0) s = .go c 0 → ∃ t, exec i s = .next t ∧ UniEffect s t c d (ws s c.g) lat

end Sys2Proof.Machine

/-! ## What the manual's tables say of results, as plain arithmetic -/
namespace Sys2Proof.Spec
open Sys2Proof.Machine

/-- The field that BFE and BFI name (R134): position and clipped length, none when it is empty. -/
def field (b : Word) : Option (Nat × Nat) :=
  let pos := b.toNat % 256
  let len := min (b.toNat / 256 % 256) (32 - pos)
  if len = 0 then none else some (pos, len)

/-- Whether an integer condition holds (R56, R135). -/
def cond (c : ICond) (a b : Word) : Bool :=
  match c with
  | .eq => decide (a.toNat = b.toNat)
  | .ne => decide (a.toNat ≠ b.toNat)
  | .ltS => decide (a.toInt < b.toInt)
  | .leS => decide (a.toInt ≤ b.toInt)
  | .ltN => decide (a.toNat < b.toNat)
  | .leN => decide (a.toNat ≤ b.toNat)
  | .gtS => decide (a.toInt > b.toInt)
  | .gtN => decide (a.toNat > b.toNat)

/-- Whether a condition of BRC holds for a value read as signed (R89). -/
def branch (c : BCond) (v : Word) : Bool :=
  match c with
  | .eqz => decide (v.toInt = 0)
  | .nez => decide (v.toInt ≠ 0)
  | .ltz => decide (v.toInt < 0)
  | .gez => decide (v.toInt ≥ 0)
  | .gtz => decide (v.toInt > 0)
  | .lez => decide (v.toInt ≤ 0)

/-- All ones or zero. -/
def truth (b : Bool) : Word := if b then 0xFFFFFFFF else 0

/-- The two-source integer instructions (R133, R134) with their values. -/
def intTwo : List ((LDst → LSrc → LSrc → Instr) × (Word → Word → Word)) :=
  [(.iadd, fun a b => .ofNat 32 (a.toNat + b.toNat)), (.isub, fun a b => .ofInt 32 (a.toInt - b.toInt)),
   (.imul, fun a b => .ofNat 32 (a.toNat * b.toNat)),
   (.imulhS, fun a b => .ofInt 32 (a.toInt * b.toInt / 2 ^ 32)), (.imulhN, fun a b => .ofNat 32 (a.toNat * b.toNat / 2 ^ 32)),
   (.iminS, fun a b => if a.toInt ≤ b.toInt then a else b), (.iminN, fun a b => if a.toNat ≤ b.toNat then a else b),
   (.imaxS, fun a b => if a.toInt ≥ b.toInt then a else b), (.imaxN, fun a b => if a.toNat ≥ b.toNat then a else b),
   (.idiffN, fun a b => .ofNat 32 (max a.toNat b.toNat - min a.toNat b.toNat)),
   (.and, fun a b => a &&& b), (.or, fun a b => a ||| b), (.xor, fun a b => a ^^^ b), (.andn, fun a b => a &&& ~~~b)] ++
  [(.shl, fun a b => if b.toNat < 32 then .ofNat 32 (a.toNat * 2 ^ b.toNat) else 0),
   (.shr, fun a b => if b.toNat < 32 then .ofNat 32 (a.toNat / 2 ^ b.toNat) else 0),
   (.sar, fun a b => .ofInt 32 (a.toInt / 2 ^ (min b.toNat 31))),
   (.rotl, fun a b => .ofNat 32 (a.toNat * 2 ^ (b.toNat % 32) + a.toNat * 2 ^ (b.toNat % 32) / 2 ^ 32)),
   (.bfeN, fun a b => match field b with
     | none => 0
     | some (pos, len) => .ofNat 32 (a.toNat / 2 ^ pos % 2 ^ len)),
   (.bfeS, fun a b => match field b with
     | none => 0
     | some (pos, len) => let f := a.toNat / 2 ^ pos % 2 ^ len
       .ofInt 32 (if f < 2 ^ (len - 1) then (f : Int) else (f : Int) - 2 ^ len))]

/-- The one-source integer instructions (R133) with their values. -/
def intOne : List ((LDst → LSrc → Instr) × (Word → Word)) :=
  [(.iabs, fun a => if a.toInt < 0 then .ofInt 32 (-a.toInt) else a), (.ineg, fun a => .ofInt 32 (-a.toInt)),
   (.popc, fun a => .ofNat 32 ((List.range 32).countP fun i => a.toNat / 2 ^ i % 2 = 1)),
   (.clz, fun a => .ofNat 32 (if a = 0 then 32 else 31 - a.toNat.log2)),
   (.brev, fun a => .ofNat 32 (((List.range 32).map fun i => a.toNat / 2 ^ i % 2 * 2 ^ (31 - i)).sum)),
   (.not, fun a => .ofNat 32 (2 ^ 32 - 1 - a.toNat)), (.mov, fun a => a)]

/-- The instructions that read their destination too (R131, R133, R134), `d` last. -/
def intThree : List ((Fin 112 → LSrc → LSrc → Instr) × (Word → Word → Word → Word)) :=
  [(.imad, fun a b d => .ofNat 32 (a.toNat * b.toNat + d.toNat)), (.sel, fun a b d => if d.toNat ≠ 0 then a else b),
   (.bfi, fun a b d => match field b with
     | none => d
     | some (pos, len) => .ofNat 32 (d.toNat - d.toNat / 2 ^ pos % 2 ^ len * 2 ^ pos + a.toNat % 2 ^ len * 2 ^ pos)),
   (.fshr, fun a b d => .ofNat 32 ((d.toNat * 2 ^ 32 + a.toNat) / 2 ^ (b.toNat % 32)))]

/-- A single source extended to 64 bits with its sign (R136). -/
def sext (b : Word) : Int := b.toInt

/-- The pair instructions (R136) with their values. -/
def pairOne : List ((Fin 112 → LPair → LSrc → Instr) × (DWord → Word → DWord)) :=
  [(.iadd64, fun a b => .ofInt 64 (a.toNat + sext b)), (.isub64, fun a b => .ofInt 64 (a.toNat - sext b)),
   (.shl64, fun a b => if b.toNat < 64 then .ofNat 64 (a.toNat * 2 ^ b.toNat) else 0),
   (.shr64, fun a b => if b.toNat < 64 then .ofNat 64 (a.toNat / 2 ^ b.toNat) else 0)]

/-- IMADW.N and IMADW.S (R136): `d` last. -/
def pairAcc : List ((Fin 112 → LSrc → LSrc → Instr) × (Word → Word → DWord → DWord)) :=
  [(.imadwN, fun a b d => .ofNat 64 (d.toNat + a.toNat * b.toNat)), (.imadwS, fun a b d => .ofInt 64 (d.toNat + a.toInt * b.toInt))]

/-- The comparisons of a pair (R136). -/
def pairCmp : List ((LDst → LPair → LSrc → Instr) × (DWord → Word → Bool)) :=
  [(.icmp64Eq, fun a b => decide (a.toNat = (sext b % 2 ^ 64).toNat)), (.icmp64LtN, fun a b => decide (a.toNat < (sext b % 2 ^ 64).toNat))]

/-- The immediate forms (R137): the immediate comes last. -/
def intImm : List ((LDst → LSrc → BitVec 10 → Instr) × (Word → BitVec 10 → Word)) :=
  [(.iaddi, fun a i => .ofInt 32 (a.toInt + i.toInt)), (.andi, fun a i => .ofNat 32 (a.toNat &&& i.toNat)),
   (.ori, fun a i => .ofNat 32 (a.toNat ||| i.toNat))]

/-- SHLI and SHRI (R137). -/
def intShift : List ((LDst → LSrc → Fin 32 → Instr) × (Word → Fin 32 → Word)) :=
  [(.shli, fun a n => .ofNat 32 (a.toNat * 2 ^ n.val)), (.shri, fun a n => .ofNat 32 (a.toNat / 2 ^ n.val))]

/-- The two-source uniform instructions (R84) with their latencies and values. -/
def uniTwo : List ((UDst → USrc → USrc → Instr) × Nat × (Word → Word → Word)) :=
  [(.uadd, 2, fun a b => .ofNat 32 (a.toNat + b.toNat)), (.usub, 2, fun a b => .ofInt 32 (a.toInt - b.toInt)),
   (.umul, 4, fun a b => .ofNat 32 (a.toNat * b.toNat)), (.uand, 2, fun a b => a &&& b), (.uor, 2, fun a b => a ||| b),
   (.uxor, 2, fun a b => a ^^^ b), (.uminS, 2, fun a b => if a.toInt ≤ b.toInt then a else b),
   (.umaxS, 2, fun a b => if a.toInt ≥ b.toInt then a else b),
   (.ushl, 2, fun a b => if b.toNat < 32 then .ofNat 32 (a.toNat * 2 ^ b.toNat) else 0),
   (.ushr, 2, fun a b => if b.toNat < 32 then .ofNat 32 (a.toNat / 2 ^ b.toNat) else 0),
   (.usar, 2, fun a b => .ofInt 32 (a.toInt / 2 ^ (min b.toNat 31))), (.uminN, 2, fun a b => if a.toNat ≤ b.toNat then a else b),
   (.umaxN, 2, fun a b => if a.toNat ≥ b.toNat then a else b)]

/-- The uniform pair instructions of two pairs (R86). -/
def uniPairs : List ((UDst → UDst → UDst → Instr) × Nat × (DWord → DWord → DWord)) :=
  [(.uadd64, 2, fun a b => .ofNat 64 (a.toNat + b.toNat)), (.usub64, 2, fun a b => .ofInt 64 (a.toInt - b.toInt)),
   (.umul64, 4, fun a b => .ofNat 64 (a.toNat * b.toNat))]

/-- USHL64 and USHR64 (R86). -/
def uniShifts : List ((UDst → UDst → USrc → Instr) × (DWord → Word → DWord)) :=
  [(.ushl64, fun a b => if b.toNat < 64 then .ofNat 64 (a.toNat * 2 ^ b.toNat) else 0),
   (.ushr64, fun a b => if b.toNat < 64 then .ofNat 64 (a.toNat / 2 ^ b.toNat) else 0)]

/-- A word with its flags, as one lane's result. -/
def out1 (r : Word × Flags) : LaneOut := ⟨[r.1], r.2⟩

/-- The two-source FP32 instructions (R138, R139, R141, R144): pipe, latency, exact function. -/
def floatTwo (rm : Rnd4) (cc : FCond) : List ((LDst → LSrc → LSrc → Instr) × Nat × Nat × (Word → Word → Word × Flags)) :=
  [(.fadd rm, 1, 4, fadd32 (rnd4 rm)), (.fsub rm, 1, 4, fsub32 (rnd4 rm)), (.fmul rm, 1, 4, fmul32 (rnd4 rm)),
   (.fmin, 1, 4, fun a b => (fmin32 a b, 0)), (.fmax, 1, 4, fun a b => (fmax32 a b, 0)),
   (.fcopysign, 1, 4, fun a b => (fcopysign32 a b, 0)), (.fcmp cc, 1, 4, fun a b => (truth (fcond cc a b).1, (fcond cc a b).2)),
   (.fdiv rm, 3, 20, fdiv32 (rnd4 rm))]

/-- The one-source FP32 instructions (R139, R140, R142, R143). -/
def floatOne (rm : Rnd4) : List ((LDst → LSrc → Instr) × Nat × Nat × (Word → Word × Flags)) :=
  [(.fabs, 1, 4, fun a => (fabs32 a, 0)), (.fneg, 1, 4, fun a => (fneg32 a, 0)), (.fclass, 1, 4, fun a => (fclass32 a, 0)),
   (.fsat, 1, 4, fun a => (fsat32 a, 0)), (.frnd rm, 1, 4, fun a => (frnd32 (rnd4 rm) a, 0)), (.ffract, 1, 4, ffract32),
   (.frcp, 3, 12, specRcp), (.frsq, 3, 12, specRsq), (.fsqrt, 3, 20, specSqrt), (.fexp2, 3, 12, specExp2), (.flog2, 3, 12, specLog2),
   (.fsin, 3, 12, specSin), (.fcos, 3, 12, specCos), (.ftanh, 3, 12, specTanh)]

/-- The packed instructions of two sources (R145). -/
def packedTwo (bf : Bool) : List ((LDst → LSrc → LSrc → Instr) × (Word → Word → Word × Flags)) :=
  [(.pkadd bf, pkadd32 bf), (.pkmul bf, pkmul32 bf), (.pkmax bf, pkminmax32 bf true), (.pkmin bf, pkminmax32 bf false)]

/-- FMA and the packed instructions that read their destination (R138, R145, R146). -/
def floatThree (rm : Rnd4) (bf : Bool) : List ((Fin 112 → LSrc → LSrc → Instr) × (Word → Word → Word → Word × Flags)) :=
  [(.fma rm, fma32 (rnd4 rm)), (.pkfma bf, pkfma32 bf), (.pkdot bf, pkdot32 bf)]

/-- The lane SHFL reads (R152), if it lies in the group. -/
def shflFrom (mode : Fin 4) (width lane : Nat) (b : Word) : Int :=
  match mode with
  | 0 => (b.toNat &&& (width - 1) : Nat)
  | 1 => (lane : Int) - b.toNat
  | 2 => (lane : Int) + b.toNat
  | 3 => (lane ^^^ b.toNat : Nat)

/-- The value a lane gets from SHFL (R152). -/
def shfl (mode : Fin 4) (m : Mask) (width lane : Nat) (b : Word) (v : Nat → Word) : Word :=
  let src := shflFrom mode width lane b
  if 0 ≤ src ∧ src < width ∧ m.getLsbD src.toNat then v src.toNat else v lane

/-- The vote, scan and reduction instructions with a single result (R153, R154): `m` the active lanes, `v` their a, then the lane. -/
def exchange : List ((LDst → LSrc → Instr) × (Mask → (Nat → Word) → Nat → Word)) :=
  [(.vany, fun m v _ => truth ((lanesOf m).any fun i => decide (v i ≠ 0))), (.vall, fun m v _ => truth ((lanesOf m).all fun i => decide (v i ≠ 0))),
   (.pfxadd, fun m v l => .ofNat 32 (((lanesOf m).filter (· < l)).map fun i => (v i).toNat).sum),
   (.rdcadd, fun m v _ => .ofNat 32 ((lanesOf m).map fun i => (v i).toNat).sum),
   (.rdcmax, fun m v _ => .ofInt 32 (((lanesOf m).map fun i => (v i).toInt).foldl max (-(2 ^ 31)))),
   (.rdcmin, fun m v _ => .ofInt 32 (((lanesOf m).map fun i => (v i).toInt).foldl min (2 ^ 31 - 1)))]

/-- Whether an F32 pattern is a NaN. -/
def isNan (a : Word) : Bool := decide (a.toNat / 2 ^ 23 % 2 ^ 8 = 255 ∧ a.toNat % 2 ^ 23 ≠ 0)

/-- The default NaN (R111) and the infinities of F32. -/
def nan : Word := 0x7FC00000
def pinf : Word := 0x7F800000
def ninf : Word := 0xFF800000

/-- The flags of R128: NV, DZ, OF, UF, NX in bits 0 to 4. -/
def NV : Flags := flagNV
def DZ : Flags := flagDZ

/-- The special registers as the manual lists them (R60). -/
def special (s : State) (g : Group) : SReg → Nat
  | .tags => (s.core g.info.core).tags.toNat
  | .fstat => g.r.fstat.toNat
  | .progress => g.r.progress.toNat
  | .errst => g.r.errst.toNat
  | .readcount => g.r.readcount.toNat
  | .core => g.info.core % 4
  | .cluster => g.info.core / 4
  | .die => g.info.core / 4 / 50
  | .part => if s.sys.den then s.sys.partno else 0
  | .vdev => g.info.vdev
  | .gen => (s.vdev g.info.vdev).gen
  | .cutgen => (s.vdev g.info.vdev).cutgen
  | .seedkey => g.r.seedkey.toNat

end Sys2Proof.Spec

/-! ## What the gate asks of every instruction (R50, R69, R306) -/
namespace Sys2Proof.Machine

/-- An instruction that names no page of a packet. -/
def noLanes : Group → Mask → Mask := fun _ _ => 0

/-- Every instruction of a group but TRAP and BKPT, with what the gate asks of it in a state: its operands, what it waits for by itself (R289, R298,
R307), the lanes whose packets its addresses meet (R308). -/
inductive Gated (s : State) : Instr → Need → (Group → Bool) → (Group → Mask → Mask) → Prop where
  | intTwo x (h : x ∈ Spec.intTwo) d a b : Gated s (x.1 d a b) (((needB0.src a).src b).dst d) noWait noLanes
  | intOne x (h : x ∈ Spec.intOne) d a : Gated s (x.1 d a) ((needB0.src a).dst d) noWait noLanes
  | intThree x (h : x ∈ Spec.intThree) d a b : Gated s (x.1 d a b) ((((needB0.src a).src b).vblk d.val 1 1).dstN d.val 1 1) noWait noLanes
  | icmp cc d a b : Gated s (.icmp cc d a b) (((needB0.src a).src b).dst d) noWait noLanes
  | pairOne x (h : x ∈ Spec.pairOne) d a b : Gated s (x.1 d a b) (((needB0.pair a).src b).dstN d.val 2 2) noWait noLanes
  | pairAcc x (h : x ∈ Spec.pairAcc) d a b : Gated s (x.1 d a b) ((((needB0.src a).src b).vblk d.val 2 2).dstN d.val 2 2) noWait noLanes
  | pairCmp x (h : x ∈ Spec.pairCmp) d a b : Gated s (x.1 d a b) (((needB0.pair a).src b).dst d) noWait noLanes
  | intImm x (h : x ∈ Spec.intImm) d a i : Gated s (x.1 d a i) ((needB0.src a).dst d) noWait noLanes
  | intShift x (h : x ∈ Spec.intShift) d a n : Gated s (x.1 d a n) ((needB0.src a).dst d) noWait noLanes
  | movi d i : Gated s (.movi d i) (needB0.dst d) noWait noLanes
  | wfld k d : Gated s (.wfld k d) (needB0.dst d) noWait noLanes
  | floatTwo rm cc x (h : x ∈ Spec.floatTwo rm cc) d a b : Gated s (x.1 d a b) ((((needFp x.2.1).src a).src b).dst d) noWait noLanes
  | floatOne rm x (h : x ∈ Spec.floatOne rm) d a : Gated s (x.1 d a) (((needFp x.2.1).src a).dst d) noWait noLanes
  | packedTwo bf x (h : x ∈ Spec.packedTwo bf) d a b : Gated s (x.1 d a b) ((((needFp 1).src a).src b).dst d) noWait noLanes
  | floatThree rm bf x (h : x ∈ Spec.floatThree rm bf) d a b :
      Gated s (x.1 d a b) (((((needFp 1).src a).src b).vblk d.val 1 1).dstN d.val 1 1) noWait noLanes
  | cvt c rm d a :
      Gated s (.cvt c rm d a) (let n := needCvt.srcN (if c.pairSrc then 2 else 1) a
        if c.pairDst then (match d with | .v r => n.dstN r.val 2 2 | .latch => n.dst d) else n.dst d) noWait noLanes
  | cvtq t d a b :
      Gated s (.cvtq t d a b) ((let n := (match a with | .v r => needCvt.vblk r.val 4 4 | .zero => needCvt).src b
        match t, d with | .e2m1, .v r => n.vblk r.val 1 1 | _, _ => n).dst d) noWait noLanes
  | cvtdq t d a b : Gated s (.cvtdq t d a b) (((needCvt.src a).src b).dstN d.val 4 4) noWait noLanes
  | shfl mode d a b : Gated s (.shfl mode d a b) (((needXch.src a).src b).dst d) noWait noLanes
  | exchange x (h : x ∈ Spec.exchange) d a : Gated s (x.1 d a) ((needXch.src a).dst d) noWait noLanes
  | ballot d a : Gated s (.ballot d a) ((needXch.src a).dstN d.val 2 2) noWait noLanes
  | match_ d a : Gated s (.match_ d a) ((needXch.src a).dstN d.val 2 2) noWait noLanes
  | hadm inv d a b : Gated s (.hadm inv d a b) (((needCvt.src a).pair b).dst d) noWait noLanes
  | uniTwo x (h : x ∈ Spec.uniTwo) d a b : Gated s (x.1 d a b) (((Need.ofUni.usrc a).usrc b).udst d) noWait noLanes
  | ucmp cc d a b : Gated s (.ucmp cc d a b) (((Need.ofUni.usrc a).usrc b).udst d) noWait noLanes
  | usel d a b :
      Gated s (.usel d a b) ((match d with | .g r => ((Need.ofUni.usrc a).usrc b).ublk r.val 1 | .zero => (Need.ofUni.usrc a).usrc b).udst d) noWait noLanes
  | umov d a : Gated s (.umov d a) ((Need.ofUni.usrc a).udst d) noWait noLanes
  | uaddi d a i : Gated s (.uaddi d a i) ((Need.ofUni.usrc a).udst d) noWait noLanes
  | uandi d a i : Gated s (.uandi d a i) ((Need.ofUni.usrc a).udst d) noWait noLanes
  | umovi d i : Gated s (.umovi d i) (Need.ofUni.udst d) noWait noLanes
  | uniPairs x (h : x ∈ Spec.uniPairs) d a b : Gated s (x.1 d a b) (((Need.ofUni.upair a).upair b).udstPair d) noWait noLanes
  | uniShifts x (h : x ∈ Spec.uniShifts) d a b : Gated s (x.1 d a b) (((Need.ofUni.upair a).usrc b).udstPair d) noWait noLanes
  | ld sz ch d a off : Gated s (.ld sz ch d a off) ((needLoad.pair a).dstN d.val sz.regs sz.regs) noWait (pageExtra (pairEa a off (ldBytes sz)))
  | smp sz ch d a off : Gated s (.smp sz ch d a off) ((needLoad.pair a).dstN d.val sz.regs sz.regs) noWait (pageExtra (pairEa a off (ldBytes sz)))
  | ldp sz (win : Fin 4) d a off :
      Gated s (.ldp sz win d a off) { (needLoad.src a).dstN d.val sz.regs sz.regs with win := some win.val } noWait
        (fun g m => samePage g (ldpEa sz win.val a off g) (ldpNear sz win.val a off g m))
  | atom op wide sc o d a :
      Gated s (.atom op wide sc o d a) (((needLoad.pair a).vblk d.val (atomRegs op wide) (atomRegs op wide)).dstN d.val (atomBack wide) (atomBack wide))
        (fun g => Ord4.releases o && outstanding g [clsLSU]) (pageExtra (atomEa a))
  | ldl sz d a off : Gated s (.ldl sz d a off) ((needLoad.src a).dstN d.val sz.regs sz.regs) (storeWait s (.ldl sz d a off) (singleEa a off (ldBytes sz))) noLanes
  | ldo sz d a off : Gated s (.ldo sz d a off) ((needLoad.src a).dstN d.val sz.regs sz.regs) (storeWait s (.ldo sz d a off) (singleEa a off (oBytes sz))) noLanes
  | stl sz d a off : Gated s (.stl sz d a off) ((needStore.src a).srcN sz.regs d) (storeWait s (.stl sz d a off) (singleEa a off (stBytes sz))) noLanes
  | sto sz d a off : Gated s (.sto sz d a off) ((needStore.src a).srcN sz.regs d) (storeWait s (.sto sz d a off) (singleEa a off (oBytes sz))) noLanes
  | atoml op wide sc o d a :
      Gated s (.atoml op wide sc o d a) (((needLoad.src a).vblk d.val (atomRegs op wide) (atomRegs op wide)).dstN d.val (atomBack wide) (atomBack wide))
        (fun g => storeWait s (.atoml op wide sc o d a) (singleEa a 0 1) g || (Ord4.releases o && outstanding g [clsLSU])) noLanes
  | st sz ch d a off :
      Gated s (.st sz ch d a off) ((needStore.pair a).dataN sz.regs d) (storeWait s (.st sz ch d a off) (pairEa a off (stBytes sz)))
        (pageExtra (pairEa a off (stBytes sz)))
  | red op wide sc o d a :
      Gated s (.red op wide sc o d a) ((needStore.pair a).srcN (if wide then 2 else 1) d)
        (fun g => storeWait s (.red op wide sc o d a) (atomEa a) g || (Ord4.releases o && outstanding g [clsLSU])) (pageExtra (atomEa a))
  | uld sz d a off :
      Gated s (.uld sz d a off) { (if sz.regs = 2 then (Need.ofUni.upair a).udstPair d else (Need.ofUni.upair a).udst d) with entry := true, mem := true }
        noWait (uniExtra (uniEa a off (ldBytes sz)))
  | uldp wide d (win : Fin 4) off :
      Gated s (.uldp wide d win off) { (if wide then Need.ofUni.udstPair d else Need.ofUni.udst d) with entry := true, mem := true, win := some win.val }
        noWait (uniExtra (uldpEa win.val (off.toNat * 4)))
  | ust sz d a off :
      Gated s (.ust sz d a off) { (if sz.regs = 2 then (Need.ofUni.upair a).usrcPair d else (Need.ofUni.upair a).usrc d) with mem := true }
        (uniWait s (.ust sz d a off) (uniEa a off (stBytes sz))) (uniExtra (uniEa a off (stBytes sz)))
  | dispatch n d a b :
      Gated s (.dispatch n d a b)
        { ((Need.ofUni.ublk (match a with | UDst.g r => r.val | .zero => 0) (n.val + 1)).upair b).udstPair d with entry := true, mem := true }
        noWait (dispatchExtra s b)
  | bra off : Gated s (.bra off) needCtl noWait noLanes
  | brc cc a off : Gated s (.brc cc a off) (needCtl.usrc a) noWait noLanes
  | jmpi a : Gated s (.jmpi a) (needCtl.upair a) noWait noLanes
  | call off : Gated s (.call off) needCtl noWait noLanes
  | ret :
      Gated s .ret needCtl (fun g => match curPath g.c.paths with
        | some p => lanesBusy g (retExits g p.mask) || exitHeld s g (retExits g p.mask) || leaveBusy g ((retSets g p.mask).length - 1)
        | none => false) (fun g m => exitStops g (retExits g m))
  | brd r j off : Gated s (.brd r j off) (needBr r.val) (onPath fun g p => decide (brsOut g r.val p.mask ≠ 0) && leaveBusy g 1) noLanes
  | brs r off : Gated s (.brs r off) (needBr r.val) (onPath fun g p => lanesBusy g (brsOut g r.val p.mask)) noLanes
  | brxd r j : Gated s (.brxd r j) (needBr r.val) (onPath fun g p => leaveBusy g ((brxdSets g r.val p.pc p.mask).length - 1)) noLanes
  | join j : Gated s (.join j) needCtl noWait noLanes
  | unop x : Gated s (.unop x) Need.ofUni noWait noLanes
  | exit : Gated s .exit needCtl (onPath fun g p => lanesBusy g p.mask || exitHeld s g p.mask) exitStops
  | yield : Gated s .yield needCtl noWait noLanes
  | acq : Gated s .acq needCtl noWait noLanes
  | rdsr d r :
      Gated s (.rdsr d r) (if r.wide then Need.ofUni.udstPair d else Need.ofUni.udst d) (fun g => !r.wide && decide (r = .fstat) && flagsPending g) noLanes
  | wrsr r a : Gated s (.wrsr r a) (if r.wide then Need.ofUni.usrcPair a else Need.ofUni.usrc a) noWait noLanes
  | give res d a b :
      Gated s (.give res d a b) (((Need.ofUni.usrc a).usrc b).udst d)
        (fun g => decide (res = .reg) && decide (giveStatus g res (usrc s g a).toNat (usrc s g b).toNat = 0) && decide ((usrc s g a).toNat ≠ 0)
          && pendingFrom g (8 * (g.c.alloc - (usrc s g a).toNat))) noLanes
  | claim res d a : Gated s (.claim res d a) ((Need.ofUni.usrc a).udst d) noWait noLanes
  | mtokPass d a : Gated s (.mtokPass d a) ((Need.ofUni.usrc a).udst d) noWait noLanes
  | mtokTake d : Gated s (.mtokTake d) (Need.ofUni.udst d) noWait noLanes
  | bar sc d a b : Gated s (.bar sc d a b) (needBar d a b) (barHeld s a b) noLanes
  | bara sc d a b : Gated s (.bara sc d a b) (needBar d a b) (barHeld s a b) noLanes
  | barw sc d a b : Gated s (.barw sc d a b) (needBar d a b) noWait noLanes
  | fence sc : Gated s (.fence sc) needCtl noWait noLanes
  | fenceX sc f m : Gated s (.fenceX sc f m) needCtl noWait noLanes
  | efence : Gated s .efence needCtl noWait noLanes
  | mwait cc wide sc d a b :
      Gated s (.mwait cc wide sc d a b) (if wide then ((Need.ofUni.upair a).usrcPair b).udstPair d else ((Need.ofUni.upair a).usrc b).udst d) noWait
        (uniExtra fun g => (upair g a).toNat)
  | tagwAny d a : Gated s (.tagwAny d a) (needTagw d a) noWait noLanes
  | tagwAll d a : Gated s (.tagwAll d a) (needTagw d a) noWait noLanes
  | tagwFirst d a : Gated s (.tagwFirst d a) (needTagw d a) noWait noLanes
  | tagwClear d a : Gated s (.tagwClear d a) (needTagw d a) noWait noLanes
  | cond sc a b :
      Gated s (.cond sc a b) ((Need.ofUni.usrc a).usrc b) (fun g => outstanding g [0, 1, 2, 3, 4, 5, 6, 7])
        (fun g m => uniExtra (fun g => cwEa s g.info.vdev (usrc s g a).toNat) g m)
  | emit (d a : Fin 112) (o : Fin 64) (h : a.val + recRegs s o.val ≤ 112) (ok : badEdge s o.val = false) :
      Gated s (.emit d a o) (((needLoad.recBlk a.val (recRegs s o.val)).vblk (d.val + 1) 1 1).dstN d.val 1 2) noWait noLanes
  | resv d (o : Fin 64) (ok : badEdge s o.val = false) : Gated s (.resv d o) (needLoad.dstN d.val 1 1) noWait noLanes
  | wrec (d a : Fin 112) (o : Fin 64) (h : a.val + recRegs s o.val ≤ 112) :
      Gated s (.wrec d a o) ((needStore.recBlk a.val (recRegs s o.val)).vblk d.val 1 1) slotBusy (slotPages s d.val o.val)
  | publ d (o : Fin 64) : Gated s (.publ d o) (needStore.vblk d.val 2 2) pubWait (slotPages s d.val o.val)
  | spawn (d a : Fin 112) (o : Fin 64) (h : a.val + recRegs s o.val ≤ 112) :
      Gated s (.spawn d a o) (((needLoad.recBlk a.val (recRegs s o.val)).vblk (d.val + 1) 1 1).dstN d.val 1 2) (fun g => outstanding g [clsLSU]) noLanes
  | engine i (h : i ∈ ([.copyLin, .copyTile, .copyCb, .copyGath, .hread, .gridRestrict, .gridProlong, .gridConvert, .mtile, .obresRsv] :
      List (Fin 56 → Fin 56 → Instr))) p t : Gated s (i p t) ((Need.ofUni.ublk p.val 8).udst (.g t)) noWait noLanes
  | obresRel p t : Gated s (.obresRel p t) ((Need.ofUni.ublk p.val 1).udst (.g t)) noWait noLanes
  | obresQry p t : Gated s (.obresQry p t) { (Need.ofUni.ublk p.val 1).udst (.g t) with gdst := [(t.val, 1), (p.val, 8)] } noWait noLanes
  | mmar f ru d a g z : Gated s (.mmar f ru d a g z) (mmarNeed s f d a g z) noWait noLanes
  | rule i (h : i ∈ ([.ruleLoad, .ruleStep, .ruleXch, .edgeCutmove, .edgeStatus, .edgeFlush] : List (Fin 56 → Fin 56 → Instr))) p t :
      Gated s (i p t) { (Need.ofUni.ublk p.val 4).udst (.g t) with even := [p.val] } noWait noLanes
  | ruleQuery p t :
      Gated s (.ruleQuery p t) { (Need.ofUni.ublk p.val 4).udst (.g t) with even := [p.val], gdst := [(t.val, 1), (p.val + 1, 3)] } noWait noLanes
  | edgeFrame p t :
      Gated s (.edgeFrame p t) { (Need.ofUni.ublk p.val 4).udst (.g t) with even := [p.val] } (fun g => outstanding g [clsLSU, clsEDG]) noLanes
  | bank d a b : Gated s (.bank d a b) { ((Need.ofUni.usrc a).usrc b).udst d with priv := true } noWait noLanes
  | launch p t :
      Gated s (.launch p t) { (Need.ofUni.ublk p.val 6).udst (.g t) with even := [p.val] } (fun g => outstanding g [clsLSU]) noLanes

end Sys2Proof.Machine
end

