-- ==== Sys2Proof/Certificates/Slice0/Obligations.lean ====
section
/-! DEFINITION. The statements about the part, for the provers: each is a proposition with a name that says what it states. -/
open Sys2Proof
open Sys2Proof.Machine

/-! ## Lanes: integers (R133 to R137) -/

/-- R133, R134: every two-source and one-source integer instruction completes; each active lane gets the table's value, 4 cc later, latch b0 takes it,
no flag is raised, and nothing else of the machine changes. R131, R133, R134: IMAD, SEL, BFI and FSHR complete with the table's value of their sources
and the destination as read at issue.
The model's choices in it: log 93 (the entry that one which writes only the latch takes). -/
def Obligations.IntegerResults : Prop :=
  ((∀ x ∈ Spec.intTwo, ∀ d a b, LaneResultOf (x.1 d a b) (((needB0.src a).src b).dst d) (dstReg d) 1 0 4
     fun c l => ⟨[x.2 (lsrc c.g l a) (lsrc c.g l b)], 0⟩) ∧
   (∀ x ∈ Spec.intOne, ∀ d a, LaneResultOf (x.1 d a) ((needB0.src a).dst d) (dstReg d) 1 0 4 fun c l => ⟨[x.2 (lsrc c.g l a)], 0⟩)) ∧
  (∀ x ∈ Spec.intThree, ∀ d a b, LaneResultOf (x.1 d a b) ((((needB0.src a).src b).vblk d.val 1 1).dstN d.val 1 1) (some d.val) 1 0 4
     fun c l => ⟨[x.2 (lsrc c.g l a) (lsrc c.g l b) (c.g.r.getV l d.val)], 0⟩)

/-- R135: ICMP (op 0x05, the condition in fn) writes all ones where its condition holds for (a, b), and 0 elsewhere.
The model's choices in it: log 93 (the entry that one which writes only the latch takes). -/
def Obligations.IntegerCompare : Prop :=
  (∀ cc d a b, LaneResultOf (.icmp cc d a b) (((needB0.src a).src b).dst d) (dstReg d) 1 0 4
    fun c l => ⟨[Spec.truth (Spec.cond cc (lsrc c.g l a) (lsrc c.g l b))], 0⟩) ∧
  (∀ cc d a b, ∃ w, encodeNat (.icmp cc d a b) = some w ∧ w / 2 ^ 25 = 0x05 ∧ w / 2 ^ 22 % 8 = icondCode cc)

/-- R136: the 64-bit instructions complete with the table's values; pairs have bits 31:0 in the even register, and latch b0 receives bits 31:0 of a
pair result.
The model's choices in it: log 93 (the entry that one which writes only the latch takes). -/
def Obligations.PairArithmetic : Prop :=
  (∀ x ∈ Spec.pairOne, ∀ d a b, LaneResultOf (x.1 d a b) (((needB0.pair a).src b).dstN d.val 2 2) (some d.val) 2 0 4
    fun c l => pairOut (x.2 (lpair c.g l a) (lsrc c.g l b))) ∧
  (∀ x ∈ Spec.pairAcc, ∀ d a b, LaneResultOf (x.1 d a b) ((((needB0.src a).src b).vblk d.val 2 2).dstN d.val 2 2) (some d.val) 2 0 4
    fun c l => pairOut (x.2 (lsrc c.g l a) (lsrc c.g l b) (getPair c.g l d.val))) ∧
  (∀ x ∈ Spec.pairCmp, ∀ d a b, LaneResultOf (x.1 d a b) (((needB0.pair a).src b).dst d) (dstReg d) 1 0 4
    fun c l => ⟨[Spec.truth (x.2 (lpair c.g l a) (lsrc c.g l b))], 0⟩)

/-- R137: the immediate forms complete with the table's values; with W = 1 a D other than 116 is illegal.
The model's choices in it: log 93 (the entry that one which writes only the latch takes). -/
def Obligations.ImmediateForms : Prop :=
  (∀ x ∈ Spec.intImm, ∀ d a i, LaneResultOf (x.1 d a i) ((needB0.src a).dst d) (dstReg d) 1 0 4 fun c l => ⟨[x.2 (lsrc c.g l a) i], 0⟩) ∧
  (∀ x ∈ Spec.intShift, ∀ d a n, LaneResultOf (x.1 d a n) ((needB0.src a).dst d) (dstReg d) 1 0 4 fun c l => ⟨[x.2 (lsrc c.g l a) n], 0⟩) ∧
  (∀ d i, LaneResultOf (.movi d i) (needB0.dst d) (dstReg d) 1 0 4 fun _ _ => ⟨[.ofInt 32 i.toInt], 0⟩) ∧
  (∀ (w : Nat) lit, w < 2 ^ 31 → 7 ≤ w / 2 ^ 25 → w / 2 ^ 25 ≤ 12 → w / 2 ^ 24 % 2 = 1 → w / 2 ^ 17 % 128 ≠ 116 → decodeWord (.ofNat 32 w) lit = none)

/-! ## Lanes: floats (R138 to R146) -/

/-- R138, R139, R141 to R146, R69: every FP32 and packed 16-bit instruction completes in each active lane with the value and the flags of its exact function, b1 after 4
cc, b3 after 12, FSQRT and FDIV after 20; the flags of all lanes together wait in the scoreboard entry.
The model's choices in it: log 93 (the entry that one which writes only the latch takes). -/
def Obligations.FloatResults : Prop :=
  ∀ rm cc bf,
    (∀ x ∈ Spec.floatTwo rm cc, ∀ d a b, LaneResultOf (x.1 d a b) ((((needFp x.2.1).src a).src b).dst d) (dstReg d) 1 x.2.1 x.2.2.1
      fun c l => Spec.out1 (x.2.2.2 (lsrc c.g l a) (lsrc c.g l b))) ∧
    (∀ x ∈ Spec.floatOne rm, ∀ d a, LaneResultOf (x.1 d a) (((needFp x.2.1).src a).dst d) (dstReg d) 1 x.2.1 x.2.2.1
      fun c l => Spec.out1 (x.2.2.2 (lsrc c.g l a))) ∧
    (∀ x ∈ Spec.packedTwo bf, ∀ d a b, LaneResultOf (x.1 d a b) ((((needFp 1).src a).src b).dst d) (dstReg d) 1 1 4
      fun c l => Spec.out1 (x.2 (lsrc c.g l a) (lsrc c.g l b))) ∧
    (∀ x ∈ Spec.floatThree rm bf, ∀ d a b, LaneResultOf (x.1 d a b) (((((needFp 1).src a).src b).vblk d.val 1 1).dstN d.val 1 1) (some d.val) 1 1 4
      fun c l => Spec.out1 (x.2 (lsrc c.g l a) (lsrc c.g l b) (c.g.r.getV l d.val)))

/-- R138: a NaN operand gives the default NaN and no flag; infinity minus infinity and zero times infinity give it with NV. R139, R141: FMIN and FMAX
take the other operand of a NaN, with −0 below +0; FABS, FNEG and FSAT; a comparison with a NaN is false, with NV for .LT, .LE, .GT and .GE, but true
for .NE and .UN; +0 and −0 compare equal. -/
def Obligations.FloatNanInvalidAndSelection : Prop :=
  ((∀ m a b, (Spec.isNan a ∨ Spec.isNan b) → fadd32 m a b = (Spec.nan, 0) ∧ fsub32 m a b = (Spec.nan, 0) ∧ fmul32 m a b = (Spec.nan, 0) ∧
     ∀ d, fma32 m a b d = (Spec.nan, 0)) ∧
   (∀ m a b d, Spec.isNan d → fma32 m a b d = (Spec.nan, 0)) ∧
   (∀ m, fadd32 m Spec.pinf Spec.ninf = (Spec.nan, Spec.NV) ∧ fsub32 m Spec.pinf Spec.pinf = (Spec.nan, Spec.NV) ∧
     fmul32 m 0 Spec.pinf = (Spec.nan, Spec.NV) ∧ fmul32 m Spec.ninf 0x80000000 = (Spec.nan, Spec.NV) ∧
     ∀ d, ¬ Spec.isNan d → fma32 m 0 Spec.ninf d = (Spec.nan, Spec.NV))) ∧
  ((∀ a b, (Spec.isNan a → ¬ Spec.isNan b → fmin32 a b = b ∧ fmax32 a b = b) ∧ (¬ Spec.isNan a → Spec.isNan b → fmin32 a b = a ∧ fmax32 a b = a) ∧
     (Spec.isNan a → Spec.isNan b → fmin32 a b = Spec.nan ∧ fmax32 a b = Spec.nan)) ∧
   (fmin32 0 0x80000000 = 0x80000000 ∧ fmin32 0x80000000 0 = 0x80000000 ∧ fmax32 0 0x80000000 = 0 ∧ fmax32 0x80000000 0 = 0) ∧
   (∀ a, fabs32 a = (if Spec.isNan a then Spec.nan else a &&& 0x7FFFFFFF) ∧ fneg32 a = (if Spec.isNan a then Spec.nan else a ^^^ 0x80000000) ∧
     (Spec.isNan a ∨ 2 ^ 31 ≤ a.toNat → fsat32 a = 0)) ∧
   (∀ a b, (Spec.isNan a ∨ Spec.isNan b) → fcond .eq a b = (false, 0) ∧ fcond .ne a b = (true, 0) ∧ fcond .lt a b = (false, Spec.NV) ∧
     fcond .le a b = (false, Spec.NV) ∧ fcond .gt a b = (false, Spec.NV) ∧ fcond .ge a b = (false, Spec.NV) ∧ fcond .un a b = (true, 0) ∧
     fcond .ord a b = (false, 0)) ∧
   fcond .eq 0 0x80000000 = (true, 0) ∧ fcond .lt 0x80000000 0 = (false, 0))

/-- R143, R144: the exact special cases of the special functions and of FDIV.
The model's choices in it: log 20 (FRCP beyond the largest number). -/
def Obligations.SpecialFunctionCases : Prop :=
  (∀ a, Spec.isNan a → [specRcp, specRsq, specSqrt, specExp2, specLog2, specSin, specCos, specTanh].all fun f => f a = (Spec.nan, 0)) ∧
  specRcp 0 = (Spec.pinf, Spec.DZ) ∧ specRcp 0x80000000 = (Spec.ninf, Spec.DZ) ∧ specRcp Spec.pinf = (0, 0) ∧ specRcp Spec.ninf = (0x80000000, 0) ∧
  specRsq 0 = (Spec.pinf, Spec.DZ) ∧ specRsq Spec.pinf = (0, 0) ∧ specSqrt 0x80000000 = (0x80000000, 0) ∧ specSqrt Spec.pinf = (Spec.pinf, 0) ∧
  specExp2 Spec.ninf = (0, 0) ∧ specExp2 Spec.pinf = (Spec.pinf, 0) ∧ specLog2 0 = (Spec.ninf, Spec.DZ) ∧ specLog2 Spec.pinf = (Spec.pinf, 0) ∧
  specSin Spec.pinf = (Spec.nan, Spec.NV) ∧ specCos Spec.ninf = (Spec.nan, Spec.NV) ∧ specTanh Spec.pinf = (0x3F800000, 0) ∧
  specTanh 0x80000000 = (0x80000000, 0) ∧
  (∀ a : Word, 0x80000000 < a.toNat → a.toNat ≤ 0xFF800000 → specRsq a = (Spec.nan, Spec.NV) ∧ specSqrt a = (Spec.nan, Spec.NV) ∧
    specLog2 a = (Spec.nan, Spec.NV)) ∧
  (∀ m, fdiv32 m 0x3F800000 0 = (Spec.pinf, Spec.DZ) ∧ fdiv32 m 0x3F800000 0x80000000 = (Spec.ninf, Spec.DZ) ∧ fdiv32 m 0 0 = (Spec.nan, Spec.NV) ∧
    fdiv32 m Spec.pinf Spec.ninf = (Spec.nan, Spec.NV) ∧ fdiv32 m 0x3F800000 Spec.ninf = (0x80000000, 0))

/-! ## Lanes: conversions and exchange (R147 to R154) -/

/-- R147 to R150: CVT, CVTQ and CVTDQ complete; a conversion under RSR counts once in its group (R119).
The model's choices in it: log 93 (the entry that one which writes only the latch takes). -/
def Obligations.Conversions : Prop :=
  (∀ c rm d a s x,
    let n := needCvt.srcN (if c.pairSrc then 2 else 1) a
    let n := if c.pairDst then (match d with | .v r => n.dstN r.val 2 2 | .latch => n.dst d) else n.dst d
    let out := fun l => convert c rm (cvtSrc c x.g l a) (rsrOf x.g l)
    gate (.cvt c rm d a) n (fun _ => false) (fun _ _ => 0) s = .go x 0 →
      ∃ u, exec (.cvt c rm d a) s = .next (if rm = .rsr then u.updGroup x.gid (fun g => { g with r := { g.r with rsr := g.r.rsr + 1 } }) else u) ∧
        LaneEffect s u x (dstReg d) (if c.pairDst then 2 else 1) 2 6 (fun l => (out l).words) (flagsOf out (lanesOf x.mask))) ∧
  (∀ t d a b, LaneResultOf (.cvtq t d a b)
    ((let n := (match a with | .v r => needCvt.vblk r.val 4 4 | .zero => needCvt).src b
      match t, d with | .e2m1, .v r => n.vblk r.val 1 1 | _, _ => n).dst d) (dstReg d) 1 2 6
    fun c l => cvtq32 t (lquad c.g l a) (lsrc c.g l b) (match d with | .v r => c.g.r.getV l r.val | .latch => 0)) ∧
  (∀ t d a b, LaneResultOf (.cvtdq t d a b) (((needCvt.src a).src b).dstN d.val 4 4) (some d.val) 4 2 6
    fun c l => cvtdq32 t (lsrc c.g l a) (lsrc c.g l b))

/-- R151 to R154: lanes exchange values: SHFL from the lane its mode names, the votes, matches, scans and reductions over the active lanes, HADM over
each quarter; only active lanes are read and written.
The model's choices in it: log 93 (the entry that one which writes only the latch takes). -/
def Obligations.LaneExchange : Prop :=
  (∀ mode d a b, LaneResultOf (.shfl mode d a b) (((needXch.src a).src b).dst d) (dstReg d) 1 2 6
    fun c l => ⟨[Spec.shfl mode c.mask c.g.info.width l (lsrc c.g l b) (fun j => lsrc c.g j a)], 0⟩) ∧
  (∀ x ∈ Spec.exchange, ∀ d a, LaneResultOf (x.1 d a) ((needXch.src a).dst d) (dstReg d) 1 2 6
    fun c l => ⟨[x.2 c.mask (fun j => lsrc c.g j a) l], 0⟩) ∧
  (∀ d a, LaneResultOf (.ballot d a) ((needXch.src a).dstN d.val 2 2) (some d.val) 2 2 6
    fun c _ => pairOut (laneSet c.mask fun i => decide (lsrc c.g i a ≠ 0))) ∧
  (∀ d a, LaneResultOf (.match_ d a) ((needXch.src a).dstN d.val 2 2) (some d.val) 2 2 6
    fun c l => pairOut (laneSet c.mask fun i => decide (lsrc c.g i a = lsrc c.g l a))) ∧
  (∀ m p i, (laneSet m p).getLsbD i = (decide (i < 64) && m.getLsbD i && p i)) ∧
  (∀ inv d a b, LaneResultOf (.hadm inv d a b) (((needCvt.src a).pair b).dst d) (dstReg d) 1 2 6 fun c => hadmLane inv a b c.mask c.g)

/-! ## Uniform arithmetic (R83 to R86) -/

/-- R84, R85: every uniform arithmetic instruction completes once for its group with the table's value, 2 cc later, 4 for the products; a
destination of 56 discards it and takes no entry; no flag, no latch, nothing else changes. -/
def Obligations.UniformResults : Prop :=
  (∀ x ∈ Spec.uniTwo, ∀ d a b, UniResultOf (x.1 d a b) (((Need.ofUni.usrc a).usrc b).udst d) d x.2.1 fun s g => [x.2.2 (usrc s g a) (usrc s g b)]) ∧
  (∀ cc d a b, UniResultOf (.ucmp cc d a b) (((Need.ofUni.usrc a).usrc b).udst d) d 2
    fun s g => [Spec.truth (Spec.cond cc (usrc s g a) (usrc s g b))]) ∧
  (∀ d a b, UniResultOf (.usel d a b)
    ((match d with | .g r => ((Need.ofUni.usrc a).usrc b).ublk r.val 1 | .zero => (Need.ofUni.usrc a).usrc b).udst d) d 2
    fun s g => [if (match d with | .g r => g.ug r.val | .zero => 0) ≠ 0 then usrc s g a else usrc s g b]) ∧
  (∀ d a, UniResultOf (.umov d a) ((Need.ofUni.usrc a).udst d) d 2 fun s g => [usrc s g a]) ∧
  (∀ d a i, UniResultOf (.uaddi d a i) ((Need.ofUni.usrc a).udst d) d 2 fun s g => [.ofInt 32 ((usrc s g a).toInt + i.toInt)]) ∧
  (∀ d a i, UniResultOf (.uandi d a i) ((Need.ofUni.usrc a).udst d) d 2 fun s g => [.ofNat 32 ((usrc s g a).toNat &&& i.toNat)]) ∧
  (∀ d i, UniResultOf (.umovi d i) (Need.ofUni.udst d) d 2 fun _ _ => [.ofInt 32 i.toInt])

/-- R86: the uniform 64-bit instructions complete with the table's values in a pair, the low word in the even register. -/
def Obligations.UniformPairs : Prop :=
  (∀ x ∈ Spec.uniPairs, ∀ d a b, UniResultOf (x.1 d a b) (((Need.ofUni.upair a).upair b).udstPair d) d x.2.1
    fun _ g => [loWord (x.2.2 (upair g a) (upair g b)), hiWord (x.2.2 (upair g a) (upair g b))]) ∧
  (∀ x ∈ Spec.uniShifts, ∀ d a b, UniResultOf (x.1 d a b) (((Need.ofUni.upair a).usrc b).udstPair d) d 2
    fun s g => [loWord (x.2 (upair g a) (usrc s g b)), hiWord (x.2 (upair g a) (usrc s g b))])

/-! ## Memory (R157, R158, R176 to R184, R87, R88, R93) -/

/-- R176, R177, R179, R180, R181, R182: LD, SMP, LDP and ATOM complete by entering one request a line, with its lanes' addresses and data as read at
issue, in order of the lowest lane of each; LDP's lanes beyond the window go with the first; the destination is held until all are answered, 24 cc on
at the earliest; registers and memory stay. R87, R88, R93: ULD, ULDP and DISPATCH complete by entering one request for the group, 20 cc on at the
earliest (R83).
The model's choices in it: log 5 (loads enter as requests), log 68 (a line is one of the addresses as the program gives them). -/
def Obligations.RequestsEnter : Prop :=
  ((∀ sz ch d a off s c, let ea := pairEa a off (ldBytes sz)
     gate (.ld sz ch d a off) ((needLoad.pair a).dstN d.val sz.regs sz.regs) (fun _ => false) (pageExtra ea) s
       = .go c 0 → ∃ t, exec (.ld sz ch d a off) s = .next t ∧ LineRequests s t c (loadPend d.val sz.regs) (lineSets (ea c.g) c.mask)
         fun e => mkReq (.ld sz ch d a off) c ea noData [c.g.r.readcount.toNat] e (s.now + 24)) ∧
   (∀ sz ch d a off s c, let ea := pairEa a off (ldBytes sz)
     gate (.smp sz ch d a off) ((needLoad.pair a).dstN d.val sz.regs sz.regs) (fun _ => false) (pageExtra ea) s
       = .go c 0 → ∃ t, exec (.smp sz ch d a off) s = .next t ∧ LineRequests s t c (loadPend d.val sz.regs) (lineSets (ea c.g) c.mask)
         fun e => mkReq (.smp sz ch d a off) c ea noData [] e (s.now + 24)) ∧
   (∀ sz (win : Fin 4) d a off s c, let ea := ldpEa sz win.val a off
     gate (.ldp sz win d a off) { (needLoad.src a).dstN d.val sz.regs sz.regs with win := some win.val } (fun _ => false)
       (fun g m => samePage g (ea g) (ldpNear sz win.val a off g m)) s
       = .go c 0 → ∃ t, exec (.ldp sz win d a off) s = .next t ∧ LineRequests s t c (loadPend d.val sz.regs) (ldpLines sz win.val a off c.g c.mask)
         fun e => mkReq (.ldp sz win d a off) c ea (fun g l => [BitVec.ofNat 32 (ldpOff sz a off g l)]) [] e (s.now + 24)) ∧
   (∀ op wide sc o d a s c, gate (.atom op wide sc o d a) (((needLoad.pair a).vblk d.val (atomRegs op wide) (atomRegs op wide)).dstN d.val (atomBack wide) (atomBack wide))
       (fun g => Ord4.releases o && outstanding g [clsLSU]) (pageExtra (atomEa a)) s
       = .go c 0 → ∃ t, exec (.atom op wide sc o d a) s = .next t ∧ LineRequests s t c (loadPend d.val (atomBack wide)) (lineSets (atomEa a c.g) c.mask)
         fun e => mkReq (.atom op wide sc o d a) c (atomEa a) (fun g l => getVs g l d.val (atomRegs op wide)) [] e (s.now + 24)) ∧
   (∀ m ea, SharedOut m (fun l => ea l / 256) (lineSets ea m)) ∧
   (∀ sz win a off g m, SharedOut (ldpNear sz win a off g m) (fun l => ldpEa sz win a off g l / 256)
     ((ldpLines sz win a off g m).map (· &&& ldpNear sz win a off g m) |>.filter (· ≠ 0)))) ∧
  ((∀ sz d a off s c, let n := if sz.regs = 2 then (Need.ofUni.upair a).udstPair d else (Need.ofUni.upair a).udst d
     gate (.uld sz d a off) { n with entry := true, mem := true } (fun _ => false) (uniExtra (uniEa a off (ldBytes sz))) s
       = .go c 0 → ∃ t, exec (.uld sz d a off) s = .next t ∧ RequestEffect s t c (uniPend d sz.regs)
         fun e => mkUniReq (.uld sz d a off) c (uniEa a off (ldBytes sz) c.g) [] [] e (s.now + 20)) ∧
   (∀ wide d (win : Fin 4) off s c, let n := if wide then Need.ofUni.udstPair d else Need.ofUni.udst d
     gate (.uldp wide d win off) { n with entry := true, mem := true, win := some win.val }
       (fun _ => false) (uniExtra (uldpEa win.val (off.toNat * 4))) s
       = .go c 0 → ∃ t, exec (.uldp wide d win off) s = .next t ∧ RequestEffect s t c (uniPend d (if wide then 2 else 1))
         fun e => mkUniReq (.uldp wide d win off) c (uldpEa win.val (off.toNat * 4) c.g) [] [] e (s.now + 20)) ∧
   (∀ n d a b s c, let first : Nat := match a with | UDst.g r => r.val | .zero => 0
     gate (.dispatch n d a b) { ((Need.ofUni.ublk first (n.val + 1)).upair b).udstPair d with entry := true, mem := true } (fun _ => false)
       (dispatchExtra s b) s
       = .go c 0 → ∃ t, exec (.dispatch n d a b) s = .next t ∧ RequestEffect s t c (uniPend d 2)
         fun e => mkUniReq (.dispatch n d a b) c (tableEa b c.g) (ublock c.g first (n.val + 1)) [] e (s.now + 20)))

/-- R161, R162, R180, R184: LDL and LDO give every active lane the bytes of its window or region when each lane's access passes; memory, local store
and operand buffer stay. R161, R162, R182, R184: STL, STO and ATOML change only local store or operand buffer of their core, and there only bytes that
some active lane's access covers; memory, registers (but for ATOML's destination) and every other core stay. Bytes that one lane alone covers are that
lane's.
The model's choices in it: log 5 (performed at issue), log 79 (what an access at issue waits for). -/
def Obligations.LocalLoadsAndStores : Prop :=
  ((∀ sz d a off s c (b : Nat → List Byte), gate (.ldl sz d a off) ((needLoad.src a).dstN d.val sz.regs sz.regs)
       (storeWait s (.ldl sz d a off) (singleEa a off (ldBytes sz))) (fun _ _ => 0) s = .go c 0 →
     (∀ l ∈ lanesOf c.mask, loadLs s c.g l (singleEa a off (ldBytes sz) c.g l) (ldBytes sz) = .ok (b l)) →
     ∃ t, exec (.ldl sz d a off) s = .next t ∧ LoadEffect s t c d.val sz.regs (fun l => loadWords sz (b l)) ∧ OnlyGroup s t c.gid) ∧
   (∀ sz d a off s c (b : Nat → List Byte), gate (.ldo sz d a off) ((needLoad.src a).dstN d.val sz.regs sz.regs)
       (storeWait s (.ldo sz d a off) (singleEa a off (oBytes sz))) (fun _ _ => 0) s = .go c 0 →
     (∀ l ∈ lanesOf c.mask, loadOb s c.g l (singleEa a off (oBytes sz) c.g l) (oBytes sz) = .ok (b l)) →
     ∃ t, exec (.ldo sz d a off) s = .next t ∧ LoadEffect s t c d.val sz.regs (fun l => bytesWords sz.regs (b l)) ∧ OnlyGroup s t c.gid)) ∧
  ((∀ sz d a off s c, let n := stBytes sz
     let at_ := fun l => lsPlace c.g l (singleEa a off n c.g l) n
     gate (.stl sz d a off) ((needStore.src a).srcN sz.regs d) (storeWait s (.stl sz d a off) (singleEa a off n))
       (fun _ _ => 0) s = .go c 0 → (∀ l ∈ lanesOf c.mask, ∃ p, at_ l = .ok p) →
     ∃ t, exec (.stl sz d a off) s = .next t ∧ (∀ q, t.byte q = s.byte q) ∧ (∀ k, k ≠ c.g.info.core → t.core k = s.core k) ∧
       (t.core c.g.info.core).ob = (s.core c.g.info.core).ob ∧ (∃ g, t.group? c.gid = some g ∧ g.r = c.g.r ∧ g.c.paths = advanced c) ∧
       (∀ x, (∀ l ∈ lanesOf c.mask, ∀ p, at_ l = .ok p → x < p ∨ p + n ≤ x) → (t.core c.g.info.core).lsByte x = (s.core c.g.info.core).lsByte x) ∧
       (∀ l ∈ lanesOf c.mask, ∀ p, at_ l = .ok p → (∀ m ∈ lanesOf c.mask, m ≠ l → ∀ q, at_ m = .ok q → p + n ≤ q ∨ q + n ≤ p) →
         (t.core c.g.info.core).lsBytes p n = storeBytes sz (lsrcWords c.g l sz.regs d))) ∧
   (∀ sz d a off s c, let n := oBytes sz
     let at_ := fun l => obPlace s c.g l (singleEa a off n c.g l) n
     gate (.sto sz d a off) ((needStore.src a).srcN sz.regs d) (storeWait s (.sto sz d a off) (singleEa a off n))
       (fun _ _ => 0) s = .go c 0 → (∀ l ∈ lanesOf c.mask, ∃ p, at_ l = .ok p) →
     ∃ t, exec (.sto sz d a off) s = .next t ∧ (∀ q, t.byte q = s.byte q) ∧ (∀ k, k ≠ c.g.info.core → t.core k = s.core k) ∧
       (t.core c.g.info.core).ls = (s.core c.g.info.core).ls ∧ (∃ g, t.group? c.gid = some g ∧ g.r = c.g.r ∧ g.c.paths = advanced c) ∧
       (∀ x, (∀ l ∈ lanesOf c.mask, ∀ p, at_ l = .ok p → x < p ∨ p + n ≤ x) → (t.core c.g.info.core).obByte x = (s.core c.g.info.core).obByte x) ∧
       (∀ l ∈ lanesOf c.mask, ∀ p, at_ l = .ok p → mget 0 (t.core c.g.info.core).obTag (p / 256) = 0 ∧
         ((∀ m ∈ lanesOf c.mask, m ≠ l → ∀ q, at_ m = .ok q → p + n ≤ q ∨ q + n ≤ p) →
           (t.core c.g.info.core).obBytes p n = (wordBytes (lsrcWords c.g l sz.regs d)).take n))) ∧
   (∀ op wide sc o d a s c, gate (.atoml op wide sc o d a) (((needLoad.src a).vblk d.val (atomRegs op wide) (atomRegs op wide)).dstN d.val (atomBack wide) (atomBack wide))
       (fun g => storeWait s (.atoml op wide sc o d a) (singleEa a 0 1) g || (Ord4.releases o && outstanding g [clsLSU])) (fun _ _ => 0) s = .go c 0 →
     (∀ l ∈ lanesOf c.mask, ∃ p, lsPlace c.g l (singleEa a 0 1 c.g l) (aopSize wide) = .ok p ∧ (s.core c.g.info.core).lsBad p (aopSize wide) = false) →
     ∃ t, exec (.atoml op wide sc o d a) s = .next t ∧ (∀ q, t.byte q = s.byte q) ∧ (∀ k, k ≠ c.g.info.core → t.core k = s.core k) ∧
       (∀ x, (∀ l ∈ lanesOf c.mask, ∀ p, lsPlace c.g l (singleEa a 0 1 c.g l) (aopSize wide) = .ok p → x < p ∨ p + aopSize wide ≤ x) →
         (t.core c.g.info.core).lsByte x = (s.core c.g.info.core).lsByte x) ∧
       (t.core c.g.info.core).ob = (s.core c.g.info.core).ob ∧
       ∃ g, t.group? c.gid = some g ∧ g.c.paths = advanced c ∧ g.r = { c.g.r with v := g.r.v, vmark := g.r.vmark } ∧
         (∀ l k, k < 128 → (l ∉ lanesOf c.mask ∨ k < d.val ∨ d.val + atomBack wide ≤ k) → g.r.getV l k = c.g.r.getV l k) ∧
         ∀ l p, lanesOf c.mask = [l] → lsPlace c.g l (singleEa a 0 1 c.g l) (aopSize wide) = .ok p →
           getVs g l d.val (atomBack wide) = bytesWords (atomBack wide) ((s.core c.g.info.core).lsBytes p (aopSize wide)) ∧
           (t.core c.g.info.core).lsBytes p (aopSize wide) =
             aopBytes op wide ((s.core c.g.info.core).lsBytes p (aopSize wide)) (getVs c.g l d.val (atomRegs op wide))))

/-- R156, R158, R176, R177, R180, R182, R183, R87: ST, RED under every operation, scope and order, and UST, when the accesses of their first line
pass, complete: outside the places that those lanes' addresses lead to, each found in the state its lane meets, every byte of memory and of cluster
SRAM is as before, but for dirty bytes of the core's L1 that are written back; the further lines are entered as requests; registers, local store and
operand buffer stay. Where one lane's access is all, its bytes stand at its place afterwards: a store's data, or what the operation makes of the
bytes that stood there.
The model's choices in it: log 5 (performed at issue), log 68 (a line is one of the addresses as the program gives them), log 79. -/
def Obligations.GlobalStores : Prop :=
  (∀ sz (ch : Fin 4) d a off s c, let i : Instr := .st sz ch d a off
    let n := stBytes sz
    let ea := pairEa a off n
    let need := (needStore.pair a).dataN sz.regs d
    let r := mkReq i c ea (stData sz.regs d) [] 0 s.now
    let lines := lineSets (ea c.g) c.mask
    let first := r.only (lines.headD 0) 0
    let places := storedAt (stLane sz ch.val) c.g first n 2 (ioSize n) (lanesOf first.lanes) (account need c s)
    gate i need (storeWait s i ea) (pageExtra ea) s = .go c 0 → Passes (stLane sz ch.val) c.g first (lanesOf first.lanes) (account need c s) →
    ∃ t, exec i s = .next t ∧ StoreEffect s t c r lines n places ∧
      ∀ l p, lanesOf first.lanes = [l] → places = [p] → p.plain s n → Stored t c.g.info.core p (storeBytes sz (lsrcWords c.g l sz.regs d))) ∧
  (∀ sz d a off s c, let i : Instr := .ust sz d a off
    let n := stBytes sz
    let ea := uniEa a off n
    let need := { (if sz.regs = 2 then (Need.ofUni.upair a).usrcPair d else (Need.ofUni.upair a).usrc d) with mem := true }
    let r := mkUniReq i c (ea c.g) (ustWords s c.g sz.regs d) [] 0 s.now
    let places := storedAt (ustAcc sz) c.g r n 2 (ioSize n) [64] (account need c s)
    gate i need (uniWait s i ea) (uniExtra ea) s = .go c 0 → Passes (ustAcc sz) c.g r [64] (account need c s) →
    ∃ t, exec i s = .next t ∧ StoreEffect s t c r [c.mask] n places ∧
      ∀ p, places = [p] → p.plain s n → Stored t c.g.info.core p (storeBytes sz (ustWords s c.g sz.regs d))) ∧
  (∀ op wide sc o d a s c, let i : Instr := .red op wide sc o d a
    let n := aopSize wide
    let k := if wide then 2 else 1
    let need := (needStore.pair a).srcN k d
    let r := mkReq i c (atomEa a) (fun g l => lsrcWords g l k d) [] 0 s.now
    let lines := lineSets (atomEa a c.g) c.mask
    let first := r.only (lines.headD 0) 0
    let core := c.g.info.core
    let u := if Ord4.releases o then releaseLsu (account need c s) core sc else account need c s
    let u := (redAcc op wide sc).pre u c.g first
    let places := storedAt (redLane op wide sc) c.g first n 3 false (lanesOf first.lanes) u
    gate i need (fun g => storeWait s i (atomEa a) g || (Ord4.releases o && outstanding g [clsLSU])) (pageExtra (atomEa a)) s = .go c 0 →
    Passes (redLane op wide sc) c.g first (lanesOf first.lanes) u →
    ∃ t, exec i s = .next t ∧ StoreEffect s t c r lines n places ∧
      (∀ l pa mt, lanesOf first.lanes = [l] → places = [.phys pa mt] → region s pa = .hbm → pa % 128 + n ≤ 128 →
        ((find? (s.core core).l1 (pa / 128) = none ∧ ∀ e ∈ (s.core core).l1, e.2.dirty = 0) ∨
          (scopeCode sc ≤ 2 ∧ mt = 0 ∧ s.l1Hit core pa n = true)) →
        Stored t core (.phys pa mt) (aopBytes op wide ((List.range n).map fun j => s.seen core (pa + j)) (lsrcWords c.g l k d))) ∧
      ∀ l x, lanesOf first.lanes = [l] → places = [.scratch x] →
        Stored t core (.scratch x) (aopBytes op wide ((s.cluster (clusterOf core)).sramBytes x n) (lsrcWords c.g l k d)))

/-- R158, R180, R2: a load of global memory whose address leads to local memory that no L1 holds and no poison marks gives the bytes of memory, the
lowest address in the lowest byte. R158, R159, R289: bytes stored through a core's LSU are what the same core loads next from there, if they are not
poisoned. R182: the new value of every atomic operation on 32 bits, and that CAS stores its operand only where the comparand stood.
The model's choices in it: log 2 and log 5. -/
def Obligations.MemoryValuesOfLoadsAndAtomics : Prop :=
  ((∀ s g pc ea n ch io pa mt u, n ≤ 16 → place s g pc ea n 1 io true = (u, .ok (.phys pa mt)) → region u pa = .hbm → u.poisoned pa = false →
     pa % 128 + n ≤ 128 → find? (u.core g.info.core).l1 (pa / 128) = none → OwnLine u g.info.core pa →
     (loadGlobal s g pc ea n ch io).2 = .ok (u.bytes (loc pa) n)) ∧
   (∀ b : List Byte, b.length = 4 → loadWords .b32 b = [BitVec.ofNat 32 (leNat b)]) ∧
   (∀ x : Byte, loadWords .n8 [x] = [x.setWidth 32] ∧ loadWords .s8 [x] = [x.signExtend 32])) ∧
  (∀ (s : State) (c pa ch ch' : Nat) (bs : List Byte) (cached : Bool), region s pa = .hbm → 0 < bs.length → pa % 128 + bs.length ≤ 128 →
     s.poisoned pa = false → (∀ l, find? (s.core c).l1 (pa / 128) = some l → l.poison = false) → OwnLine s c pa →
     ((s.lsuWrite c pa ch cached bs false).lsuRead c pa bs.length ch' cached).2 = some bs) ∧
  (∀ (old d q f : Word), aopNew .add old d q f = .ofNat 32 (old.toNat + d.toNat) ∧ aopNew .minS old d q f = (if old.toInt ≤ d.toInt then old else d) ∧
     aopNew .minN old d q f = (if old.toNat ≤ d.toNat then old else d) ∧ aopNew .maxS old d q f = (if old.toInt ≥ d.toInt then old else d) ∧
     aopNew .maxN old d q f = (if old.toNat ≥ d.toNat then old else d) ∧ aopNew .and old d q f = old &&& d ∧ aopNew .or old d q f = old ||| d ∧
     aopNew .xor old d q f = old ^^^ d ∧ aopNew .swap old d q f = d ∧ aopNew .cas old d q f = (if old = q then d else old) ∧
     aopBytes .fadd false (leBytes 4 old.toNat) [d] = leBytes 4 (fadd32 .rne old d).1.toNat)

/-! ## Control flow (R73 to R75, R89 to R98, R107, R108) -/

/-- R108: UNOP changes nothing, whatever its off25: registers, scoreboard, join records and a latch chain in progress stay, and the path goes on
behind it; every word of its op is UNOP. -/
def Obligations.UnopChangesNothing : Prop :=
  (∀ x s c, gate (.unop x) Need.ofUni (fun _ => false) (fun _ _ => 0) s = .go c 0 → ∃ t g, exec (.unop x) s = .next t ∧ OnlyGroup s t c.gid ∧
    t.group? c.gid = some g ∧ g.info = c.g.info ∧ g.r = c.g.r ∧ g.c.paths = advanced c ∧ g.c.sb = c.g.c.sb ∧ g.c.joins = c.g.c.joins ∧
    g.c.wait = c.g.c.wait ∧ g.c.alloc = c.g.c.alloc ∧ ∀ k, c.g.c.chain = some k → k.firm = true → g.c.chain = some k) ∧
  (∀ (x : BitVec 25) lit, decodeWord (.ofNat 32 (2 ^ 31 + 0x32 * 2 ^ 25 + x.toNat)) lit = some (.unop x))

/-- R89, R108: BRA, BRC, JMPI and UNOP move only the program counter, to the target their rule gives, whatever the active mask. R90: CALL pushes the
address after it in every active lane and goes to its target; a CALL with a full stack raises the trap of code 0x37 (R304). RET pops every active
lane: those with an empty stack end, as under EXIT, and the sets that return to one address go on, the one of the lowest lane as the current entry and
the others right after it, with no join record; in a full table R74 evicts.
The model's choices in it: log 21 (a RET that ends lanes or evicts waits for accesses in flight). -/
def Obligations.BranchesCallsAndReturns : Prop :=
  ((∀ off s c, gate (.bra off) needCtl (fun _ => false) (fun _ _ => 0) s = .go c 0 → ∃ t, exec (.bra off) s = .next t ∧
     CtlEffect s t c fun g => g.r = c.g.r ∧ AtPc c (target c.pc off.toInt) g) ∧
   (∀ cc a off s c, gate (.brc cc a off) (needCtl.usrc a) (fun _ => false) (fun _ _ => 0) s = .go c 0 → ∃ t, exec (.brc cc a off) s = .next t ∧
     CtlEffect s t c fun g => g.r = c.g.r ∧
       AtPc c (if Spec.branch cc (usrc s c.g a) then target c.pc off.toInt else (c.pc + c.size) % 2 ^ 64) g) ∧
   (∀ a s c, gate (.jmpi a) (needCtl.upair a) (fun _ => false) (fun _ _ => 0) s = .go c 0 → ∃ t, exec (.jmpi a) s = .next t ∧
     CtlEffect s t c fun g => g.r = c.g.r ∧ AtPc c ((upair c.g a).toNat % 2 ^ 57 / 4 * 4) g) ∧
   (∀ x s c, gate (.unop x) Need.ofUni (fun _ => false) (fun _ _ => 0) s = .go c 0 → ∃ t, exec (.unop x) s = .next t ∧
     CtlEffect s t c fun g => g.r = c.g.r ∧ AtPc c ((c.pc + 4) % 2 ^ 64) g)) ∧
  ((∀ off s c, gate (.call off) needCtl (fun _ => false) (fun _ _ => 0) s = .go c 0 → stackFull c.g c.mask = false →
     ∃ t, exec (.call off) s = .next t ∧ CtlEffect s t c fun g => AtPc c (target c.pc off.toInt) g ∧ g.r = { c.g.r with stack := g.r.stack } ∧
       ∀ l, mget [] g.r.stack l = if l < 64 ∧ c.mask.getLsbD l then ((c.pc + 4) % 2 ^ 64) :: mget [] c.g.r.stack l else mget [] c.g.r.stack l) ∧
   (∀ off s c, gate (.call off) needCtl (fun _ => false) (fun _ _ => 0) s = .go c 0 → stackFull c.g c.mask = true →
     exec (.call off) s = .next (takeTrap s c.gid 0x37 0 c.pc).1) ∧
   (∀ s c a, gate .ret needCtl (fun g => match curPath g.c.paths with
       | some p => lanesBusy g (retExits g p.mask) || exitHeld s g (retExits g p.mask) || leaveBusy g ((retSets g p.mask).length - 1)
       | none => false) (fun g m => exitStops g (retExits g m)) s = .go c 0 → c.mask ≠ 0 →
     (∀ l ∈ lanesOf c.mask, (mget [] c.g.r.stack l).head? = some a) → c.g.c.paths.length ≤ 8 → a < 2 ^ 64 →
     ∃ t, exec .ret s = .next t ∧ CtlEffect s t c fun g => AtPc c a g ∧
       ∀ l, l < 64 → mget [] g.r.stack l = if c.mask.getLsbD l then (mget [] c.g.r.stack l).drop 1 else mget [] c.g.r.stack l) ∧
   (∀ s c, gate .ret needCtl (fun g => match curPath g.c.paths with
       | some p => lanesBusy g (retExits g p.mask) || exitHeld s g (retExits g p.mask) || leaveBusy g ((retSets g p.mask).length - 1)
       | none => false) (fun g m => exitStops g (retExits g m)) s = .go c 0 →
     let top := fun l => (mget [] c.g.r.stack l).headD 0
     let out := retExits c.g c.mask
     let sets := retSets c.g c.mask
     (∀ l, l < 64 → (out.getLsbD l = true ↔ c.mask.getLsbD l = true ∧ mget [] c.g.r.stack l = [])) ∧
     SharedOut (c.mask &&& ~~~out) top (sets.map (·.2)) ∧ (∀ x ∈ sets, ∀ l, l < 64 → x.2.getLsbD l = true → x.1 = top l) ∧
     ∃ t, exec .ret s = .next t ∧
       (out = 0 → c.g.c.paths.length + sets.length ≤ 9 → CtlEffect s t c fun g => Splits c sets g ∧ g.c.joins = c.g.c.joins ∧
         ∀ l, l < 64 → mget [] g.r.stack l = if c.mask.getLsbD l then (mget [] c.g.r.stack l).drop 1 else mget [] c.g.r.stack l) ∧
       (sets ≠ [] → c.g.c.paths.length + sets.length ≤ 9 → ∃ g, t.group? c.gid = some g ∧ (∀ p ∈ g.c.paths, p.mask &&& out = 0) ∧
         (∀ x ∈ sets, ∃ p ∈ g.c.paths, p.pc = x.1 ∧ p.mask = x.2) ∧
         ∀ l ∈ lanesOf (c.mask &&& ~~~out), mget [] g.r.stack l = (mget [] c.g.r.stack l).drop 1) ∧
       (out = c.mask → c.mask ≠ 0 → ∀ p, c.g.c.paths = [p] → t.group? c.gid = none) ∧
       ∀ a b, out = 0 → sets = [a, b] → c.g.c.paths.length = 8 → SplitsFull s t c a b))

/-- R73, R74, R91: BRD falls through or jumps when one side is empty; otherwise, while the path table takes another entry, the record is open over the
path's lanes, the fall-through side runs on and the taken side waits right after it. BRXD jumps when its lanes agree; else each set of lanes that
agree goes on at its address, in order of the lowest lane, the first as the current entry and the others right after it. A BRD or BRXD that needs one
entry more than the table of eight has sends the WAIT or ARRIVED entry with the oldest stamp to the former, or, where every other entry is PARKED, its
new side (R74). JOIN without an open record acts as UNOP; with one, the path arrives, and when its lanes are the last, all that have arrived run on
after this JOIN and the record closes (R73). R75: a BRS with one side empty falls through or jumps; with both sides
taken, the side with fewer lanes, on a tie the taken side, leaves for the former of the group's core, one entry a thread with its address, identifier
and registers, and the other side runs on at its own address. R80: where the threads that must leave find no room, BRD, BRS and BRXD stall where they
stand.
The model's choices in it: log 21 (what sends threads to the former waits for accesses in flight). -/
def Obligations.DivergenceJoinAndSplit : Prop :=
  ((∀ r j off s c, gate (.brd r j off) (needBr r.val) (onPath fun g p => decide (brsOut g r.val p.mask ≠ 0) && leaveBusy g 1) (fun _ _ => 0) s = .go c 0 →
     let taken := takenLanes c.g r.val c.mask
     let fall := c.mask &&& ~~~taken
     let sets := [((c.pc + 4) % 2 ^ 64, fall), (target c.pc off.toInt, taken)]
     ∃ t, exec (.brd r j off) s = .next t ∧
       (taken = 0 → CtlEffect s t c fun g => g.r = c.g.r ∧ AtPc c ((c.pc + c.size) % 2 ^ 64) g ∧ g.c.joins = c.g.c.joins) ∧
       (taken ≠ 0 → fall = 0 → CtlEffect s t c fun g => g.r = c.g.r ∧ AtPc c (target c.pc off.toInt) g ∧ g.c.joins = c.g.c.joins) ∧
       (taken ≠ 0 → fall ≠ 0 → c.g.c.paths.length < 8 → CtlEffect s t c fun g => SplitTo c j.val sets g) ∧
       (taken ≠ 0 → fall ≠ 0 → c.g.c.paths.length = 8 → SplitsFull s t c ((c.pc + 4) % 2 ^ 64, fall) (target c.pc off.toInt, taken)) ∧
       (taken ≠ 0 → fall ≠ 0 → roomFor s c.g (splitLeavers c.g sets) = false → Stalled t c)) ∧
   (∀ r j s c, gate (.brxd r j) (needBr r.val) (onPath fun g p => leaveBusy g ((brxdSets g r.val p.pc p.mask).length - 1)) (fun _ _ => 0) s = .go c 0 →
     let goal := fun l => target c.pc ((c.g.r.getV l r.val).toInt / 4)
     let sets := brxdSets c.g r.val c.pc c.mask
     SharedOut c.mask goal (sets.map (·.2)) ∧ (∀ x ∈ sets, ∀ l, l < 64 → x.2.getLsbD l = true → x.1 = goal l) ∧
     ∃ t, exec (.brxd r j) s = .next t ∧
       (∀ a, c.mask ≠ 0 → (∀ l ∈ lanesOf c.mask, goal l = a) → CtlEffect s t c fun g => g.r = c.g.r ∧ AtPc c a g ∧ g.c.joins = c.g.c.joins) ∧
       (2 ≤ sets.length → c.g.c.paths.length + sets.length ≤ 9 → CtlEffect s t c fun g => SplitTo c j.val sets g) ∧
       (∀ a b, sets = [a, b] → c.g.c.paths.length = 8 → SplitsFull s t c a b) ∧
       (2 ≤ sets.length → roomFor s c.g (splitLeavers c.g sets) = false → Stalled t c)) ∧
   (∀ j s c, gate (.join j) needCtl (fun _ => false) (fun _ _ => 0) s = .go c 0 →
     ∃ t, exec (.join j) s = .next t ∧
       (find? c.g.c.joins j.val = none → CtlEffect s t c fun g => g.r = c.g.r ∧ AtPc c ((c.pc + 4) % 2 ^ 64) g ∧ g.c.joins = c.g.c.joins) ∧
       (∀ k, find? c.g.c.joins j.val = some k → CtlEffect s t c fun g => g.r = c.g.r ∧
         let ps := setCur (advanced c) fun p => { p with st := .arrived j.val, pc := c.pc }
         let m := k.arrived ||| c.mask
         (m ≠ k.expect → g.c.paths = settle ps ∧ g.c.joins = mset c.g.c.joins j.val { k with arrived := m }) ∧
         (m = k.expect → g.c.paths = settle (mergeAt (some c.pc) j.val ps) ∧ g.c.joins = merase c.g.c.joins j.val ∧
           (∀ p ∈ g.c.paths, p.st ≠ .arrived j.val) ∧ ∃ p ∈ g.c.paths, p.pc = (c.pc + 4) % 2 ^ 64 ∧ c.mask &&& ~~~p.mask = 0)))) ∧
  (∀ r off s c, gate (.brs r off) (needBr r.val) (onPath fun g p => lanesBusy g (brsOut g r.val p.mask)) (fun _ _ => 0) s = .go c 0 →
     let taken := takenLanes c.g r.val c.mask
     let fall := c.mask &&& ~~~taken
     let behind := (c.pc + 4) % 2 ^ 64
     let goal := target c.pc off.toInt
     let x : (Mask × Nat) × (Mask × Nat) := if laneCount taken ≤ laneCount fall then ((taken, goal), (fall, behind)) else ((fall, behind), (taken, goal))
     ∃ t, exec (.brs r off) s = .next t ∧
       (taken = 0 → CtlEffect s t c fun g => g.r = c.g.r ∧ AtPc c behind g) ∧
       (taken ≠ 0 → fall = 0 → CtlEffect s t c fun g => g.r = c.g.r ∧ AtPc c goal g) ∧
       (taken ≠ 0 → fall ≠ 0 → roomFor s c.g (laneCount x.1.1) = false → Stalled t c) ∧
       (taken ≠ 0 → fall ≠ 0 → roomFor s c.g (laneCount x.1.1) = true →
         (∃ new, (t.core c.g.info.core).entries = (s.core c.g.info.core).entries ++ new ∧
           new.map (fun e => (e.source, e.pc, e.wid, e.regs)) =
             (lanesOf x.1.1).map fun l => (.split, x.1.2, mget 0 c.g.r.wid l, laneRegs c.g.r.v l)) ∧
         (∀ q, t.byte q = s.byte q) ∧ (∀ k, k ≠ c.gid → t.group? k = s.group? k) ∧
         ∃ g, t.group? c.gid = some g ∧ g.r.v = c.g.r.v ∧ (∃ p ∈ g.c.paths, p.pc = x.2.2 ∧ p.mask = x.2.1) ∧
           (∀ p ∈ g.c.paths, p.mask &&& x.1.1 = 0) ∧ (c.g.c.joins = [] → (curPath g.c.paths).map (fun p => (p.pc, p.mask)) = some (x.2.2, x.2.1))))

/-- R96, R97, R98: EXIT of a group's only path ends the group; YIELD makes it wait 32 cc; ACQ does nothing at FULL, else the group waits. R42, R67,
R69, R97, R98, R107: a result that has become readable leaves its entry and its flags reach FSTAT; a YIELD ends after its time; the oldest group that
waits in ACQ rises to FULL when the core has the registers; of the groups of an issue slot that have been ready for 256 cc with a word of one kind, the
oldest issues next.
The model's choices in it: log 3 (an act on the agenda), log 13, log 21 (EXIT waits for accesses in flight) and log 67 (since when a group is ready). -/
def Obligations.YieldAcquireExitAndIssueEvents : Prop :=
  ((∀ s c p, gate .exit needCtl (onPath fun g p => lanesBusy g p.mask || exitHeld s g p.mask) exitStops s = .go c 0 →
     c.g.c.paths = [p] → ∃ t, exec .exit s = .next t ∧ t.group? c.gid = none) ∧
   (∀ s c, gate .yield needCtl (fun _ => false) (fun _ _ => 0) s = .go c 0 → ∃ t, exec .yield s = .next t ∧
     CtlEffect s t c fun g => g.r = c.g.r ∧ g.c.paths = advanced c ∧ g.c.wait = .yielding (s.now + 32)) ∧
   (∀ s c, gate .acq needCtl (fun _ => false) (fun _ _ => 0) s = .go c 0 → ∃ t, exec .acq s = .next t ∧
     CtlEffect s t c fun g => g.r = c.g.r ∧ g.c.paths = advanced c ∧ g.c.wait = (if c.g.info.prog.full ≤ c.g.c.alloc then .none else .acq))) ∧
  ((∀ s gid g e p r, s.group? gid = some g → find? g.c.sb e = some p → p.ready = some r → r ≤ s.now →
     ∃ t, exec (.resultWriteback gid e) s = .next t ∧ GroupEffect s t gid fun h => find? h.c.sb e = none ∧ h.r = { g.r with fstat := g.r.fstat ||| p.flags } ∧
       (∀ k, k ≠ e → find? h.c.sb k = find? g.c.sb k) ∧ h.c.paths = g.c.paths) ∧
   (∀ s gid g r, s.group? gid = some g → g.c.wait = .yielding r → r ≤ s.now → ∃ t, exec (.yieldExpiry gid) s = .next t ∧
     GroupEffect s t gid fun h => h.r = g.r ∧ h.c = { g.c with wait := .none, readyCc := s.now }) ∧
   (∀ s core gid g, s.group? gid = some g → g.c.wait = .acq → g.info.core = core → (s.vdev g.info.vdev).st = .live →
     (∀ e ∈ s.groups, e.2.info.core = core → e.2.c.wait = .acq → e = (gid, g) ∨ g.info.age < e.2.info.age) →
     8 * (g.info.prog.full - g.c.alloc) * g.info.width ≤ regsFree s core →
     ∃ t, exec (.acqGrant core) s = .next t ∧ GroupEffect s t gid fun h => h.c.alloc = g.info.prog.full ∧ h.c.wait = .none ∧
       ∀ l k, k < 128 → h.r.getV l k = if k < 8 * min g.c.alloc g.info.prog.full then g.r.getV l k else 0) ∧
   (∀ s gid g p, s.group? gid = some g → curPath g.c.paths = some p → mayRun s gid g = true → g.c.readyCc + 256 ≤ s.now →
     (∀ e ∈ s.groups, e.2.info.core = g.info.core → e.2.info.slot = g.info.slot → nextPerLane s e.2 = nextPerLane s g → starved s e.1 e.2 = true →
       g.info.age ≤ e.2.info.age) → exec (.starvationPromotion gid) s = .next { s with agenda := .issue gid :: s.agenda }))

/-! ## Traps, illegal words, what keeps an instruction from issuing (R46, R49, R50, R69, R303 to R306) -/

/-- R46, R48, R50, R69, R70, R71, R306: an instruction issues when its group may run, no trap condition holds, no pending entry covers a register of
it, no other chain owns the slot, the power rules allow it and no lane reads poison; a held one changes nothing. R50, R303, R320, R321, R334: one that
meets a trap condition kills its group with the code of the first that holds, 0x30 to 0x34, which the sticky error, the first-error record if none is
held, and an event of type KILL record, or EVLOST where the log is full. R301, R306: lanes that all consume poison of packets park their path at the
instruction, which has no effect; where some of them hold fatal marks these take their fault, with the code in ERRST, the sticky error, the first-error
record and an event of type MEMFAULT.
The model's choices in it: log 38 (the order of fatal and parked lanes), log 101 (a latch read by an instruction that writes none), and what the gate
asks of an instruction beyond the rules: log 21, log 47 and log 79. -/
def Obligations.IssueConditionsAndPoison : Prop :=
  ((∀ i n w e s gid g p, s.cur = some gid → s.group? gid = some g → curPath g.c.paths = some p → g.c.wait = .none → (s.vdev g.info.vdev).st = .live →
     trapOf s g n = none → sbHeld g n = false → 0 < (s.cluster (clusterOf g.info.core)).energy → (s.die (dieOf (clusterOf g.info.core))).c210 = false →
     releaseHeld s gid g = false → (n.mem = true → unsentLines g = false) →
     slotChained s gid g = false → mmarPending g = false → w g = false → g.r.vmark = [] → g.r.gmark = [] → e g p.mask &&& p.mask = 0 →
     gate i n w e s = .go ⟨gid, g, p.pc, i.size, p.mask, endsChain i⟩ 0) ∧
   (∀ i n w e s, Gated s i n w e → (gate i n w e s = .held → exec i s = .next s) ∧
     ∀ gid code pc, gate i n w e s = .trap gid code pc → ∃ t g p, exec i s = .next t ∧ s.group? gid = some g ∧ curPath g.c.paths = some p ∧
       pc = p.pc ∧ trapOf s g n = some code ∧ Killed s t gid code pc 0 p.mask) ∧
   (∀ s g n, let c30 := n.priv = true ∧ privileged s g.info.vdev = false
     let c31 := ∃ b ∈ n.vsrc ++ n.vdst, 8 * g.c.alloc < b.1 + b.2.1
     let c32 := (∃ b ∈ n.vsrc ++ n.vdst, b.1 % b.2.2 ≠ 0) ∨ ∃ r ∈ n.even, r % 2 ≠ 0
     let c33 := n.latches ≠ [] ∧ ∀ k, g.c.chain = some k → 8 ≤ k.len ∨ ∃ l ∈ n.latches, k.wrote.getLsbD l = false
     let c34 := ∃ k l, n.win = some k ∧ l ∈ winLanes g n ∧ winSize g l k = 0
     (c30 → trapOf s g n = some 0x30) ∧ (¬ c30 → c31 → trapOf s g n = some 0x31) ∧ (¬ c30 → ¬ c31 → c32 → trapOf s g n = some 0x32) ∧
     (¬ c30 → ¬ c31 → ¬ c32 → c33 → trapOf s g n = some 0x33) ∧ (¬ c30 → ¬ c31 → ¬ c32 → ¬ c33 → c34 → trapOf s g n = some 0x34) ∧
     (¬ c30 → ¬ c31 → ¬ c32 → ¬ c33 → ¬ c34 → trapOf s g n = none)) ∧
   (∀ g n, sbHeld g n = true ↔ ((∃ e ∈ g.c.sb, (∃ r ∈ n.vreads ++ n.vwrites, r ∈ e.2.vregs) ∨ ∃ r ∈ n.greads ++ n.gwrites, r ∈ e.2.gregs) ∨
     (n.entry = true ∧ 16 ≤ g.c.sb.length)))) ∧
  (∀ i n w e s c, Gated s i n w e → c.mask ≠ 0 → gate i n w e s = .go c c.mask → ∃ t, exec i s = .next t ∧
     let k := settleMarks n c.mask c.g.c c.g.r
     ((∀ f ∈ k.fatal, c.mask.getLsbD f.1 = false) → GroupEffect s t c.gid fun g => g.r = c.g.r ∧
       g.c.paths = settle (setCur c.g.c.paths fun p => { p with st := .parked })) ∧
     ∀ lane f rest, (k.fatal.filter fun f => c.mask.getLsbD f.1) = (lane, f) :: rest → Faulted s t c lane f (lane :: rest.map (·.1)))

/-- R49, R304, R320: under TRAPMODE STOP, TRAP and BKPT stop the group where it stands, with KIND 3 and the cause in ERRST, a token to answer and an
event of type TRAP with the instruction's code; under KILL, TRAP kills the group with code 0x35 and BKPT acts as UNOP. An illegal word kills its group
with code 0x3F and its word in the first-error record.
The model's choices in it: log 11 (the event of an illegal word). -/
def Obligations.TrapsAndIllegalWords : Prop :=
  (∀ s c, ∀ x ∈ ([(.trap, 0x35), (.bkpt, 0x36)] : List ((BitVec 13 → Instr) × Nat)), ∀ code,
    gate (x.1 code) Need.ofUni (fun _ => false) (fun _ _ => 0) s = .go c 0 → trapStops s c.g.info.vdev = true →
    ∃ t tok, exec (x.1 code) s = .next t ∧ (∀ k, k ≠ c.gid → t.group? k = s.group? k) ∧
      (find? (t.vdev c.g.info.vdev).tokens tok).map (·.kind) = some (.trap c.gid) ∧
      t.group? c.gid = some { c.g with c := { c.g.c with wait := .trapped tok x.2 }, r := { c.g.r with errst := .ofNat 32 (3 * 2 ^ 28 + x.2) } } ∧
      Logged s t c.g.info.vdev ⟨evTrap, x.2, 0, lowLane c.mask, c.g.info.gen, code.toNat, c.pc, c.g.info.core, c.g.info.slot, tok⟩) ∧
  (∀ s c code, gate (.trap code) Need.ofUni (fun _ => false) (fun _ _ => 0) s = .go c 0 → trapStops s c.g.info.vdev = false →
    ∃ t, exec (.trap code) s = .next t ∧ Killed s t c.gid 0x35 c.pc 0 c.mask) ∧
  (∀ s c code, gate (.bkpt code) Need.ofUni (fun _ => false) (fun _ _ => 0) s = .go c 0 → trapStops s c.g.info.vdev = false →
    ∃ t, exec (.bkpt code) s = .next t ∧ CtlEffect s t c fun g => g.r = c.g.r ∧ g.c.paths = advanced c) ∧
  (∀ w s c, gate (.unop 0) Need.ofUni (fun _ => false) (fun _ _ => 0) s = .go c 0 → ∃ t, exec (.illegalWord w) s = .next t ∧
    Killed s t c.gid 0x3F c.pc w.toNat c.mask)

/-! ## Special registers and sharing (R60, R98, R100 to R103, R107) -/

/-- R60, R107: RDSR gives the register's value in 4 cc, FSTAT once no flag is pending; WRSR writes FSTAT, READCOUNT and SEEDKEY, which clears the RSR
counter, and nothing else. R109: WFLD gives each lane a field of its work identifier, with the widths of that lane's thread.
The model's choices in it: log 93 (the entry that a WFLD which writes only the latch takes). -/
def Obligations.SpecialRegisters : Prop :=
  ((∀ d r s c, r.wide = false → gate (.rdsr d r) (Need.ofUni.udst d) (fun g => decide (r = .fstat) && flagsPending g) (fun _ _ => 0) s = .go c 0 →
     ∃ t, exec (.rdsr d r) s = .next t ∧ UniEffect s t c d [.ofNat 32 (Spec.special s c.g r)] 4) ∧
   (∀ d r s c, r.wide = true → gate (.rdsr d r) (Need.ofUni.udstPair d) (fun _ => false) (fun _ _ => 0) s = .go c 0 →
     ∃ t, exec (.rdsr d r) s = .next t ∧ UniEffect s t c d [.ofNat 32 (Spec.special s c.g r), .ofNat 32 (Spec.special s c.g r / 2 ^ 32)] 4) ∧
   (∀ r a s c, gate (.wrsr r a) (if r.wide then Need.ofUni.usrcPair a else Need.ofUni.usrc a) (fun _ => false) (fun _ _ => 0) s = .go c 0 →
     ∃ t, exec (.wrsr r a) s = .next t ∧ CtlEffect s t c fun g => g.c.paths = advanced c ∧
       g.r = match r with
         | .fstat => { c.g.r with fstat := (usrc s c.g a).setWidth 5 }
         | .readcount => { c.g.r with readcount := (usrc s c.g a).setWidth 8 }
         | .seedkey => { c.g.r with seedkey := usrcPair c.g a, rsr := 0 }
         | _ => c.g.r)) ∧
  (∀ k d, LaneResultOf (.wfld k d) (needB0.dst d) (dstReg d) 1 0 4 fun c l => ⟨[widField (c.g.laneFields l) k.val (mget 0 c.g.r.wid l)], 0⟩)

/-- R100, R101: GIVE refuses with statuses 3, 2 and 1, in that order, and otherwise moves units from its group into the named group's box: a giver of
registers loses its top ones. R102: CLAIM takes units out of its own box when it holds them and gives the new total, and claimed registers read 0; a
group of handlers or split threads, or a claim beyond 14 register units, gets all ones; else it waits until the box holds them.
The model's choices in it: log 47 (the order of statuses). -/
def Obligations.GivingAndClaimingUnits : Prop :=
  (∀ res d a b s c, gate (.give res d a b) (((Need.ofUni.usrc a).usrc b).udst d)
       (fun g => decide (res = .reg) && decide (giveStatus g res (usrc s g a).toNat (usrc s g b).toNat = 0) && decide ((usrc s g a).toNat ≠ 0)
         && pendingFrom g (8 * (g.c.alloc - (usrc s g a).toNat))) (fun _ _ => 0) s = .go c 0 →
     let n := (usrc s c.g a).toNat
     let f := (usrc s c.g b).toNat
     let bad := c.g.info.prog.e1 ≤ f ∨ f = c.g.info.f1
     ∃ t, exec (.give res d a b) s = .next t ∧
       (c.g.formerBuilt = true → UniEffect s t c d [3] 0) ∧
       (c.g.formerBuilt = false → n = 0 → UniEffect s t c d [0] 0) ∧
       (c.g.formerBuilt = false → n ≠ 0 → bad → UniEffect s t c d [2] 0) ∧
       (c.g.formerBuilt = false → n ≠ 0 → ¬ bad → givable c.g res < n → UniEffect s t c d [1] 0) ∧
       (c.g.formerBuilt = false → n ≠ 0 → ¬ bad → n ≤ givable c.g res → WgFrame s t c.gid c.g.info.wg ∧
         (∃ g, t.group? c.gid = some g ∧ g.info = c.g.info ∧ g.c.paths = advanced c ∧
           (∀ r, holding g r = if r = res then holding c.g r - n else holding c.g r) ∧
           (∀ k, g.ug k = if d = .zero ∨ ∀ r, d = .g r → k ≠ r.val then c.g.ug k else 0) ∧
           (res ≠ .reg → OnlyD d 0 c.g.r g.r) ∧ (res = .reg → Resized c.g.c.alloc (c.g.c.alloc - n) c.g.r g.r)) ∧
         ∀ w, s.wg? c.g.info.wg = some w → ∃ w', t.wg? c.g.info.wg = some w' ∧ BoxHolds w w' f (resIdx res) (boxOf w f (resIdx res) + n))) ∧
  ((∀ res d a s c, gate (.claim res d a) ((Need.ofUni.usrc a).udst d) (fun _ => false) (fun _ _ => 0) s = .go c 0 →
     let n := (usrc s c.g a).toNat
     let no := c.g.formerBuilt = true ∨ (res = .reg ∧ 14 < c.g.c.alloc + n)
     ∃ t, exec (.claim res d a) s = .next t ∧
       (no → UniEffect s t c d [0xFFFFFFFF] 0) ∧
       (¬ no → boxHas s c.g res n = true → WgFrame s t c.gid c.g.info.wg ∧
         (∃ g, t.group? c.gid = some g ∧ g.info = c.g.info ∧ g.c.paths = advanced c ∧
           (∀ r, holding g r = if r = res then holding c.g r + n else holding c.g r) ∧
           (∀ k, g.ug k = if d = .zero ∨ ∀ r, d = .g r → k ≠ r.val then c.g.ug k else .ofNat 32 (holding c.g res + n)) ∧
           (res ≠ .reg → OnlyD d (.ofNat 32 (holding c.g res + n)) c.g.r g.r) ∧ (res = .reg → Resized c.g.c.alloc (c.g.c.alloc + n) c.g.r g.r)) ∧
         ∀ w, s.wg? c.g.info.wg = some w → ∃ w', t.wg? c.g.info.wg = some w' ∧ BoxHolds w w' c.g.info.f1 (resIdx res) (boxOf w c.g.info.f1 (resIdx res) - n)) ∧
       (¬ no → boxHas s c.g res n = false → CtlEffect s t c fun g => g.r = c.g.r ∧ g.c.paths = advanced c ∧ g.c.wait = .claim res n d)) ∧
   (∀ s gid g res n d, s.group? gid = some g → g.c.wait = .claim res n d → (s.vdev g.info.vdev).st = .live → boxHas s g res n = true →
     ∃ t h, exec (.claimGrant gid) s = .next t ∧ t.group? gid = some h ∧ h.c.wait = .none ∧ holding h res = holding g res + n ∧
       ∀ r, d = .g r → h.ug r.val = .ofNat 32 (holding g res + n)))

/-- R103: MTOK.PASS gives status 3 to a group of handlers or split threads, 1 to a group that does not hold the token, 2 for an index without a live
group, each with no effect, and else status 0, with the token passed, or freed for 0xFFFFFFFF; MTOK.TAKE reads 0 at once for the holder, and else
waits behind the older waiters; once the token is free or handed to the waiter, the grant gives it the token and its D reads 0. Registers other than
D, other groups and workgroups, and memory stay.
The model's choices in it: log 47 (the order of statuses), log 80 (MTOK.TAKE gives such a group status 3 too). -/
def Obligations.MatrixToken : Prop :=
  (∀ d a s c, gate (.mtokPass d a) ((Need.ofUni.usrc a).udst d) (fun _ => false) (fun _ _ => 0) s = .go c 0 →
    let v := usrc s c.g a
    let held := (s.wg? c.g.info.wg).bind (·.token) = some c.gid
    let heir := groupOf s c.g.info.wg v.toNat
    ∃ t, exec (.mtokPass d a) s = .next t ∧
      (c.g.formerBuilt = true → UniEffect s t c d [3] 0) ∧
      (c.g.formerBuilt = false → ¬ held → UniEffect s t c d [1] 0) ∧
      (c.g.formerBuilt = false → held → v ≠ 0xFFFFFFFF → heir = none → UniEffect s t c d [2] 0) ∧
      (c.g.formerBuilt = false → held → (v = 0xFFFFFFFF ∨ heir ≠ none) → WgFrame s t c.gid c.g.info.wg ∧
        t.wg? c.g.info.wg = (s.wg? c.g.info.wg).map (fun w => { w with token := if v = 0xFFFFFFFF then none else heir }) ∧
        ∃ g, t.group? c.gid = some g ∧ g.info = c.g.info ∧ g.c.paths = advanced c ∧ OnlyD d 0 c.g.r g.r)) ∧
  (∀ d s c, gate (.mtokTake d) (Need.ofUni.udst d) (fun _ => false) (fun _ _ => 0) s = .go c 0 →
    let held := (s.wg? c.g.info.wg).bind (·.token) = some c.gid
    ∃ t, exec (.mtokTake d) s = .next t ∧
      (c.g.formerBuilt = true → UniEffect s t c d [3] 0) ∧
      (c.g.formerBuilt = false → held → UniEffect s t c d [0] 0) ∧
      (c.g.formerBuilt = false → ¬ held → WgFrame s t c.gid c.g.info.wg ∧
        t.wg? c.g.info.wg = (s.wg? c.g.info.wg).map (fun w => { w with tokenWait := w.tokenWait ++ [c.gid] }) ∧
        ∃ g, t.group? c.gid = some g ∧ g.info = c.g.info ∧ g.c.paths = advanced c ∧ g.r = c.g.r ∧ g.c.wait = .take d)) ∧
  (∀ s wg w gid g d, s.wg? wg = some w → (s.vdev w.vdev).st = .live →
    ((w.token = none ∧ w.tokenWait = [gid]) ∨ (w.token = some gid ∧ gid ∈ w.tokenWait)) → s.group? gid = some g → g.c.wait = .take d →
    ∃ t h, exec (.tokenTakeGrant wg) s = .next t ∧ WgFrame s t gid wg ∧
      t.wg? wg = some { w with token := some gid, tokenWait := ndel w.tokenWait gid } ∧
      t.group? gid = some h ∧ h.c = { g.c with wait := .none, readyCc := s.now } ∧ OnlyD d 0 g.r h.r) ∧
  (∀ s wg w gid g d, s.wg? wg = some w → (s.vdev w.vdev).st = .live → w.token = none → gid ∈ w.tokenWait → s.group? gid = some g → g.c.wait = .take d →
    (∀ k ∈ w.tokenWait, ∀ h, s.group? k = some h → k = gid ∨ g.info.age < h.info.age) →
    ∃ t, exec (.tokenTakeGrant wg) s = .next t ∧ (t.wg? wg).map (·.token) = some (some gid))

/-! ## Synchronisation (R200, R201, R289, R294 to R298, R307) -/

/-- R296, R297, R298: BAR and BARA arrive, at a broken object too: an invalid operand gives status 2, an object broken before or by the arrival
status 1; an arrival that completes the phase, or any arrival of BARA, gives the phase it arrived in with status 0; else BAR waits. BARW waits while the
phase is the one it names. -/
def Obligations.Barriers : Prop :=
  (∀ x ∈ ([(.bar, true), (.bara, false)] : List ((Scope → UDst → USrc → USrc → Instr) × Bool)), ∀ sc d a b s c,
    gate (x.1 sc d a b) (needBar d a b) (barHeld s a b) (fun _ _ => 0) s = .go c 0 →
    let obj := (usrc s c.g a).toNat
    let n := (usrc s c.g b).toNat
    ∃ t, exec (x.1 sc d a b) s = .next t ∧ (barValid c.g obj = false ∨ 2048 < n → UniEffect s t c d [2] 0) ∧
      ∀ k, barValid c.g obj = true → n ≤ 2048 → barObj s c.g obj = some k → let m := arrive k n (barDefault s c.g obj)
        barObj t c.g obj = some m ∧ (k.brk = true → m.brk = true) ∧
          (m.brk = true → UniValue t c d (.ofNat 32 (k.ph * 2 ^ 16 + 1))) ∧
          (m.brk = false → (x.2 = false ∨ m.ph ≠ k.ph) → UniValue t c d (.ofNat 32 (k.ph * 2 ^ 16))) ∧
          (m.brk = false → x.2 = true → m.ph = k.ph → (t.group? c.gid).map (·.c.wait) = some (.bar obj k.ph (barScope obj sc) d false))) ∧
  (∀ sc d a b s c, gate (.barw sc d a b) (needBar d a b) (fun _ => false) (fun _ _ => 0) s = .go c 0 →
    let obj := (usrc s c.g a).toNat
    let p := (usrc s c.g b).toNat
    ∃ t, exec (.barw sc d a b) s = .next t ∧ (barValid c.g obj = false ∨ 2 ^ 16 ≤ p → UniEffect s t c d [2] 0) ∧
      ∀ k, barValid c.g obj = true → p < 2 ^ 16 → barObj s c.g obj = some k →
        (k.brk = true → UniEffect s t c d [.ofNat 32 (k.ph * 2 ^ 16 + 1)] 0) ∧
        (k.brk = false → k.ph ≠ p → UniValue t c d (.ofNat 32 (k.ph * 2 ^ 16))) ∧
        (k.brk = false → k.ph = p → CtlEffect s t c fun g => g.r = c.g.r ∧ g.c.wait = .bar obj p (barScope obj sc) d true)) ∧
  (∀ (k : Barrier) n dflt,
    (k.arr = 0 → 1 < (if n = 0 then dflt else n) → arrive k n dflt = { k with exp := if n = 0 then dflt else n, dflt := decide (n = 0), arr := 1 }) ∧
    (0 < k.arr → n = (if k.dflt then 0 else k.exp) → k.arr + 1 = k.exp → arrive k n dflt = { k with ph := (k.ph + 1) % 2 ^ 16, arr := 0, dflt := false }) ∧
    (0 < k.arr → n ≠ (if k.dflt then 0 else k.exp) → (arrive k n dflt).brk = true))

/-- R289, R294, R295, R307: a fence, an EFENCE and an MWAIT issue and wait; a fence ends once no access of its from-classes is outstanding, and at
cluster scope and wider a plain FENCE leaves its core's L1 empty of everything; an EFENCE ends when no access is in flight and lanes that own a packet
park at it; an MWAIT ends when the word it reads satisfies its condition, with the word in D, and the L1 keeps what it holds when an
engine, a walker or another class wrote it. R200, R201: TAGW.ANY gives the lowest of its tags that
is set, TAGW.ALL 0 once all are, both wait until then; TAGW.FIRST takes the tag it gives; an empty mask gives all ones; TAGW.CLEAR clears its tags and
counts those that were set.
The model's choices in it: log 42 (the class that MWAIT acquires). -/
def Obligations.FencesWaitsAndTags : Prop :=
  ((∀ sc s c, gate (.fence sc) needCtl (fun _ => false) (fun _ _ => 0) s = .go c 0 → ∃ t, exec (.fence sc) s = .next t ∧
     CtlEffect s t c fun g => g.r = c.g.r ∧ g.c.paths = advanced c ∧ g.c.wait = .fence sc 0 0) ∧
   (∀ sc f m s c, gate (.fenceX sc f m) needCtl (fun _ => false) (fun _ _ => 0) s = .go c 0 → ∃ t, exec (.fenceX sc f m) s = .next t ∧
     CtlEffect s t c fun g => g.r = c.g.r ∧ g.c.paths = advanced c ∧ g.c.wait = .fence sc f m) ∧
   (∀ s c, gate .efence needCtl (fun _ => false) (fun _ _ => 0) s = .go c 0 → ∃ t, exec .efence s = .next t ∧
     CtlEffect s t c fun g => g.r = c.g.r ∧ g.c.paths = advanced c ∧ g.c.wait = .efence) ∧
   (∀ cc wide sc d a b s c, gate (.mwait cc wide sc d a b)
       (if wide then ((Need.ofUni.upair a).usrcPair b).udstPair d else ((Need.ofUni.upair a).usrc b).udst d)
       (fun _ => false) (uniExtra fun g => (upair g a).toNat) s = .go c 0 → ∃ t, exec (.mwait cc wide sc d a b) s = .next t ∧
     CtlEffect s t c fun g => g.r = c.g.r ∧ g.c.paths = advanced c ∧
       g.c.wait = .mwait cc wide sc d (upair c.g a).toNat (if wide then usrcPair c.g b else (usrc s c.g b).setWidth 64)) ∧
   (∀ s gid g sc f m, s.group? gid = some g → g.c.wait = .fence sc f m → (s.vdev g.info.vdev).st = .live → outstanding g (fenceFrom f) = false →
     ∃ t, exec (.fenceComplete gid) s = .next t ∧ t.group? gid = some { g with c := { g.c with wait := .none, readyCc := s.now } } ∧
       (∀ k, k ≠ gid → t.group? k = s.group? k) ∧ (f = 0 → 3 ≤ scopeCode sc → (t.core g.info.core).l1 = []) ∧
       (f = 0 → scopeCode sc < 3 → ∀ q, t.byte q = s.byte q)) ∧
   (∀ s gid g p, s.group? gid = some g → g.c.wait = .efence → curPath g.c.paths = some p → (s.vdev g.info.vdev).st = .live → inFlight g = false →
     ∃ t, exec (.efenceComplete gid) s = .next t ∧
       (exitStops g p.mask = 0 → GroupEffect s t gid fun h => h.r = g.r ∧ h.c = { g.c with wait := .none, readyCc := s.now }) ∧
       (exitStops g p.mask = p.mask → p.mask ≠ 0 → g.c.fatal = [] → GroupEffect s t gid fun h => h.r = g.r ∧ h.c.wait = .none ∧
         h.c.paths = settle (setCur g.c.paths fun q => { q with pc := (p.pc - 4) % 2 ^ 64, st := .parked }))) ∧
   (∀ s gid g p cc (wide : Bool) sc d va v u b, s.group? gid = some g → g.c.wait = .mwait cc wide sc d va v → curPath g.c.paths = some p →
     (s.vdev g.info.vdev).st = .live → waitPacket g = false → mwaitRead s g p.pc va (aopSize wide) sc = (u, .ok b) →
     (match cc with | .ge => v.toNat ≤ (BitVec.ofNat 64 (leNat b)).toNat | .eq => BitVec.ofNat 64 (leNat b) = v | .ne => BitVec.ofNat 64 (leNat b) ≠ v) →
     (u.group? gid).isSome → ∃ t h, exec (.mwaitWake gid) s = .next t ∧ t.group? gid = some h ∧ h.c.wait = .none ∧
       (observedOther u g p.pc va (aopSize wide) = true → ∀ k, t.core k = u.core k) ∧
       ∀ r, d = .g r → h.ug r.val = BitVec.ofNat 32 (leNat b))) ∧
  ((∀ x ∈ ([(.tagwAny, false), (.tagwFirst, true)] : List ((UDst → UDst → Instr) × Bool)), ∀ d a s c,
     gate (x.1 d a) (needTagw d a) (fun _ => false) (fun _ _ => 0) s = .go c 0 →
     let m := upair c.g a
     let v := (s.core c.g.info.core).tags &&& m
     ∃ t, exec (x.1 d a) s = .next t ∧ (m = 0 → UniEffect s t c d [0xFFFFFFFF] 0) ∧
       (m ≠ 0 → v = 0 → CtlEffect s t c fun g => g.r = c.g.r ∧ g.c.paths = advanced c ∧ g.c.wait = .tagw false x.2 m d) ∧
       ∀ i, i < 64 → v.getLsbD i = true → (∀ j, j < i → v.getLsbD j = false) → (x.2 = true → olderFirstWaits s c.g i = false) →
         UniValue t c d (.ofNat 32 i) ∧ (t.core c.g.info.core).tags = if x.2 then (s.core c.g.info.core).tags &&& ~~~laneBit i else (s.core c.g.info.core).tags) ∧
   (∀ d a s c, gate (.tagwAll d a) (needTagw d a) (fun _ => false) (fun _ _ => 0) s = .go c 0 →
     ∃ t, exec (.tagwAll d a) s = .next t ∧ (t.core c.g.info.core).tags = (s.core c.g.info.core).tags ∧
       ((s.core c.g.info.core).tags &&& upair c.g a = upair c.g a → UniValue t c d 0) ∧
       ((s.core c.g.info.core).tags &&& upair c.g a ≠ upair c.g a →
         CtlEffect s t c fun g => g.r = c.g.r ∧ g.c.paths = advanced c ∧ g.c.wait = .tagw true false (upair c.g a) d)) ∧
   (∀ d a s c, gate (.tagwClear d a) (needTagw d a) (fun _ => false) (fun _ _ => 0) s = .go c 0 →
     ∃ t, exec (.tagwClear d a) s = .next t ∧ (t.core c.g.info.core).tags = (s.core c.g.info.core).tags &&& ~~~upair c.g a ∧
       UniValue t c d (.ofNat 32 ((List.range 64).countP fun i => ((s.core c.g.info.core).tags &&& upair c.g a).getLsbD i))) ∧
   (∀ s gid g all first m d v, s.group? gid = some g → g.c.wait = .tagw all first m d → (s.vdev g.info.vdev).st = .live →
     tagwValue s g all first m = some v → ∃ t h, exec (.tagwWake gid) s = .next t ∧ t.group? gid = some h ∧ h.c.wait = .none ∧
       (∀ r, d = .g r → h.ug r.val = v) ∧ ∀ k, k ≠ gid → t.group? k = s.group? k))

/-- R34, R106: COND stores its word at word (A mod 256) of its context's condition words, below the L1s, when its access passes. -/
def Obligations.ConditionWords : Prop :=
  ∀ sc a b s c fe pa mt u, gate (.cond sc a b) ((Need.ofUni.usrc a).usrc b) (fun g => outstanding g [0, 1, 2, 3, 4, 5, 6, 7])
      (fun g m => uniExtra (fun g => cwEa s g.info.vdev (usrc s g a).toNat) g m) s = .go c 0 → feOf s c.g.info.vdev = some fe →
    let s1 := releaseLsu (account ((Need.ofUni.usrc a).usrc b) c s) c.g.info.core sc
    place s1 c.g c.pc (((s.fe fe).cwb.toNat + 4 * ((usrc s c.g a).toNat % 256)) % 2 ^ 64) 4 2 false false = (u, .ok (.phys pa mt)) → region u pa = .hbm →
    ∃ t, exec (.cond sc a b) s = .next t ∧ t.bytes (loc pa) 4 = leBytes 4 (usrc s c.g b).toNat ∧
      (∃ g, t.group? c.gid = some g ∧ g.info = c.g.info ∧ g.r = c.g.r ∧ g.c.paths = advanced c) ∧
      ∀ q, q < loc pa ∨ loc pa + 4 ≤ q → t.byte q = u.byte q

/-! ## Requests answered (R69, R174, R176, R179, R305) -/

/-- R69, R179: a request whose lanes all pass, once nothing older stands before it and its time has come, is performed: each lane's registers take its
words, the request is gone, and its entry is freed with the last line of its instruction. R315: the answer of a request that a save overtook is
dropped. R305: a load's lane that meets a translation fault is parked as a packet with a token, its destination marked with code 0x20; a lane with
another fault takes a fatal mark of that fault's code, and its destination is marked with it. R174, R324: a walk that ends in an entry with the
needed permissions installs it in the core's and its cluster's translation cache and changes no byte of memory; one that ends in a fault installs
nothing; where the cluster's cache serves the page, its entry enters the core's.
The model's choices in it: log 5 (when a load is performed), log 43 (one packet a page) and log 44. -/
def Obligations.LoadReturnsFaultsAndWalks : Prop :=
  (∀ s u gid g q r got, s.group? gid = some g → find? g.c.stray q = none → find? g.c.reqs q = some r → answered r.instr = true →
     reqReady s g q r = true → runReq s g r = (u, got, []) → u.group? gid = some g →
     ∃ t h, exec (.loadReturn gid q) s = .next t ∧ t.group? gid = some h ∧ find? h.c.reqs q = none ∧ h.c.paths = g.c.paths ∧
       ((∀ e ∈ g.c.reqs, e.1 ≠ q → e.2.entry ≠ r.entry) → find? h.c.sb r.entry = none) ∧
       ((∃ e ∈ g.c.reqs, e.1 ≠ q ∧ e.2.entry = r.entry) → h.c.sb = g.c.sb) ∧
       (∀ k, k ≠ gid → t.group? k = u.group? k) ∧ (∀ a, t.byte a = (reqAcquire u g.info.core r.instr).byte a) ∧
       (∀ d n, reqDst r.instr = .v d n → d + n ≤ 128 → (∀ x ∈ got, x.2.length = n) → (got.map (·.1)).Nodup → ∀ x ∈ got, ∀ j, j < n →
         h.r.getV x.1 (d + j) = x.2.getD j 0) ∧
       (∀ regs ws, reqDst r.instr = .u regs → regs.Nodup → got = [(64, ws)] → ws.length = regs.length → ∀ j k, regs[j]? = some k → h.ug k = ws.getD j 0)) ∧
  (∀ s gid g q k, s.group? gid = some g → find? g.c.stray q = some k →
     ∃ t, exec (.loadReturn gid q) s = .next t ∧ GroupEffect s t gid fun h => h.r = g.r ∧ h.c = { g.c with stray := merase g.c.stray q }) ∧
  (∀ s u gid g q r got l d n, s.group? gid = some g → find? g.c.reqs q = some r → answered r.instr = true → reqReady s g q r = true →
     reqDst r.instr = .v d n → d + n ≤ 128 → l < 64 → (reqAcquire u g.info.core r.instr).group? gid = some g →
     (∀ va, runReq s g r = (u, got, [(l, .xlate va)]) → ∃ t h k p, exec (.memoryFaultDetect gid q) s = .next t ∧ t.group? gid = some h ∧
       find? h.c.reqs k = some p ∧ (find? (t.vdev g.info.vdev).tokens p.token).isSome ∧ p.lanes = laneBit l ∧ p.instr = r.instr ∧
       ∀ j, j < n → find? h.r.vmark (l * 128 + (d + j)) = some ⟨0x20, k, r.skid, r.va l⟩) ∧
     (∀ code, runReq s g r = (u, got, [(l, .fatal code)]) → (allLanes g.c.paths).getLsbD l = true → find? g.c.fatal l = none →
       ∃ t h, exec (.memoryFaultDetect gid q) s = .next t ∧ t.group? gid = some h ∧ find? h.c.fatal l = some ⟨code, r.skid, r.va l⟩ ∧
         ∀ j, j < n → find? h.r.vmark (l * 128 + (d + j)) = some ⟨code, 0, r.skid, r.va l⟩)) ∧
  (∀ s core vdev va need, translates s vdev = true → deviceActive s vdev = true → va < 2 ^ 56 →
     (∀ e, tlbHit s core vdev va need = none → walkVa s vdev va = .entry e → e.perms &&& need = need → ∃ t, exec (.pageWalk core vdev va need) s = .next t ∧
       e ∈ (t.core core).tlb ∧ e ∈ (t.cluster (clusterOf core)).tlb ∧ t.groups = s.groups ∧ ∀ a, t.byte a = s.byte a) ∧
     (tlbHit s core vdev va need = none → walkVa s vdev va = .fault → exec (.pageWalk core vdev va need) s = .next s) ∧
     (∀ e, tlbHit s core vdev va need = some (false, e) → ∃ t, exec (.pageWalk core vdev va need) s = .next t ∧ e ∈ (t.core core).tlb ∧
       t.groups = s.groups ∧ ∀ a, t.byte a = s.byte a))

/-! ## Records (R9 to R14, R41, R76 to R80, R186 to R190, R192, R348) -/

/-- R186, R187, R190, R257: EMIT and RESV give 0xFFFFFFFE in the lanes whose output has no edge, or one that this part does not produce for, and enter
one request at each edge's home for the others. On an edge that did not start with R12's values a reservation has no defined effect and stops. R9, R187:
at the home the requesting lanes, in increasing order, get slots while there are free ones, the i-th the index (RSV + i) mod the ring's slots, the
others all ones; RSV rises by the slots given.
The model's choices in it: log 22. -/
def Obligations.ReservationsAndHomes : Prop :=
  ((∀ d a e s c, let i : Instr := .emit d a e
     let n := ((needLoad.recBlk a.val (recRegs s e.val)).vblk (d.val + 1) 1 1).dstN d.val 1 2
     a.val + recRegs s e.val ≤ 112 → gate i n (fun _ => false) (fun _ _ => 0) s = .go c 0 →
     (badEdge s e.val = true → exec i s = .fault .edgeInitial) ∧
     (badEdge s e.val = false → ∃ t, exec i s = .next t ∧
       Reserved s t c i d.val e.val fun g l => g.r.getV l (d.val + 1) :: getVs g l a.val (recLen s g e.val l))) ∧
   (∀ d e s c, let i : Instr := .resv d e
     gate i (needLoad.dstN d.val 1 1) (fun _ => false) (fun _ _ => 0) s = .go c 0 →
     (badEdge s e.val = true → exec i s = .fault .edgeInitial) ∧
     (badEdge s e.val = false → ∃ t, exec i s = .next t ∧ Reserved s t c i d.val e.val noData))) ∧
  (∀ s gid g q r d o k e, s.group? gid = some g → find? g.c.reqs q = some r → r.token = 0 → r.ops = [] → r.early ≤ s.now →
     deviceActive s g.info.vdev = true → laneEdge s g (lowLane r.lanes) o = some (k, e) → e.stuck s = false →
     let result := fun (s' : State) (h : Group) => ∀ i l, (lanesOf r.lanes)[i]? = some l →
       h.r.getV l d = if i < edgeFree s' e then .ofNat 32 ((edgeRsv s' e + i) % 2 ^ 32 % e.slots) else 0xFFFFFFFF
     (∀ (d' : Fin 112) (o' : Fin 64), d'.val = d → o'.val = o → r.instr = .resv d' o' → ∃ t h, exec (.edgeHomeReserve gid q) s = .next t ∧ t.group? gid = some h ∧
       result s h ∧ find? h.c.reqs q = none ∧ h.c.paths = g.c.paths ∧
       ((∀ x ∈ g.c.reqs, x.1 ≠ q → x.2.entry ≠ r.entry) → find? h.c.sb r.entry = none) ∧
       ((∃ x ∈ g.c.reqs, x.1 ≠ q ∧ x.2.entry = r.entry) → h.c.sb = g.c.sb) ∧
       t.num (edgePa s e + 0x10) 4 = (edgeRsv s e + min (edgeFree s e) (lanesOf r.lanes).length) % 2 ^ 32 ∧
       ∀ a, a < edgePa s e + 0x10 ∨ edgePa s e + 0x14 ≤ a → t.byte a = s.byte a) ∧
     (∀ (d' a' : Fin 112) (o' : Fin 64), d'.val = d → o'.val = o → r.instr = .emit d' a' o' → earlierOut g (r.order q) [clsLSU, clsEDG] = false →
       ∃ t h, exec (.edgeHomeReserve gid q) s = .next t ∧ t.group? gid = some h ∧ result (s.writeBackAll g.info.core) h))

/-- R11, R188, R189, R192: WREC writes a held slot's record, PUBL its header, with status, key and sequence number, and publishes it; neither touches
another byte. SPAWN puts one task a lane into the core's former, with its tag as the work identifier, and gives 0, or 0xFFFFFFFE to a lane without a
consumer; a stage that runs on the other side starts nothing here, and a full spawn area stalls the instruction (R80). R12, R13, R14, R41, R79: the oldest slot is
reclaimed once its thread has ended or it is void; a slot whose header bears its sequence number, of a NONE edge, goes to the next core in turn, and a
SLOT or KEY edge hands its next batch to one core, on a KEY edge to that of its first record's predecessor, and no further one until that batch's group
is born.
The model's choices in it: log 22, log 49, log 50, log 81 (a header that cannot be read) and log 82 (where the turn starts). -/
def Obligations.RingSlotsMoveOn : Prop :=
  ((∀ (d a : Fin 112) (o : Fin 64) s c l k e q pa, let i : Instr := .wrec d a o
     let n := (needStore.recBlk a.val (recRegs s o.val)).vblk d.val 1 1
     a.val + recRegs s o.val ≤ 112 → gate i n slotBusy (slotPages s d.val o.val) s = .go c 0 → lanesOf c.mask = [l] → laneEdge s c.g l o.val = some (k, e) →
     e.loc = false → heldSeq c.g k e l (c.g.r.getV l d.val) = some q → q < 2 ^ 32 → (∀ j, j < e.rs → region s (pa + 8 * j) = .hbm) →
     ringAt (account n c s) e.vdev ((e.slotEa q + 8) % 2 ^ 64) 2 e.rs = .ok ((List.range e.rs).map fun j => pa + 8 * j) →
     ∃ t, exec i s = .next t ∧ t.bytes (loc pa) (8 * e.rs) = wordBytes (getVs c.g l a.val (2 * e.rs)) ∧
       (∀ x, x < loc pa ∨ loc pa + 8 * e.rs ≤ x → t.byte x = s.byte x) ∧ ∃ g, t.group? c.gid = some g ∧ g.r = c.g.r ∧ g.c.paths = advanced c) ∧
   (∀ (d : Fin 112) (o : Fin 64) s c l k e q pa, let i : Instr := .publ d o
     let n := needStore.vblk d.val 2 2
     let u := (account n c s).writeBackAll c.g.info.core
     gate i n pubWait (slotPages s d.val o.val) s = .go c 0 → lanesOf c.mask = [l] → laneEdge s c.g l o.val = some (k, e) → e.loc = false →
     heldSeq c.g k e l (c.g.r.getV l d.val) = some q → q < 2 ^ 32 → region u pa = .hbm → ringAt u e.vdev (e.slotEa q % 2 ^ 64) 2 1 = .ok [pa] →
     ∃ t, exec i s = .next t ∧ (∀ x, x < loc pa ∨ loc pa + 8 ≤ x → t.byte x = u.byte x) ∧
       t.num (loc pa) 8 = (s.vdev c.g.info.vdev).cutgen % 16 * 2 ^ 60 + (c.g.r.getV l (d.val + 1)).toNat % 2 ^ 24 * 2 ^ 32 + q ∧
       (∀ x, find? s.edges k = some x → ∃ y, find? t.edges k = some y ∧ q ∈ y.ready) ∧
       ∃ g, t.group? c.gid = some g ∧ g.r = c.g.r ∧ g.c.paths = advanced c) ∧
   (∀ (d a : Fin 112) (o : Fin 64) s c, let i : Instr := .spawn d a o
     let n := ((needLoad.recBlk a.val (recRegs s o.val)).vblk (d.val + 1) 1 1).dstN d.val 1 2
     a.val + recRegs s o.val ≤ 112 → gate i n (fun g => outstanding g [clsLSU]) (fun _ _ => 0) s = .go c 0 →
     ∃ t, exec i s = .next t ∧
     let task (l : Nat) : Option (Nat × Edge × Program) := (laneEdge s c.g l o.val).bind fun x => (stageOf s x.2).map fun p => (x.1, x.2, p)
     let lanes := (lanesOf c.mask).filter fun l => (task l).isSome
     let room := spawnRoom s c.g.info.core c.g.info.vdev lanes.length
       ((lanes.filterMap task).foldl (fun n x => max n (entryBytes (8 * x.2.1.rs))) 0)
     (lanes = [] → LoadEffect s t c d.val 1 fun _ => [0xFFFFFFFE]) ∧
     (lanes ≠ [] → room = false → Stalled t c) ∧
     (lanes ≠ [] → room = true → (∃ new, (t.core c.g.info.core).entries = (s.core c.g.info.core).entries ++ new ∧
         new.map (fun f => (f.source, f.pc, f.wid)) = lanes.filterMap fun l => (task l).bind fun x =>
           if x.2.1.runs then some (.task x.1, x.2.2.entry, (c.g.r.getV l (d.val + 1)).setWidth 64) else none) ∧
       ∃ g, t.group? c.gid = some g ∧ g.c.paths = advanced c ∧
         ∀ l j, j < 128 → g.r.getV l j = if l < 64 ∧ c.mask.getLsbD l ∧ j = d.val then (if (task l).isSome then 0 else 0xFFFFFFFE) else c.g.r.getV l j))) ∧
  ((∀ s k e, find? s.edges k = some e → let n := edgeRcl s e
     n ≠ edgeRsv s e → e.second ≠ some n → (n ∈ e.finished ∨ (n ∈ e.voided ∧ e.role ≠ roleSender)) → edgePa (setRcl s e (n + 1)) e = edgePa s e →
     ∃ t x, exec (.slotReclaim k) s = .next t ∧ t.num (edgePa s e + 0x18) 4 = (n + 1) % 2 ^ 32 ∧ find? t.edges k = some x ∧
       n ∉ x.finished ∧ n ∉ x.voided ∧ t.groups = s.groups) ∧
   (∀ s u k e p core rr seq f, find? s.edges k = some e → stageOf s e = some p → edgeOpen s e = true → e.ord = 0 → isPublished s e seq = true → seq ∉ e.parkedAt →
     nextCore s e (entryBytes (8 * e.rs)) = some (core, rr) → spawnRoom s core e.vdev 1 (entryBytes (8 * e.rs)) = true →
     readSlot s k e p core seq 0 = .entry u f → ∃ t, exec (.slotHandover k seq) s = .next t ∧
       (t.core core).entries.length = (u.core core).entries.length + 1 ∧
       ∀ x, find? u.edges k = some x → ∃ y, find? t.edges k = some y ∧ seq ∉ y.ready ∧ seq ∈ y.given ∧ find? y.alive seq = some f.key ∧ y.rr = rr) ∧
   (∀ s u k e p core rr b fs dlv, find? s.edges k = some e → stageOf s e = some p → edgeOpen s e = true → e.ord ≠ 0 → e.batch = none →
     batchCore s e (p.width * entryBytes (8 * e.rs)) = some (core, rr) → b = s.nextId →
     takeBatch k p core b (e.slots + 1) p.width [] (edgeDlv s e) { s with nextId := s.nextId + 1 } = (u, fs, dlv) → fs ≠ [] →
     spawnRoom s core e.vdev fs.length (entryBytes (8 * e.rs)) = true → ∃ t, exec (.deliveryBatch k) s = .next t ∧
       (t.core core).entries.length = (u.core core).entries.length + fs.length ∧
       ∀ x, find? u.edges k = some x → ∃ y, find? t.edges k = some y ∧ y.batch = some b))

/-- R43, R76, R77, R78: a ready bin that is admitted becomes a group in the place that admission found, with one lane an entry, at the entries'
program counter, and its entries leave the former; a bin is due after its form window; the oldest ready bin that cannot be admitted for 4,096 cc holds
the younger ones back.
The model's choices in it: log 24 and log 26 (what a bin is, where a group goes). -/
def Obligations.FormerBuildsGroups : Prop :=
  (∀ s core bin cp e l, (readyBins s core).contains bin = true →
    (match blockedBin s core with
      | some b => b = bin
      | none => ∀ b ∈ (readyBins s core).takeWhile (fun b => decide (b ≠ bin)), binFit s core b = none) →
    binFit s core bin = some cp → binEntries (s.core core) bin = e :: l → (∀ f ∈ e :: l, f.pkts = []) →
    let es := (e :: l).take e.width
    ∃ t h gid, exec (.binLaunch core bin) s = .next t ∧ t.group? gid = some h ∧ h.info.core = core ∧ h.info.slot = cp.slots.headD 0 ∧
      h.info.born = widthMask es.length ∧ h.info.vdev = e.vdev ∧ h.c.paths = [⟨e.pc, widthMask es.length, .run, 0⟩] ∧ h.c.wait = .none ∧
      ∀ f ∈ (t.core core).entries, f.order ∉ es.map (·.order)) ∧
  (∀ s core bin e l, binEntries (s.core core) bin = e :: l → e.due = false → e.at_ + (s.vdev e.vdev).window ≤ s.now →
    ∃ t, exec (.formWindowExpiry core bin) s = .next t ∧ ∀ f ∈ (t.core core).entries, f.order = bin → f.due = true) ∧
  (∀ s core b l, readyBins s core = b :: l → blockedBin s core = none → binFit s core b = none →
    (∃ t0, (s.core core).blockedSince = some (b, t0) ∧ t0 + 4096 ≤ s.now) → ∃ t, exec (.binStarvationTimeout core) s = .next t ∧ (t.core core).oldestBlocked = some b)

/-! ## Engines (R193 to R220) -/

/-- R193, R194, R199, R200, R237, R240: an engine instruction gives in 2 cc the first status that applies, 1 when its queue is full; else 0, its
operation stands queued with the block as read, and its tag, when it has one, is cleared. Memory stays. R194, R196, R203, R206, R209, R214, R215: the
next operation of a queue starts: a LIN has its byte count of units, a GATH pieces times length, a CB its blocks when the reservation's format is
BF16, an HREAD its bursts; a GRID whose descriptor breaks a rule ends INVALID. R196, R198, R203: a beat of a LIN copies the bytes of its source, from
local store or from memory, up to the next 256-byte boundary of its destination; a translation fault parks the operation at its unit with a token.
R197, R200, R301: a completed operation leaves; its group's ERRST takes KIND 1, the flags and the status, its tag is set, its stamp rises by 1, or by
2^63 + 1 when the status is not 0.
The model's choices in it: log 28, log 54 and log 61. -/
def Obligations.EngineOperationsRun : Prop :=
  (∀ x ∈ ([(.copyLin, checkLin), (.copyTile, checkTile), (.copyCb, checkCb), (.copyGath, checkGath), (.hread, checkHread), (.gridRestrict, checkGrid),
       (.gridProlong, checkGrid), (.gridConvert, checkGrid), (.mtile, checkMtile)] : List ((Fin 56 → Fin 56 → Instr) × (State → Ctx → List Word → Nat))),
     ∀ p t s c, let n := (Need.ofUni.ublk p.val 8).udst (.g t)
     gate (x.1 p t) n (fun _ => false) (fun _ _ => 0) s = .go c 0 →
     let b := ublock c.g p.val 8
     let st := x.2 (account n c s) c b
     ∃ u, exec (x.1 p t) s = .next u ∧ (∀ a, u.byte a = s.byte a) ∧ (st ≠ 0 → UniEffect s u c (.g t) [.ofNat 32 st] 2) ∧
       (st = 0 → queueCap (x.1 p t) ≤ queueLen s (x.1 p t) c.g.info.core → UniEffect s u c (.g t) [1] 2) ∧
       (st = 0 → queueLen s (x.1 p t) c.g.info.core < queueCap (x.1 p t) → UniValue u c (.g t) 0 ∧
         ∃ op o, find? u.ops op = some o ∧ o.instr = x.1 p t ∧ o.pc = c.pc ∧ o.block = b ∧ o.group = c.gid ∧ o.st = .queued ∧ o.unit_ = 0 ∧
           (o.tv = true → (u.core c.g.info.core).tags.getLsbD o.tag = false))) ∧
  (∀ s op o, find? s.ops op = some o → o.st = .queued → o.abort = false → (s.vdev o.vdev).st = .live → mayStart s op o = true → releaseDone s op o = true →
     (∀ p t, o.instr = .copyLin p t → ∃ u, exec (.engineOpStart op) s = .next u ∧
       find? u.ops op = some { o with units := blkW o.block 4, st := if blkW o.block 4 = 0 then .done else .running }) ∧
     (∀ p t, o.instr = .copyGath p t → ∃ u x, exec (.engineOpStart op) s = .next u ∧ find? u.ops op = some x ∧ x.units = gCount o.block * gLen o.block) ∧
     (∀ p t, o.instr = .copyCb p t → ∃ u x, exec (.engineOpStart op) s = .next u ∧ find? u.ops op = some x ∧
       (rFmt (o.recs.headD []) = 2 → x.units = cbBlocks o.block ∧ x.st = .waitTag) ∧
       (rFmt (o.recs.headD []) ≠ 2 → x.st = .done ∧ x.status = worse o.status csFormat)) ∧
     (∀ p t, o.instr = .hread p t → hList o.block = false → ∃ u x, exec (.engineOpStart op) s = .next u ∧ find? u.ops op = some x ∧
       x.units = hNx o.block * hNy o.block ∧ x.bursts = List.range (hNx o.block * hNy o.block) ∧ (x.units ≠ 0 → x.st = .running)) ∧
     (∀ p t h, (o.instr = .gridRestrict p t ∨ o.instr = .gridProlong p t ∨ o.instr = .gridConvert p t) →
       ∀ l, let w := s.writeBackAll o.core
       engRuns w o.vdev o.gang 1 2 (blkP o.block 0) 64 = .ok l → (readRuns w (clusterOf o.core) 0 0 l).2 = (h, false) →
       gdescOk h (gridFn o.instr) o.block = false → ∃ u x, exec (.engineOpStart op) s = .next u ∧ find? u.ops op = some x ∧ x.st = .done ∧ x.status = worse o.status csInvalid)) ∧
  (∀ s op o p t, find? s.ops op = some o → o.instr = .copyLin p t → o.st = .running → o.abort = false → (s.vdev o.vdev).st = .live → o.unit_ < o.units →
     let b := o.block
     let dst := if cDsp b = 0 then blkP b 2 else blkW b 2
     let e := min o.units (beatEnd dst o.unit_)
     let n := e - o.unit_
     let done := fun (u : State) => (find? u.ops op).map (fun x => (x.unit_, x.st)) = some (e, if o.units ≤ e then .done else .running)
     (cSsp b = 1 → cDsp b = 1 → (s.core o.core).lsBad (o.lim.getD 0 0 + blkW b 0 + o.unit_) n = false → ∃ u, exec (.engineUnit op) s = .next u ∧ done u ∧
       (u.core o.core).lsBytes (o.lim.getD 0 0 + blkW b 2 + o.unit_) n = (s.core o.core).lsBytes (o.lim.getD 0 0 + blkW b 0 + o.unit_) n ∧
       ∀ a, u.byte a = s.byte a) ∧
     (∀ pa, cSsp b = 0 → cDsp b = 1 → engRuns s o.vdev o.gang 1 (n / 4096 + 2) ((blkP b 0 + o.unit_) % 2 ^ 64) n = .ok [.phys pa n] →
       (∀ i, i < n → region s (pa + i) = .hbm ∧ s.poisoned (pa + i) = false) → ∃ u, exec (.engineUnit op) s = .next u ∧ done u ∧
       (u.core o.core).lsBytes (o.lim.getD 0 0 + blkW b 2 + o.unit_) n = s.bytes (loc pa) n ∧ ∀ a, u.byte a = s.byte a) ∧
     (∀ va, cSsp b = 0 → engRuns s o.vdev o.gang 1 (n / 4096 + 2) ((blkP b 0 + o.unit_) % 2 ^ 64) n = .xlate va → ∃ u tok, exec (.engineUnit op) s = .next u ∧
       find? u.ops op = some { o with st := .parked tok } ∧ (find? (u.vdev o.vdev).tokens tok).map (·.kind) = some (.unit_ op))) ∧
  (∀ s op o, find? s.ops op = some o → o.st = .done → o.abort = false → o.stampPending = false → (s.vdev o.vdev).st = .live →
     let after := fun (u : State) => find? u.ops op = none ∧
       (∀ g, s.group? o.group = some g → ∃ h, u.group? o.group = some h ∧ h.r.errst = .ofNat 32 (2 ^ 28 + o.flags.toNat * 2 ^ 16 + o.status)) ∧
       (o.tv = true → (u.core o.core).tags.getLsbD o.tag = true)
     (o.sv = false → ∃ u, exec (.engineCompletion op) s = .next u ∧ after u ∧ ∀ a, u.byte a = s.byte a) ∧
     (∀ pa, o.sv = true → engRuns s o.vdev o.gang 3 2 o.stampVa 8 = .ok [.phys pa 8] → (∀ i, i < 8 → region s (pa + i) = .hbm ∧ s.poisoned (pa + i) = false) →
       ∃ u, exec (.engineCompletion op) s = .next u ∧ after u ∧ u.num (loc pa) 8 = (s.num (loc pa) 8 + if o.status = 0 then 1 else 2 ^ 63 + 1) % 2 ^ 64 ∧
         ∀ a, a < loc pa ∨ loc pa + 8 ≤ a → u.byte a = s.byte a))

/-- R207, R210, R212: a CB runs on when its table's tag stands, with the table read; a burst that has come becomes one entry of the issuing core's
former; an HREAD has made its last write when every burst is gone and no thread of its handlers is left. R225, R226: OBRES.RSV gives its statuses, or
takes the lowest free slot with the record and gives its handle; REL makes the handle stale and waits until nothing that names the slot is at work;
QRY gives the record, its handle and its owner.
The model's choices in it: log 31 (the lowest free slot). -/
def Obligations.TablesAndBufferReservations : Prop :=
  ((∀ s op o, find? s.ops op = some o → o.st = .waitTag → (s.vdev o.vdev).st = .live → o.abort = false →
     (s.core o.core).tags.getLsbD ((bitsAt (blkW o.block 4) 31 26 + o.unit_ / (bitsAt (blkW o.block 4) 21 16 + 1)) % 64) = true →
     ∃ u x, exec (.cbTableWait op) s = .next u ∧ find? u.ops op = some x ∧ x.st = .running ∧
       x.tab = ((s.core o.core).lsBytes (o.lim.getD 0 0 + blkW o.block 3 + 16 * o.unit_) 16).map (·.toNat)) ∧
   (∀ s op o i l, find? s.ops op = some o → o.st = .running → o.abort = false → (s.vdev o.vdev).st = .live → i < o.unit_ → o.bursts.contains i = true →
     find? o.parkedBursts i = none → burstRuns s o i = .ok l → spawnRoom s o.core o.vdev 1 (entryBytes (hBsz o.block)) = true →
     ∃ u x, exec (.hreadBurstReturn op i) s = .next u ∧ (u.core o.core).entries.length = (s.core o.core).entries.length + 1 ∧
       find? u.ops op = some x ∧ x.bursts = ndel o.bursts i ∧ ∀ a, u.byte a = s.byte a) ∧
   (∀ s op o p t, find? s.ops op = some o → o.instr = .hread p t → o.st = .running → (s.vdev o.vdev).st = .live → o.bursts = [] → handlersAlive s op = false →
     ∃ u x, exec (.lastBurstEvent op) s = .next u ∧ find? u.ops op = some x ∧ x.st = .done)) ∧
  ((∀ p t s c, gate (.obresRsv p t) ((Need.ofUni.ublk p.val 8).udst (.g t)) (fun _ => false) (fun _ _ => 0) s = .go c 0 →
     let b := ublock c.g p.val 8
     ∃ u, exec (.obresRsv p t) s = .next u ∧ (c.g.formerBuilt = true → UniEffect s u c (.g t) [5] 4) ∧
       (c.g.formerBuilt = false → imageOk b = false → UniEffect s u c (.g t) [2] 4) ∧
       (rsvStatus s c.g b ≠ 0 → UniEffect s u c (.g t) [.ofNat 32 (rsvStatus s c.g b)] 4) ∧
       (rsvStatus s c.g b = 0 → ∃ slot, slot < 256 ∧ find? (s.core c.g.info.core).resv slot = none ∧ (∀ k, k < slot → find? (s.core c.g.info.core).resv k ≠ none) ∧
         find? (u.core c.g.info.core).resv slot = some ⟨b.take 5, c.g.info.wg, c.gid, c.g.info.f1, false⟩ ∧
         UniValue u c (.g t) (.ofNat 32 ((2 ^ 15 + mget 0 (s.core c.g.info.core).resvGen slot * 256 + slot) * 2 ^ 16)) ∧
         (u.group? c.gid).map (·.c.obUsed) = some (c.g.c.obUsed + rLen b / 256))) ∧
   (∀ p t s c, gate (.obresRel p t) ((Need.ofUni.ublk p.val 1).udst (.g t)) (fun _ => false) (fun _ _ => 0) s = .go c 0 →
     let w := blkW (ublock c.g p.val 8) 0
     let held := heldSlot s c.gid c.g (w % 2 ^ 16)
     ∃ u, exec (.obresRel p t) s = .next u ∧ (c.g.formerBuilt = true → UniEffect s u c (.g t) [5] 4) ∧
       (c.g.formerBuilt = false → 2 ^ 16 ≤ w → UniEffect s u c (.g t) [2] 4) ∧
       (c.g.formerBuilt = false → w < 2 ^ 16 → held = none → UniEffect s u c (.g t) [4] 4) ∧
       ∀ k r, c.g.formerBuilt = false → w < 2 ^ 16 → held = some (k, r) → UniValue u c (.g t) 0 ∧ heldSlot u c.gid c.g w = none ∧
         (u.group? c.gid).map (·.c.wait) = some (.obrel k)) ∧
   (∀ p t s c, gate (.obresQry p t) { (Need.ofUni.ublk p.val 1).udst (.g t) with gdst := [(t.val, 1), (p.val, 8)] } (fun _ => false) (fun _ _ => 0) s = .go c 0 →
     let h := (c.g.ug p.val).toNat % 2 ^ 16
     ∃ u, exec (.obresQry p t) s = .next u ∧ (c.g.formerBuilt = true → UniEffect s u c (.g t) [5] 4) ∧
       (c.g.formerBuilt = false → liveSlot s c.g.info.core c.g.info.wg h = none → UniEffect s u c (.g t) [4] 4) ∧
       ∀ k r, c.g.formerBuilt = false → liveSlot s c.g.info.core c.g.info.wg h = some (k, r) → r.words.length = 5 → UniValue u c (.g t) 0 ∧
         ∃ g, u.group? c.gid = some g ∧ ∀ j, j < 8 → p.val + j ≠ t.val → g.ug (p.val + j) = (r.words ++ [BitVec.ofNat 32 h, BitVec.ofNat 32 r.f1, 0]).getD j 0) ∧
   (∀ s gid g slot, s.group? gid = some g → g.c.wait = .obrel slot → (s.vdev g.info.vdev).st = .live → slotBusyAt s g.info.core slot = false →
     ∃ u h, exec (.obresRelComplete gid) s = .next u ∧ find? (u.core g.info.core).resv slot = none ∧ u.group? gid = some h ∧ h.c.wait = .none ∧ h.r = g.r))

/-! ## The matrix engine (R221 to R241) -/

/-- R227 to R234: MMAR enters the engine with its sources as read at issue; a quarter's lanes take the accumulations of their rows of A with the rows
of the fragment; an MMAR that fails a check poisons its destination in every lane with the check's code. R46, R47, R233, R238: the core's running
MTILE takes its next unit when no MMAR claims the engine, the cluster has allowance and the heat index allows it: where a tag differs it ends with
SWIZZLE and the operand buffer stays; else each element of the block of C takes the accumulation of its row and column over the unit's chunk, from +0
in the first chunk under the zero option, but for the elements of a row of A whose chunk is all zeros and can change nothing, which stay (R239).
The model's choices in it: log 28, log 32 and log 70 (the order of checks). -/
def Obligations.MatrixQuartersAndTileUnits : Prop :=
  ((∀ f ru (d a : Fin 112) (g : Fin 54) z s c, let i : Instr := .mmar f ru d a g z
     let na := (mfmtRow f).2.2
     gate i (mmarNeed s f d a g z) (fun _ => false) (fun _ _ => 0) s = .go c 0 → ∃ u h e k, exec i s = .next u ∧ u.group? c.gid = some h ∧ h.r = c.g.r ∧ h.c.paths = advanced c ∧
       find? h.c.sb e = some ⟨(List.range 16).map (d.val + ·), [], 0, true, none⟩ ∧
       find? h.c.reqs k = some (mkReq i c (fun _ _ => 0) (fun g l => getVs g l a.val na) (mmarOps s c.g g.val) e s.now) ∧
       (u.core c.g.info.core).mmars = enterMmar (s.core c.g.info.core).mmars ⟨c.gid, k, (mmarOps s c.g g.val).getD 3 256, 0, none, true, s.now, c.g.info.slot⟩ ∧ ∀ q, u.byte q = s.byte q) ∧
   (∀ s core m rest g r f ru (d a : Fin 112) (gg : Fin 54) z, (s.core core).mmars = m :: rest → s.group? m.group = some g → find? g.c.reqs m.req = some r →
     r.instr = .mmar f ru d a gg z → (s.vdev g.info.vdev).st = .live → m.frag = none → find? (s.core core).blatch g.info.slot = none →
     let wg := ((find? (s.core core).resv m.slot).map (·.wg)).getD g.info.wg
     let base := ((s.wg? wg).map fun w => w.obBase * 256).getD 0 + rBase r.recWords
     let code := mmarCheck (s.core core) f r base
     (code ≠ 0 → ∃ u h, exec (.mmarQuarter core) s = .next u ∧ (u.core core).mmars = rest ∧ u.group? m.group = some h ∧
       ∀ l ∈ lanesOf r.lanes, ∀ j, j < 16 → find? h.r.vmark (l * 128 + (d.val + j)) = some ⟨code, 0, r.skid, 0⟩) ∧
     (∀ q more, code = 0 → (quartersOf r.lanes).filter (fun q => decide (m.quarter ≤ q)) = q :: more →
       let fr := readFrag (s.core core) m.group f r base
       ∃ u h, exec (.mmarQuarter core) s = .next u ∧ u.group? m.group = some h ∧ h.c.paths = g.c.paths ∧ (∀ x, u.byte x = s.byte x) ∧
         ∀ l ∈ lanesOf r.lanes, l / 16 = q → ∀ j, j < 16 → h.r.getV l (d.val + j) =
           (mmarElem f fr (mget [] r.data l) (r.ops.getD 1 0) (scaleT (.ofNat 32 (r.ops.getD 2 0)) (rTsc fr.words)).1 j (if z then 0 else g.r.getV l (d.val + j))).1))) ∧
  (∀ s core op o, (s.ops.find? fun e => decide (e.2.core = core) && decide (e.2.st = .running) && !e.2.abort && (match e.2.instr with | .mtile .. => true | _ => false))
       = some (op, o) → find? s.ops op = some o → (s.core core).mmars = [] → 0 < (s.cluster (clusterOf core)).energy →
     (s.die (dieOf (clusterOf core))).c210 = false → (s.vdev o.vdev).st = .live →
     let k := s.core core
     let (rows, cols, q) := mtUnit o
     let wc := o.recs.getD 2 []
     let zeroC := bit (blkW o.block 3) 0
     let tagged := (∀ i ∈ rows, (mtRow k o 0 i q).tagged = true) ∧ (rows = [] ∨ ∀ j ∈ cols, (mtRow k o 1 j q).tagged = true) ∧
       (zeroC = true ∨ ∀ i ∈ rows, recTagged k (rSwz wc) (mtAddr o 2) (mtC o i (cols.headD 0)) (4 * cols.length) = true)
     let cBytes := fun (k : Core) i j => recBytes k (rSwz wc) (mtAddr o 2) (mtC o i j) 4
     let start := fun i j => if q = 0 ∧ zeroC = true then 0 else BitVec.ofNat 32 (leNat (cBytes k i j))
     ∃ u x, exec (.mtileUnit core) s = .next u ∧ find? u.ops op = some x ∧ u.groups = s.groups ∧ (∀ a, u.byte a = s.byte a) ∧
       (¬ tagged → x.unit_ = o.unit_ ∧ x.st = .done ∧ x.status = worse o.status csSwizzle ∧ (u.core core).ob = k.ob) ∧
       (tagged → x.unit_ = o.unit_ + 1 ∧ x.st = (if o.units ≤ o.unit_ + 1 then .done else .running) ∧ ∀ i ∈ rows, ∀ j ∈ cols,
         let a := mtRow k o 0 i q
         let b := mtRow k o 1 j q
         let skipped := (∀ v ∈ a.elems, zeroElem (rFmt (o.recs.getD 0 [])) v = true) ∧ a.bad = false ∧
           (b.bad = true ∨ ∀ v ∈ b.elems, (codeValue (rFmt (o.recs.getD 1 [])) v).special = false)
         (skipped → BitVec.ofNat 32 (leNat (cBytes (u.core core) i j)) = start i j) ∧
         (¬ skipped → BitVec.ofNat 32 (leNat (cBytes (u.core core) i j)) = (mtElem k o a b i j q (start i j) false).1)))

/-! ## Rule mode (R243 to R255) -/

/-- R243, R250: RULE makes its group wait for Lyre, which takes the oldest RULE once the group's accesses are performed; when it has done its work T
takes the status and the group goes on; QUERY gives GEN, PROG and the index width. R247, R248: a pass gives each cell of its region, of its colour
under CHECKER, the table entry of the cell's index in the old codes, and leaves every other cell. R251: LOAD with source 0 writes GEN and PROG 0 into the header, and no
other byte of local store; with a table of one beat it first copies the table. R252: a generation that is not CHECKER's fills the halo, gives every
row of the region its new cells and counts GEN on; STEP's status is 0, or 0x13 where it read or wrote poison: in the halo, or in a cell it computed. R254: a PUT or GET on local store completes.
The model's choices in it: log 47 (the order of statuses) and log 56. -/
def Obligations.RuleMode : Prop :=
  ((∀ x ∈ ([(.ruleLoad, 0), (.ruleStep, 1), (.ruleXch, 2), (.ruleQuery, 3)] : List ((Fin 56 → Fin 56 → Instr) × Nat)), ∀ p t s c,
     let n : Need := { (Need.ofUni.ublk p.val 4).udst (.g t) with even := [p.val] }
     gate (x.1 p t) (if x.2 = 3 then { n with gdst := [(t.val, 1), (p.val + 1, 3)] } else n) (fun _ => false) (fun _ _ => 0) s = .go c 0 →
     ∃ u h k, exec (x.1 p t) s = .next u ∧ u.group? c.gid = some h ∧ h.r = c.g.r ∧ h.c.paths = advanced c ∧ h.c.wait = .rule ∧
       (u.core c.g.info.core).rules = (s.core c.g.info.core).rules ++ [⟨c.gid, k, c.pc, x.2, p.val, t.val, ublock c.g p.val 4, false, 0, 0, false, none, false⟩] ∧
       ∀ q, u.byte q = s.byte q) ∧
   (∀ s core x rest g, (s.core core).rules = x :: rest → s.group? x.group = some g → x.started = false → x.token = 0 → (s.vdev g.info.vdev).st = .live →
     outstanding g [clsLSU] = false → ∃ u, exec (.ruleStart core) s = .next u ∧ (u.core core).rules = { x with started := true, step := if x.mode = 1 then (stepOf s g x).toOption else none } :: rest) ∧
   (∀ s u core x rest g st, (s.core core).rules = x :: rest → s.group? x.group = some g → x.started = true → x.token = 0 → (s.vdev g.info.vdev).st = .live →
     (x.mode = 1 → 0 < (s.cluster (clusterOf core)).energy) → x.mode < 3 → (x.step.isSome → x.mode = 1) →
     (if x.mode = 0 then ruleLoad s g x else if x.mode = 1 then ruleStep s g x else ruleXch s g x) = .done u st → (u.group? x.group).isSome →
     ∃ v h, exec (.ruleComplete core) s = .next v ∧ v.group? x.group = some h ∧ h.c.wait = .none ∧ h.ug x.t = .ofNat 32 st ∧ ∀ q, v.byte q = u.byte q) ∧
   (∀ s core x rest g, (s.core core).rules = x :: rest → s.group? x.group = some g → x.started = true → x.token = 0 → (s.vdev g.info.vdev).st = .live → x.mode = 3 →
     let lim := limOf s g
     let b := (s.core core).lsBytes (lim.getD 0 0 + blkW x.block 0) 64
     lsRangeOk lim (blkW x.block 0) 64 = true → (s.core core).lsBad (lim.getD 0 0 + blkW x.block 0) 64 = false → x.t < x.p + 1 ∨ x.p + 3 < x.t →
     ∃ v h, exec (.ruleComplete core) s = .next v ∧ v.group? x.group = some h ∧ h.c.wait = .none ∧ h.ug x.t = 0 ∧ h.ug (x.p + 1) = .ofNat 32 (field b 0x18 4) ∧
       h.ug (x.p + 2) = .ofNat 32 (field b 0x1C 4) ∧
       h.ug (x.p + 3) = (if tileHdrOk (blkW x.block 0) b && tileInRange lim (tileHdr b) then .ofNat 32 (tileHdr b).bw else .allOnes 32))) ∧
  (∀ s core x rest g b h, (s.core core).rules = x :: rest → s.group? x.group = some g → g.info.core = core → x.started = true → x.token = 0 → x.step = none →
     (s.vdev g.info.vdev).st = .live → x.bad = false → x.unit_ = 0 → ruleHdr (s.core core) (limOf s g) (blkW x.block 0) = .ok (b, h, false) →
     let base := (limOf s g).getD 0 0
     let hdr := base + blkW x.block 0 + 0x18
     let done := fun (st : Nat) (v : State) => exec (.ruleComplete core) s = .next v ∧ ∃ y, v.group? x.group = some y ∧ y.c.wait = .none ∧ y.ug x.t = .ofNat 32 st
     (x.mode = 0 → h.act = true → ∃ v, done 4 v ∧ v.mem = s.mem ∧ (v.core core).ls = (s.core core).ls) ∧
     (x.mode = 0 → h.act = false → blkP x.block 2 = 0 → ∃ v, done 0 v ∧ v.mem = s.mem ∧
       (v.core core).lsBytes hdr 8 = leBytes 4 (blkW x.block 1) ++ leBytes 4 0 ∧
       ∀ a, a < hdr ∨ hdr + 8 ≤ a → (v.core core).lsByte a = (s.core core).lsByte a) ∧
     (∀ u bs, x.mode = 0 → h.act = false → blkP x.block 2 ≠ 0 → h.tb ≤ 256 → lyrRead s g (blkP x.block 2) h.tb = (u, .ok bs) → bs.any (·.2) = false → ∃ v, done 0 v ∧
       v.mem = s.mem ∧ (v.core core).lsBytes hdr 8 = leBytes 4 (blkW x.block 1) ++ leBytes 4 0 ∧
       ∀ a, a < hdr ∨ hdr + 8 ≤ a → (v.core core).lsByte a =
         if base + h.table ≤ a ∧ a < base + h.table + h.tb then (bs.getD (a - (base + h.table)) (0, false)).1 else (s.core core).lsByte a) ∧
     (∀ k cc, x.mode = 1 → bitsAt (blkW x.block 1) 31 4 = 0 → blkP x.block 2 = 0 →
       let n := bitsAt (blkW x.block 1) 3 0
       let t := stepBegin (s.core core) base (blkW x.block 0) n
       (n = 0 ∨ h.hw < n ∨ (h.act = true ∧ n ≠ h.gtot) → ∃ v, done 4 v ∧ v.mem = s.mem ∧ (v.core core).ls = (s.core core).ls) ∧
       (∀ bad, 1 ≤ n → n ≤ h.hw → (h.act = true → n = h.gtot) → 0 < (s.cluster (clusterOf core)).energy →
         stepOn (s.core core) t t.rowsLeft (stepCc s (clusterOf core)) = (k, none, cc, bad) →
         ∃ v, done (if bad then 0x13 else 0) v ∧ v.mem = s.mem ∧ (v.core core).ls = k.ls ∧
           (v.cluster (clusterOf core)).energy = (s.cluster (clusterOf core)).energy - 20 * cc)) ∧
     (x.mode = 2 → h.act = false → (∃ side op, blkW x.block 1 = side + 4 * op + 16 ∧ side < 4 ∧ op < 2) → blkW x.block 3 = 0 →
       (∀ side, side < 4 → lsRangeOk (limOf s g) (blkW x.block 2) (h.hw * cellPitch (lineLen h side) h.cw) = true) →
       ∃ v st, (st = 0 ∨ st = 0x13) ∧ done st v ∧ v.mem = s.mem)) ∧
  (∀ x tab hbad bad gen old rows cc, x.checker = false →
     let reg := region_ x 1
     let n := reg.2.1 + 1 - reg.1
     let f := fillHalo x hbad old
     n ≤ rows → n ≤ 2 * cc → ∃ new met, runPasses x tab hbad [(1, 0)] none rows cc gen old bad = ⟨new, met, (gen + 1) % 2 ^ 32, cc - (n + 1) / 2, none⟩ ∧
       (∀ r, r < old.length → new.getD r [] = if reg.1 ≤ r ∧ r ≤ reg.2.1 then newRow x tab ((gen + 1) % 2 ^ 32) 1 0 f.1 r else f.1.getD r []) ∧
       (met = true ↔ bad = true ∨ f.2 = true ∨
         ∃ r c, reg.1 ≤ r ∧ r ≤ reg.2.1 ∧ reg.2.2.1 ≤ c ∧ c ≤ reg.2.2.2 ∧ (cellAt new r c).2 = true)) ∧
  (∀ x tab gen k ph old r c cell, (old.getD r [])[c]? = some cell → (newRow x tab gen k ph old r)[c]? = some
     (if (region_ x k).2.2.1 ≤ c ∧ c ≤ (region_ x k).2.2.2 ∧ (x.checker = false ∨ (r + c) % 2 = ph) then
       ((tab (cellIndex x gen old r c)).1 % 2 ^ x.cw, (tab (cellIndex x gen old r c)).2 || cell.2 || x.around.any fun d => (cellAt old (r + d.1 - 1) (c + d.2 - 1)).2)
     else cell))

/-! ## EDGE and BANK (R163 to R165, R185, R280 to R284) -/

/-- R280 to R284: EDGE.FRAME advances the frame counter; EDGE.CUTMOVE starts the move that its node image names; EDGE.CUTMOVE, EDGE.STATUS and
EDGE.FLUSH give INVALID for a block they cannot use; STATUS writes the edge's counters, FLUSH gives LOCAL on an edge that is not remote here. A
translation fault stalls the instruction, with a token.
The model's choices in it: log 57. -/
def Obligations.EdgeInstructions : Prop :=
  ∀ p t s c, let n : Need := { (Need.ofUni.ublk p.val 4).udst (.g t) with even := [p.val] }
    let b := ublock c.g p.val 4
    let key := edgeKey c.g.info.vdev (blkP b 0)
    (gate (.edgeFrame p t) n (fun g => outstanding g [clsLSU, clsEDG]) (fun _ _ => 0) s = .go c 0 → ∃ u, exec (.edgeFrame p t) s = .next u ∧
      ((∃ w ∈ b, w ≠ 0) → UniEffect s u c (.g t) [2] 0) ∧
      ((∀ w ∈ b, w = 0) → UniValue u c (.g t) 0 ∧ (u.vdev c.g.info.vdev).frame = ((s.vdev c.g.info.vdev).frame + 1) % 2 ^ 32)) ∧
    (gate (.edgeCutmove p t) n (fun _ => false) (fun _ _ => 0) s = .go c 0 → ∃ u, exec (.edgeCutmove p t) s = .next u ∧
      (blkP b 2 ≠ 0 ∨ blkP b 0 % 32 ≠ 0 → UniEffect s u c (.g t) [2] 0) ∧
      ∀ va, blkP b 2 = 0 → blkP b 0 % 32 = 0 → sysBytes (account n c s) c.g.info.vdev 1 2 (blkP b 0) 32 = .xlate va →
        ∃ h, u.group? c.gid = some h ∧ h.r = c.g.r ∧ h.c.wait = .edge t.val ∧ (curPath h.c.paths).map (·.pc) = some c.pc) ∧
    (gate (.edgeCutmove p t) n (fun _ => false) (fun _ _ => 0) s = .go c 0 → ∀ bs l v, blkP b 2 = 0 → blkP b 0 % 32 = 0 →
      let s0 := account n c s
      let w := bytesWords 8 bs
      let s1 := s0.sysReads c.g.info.vdev [(blkP b 0, 32)]
      sysBytes s0 c.g.info.vdev 1 2 (blkP b 0) 32 = .ok bs → nodeKind w = 7 → nodeOk (fun _ => true) w = true → moveUnfinished s1 c.g.info.vdev = false →
      sysBytes s1 c.g.info.vdev 1 2 (blkP w 2) (8 * blkW w 1) = .ok l →
      startMove (s1.sysReads c.g.info.vdev [(blkP w 2, 8 * blkW w 1)]) c.g.info.vdev (blkW w 4) (blkP w 6) ((List.range (blkW w 1)).map fun i => field l (8 * i) 8) = .ok v →
      (v.group? c.gid).map (·.info) = some c.g.info → (v.group? c.gid).map (fun g => (g.r, g.c)) = (s1.group? c.gid).map (fun g => (g.r, g.c)) →
      ∃ u, exec (.edgeCutmove p t) s = .next u ∧ UniValue u c (.g t) 0 ∧ (u.vdev c.g.info.vdev).move = (v.vdev c.g.info.vdev).move ∧
        ∀ a, u.byte a = v.byte a) ∧
    (gate (.edgeStatus p t) n (fun _ => false) (fun _ _ => 0) s = .go c 0 → ∃ u, exec (.edgeStatus p t) s = .next u ∧
      (find? s.edges key = none → UniEffect s u c (.g t) [2] 0) ∧
      ∀ e pa, find? s.edges key = some e → (blkP b 2 % 64 ≠ 0 → UniEffect s u c (.g t) [2] 0) ∧
        (blkP b 2 % 64 = 0 → engRuns (account n c s) c.g.info.vdev c.g.info.gang 2 2 (blkP b 2) 64 = .ok [.phys pa 64] → region s pa = .hbm →
          UniValue u c (.g t) 0 ∧ u.bytes (loc pa) 64 = wordBytes (edgeCounters s key e) ∧
          ∀ a, a < loc pa ∨ loc pa + 64 ≤ a → u.byte a = s.byte a)) ∧
    (gate (.edgeFlush p t) n (fun _ => false) (fun _ _ => 0) s = .go c 0 → ∃ u, exec (.edgeFlush p t) s = .next u ∧
      (find? s.edges key = none → UniEffect s u c (.g t) [2] 0) ∧
      ∀ e, find? s.edges key = some e → (blkP b 2 ≠ 0 → UniEffect s u c (.g t) [2] 0) ∧
        (blkP b 2 = 0 → e.role = roleReceiver → UniEffect s u c (.g t) [0] 0) ∧
        (blkP b 2 = 0 → e.role = roleLocal ∨ e.role = roleInert → UniEffect s u c (.g t) [6] 0) ∧
        (blkP b 2 = 0 → e.role = roleSender → UniValue u c (.g t) 0 ∧ ∀ m, find? s.remotes key = some m → ∃ x, find? u.remotes key = some x ∧ x.pack = [] ∧ x.members = []))

/-- R163, R164, R165, R185: a request for the mode a bank has is DONE, for mode 3 or above REFUSED, for a bank in use BUSY; else it works: a switch
out of SCRATCH or FIFO is DONE at once, one out of CACHE drains first and is answered when the bank has been zeroed; zeroing takes 512 cc, and then the
new mode stands and the bank reads 0.
The model's choices in it: log 33 (lines of a draining bank) and log 63. -/
def Obligations.BankModes : Prop :=
  (∀ s cl bank mode, (3 ≤ mode → bankStep s cl bank mode = .status 2) ∧
    (mode < 3 → (s.cluster cl).bankReqs = [] → mget 0 (s.cluster cl).bankMode bank = mode → bankStep s cl bank mode = .status 0)) ∧
  (∀ (d : Fin 56) a b s c, gate (.bank (.g d) a b) { ((Need.ofUni.usrc a).usrc b).udst (.g d) with priv := true } (fun _ => false) (fun _ _ => 0) s = .go c 0 →
    let bank := (usrc s c.g a).toNat
    let mode := (usrc s c.g b).toNat
    let cl := clusterOf c.g.info.core
    ∃ u, exec (.bank (.g d) a b) s = .next u ∧ (32 ≤ bank → UniEffect s u c (.g d) [2] 0) ∧
      (∀ st, bank < 32 → (s.cluster cl).bankReqs = [] → bankStep s cl bank mode = .status st → UniValue u c (.g d) (.ofNat 32 st)) ∧
      (bank < 32 → (s.cluster cl).bankReqs = [] → bankStep s cl bank mode = .work 1 →
        (u.cluster cl).bankReqs = [⟨bank, mode, some (c.gid, d.val), 1, 0⟩] ∧ (∃ g, u.group? c.gid = some g ∧ g.r = c.g.r ∧ g.c.paths = advanced c)) ∧
      (bank < 32 → (s.cluster cl).bankReqs = [] → bankStep s cl bank mode = .work 2 →
        (u.cluster cl).bankReqs = [⟨bank, mode, some (c.gid, d.val), 3, s.now⟩] ∧ UniValue u c (.g d) 0)) ∧
  (∀ a b s c, gate (.bank .zero a b) { ((Need.ofUni.usrc a).usrc b).udst .zero with priv := true } (fun _ => false) (fun _ _ => 0) s = .go c 0 →
    ∃ u g, exec (.bank .zero a b) s = .next u ∧ u.group? c.gid = some g ∧ g.r = c.g.r ∧ g.c.paths = advanced c) ∧
  (∀ s cl (val : Word), cl < 200 → s.sys.hartsReleased = true → (s.cluster cl).bankBusy = false → (s.cluster cl).bankReqs = [] → val.toNat < 2 ^ 13 →
    bitsAt val.toNat 7 2 = 0 → ∃ u, exec (.bankreqWrite cl val true) s = .next u ∧
    (∀ st, bankStep s cl (bitsAt val.toNat 12 8) (val.toNat % 4) = .status st → (u.cluster cl).bankBusy = false ∧ (u.cluster cl).bankStatus = st) ∧
    (bankStep s cl (bitsAt val.toNat 12 8) (val.toNat % 4) = .work 1 → (u.cluster cl).bankBusy = true ∧
      (u.cluster cl).bankReqs = [⟨bitsAt val.toNat 12 8, val.toNat % 4, none, 1, 0⟩]) ∧
    (bankStep s cl (bitsAt val.toNat 12 8) (val.toNat % 4) = .work 2 → (u.cluster cl).bankBusy = false ∧ (u.cluster cl).bankStatus = 0 ∧
      (u.cluster cl).bankReqs = [⟨bitsAt val.toNat 12 8, val.toNat % 4, none, 3, s.now⟩])) ∧
  (∀ s cl r rest, (s.cluster cl).bankReqs = r :: rest → r.stage = 1 → ∃ u, exec (.bankDrainComplete cl) s = .next u ∧
    (u.cluster cl).bankReqs = { r with stage := 2, since := s.now } :: rest ∧ (u.cluster cl).bankMode = (s.cluster cl).bankMode) ∧
  (∀ s cl r, (s.cluster cl).bankReqs = [r] → 2 ≤ r.stage → r.since + 512 ≤ s.now → ∃ u, exec (.bankZeroComplete cl) s = .next u ∧ (u.cluster cl).bankReqs = [] ∧
    mget 0 (u.cluster cl).bankMode r.bank = r.mode ∧ (∀ a, a / 65536 = r.bank → (u.cluster cl).sramByte a = 0) ∧
    (∀ a, a / 65536 ≠ r.bank → (u.cluster cl).sramByte a = (s.cluster cl).sramByte a) ∧ (r.stage = 2 → r.group = none → (u.cluster cl).bankBusy = false ∧ (u.cluster cl).bankStatus = 0))

/-! ## Front ends and walkers (R24 to R35) -/

/-- R24, R25, R27, R28: in hypervisor mode a free partition that meets no other is enabled and an idle one disabled; FEWATCH takes the sequence at its
address as accepted, 0 watches nothing; FELOAD loads the node store; another mode changes nothing. R28: a new stamp at the watched address starts a
walk at its entry node when the walker is idle, halts it with error 4 when the entry is not a valid node, and is held pending while another walk runs;
a further one takes the pending one's place and is counted.
The model's choices in it: log 51, log 52 and log 88 (a refused enable stores the range). -/
def Obligations.FrontEndRegistersAndStarts : Prop :=
  ((∀ s fe (val : Word), s.sys.hartsReleased = true → fe < 20 → val.toNat < 2 ^ 17 →
     (bit val.toNat 16 = true → (s.fe fe).en = false → ∃ u, exec (.partitionEnable fe val true) s = .next u ∧ (u.fe fe).base = bitsAt val.toNat 7 0 ∧
       (u.fe fe).limit = bitsAt val.toNat 15 8 ∧ (partitionOk s fe (bitsAt val.toNat 7 0) (bitsAt val.toNat 15 8) = true → (u.fe fe).en = true) ∧
       (partitionOk s fe (bitsAt val.toNat 7 0) (bitsAt val.toNat 15 8) = false → (u.fe fe).en = false ∧ (u.fe fe).err = 2)) ∧
     (bit val.toNat 16 = false → (s.fe fe).en = true → (s.fe fe).base = bitsAt val.toNat 7 0 → (s.fe fe).limit = bitsAt val.toNat 15 8 → (s.fe fe).st = .idle →
       partitionBusy s fe = false → ∃ u, exec (.partitionDisable fe val true) s = .next u ∧ (u.fe fe) = { s.fe fe with en := false })) ∧
   (∀ s fe val, exec (.partitionEnable fe val false) s = .next s ∧ exec (.partitionDisable fe val false) s = .next s ∧ exec (.feload fe val false) s = .next s) ∧
   (∀ s fe (val : DWord), s.sys.hartsReleased = true → fe < 20 → (s.fe fe).quiet = true →
     (val = 0 → ∃ u, exec (.fewatchWrite fe val true) s = .next u ∧ u.fe fe = { s.fe fe with watch := 0 }) ∧
     (∀ d, val ≠ 0 → val.toNat % 8 = 0 → val.toNat < 2 ^ 57 → feContext s (s.fe fe) = true → walkRead s (s.fe fe).vdev val.toNat 8 = .ok d →
       ∃ u, exec (.fewatchWrite fe val true) s = .next u ∧ u.fe fe = { s.fe fe with watch := val, accepted := d / 2 ^ 16, stampBad := false })) ∧
   (∀ s fe (val : Word) b, s.sys.hartsReleased = true → fe < 20 → val.toNat < 2 ^ 12 → (s.fe fe).quiet = true → feContext s (s.fe fe) = true → (s.fe fe).pending = none →
     sysBytes s (s.fe fe).vdev 1 (32 * (val.toNat + 1) / 4096 + 2) (s.fe fe).graph.toNat (32 * (val.toNat + 1)) = .ok b →
     ∃ u, exec (.feload fe val true) s = .next u ∧ (u.fe fe).st = .idle ∧
       ∀ i, i ≤ val.toNat → find? (u.fe fe).nodes i = some (bytesWords 8 ((b.drop (32 * i)).take 32)))) ∧
  (∀ s fe v, feActs s (s.fe fe) = true → (s.fe fe).watch ≠ 0 → walkRead s (s.fe fe).vdev (s.fe fe).watch.toNat 8 = .ok v → v < 2 ^ 64 →
     v / 2 ^ 16 ≠ (s.fe fe).accepted → (s.fe fe).pending = none → ∃ u, exec (.startStamp fe) s = .next u ∧
       ((s.fe fe).st = .idle → (u.fe fe).accepted = v / 2 ^ 16 ∧
         (bitsAt v 15 12 = 0 → (s.fe fe).has (v % 2 ^ 12) = true → WalksTo u fe (v % 2 ^ 12)) ∧
         (bitsAt v 15 12 ≠ 0 ∨ (s.fe fe).has (v % 2 ^ 12) = false → (u.fe fe).st = .halt ∧ (u.fe fe).err = 4)) ∧
       ((s.fe fe).st ≠ .idle → u.fe fe = { s.fe fe with pending := some (.ofNat 64 v) })) ∧
  (∀ s fe v p, feActs s (s.fe fe) = true → (s.fe fe).watch ≠ 0 → walkRead s (s.fe fe).vdev (s.fe fe).watch.toNat 8 = .ok v → v < 2 ^ 64 →
     v / 2 ^ 16 ≠ (s.fe fe).accepted → (s.fe fe).pending = some p → p ≠ .ofNat 64 v → (s.fe fe).st ≠ .idle → ∃ u, exec (.startStamp fe) s = .next u ∧
       u.fe fe = { s.fe fe with pending := some (.ofNat 64 v), collapsed := min 255 ((s.fe fe).collapsed + 1) })

/-- R29 to R34: LAUNCH queues its launch and waits; COND and WHILE test their condition word and choose the next node; SIGNAL stores its value; FRAME
advances the frame counter; WAIT goes on when its comparison holds, else waits. A malformed node halts the walk with error 5, whatever its kind. R28,
R31, R32: a WAIT ends when a later read satisfies it, or halts the walk with error 6 when its time is up; the fence of a DEP node is made once the
walk's work is done; END gives its completion value and the walker is idle again.
The model's choices in it: log 34 and log 72. -/
def Obligations.WalkerNodesAndWaits : Prop :=
  ((∀ s fe w, AtNode s fe 1 w → walkCount s fe < 64 → (s.fe fe).queue.length < 64 → ∃ u, exec (.launchNode fe) s = .next u ∧
     u.fe fe = { s.fe fe with queue := (s.fe fe).queue ++ [⟨(s.fe fe).vdev, true, 0, 0, blkP w 2, blkP w 4, blkW w 1, false⟩], launchWait := true }) ∧
   (∀ s fe w v, AtNode s fe 2 w → walkRead s (s.fe fe).vdev (((s.fe fe).cwb.toNat + 4 * (blkW w 1 % 256)) % 2 ^ 64) 4 = .ok v →
     ∃ u, exec (.condNode fe) s = .next u ∧ WalksTo u fe (if ccHolds (bitsAt (blkW w 1) 22 20) (signed 32 v) then nodeNext w else bitsAt (blkW w 1) 19 8)) ∧
   (∀ s fe w v, AtNode s fe 3 w → walkRead s (s.fe fe).vdev (((s.fe fe).cwb.toNat + 4 * (blkW w 1 % 256)) % 2 ^ 64) 4 = .ok v →
     let holds := ccHolds (bitsAt (blkW w 1) 22 20) (signed 32 v)
     let n := mget 0 (s.fe fe).counts (s.fe fe).node
     ∃ u, exec (.whileNode fe) s = .next u ∧
       (holds = true → (blkW w 2 = 0 ∨ n < blkW w 2) → WalksTo u fe (bitsAt (blkW w 1) 19 8) ∧ mget 0 (u.fe fe).counts (s.fe fe).node = n + 1) ∧
       (holds = false → WalksTo u fe (nodeNext w) ∧ (u.fe fe).err = (s.fe fe).err) ∧
       (holds = true → blkW w 2 ≠ 0 → blkW w 2 ≤ n → WalksTo u fe (nodeNext w) ∧ (u.fe fe).err = 8)) ∧
   (∀ s fe w v, AtNode s fe 4 w → walkRead s (s.fe fe).vdev (blkP w 2) 8 = .ok v → ∃ u, exec (.waitNode fe) s = .next u ∧
     (waitHolds (blkW w 1 % 4) v (blkP w 4) = true → WalksTo u fe (nodeNext w)) ∧
     (waitHolds (blkW w 1 % 4) v (blkP w 4) = false → u.fe fe = { s.fe fe with st := .wait, deadline := if blkW w 6 = 0 then none else some (s.now + 800 * blkW w 6) })) ∧
   (∀ s fe w pa, AtNode s fe 5 w → engRuns s (s.fe fe).vdev none 2 2 (blkP w 2) 8 = .ok [.phys pa 8] → region s pa = .hbm → ∃ u, exec (.signalNode fe) s = .next u ∧
     WalksTo u fe (nodeNext w) ∧ u.num (loc pa) 8 = blkP w 4 ∧ ∀ a, a < loc pa ∨ loc pa + 8 ≤ a → u.byte a = s.byte a) ∧
   (∀ s fe w, AtNode s fe 6 w → ∃ u, exec (.frameNode fe) s = .next u ∧ WalksTo u fe (nodeNext w) ∧
     (u.vdev (s.fe fe).vdev).frame = ((s.vdev (s.fe fe).vdev).frame + 1) % 2 ^ 32) ∧
   (∀ s fe w b t, AtNode s fe 7 w → moveUnfinished s (s.fe fe).vdev = false → sysBytes s (s.fe fe).vdev 1 2 (blkP w 2) (8 * blkW w 1) = .ok b →
     startMove (s.sysReads (s.fe fe).vdev [(blkP w 2, 8 * blkW w 1)]) (s.fe fe).vdev (blkW w 4) (blkP w 6) ((List.range (blkW w 1)).map fun i => field b (8 * i) 8) = .ok t →
     ∃ u, exec (.cutmoveNode fe) s = .next u ∧ WalksTo u fe (nodeNext w)) ∧
   (∀ s fe w, AtNode s fe 8 w → ∃ u, exec (.endNode fe) s = .next u ∧ u.fe fe = { s.fe fe with endWait := true }) ∧
   (∀ x ∈ ([.launchNode, .condNode, .whileNode, .waitNode, .signalNode, .frameNode, .cutmoveNode, .endNode] : List (Nat → Instr)), ∀ s fe,
     feActs s (s.fe fe) = true → (s.fe fe).st = .walk → (s.fe fe).parked = 0 → (s.fe fe).launchWait = false → (s.fe fe).endWait = false →
     nodeOk (s.fe fe).has ((find? (s.fe fe).nodes (s.fe fe).node).getD []) = false → ∃ u, exec (x fe) s = .next u ∧ (u.fe fe).st = .halt ∧ (u.fe fe).err = 5)) ∧
  ((∀ s fe w v, feActs s (s.fe fe) = true → (s.fe fe).st = .wait → (s.fe fe).parked = 0 → find? (s.fe fe).nodes (s.fe fe).node = some w →
     walkRead s (s.fe fe).vdev (blkP w 2) 8 = .ok v → waitHolds (blkW w 1 % 4) v (blkP w 4) = true →
     ∃ u, exec (.waitNodePoll fe) s = .next u ∧ WalksTo u fe (nodeNext w)) ∧
   (∀ s fe d, feActs s (s.fe fe) = true → (s.fe fe).st = .wait → (s.fe fe).deadline = some d → d ≤ s.now →
     ∃ u, exec (.waitTimeout fe) s = .next u ∧ (u.fe fe).st = .halt ∧ (u.fe fe).err = 6) ∧
   (∀ s fe w, feActs s (s.fe fe) = true → (s.fe fe).st = .walk → (s.fe fe).parked = 0 → (s.fe fe).launchWait = false → (s.fe fe).fenced = false →
     find? (s.fe fe).nodes (s.fe fe).node = some w → nodeOk (s.fe fe).has w = true → nodeDep w = true → ((s.fe fe).endWait = true ∨ nodeKind w ≠ 8) →
     walkBusy s fe = false → ∃ u, exec (.walkerFence fe) s = .next u ∧ u.fe fe = { s.fe fe with fenced := true } ∧
       ∀ k, k ∈ clustersOf (s.fe fe) → ∀ i, i < 4 → (u.core (4 * k + i)).l1 = [] ∧ (u.core (4 * k + i)).smp = []) ∧
   (∀ s fe w, feActs s (s.fe fe) = true → (s.fe fe).endWait = true → (s.fe fe).fenced = true → (s.fe fe).parked = 0 → (s.fe fe).pending = none →
     find? (s.fe fe).nodes (s.fe fe).node = some w →
     (blkP w 2 = 0 → ∃ u, exec (.endComplete fe) s = .next u ∧ u.fe fe = { s.fe fe with st := .idle, endWait := false, fenced := false }) ∧
     (∀ pa, blkP w 2 ≠ 0 → engRuns s (s.fe fe).vdev none 2 2 (blkP w 2) 8 = .ok [.phys pa 8] → region s pa = .hbm → ∃ u, exec (.endComplete fe) s = .next u ∧
       u.fe fe = { s.fe fe with st := .idle, endWait := false, fenced := false } ∧ u.num (loc pa) 8 = blkP w 4)))

/-! ## Edges across the network (R256 to R285) -/

/-- R264 to R267, R285: a voided slot is packed as a void entry and the drain goes on; the pack window sends what was packed; when the producers are
done and the ring is drained, the sender sends CLOSE with its next sequence.
The model's choices in it: log 58 (what the codec does) and log 60 (the wire image of what it sends). -/
def Obligations.EdgeSends : Prop :=
  (∀ s k e m, find? s.edges k = some e → find? s.remotes k = some m → e.role = roleSender → ringServes s e = true → m.next ≠ edgeRsv s e →
    m.next ∈ e.voided → m.pack = [] → ∃ u x, exec (.slotDrain k) s = .next u ∧ find? u.remotes k = some x ∧ x.next = (m.next + 1) % 2 ^ 32 ∧
      x.pack = [[0, 0, 0, 0xFF, 0xFF, 0xFF, 0xFF]] ∧ x.packFrom = m.next ∧ x.packFrame = mget 0 e.frames m.next ∧ u.edges = s.edges) ∧
  (∀ s u w w' k e m bs bad h evict, find? s.edges k = some e → find? s.remotes k = some m → e.role = roleSender → ringServes s e = true → m.next ≠ edgeRsv s e →
    m.next ∉ e.voided → isPublished s e m.next = true → m.next ∉ e.parkedAt → ringRead s none e m.next (e.rs + 1) = (w, .ok (bs, bad)) → bad.any id = false →
    histGet w e.vdev m (leNat ((bs.drop 4).take 3)) = some (w', h, evict) →
    let x := encodeRec m.fields h (leNat ((bs.drop 4).take 3)) m.next (bytesWords (2 * e.rs) (bs.drop 8))
    histPut w' e.vdev m x.2 = some u → m.pack = [] → find? u.remotes k = some m → ∃ v y, exec (.slotDrain k) s = .next v ∧ find? v.remotes k = some y ∧
      y.next = (m.next + 1) % 2 ^ 32 ∧ y.pack = [x.1]) ∧
  (∀ s k e m, find? s.edges k = some e → find? s.remotes k = some m → m.pack ≠ [] → codecServes s e = true → m.packAt + 800 * m.pw ≤ s.now → m.members.length < 3 →
    ∃ u x, exec (.packWindowExpiry k) s = .next u ∧ find? u.remotes k = some x ∧ x.pack = [] ∧ x.dseq = (m.dseq + 1) % 2 ^ 32 ∧
      (u.codec m.codec).wire.length = (s.codec m.codec).wire.length + 1) ∧
  (∀ s k e m, find? s.edges k = some e → find? s.remotes k = some m → e.role = roleSender → codecServes s e = true → m.closeSent = false →
    producersDone s k e = true → m.next = edgeRsv s e → ∃ u x, exec (.edgeClose k) s = .next u ∧ find? u.remotes k = some x ∧ x.closeSent = true ∧
      (u.codec m.codec).wire.getLast? = some (carried (s.codec m.codec) m.codec m.peer (reliableMsg 4 m.eid (peerSid (s.codec m.codec) m.peer)
        (mget Session.new (s.codec m.codec).sessions m.peer).next (s.vdev e.vdev).frame 4 0 (leBytes 4 m.next))))

/-- R2, R260: a frame that a codec builds gives the far port its payload, address and port, and a frame that is not IPv6 and UDP as R260 says is counted
and dropped. R260, R264, R267, R269: a datagram that names no edge is counted and dropped, a malformed one counted on its edge; a good one is taken
once, and a duplicate only counted, at the port and on the edge; a parity datagram is kept for its group. R268, R269: messages of the reliable lane are handed on in order and acknowledged; a duplicate is only
acknowledged again; an acknowledgement ends the resending of what it names; what is due is sent again with its interval doubled.
The model's choices in it: log 58 and log 60. -/
def Obligations.DatagramsAndMessagesArrive : Prop :=
  ((∀ c codec peer b, b.length ≤ 8960 → arrivedOf (frameOf c codec peer b) = some ⟨peerBytes c peer 0x10 16, peerNum c peer 0x2A 2, b⟩) ∧
   (∀ x ∈ ([.dataDatagram, .parityDatagram, .stateMessage, .moveMessage, .takeMessage, .stoppedMessage, .closeMessage, .ackMessage] :
       List (Nat → List Byte → Instr)), ∀ s codec f, codec < 2 → arrivedOf f = none → ∃ u, exec (x codec f) s = .next u ∧
       u = s.updCodec codec fun c => { c with dropped := c.dropped + 1 })) ∧
  ((∀ x ∈ ([(.dataDatagram, 0), (.parityDatagram, 1)] : List ((Nat → List Byte → Instr) × Nat)), ∀ s codec f a, codec < 2 → arrivedOf f = some a →
     field a.body 0 1 % 16 = x.2 → matchEdge s codec a (field a.body 2 2) (field a.body 4 4) = none → ∃ u, exec (x.1 codec f) s = .next u ∧
       u.codec codec = { s.codec codec with dropped := (s.codec codec).dropped + 1 }) ∧
   (∀ s codec f a k e m, codec < 2 → arrivedOf f = some a → let b := a.body
     field b 0 1 % 16 = 0 → matchEdge s codec a (field b 2 2) (field b 4 4) = some k → find? s.edges k = some e → find? s.remotes k = some m →
     m.par = [] → (b.length < 0x38 → ∃ u x, exec (.dataDatagram codec f) s = .next u ∧ (u.codec codec).malformed = (s.codec codec).malformed + 1 ∧
       find? u.remotes k = some x ∧ mget 0 x.cnt 10 = (mget 0 m.cnt 10 + 1) % 2 ^ 32) ∧
     (∀ l, 0x38 ≤ b.length → field b 0 1 = 0x10 → field b 1 1 % 16 = 0 → field b 0x16 2 = b.length - 0x38 →
       readEntries m.fields (field b 0xC 4) (field b 1 1 / 16) (field b 0x14 1) (b.drop 0x38) = some l → m.seen.contains (field b 8 4) = false →
       ∃ u x, exec (.dataDatagram codec f) s = .next u ∧ find? u.remotes k = some x ∧ field b 8 4 ∈ x.seen) ∧
     (∀ l, 0x38 ≤ b.length → field b 0 1 = 0x10 → field b 1 1 % 16 = 0 → field b 0x16 2 = b.length - 0x38 →
       readEntries m.fields (field b 0xC 4) (field b 1 1 / 16) (field b 0x14 1) (b.drop 0x38) = some l → m.seen.contains (field b 8 4) = true →
       ∃ u x, exec (.dataDatagram codec f) s = .next u ∧ u.codec codec = { s.codec codec with dropped := (s.codec codec).dropped + 1 } ∧ u.edges = s.edges ∧
         find? u.remotes k = some x ∧ x = { m with cnt := x.cnt } ∧ mget 0 x.cnt 10 = (mget 0 m.cnt 10 + 1) % 2 ^ 32)) ∧
   (∀ s codec f a k e m, codec < 2 → arrivedOf f = some a → let b := a.body
     field b 0 1 = 0x11 → field b 1 1 % 16 = 0 → field b 8 4 % 4 = 0 → 0x14 ≤ b.length →
     b.length = 0x14 + ((List.range 4).map fun i => field b (0x0C + 2 * i) 2).foldl max 0 → matchEdge s codec a (field b 2 2) (field b 4 4) = some k →
     find? s.edges k = some e → find? s.remotes k = some m → ({ m with par := mset m.par (field b 8 4 / 4) b } : Remote).rebuild (field b 8 4 / 4) = none →
     ∃ u x, exec (.parityDatagram codec f) s = .next u ∧ find? u.remotes k = some x ∧ find? x.par (field b 8 4 / 4) = some b)) ∧
  ((∀ x ∈ ([(.stateMessage, 0), (.moveMessage, 1), (.takeMessage, 2), (.stoppedMessage, 3), (.closeMessage, 4)] : List ((Nat → List Byte → Instr) × Nat)),
     ∀ s codec f a peer, codec < 2 → arrivedOf f = some a → let b := a.body
     field b 1 1 = x.2 → messageOk b = true → peerOf (s.codec codec) a (field b 4 4) = some peer →
     let y := mget Session.new (s.codec codec).sessions peer
     let ack := fun n => carried (s.codec codec) codec peer (ackMsg (field b 4 4) n)
     (precedes (field b 8 4) y.expect = true → ∃ u, exec (x.1 codec f) s = .next u ∧
       u.codec codec = { s.codec codec with wire := (s.codec codec).wire ++ [ack y.expect] } ∧ u.remotes = s.remotes ∧ u.vdevs = s.vdevs) ∧
     (y.expect = field b 8 4 → y.store = [] → ∃ u, exec (x.1 codec f) s = .next u ∧
       (mget Session.new (u.codec codec).sessions peer).expect = (field b 8 4 + 1) % 2 ^ 32 ∧
       (u.codec codec).wire.getLast? = some (ack ((field b 8 4 + 1) % 2 ^ 32)))) ∧
   (∀ s codec f a peer, codec < 2 → arrivedOf f = some a → let b := a.body
     b.length = 16 → field b 0 1 = 0x13 → field b 1 3 = 0 → field b 0xC 4 = 0 → peerOf (s.codec codec) a (field b 4 4) = some peer →
     ∃ u, exec (.ackMessage codec f) s = .next u ∧ (mget Session.new (u.codec codec).sessions peer).unacked =
       (mget Session.new (s.codec codec).sessions peer).unacked.filter fun m => !precedes m.1 (field b 8 4)) ∧
   (∀ s codec sid peer q m at_ iv, peerOfSid (s.codec codec) sid = some peer → (mget Session.new (s.codec codec).sessions peer).unacked = [(q, m, at_, iv)] → at_ ≤ s.now →
     ∃ u, exec (.reliableResend codec sid) s = .next u ∧ (u.codec codec).wire = (s.codec codec).wire ++ [carried (s.codec codec) codec peer m] ∧
       (mget Session.new (u.codec codec).sessions peer).unacked = [(q, m, s.now + min (2 * iv) 5120000, min (2 * iv) 5120000)]))

/-- R270, R271: at a frame's deadline its known sequences are settled, as a substitute where a key has arrived and void otherwise; the codec places
the decision of the next sequence: a void takes a slot that is void, a record a slot with its header and its words, in the ring's SRAM or in memory.
R12: on an edge that did not start with R12's values that has no defined effect and stops.
The model's choices in it: log 22 (edgePa, where the words of a descriptor lie), log 23 (ringCluster and sramOffset, where a LOC=1 ring lies) and
log 58. -/
def Obligations.Settlement : Prop :=
  (∀ s k e m n frame, find? s.edges k = some e → find? s.remotes k = some m → e.role = roleReceiver → codecServes s e = true → m.known = [(n, frame)] →
    find? m.decided n = none → deadlinePassed s e.vdev m frame = true → ∃ u x, exec (.frameDeadline k frame) s = .next u ∧ find? u.remotes k = some x ∧
      find? x.decided n = some (match find? m.keys n with | some key => .subst key frame | none => .void)) ∧
  (∀ s k e m, find? s.edges k = some e → find? s.remotes k = some m → e.role = roleReceiver → ringServes s e = true → edgeFree s e ≠ 0 → awaitsTake s e = false →
    m.late = [] → find? m.decided m.np = some .void → (e.undef = true → exec (.recordPlacement k) s = .fault .edgeInitial) ∧
    (e.undef = false → ∃ u x y, exec (.recordPlacement k) s = .next u ∧ find? u.remotes k = some x ∧ x.np = (m.np + 1) % 2 ^ 32 ∧
      find? u.edges k = some y ∧ edgeRsv s e ∈ y.voided ∧ u.num (edgePa s e + 0x10) 4 = (edgeRsv s e + 1) % 2 ^ 32)) ∧
  (∀ s s0 s1 k e m r h evict, find? s.edges k = some e → find? s.remotes k = some m → e.role = roleReceiver → ringServes s e = true → edgeFree s e ≠ 0 →
    e.undef = false → awaitsTake s e = false → belowTake s e r.frame = false → m.late = [] → find? m.decided m.np = some (.received r) →
    histGet s e.vdev m r.key = some (s0, h, evict) →
    let l := placeFields m.fields h m.np r.frame (some r)
    histPut s0 e.vdev m (histAfter h m.np r.frame l) = some s1 → find? s1.edges k = some e → find? s1.remotes k = some m →
    let seq := edgeRsv s1 e
    let s2 := (reserveOne s1 k r.frame).1
    let bs := slotHeader (fieldStatus l + 16 * r.cg) r.key seq ++ wordBytes ((List.range (2 * e.rs)).map fun i => (l.map (·.v)).getD i 0)
    let n := 8 + 8 * e.rs
    (e.loc = true → ∃ u x, exec (.recordPlacement k) s = .next u ∧ find? u.remotes k = some x ∧ x.np = (m.np + 1) % 2 ^ 32 ∧
      (u.cluster (ringCluster s1 e)).sramBytes (sramOffset (e.slotEa seq)) n = bs) ∧
    (∀ pa, e.loc = false → engRuns s2 e.vdev none 2 (n / 4096 + 2) (e.slotEa seq) n = .ok [.phys pa n] → region s2 pa = .hbm →
      ∃ u x, exec (.recordPlacement k) s = .next u ∧ find? u.remotes k = some x ∧ x.np = (m.np + 1) % 2 ^ 32 ∧
        u.bytes (loc pa) n = bs ∧ ∀ a, a < loc pa ∨ loc pa + n ≤ a → u.byte a = s2.byte a))

/-! ## Launches, placement, completion (R35 to R43, R104, R105, R329 to R331) -/

/-- R104, R105: LAUNCH queues what its block describes and waits, or with a full queue reads 4 (BUSY) at once. R30, R35: the front end decides its
oldest launch: HDR for a bad header, GRAPH for a bad graph, NOFIT where no cluster fits, XLATE on a translation fault, else OK: a standalone launch
and a stage without an input edge become grids, a fed stage opens its input edge, and a stage of the other side completes at once (R257). The status
goes to LAUNCH's T; a walk goes on, or halts with error 7, or at a translation fault stands with a token.
The model's choices in it: log 25, log 27, log 85 (a stage number that names no entry), log 86 and log 87 (a device without a front end). -/
def Obligations.LaunchesWaitAndAreDecided : Prop :=
  (∀ p t s c, gate (.launch p t) { (Need.ofUni.ublk p.val 6).udst (.g t) with even := [p.val] } (fun g => outstanding g [clsLSU]) (fun _ _ => 0) s = .go c 0 →
     (feOf s c.g.info.vdev = none → ∃ u, exec (.launch p t) s = .next u ∧ UniEffect s u c (.g t) [4] 0) ∧
     ∀ fe, feOf s c.g.info.vdev = some fe →
     (64 ≤ (s.fe fe).queue.length → ∃ u, exec (.launch p t) s = .next u ∧ UniValue u c (.g t) 4 ∧ (u.fe fe).queue = (s.fe fe).queue) ∧
     ((s.fe fe).queue.length < 64 → ∃ u g q, exec (.launch p t) s = .next u ∧ u.group? c.gid = some g ∧ g.r = c.g.r ∧ g.c.paths = advanced c ∧
       (find? g.c.reqs q).map (·.instr) = some (.launch p t) ∧ (u.fe fe).queue = (s.fe fe).queue ++ [launchOf c.g.info.vdev c.gid q (ublock c.g p.val 6)])) ∧
  (∀ s fe l rest, (s.fe fe).queue = l :: rest → deviceLive s l.vdev = true → let s0 := s.setFe fe { s.fe fe with queue := rest }
     let refused (e : AdmErr) : Word := match e with
       | .hdr => 1
       | .graph => 2
       | .edge _ => 2
       | .xlate _ => 5
       | .poison h _ _ => if h then 1 else 2
     let stalled : Prop := ∃ u t, exec (.launchAdmission fe) s = .next u ∧ t ≠ 0 ∧
       u.fe fe = { s.fe fe with queue := rest, launchWait := false, parked := t } ∧
       find? (u.vdev l.vdev).tokens t = some ⟨.walker fe, (s.vdev l.vdev).gen, 0⟩
     (l.bad = true → ∃ u, exec (.launchAdmission fe) s = .next u ∧ Decided s u fe l rest 1) ∧
     (l.bad = false → l.graph = 0 →
       (∀ e, readHeader s0 l.vdev l.hdr .hdr = .error e → (∀ va, e ≠ .xlate va) ∨ l.walk = false →
         ∃ u, exec (.launchAdmission fe) s = .next u ∧ Decided s u fe l rest (refused e)) ∧
       (∀ va, l.walk = true → readHeader s0 l.vdev l.hdr .hdr = .error (.xlate va) → stalled) ∧
       (∀ p, readHeader s0 l.vdev l.hdr .hdr = .ok p → noFit s0 (s0.fe fe) l.vdev p false = true →
         ∃ u, exec (.launchAdmission fe) s = .next u ∧ Decided s u fe l rest 3 ∧ u.grids = s.grids) ∧
       (∀ p, readHeader s0 l.vdev l.hdr .hdr = .ok p → noFit s0 (s0.fe fe) l.vdev p false = false → ∃ u k, exec (.launchAdmission fe) s = .next u ∧
         Decided s u fe l rest 0 ∧ find? u.grids k = some ⟨l.vdev, fe, p, 0, none, false, if l.walk then (s.fe fe).walks else 0⟩)) ∧
     (l.bad = false → l.graph ≠ 0 → let got := readGraph s0 l.vdev l.graph l.stage (s.fe fe).cwb.toNat
       (∀ e, got = .error e → (∀ va, e ≠ .xlate va) ∨ l.walk = false →
         ∃ u, exec (.launchAdmission fe) s = .next u ∧ Decided s u fe l rest (refused e)) ∧
       (∀ va, l.walk = true → got = .error (.xlate va) → stalled) ∧
       (∀ ps es, got = .ok (ps, es) → (∀ p ∈ ps, p.stage ≠ l.stage) → ∃ u, exec (.launchAdmission fe) s = .next u ∧ Decided s u fe l rest 2) ∧
       (∀ ps es p, got = .ok (ps, es) → ps.find? (fun p => decide (p.stage = l.stage)) = some p →
         let fits := !noFit s0 (s0.fe fe) l.vdev p (decide (p.inEdge ≠ 0))
         (sideHere s l.vdev p.side = true → fits = false →
           ∃ u, exec (.launchAdmission fe) s = .next u ∧ Decided s u fe l rest 3 ∧ u.grids = s.grids ∧ u.edges = s.edges) ∧
         (sideHere s l.vdev p.side = true → fits = true → ∃ u, exec (.launchAdmission fe) s = .next u ∧ Decided s u fe l rest 0 ∧
           (p.inEdge ≠ 0 → (∃ r ∈ es, r.edge.desc = p.inEdge) → (find? u.edges (edgeKey l.vdev p.inEdge)).map (·.opened) = some true) ∧
           (p.inEdge = 0 → ∃ k, find? u.grids k = some ⟨l.vdev, fe, p, 0, none, false, if l.walk then (s.fe fe).walks else 0⟩)) ∧
         (sideHere s l.vdev p.side = false → p.graph ≠ 0 → ∃ u, exec (.launchAdmission fe) s = .next u ∧ Decided s u fe l rest 0 ∧ u.grids = s.grids ∧
           ∀ d ∈ p.outs, d ≠ 0 → ∀ y, find? u.edges (edgeKey l.vdev d) = some y → p.stage ∈ y.prodDone))))

/-- R17, R38 to R40, R43, R61: a gang of the preferred size goes to the one cluster of a partition that has room: its workgroups in rank order with
their coordinates, every group at PRO on one path at the entry address; a gang that fits nowhere waits, and after 4,096 cc backfill stops.
The model's choices in it: log 24 (where windows lie in a core). -/
def Obligations.GangsArePlaced : Prop :=
  (∀ s t fe i g, placing s fe = [(i, g)] → (s.fe fe).limit = (s.fe fe).base → g.prog.pgs ≤ (unplaced g).length →
    let now := (unplaced g).take g.prog.pgs
    placeGang s g.vdev (s.fe fe).base g.prog (.grid i) (now.map (coordsAt g.prog)) = some t →
    ∃ u a k, exec (.gangPlacement fe) s = .next u ∧ find? u.gangs a = some k ∧ k.cluster = (s.fe fe).base ∧ k.size = g.prog.pgs ∧
      ∀ r, r < g.prog.pgs → ∃ id w, find? u.wgs id = some w ∧ w.gang = some a ∧ w.rank = r ∧ w.coords = coordsAt g.prog (now.getD r 0) ∧
        ∀ f, f < g.prog.e1 → ∃ gid h, u.group? gid = some h ∧ h.info.wg = id ∧ h.info.f1 = f ∧ h.c.alloc = g.prog.pro ∧
          h.c.paths = [⟨g.prog.entry, .ofNat 64 (2 ^ g.prog.width - 1), .run, 0⟩]) ∧
  (∀ s fe i g, placing s fe = [(i, g)] → find? s.grids i = some g → placeNext s (s.fe fe) i g = none → g.blocked = false → g.waitFrom = none →
    ∃ u, exec (.gangPlacement fe) s = .next u ∧ find? u.grids i = some { g with waitFrom := some s.now }) ∧
  (∀ s fe i g rest t, placing s fe = (i, g) :: rest → find? s.grids i = some g → g.blocked = false → g.waitFrom = some t → t + 4096 ≤ s.now →
    ∃ u, exec (.backfillTimeout fe) s = .next u ∧ find? u.grids i = some { g with blocked := true })

/-- R36, R329 to R331: a workgroup completes once it has no group, no thread in the former, no reservation and no operation on its storage, and leaves
its gang; a grid once its workgroups and tasks have; a stage once its producers have and its edge is empty. Then its own output edges count it among
their completed producers.
The model's choices in it: log 53 (a stage that starts again) and log 78 (an edge left undefined). -/
def Obligations.WorkCompletes : Prop :=
  (∀ s id w, s.wg? id = some w → (∀ e ∈ s.groups, e.2.member id = false) → (∀ k ∈ s.cores, ∀ e ∈ k.2.entries, e.wg ≠ id) →
    (∀ r ∈ (s.core w.core).resv, r.2.wg ≠ id) → (∀ o ∈ s.ops, o.2.wg ≠ id) → ∃ u, exec (.workgroupComplete id) s = .next u ∧ u.wg? id = none ∧
      ∀ a k, w.gang = some a → find? s.gangs a = some k →
        (k.size ≤ 1 → find? u.gangs a = none) ∧ (1 < k.size → find? u.gangs a = some { k with size := k.size - 1 })) ∧
  (∀ s id g, find? s.grids id = some g → unplaced g = [] → ownerBusy s (.grid id) = false → deviceLive s g.vdev = true → ∃ u, exec (.gridComplete id) s = .next u ∧
    find? u.grids id = none ∧ (g.prog.graph = 0 → u.edges = s.edges) ∧
    (g.prog.graph ≠ 0 → ∀ d ∈ g.prog.outs, d ≠ 0 → ∀ y, find? s.edges (edgeKey g.vdev d) = some y →
      ∃ z, find? u.edges (edgeKey g.vdev d) = some z ∧ g.prog.stage ∈ z.prodDone)) ∧
  (∀ s k e p, find? s.edges k = some e → e.opened = true → deviceLive s e.vdev = true → e.stuck s = false → producersDone s k e = true →
    e.role ≠ roleReceiver → edgeRsv s e = edgeRcl s e → ownerBusy s (.stage k) = false → e.graph = (s.vdev e.vdev).cut → stageOf s e = some p →
    ∃ u x, exec (.stageClose k) s = .next u ∧ find? u.edges k = some x ∧
      x.opened = false ∧ ∀ d ∈ p.outs, d ≠ 0 → ∀ y, find? s.edges (edgeKey e.vdev d) = some y → ∃ z, find? u.edges (edgeKey e.vdev d) = some z ∧ p.stage ∈ z.prodDone)

/-! ## Power, heat, errors (R44, R46, R47, R167 to R171) -/

/-- R44, R46, R47: an epoch gives each cluster of an enabled partition its allowance less its deficit, 5.5 W by default; a die's heat index enters a
condition at 190, 200 and 210 and leaves it 6 below; at 210 the management controller is told. R167 to R169, R171: an uncorrectable error poisons
memory, local store, the operand buffer, cluster SRAM, a spawn-buffer entry and a dirty line; a clean line is discarded, to be fetched again, which
only its die's counter shows; a register of a living lane is marked with code 0x25 for whoever reads it.
The model's choices in it: log 14 and log 64. -/
def Obligations.PowerHeatAndErrors : Prop :=
  ((∀ s, s.sys.cycBase + 800 * s.epoch ≤ s.now → ∃ u, exec .epochStart s = .next u ∧ u.epoch = s.epoch + 1 ∧ ∀ c,
     (s.fes.filter (fun x => x.2.en && (clustersOf x.2).contains c) = [] → (u.cluster c).energy = (s.cluster c).energy) ∧
     ∀ x, s.fes.filter (fun x => x.2.en && (clustersOf x.2).contains c) = [x] →
       (u.cluster c).energy = allowance s x.2 c + min 0 (s.cluster c).energy ∧ (u.cluster c).given = allowance s x.2 c) ∧
   (∀ s (f : FrontEnd) c, f.power = none → f.base ≤ f.limit → budgetSum2 s ≤ 2 * computeShare s →
     allowance s f c = if (s.die (dieOf c)).c200 then 2750000 else if (s.die (dieOf c)).c190 then 4125000 else 5500000) ∧
   (∀ s die v, die < 5 → v < 256 → ∃ u, exec (.heatIndexChange die v) s = .next u ∧ (u.die die).heat = v ∧
     (∀ x ∈ ([(190, Die.c190), (200, Die.c200), (210, Die.c210)] : List (Nat × (Die → Bool))),
       (x.1 ≤ v → x.2 (u.die die) = true) ∧ (v + 6 ≤ x.1 → x.2 (u.die die) = false) ∧ (v < x.1 → x.1 < v + 6 → x.2 (u.die die) = x.2 (s.die die))) ∧
     (210 ≤ v → (s.die die).c210 = false → (evThermal, die) ∈ u.sys.log))) ∧
  (let counted (s u : State) (cl : Nat) : Prop := dieOf cl < 5 → (u.die (dieOf cl)).softErrors = (s.die (dieOf cl)).softErrors + 1
   (∀ s pa, region s pa = .hbm → ∃ u, exec (.uncorrectableError (.sector pa)) s = .next u ∧ u.poisoned pa = true) ∧
   (∀ s core pa l, find? (s.core core).l1 (pa / 128) = some l → ∃ u, exec (.uncorrectableError (.l1 core pa)) s = .next u ∧
     find? (u.core core).l1 (pa / 128) = (if l.dirty = 0 then none else some { l with poison := true }) ∧
     (l.dirty = 0 → counted s u (clusterOf core) ∧ u.mem = s.mem)) ∧
   (∀ s core pa l, find? (s.core core).smp (pa / 128) = some l → ∃ u, exec (.uncorrectableError (.sampler core pa)) s = .next u ∧
     find? (u.core core).smp (pa / 128) = none ∧ counted s u (clusterOf core) ∧ u.mem = s.mem) ∧
   (∀ s core n, core < 800 → n < 2048 → ∃ u, exec (.uncorrectableError (.ls core n)) s = .next u ∧ n ∈ (u.core core).lsPoison) ∧
   (∀ s core b, core < 800 → b < 262144 → ∃ u, exec (.uncorrectableError (.ob core b)) s = .next u ∧ b / 128 ∈ (u.core core).obPoison) ∧
   (∀ s cl a, cl < 200 → a < 2097152 → ∃ u, exec (.uncorrectableError (.sram cl a)) s = .next u ∧ a / 128 ∈ (u.cluster cl).sramPoison) ∧
   (∀ s cl pa l, find? (s.cluster cl).lines (pa / 256) = some l → ∃ u, exec (.uncorrectableError (.line cl pa)) s = .next u ∧
     (l.dirty &&& sectorBit pa ≠ 0 → region s pa = .hbm → u.poisoned pa = true) ∧
     (l.dirty &&& sectorBit pa = 0 → find? (u.cluster cl).lines (pa / 256) = none ∧ counted s u cl ∧ u.mem = s.mem)) ∧
   (∀ s pa l, find? s.llc (pa / 256) = some l → ∃ u, exec (.uncorrectableError (.slice pa)) s = .next u ∧
     (l.dirty &&& sectorBit pa ≠ 0 → region s pa = .hbm → u.poisoned pa = true) ∧
     (l.dirty &&& sectorBit pa = 0 → find? u.llc (pa / 256) = none ∧ (u.die 4).softErrors = (s.die 4).softErrors + 1 ∧ u.mem = s.mem)) ∧
   (∀ s core n e, e ∈ (s.core core).entries → e.order = n → ∃ u, exec (.uncorrectableError (.spawn core n)) s = .next u ∧
     (u.core core).entries = (s.core core).entries.map fun e => if e.order = n then poisonEntry e else e) ∧
   (∀ s gid g lane r, s.group? gid = some g → g.info.born.getLsbD lane = true → r < 8 * g.c.alloc → ∃ u h, exec (.uncorrectableError (.vreg gid lane r)) s = .next u ∧
     u.group? gid = some h ∧ h.r = g.r.markV lane r ⟨0x25, 0, 0, 0⟩ ∧ h.c = g.c) ∧
   (∀ s gid g r, s.group? gid = some g → r < 56 → ∃ u h, exec (.uncorrectableError (.greg gid r)) s = .next u ∧ u.group? gid = some h ∧
     find? h.r.gmark r = some ⟨0x25, 0, 0, 0⟩ ∧ h.c = g.c))

/-! ## Control space and virtual devices (R304, R311 to R322, R338, R339, R341, R348) -/

/-- R259, R311, R317, R338, R339, R341: what hypervisor mode writes in control space; another mode changes nothing but the domain's registers, nor does
a write the register's state forbids; a read narrower than 32 bits or not aligned reads 0. R257: a change of VSIDE in use leaves the context's remote
edges undefined, and no other context. R341: the domain's registers are written while it is off; its enabling shows PARTNO in PART. R311, R312: an
invalidation waits in order with at most 15 others; its acknowledgement removes from every core and cluster the entries that it names, keeps all
others and counts in INVDONE.
The model's choices in it: log 36 (places in the domain block), log 66 (ports begin to train, caches are emptied when the domain is enabled) and
log 78 (which edges a change of VSIDE leaves undefined). -/
def Obligations.ControlRegistersAndInvalidations : Prop :=
  ((∀ s off size val, ¬(0x500000 ≤ off ∧ off < 0x600000) → exec (.controlRegisterWrite off size val false) s = .next s) ∧
   (∀ s off n, n ≠ 0 → n % 4 ≠ 0 ∨ off % n ≠ 0 → controlRead s off n = List.replicate n 0) ∧
   (∀ s off size val hyp, (size ≠ 4 ∧ size ≠ 8) ∨ off % size ≠ 0 → exec (.controlRegisterWrite off size val hyp) s = .next s) ∧
   (∀ s v (w : DWord), s.sys.hartsReleased = true → v < 256 →
     ((s.vdev v).st = .free → w.toNat % 65536 = 0 → exec (.controlRegisterWrite (0x200000 + 64 * v) 8 w true) s = .next (s.updVdev v fun d => { d with crb := w })) ∧
     ((s.vdev v).st ≠ .free → exec (.controlRegisterWrite (0x200000 + 64 * v) 8 w true) s = .next s) ∧
     ((s.vdev v).st = .free ∨ (s.vdev v).st = .saved → exec (.controlRegisterWrite (0x200000 + 64 * v + 0x10) 8 w true) s = .next (s.updVdev v fun d => { d with hgatp := w })) ∧
     ((s.vdev v).st = .free ∨ (s.vdev v).st = .saved → 1 ≤ w.toNat → w.toNat < 2 ^ 12 →
       exec (.controlRegisterWrite (0x200000 + 64 * v + 0x2C) 4 w true) s = .next (s.updVdev v fun d => { d with window := w.toNat })) ∧
     ((s.vdev v).st = .live → exec (.controlRegisterWrite (0x200000 + 64 * v + 0x2C) 4 w true) s = .next s) ∧
     ((s.vdev v).st = .free ∨ (s.vdev v).st = .saved → w.toNat < 2 → ∃ u, exec (.controlRegisterWrite (0x200000 + 64 * v + 0x30) 4 w true) s = .next u ∧
       u.vdev v = { s.vdev v with
         vside := w.toNat, remoteUndef := (s.vdev v).remoteUndef || (decide (w.toNat ≠ (s.vdev v).vside) && sideInUse s v) } ∧
       u.edges = s.edges ∧ u.remotes = s.remotes ∧ ∀ k, k ≠ v → u.vdev k = s.vdev k)) ∧
   (∀ s (w : DWord), s.sys.hartsReleased = true → w.toNat % 4096 = 0 →
     exec (.controlRegisterWrite 0x300000 8 w true) s = .next { s with sys := { s.sys with invaddr := w } }) ∧
   (∀ s c o (w : DWord), s.sys.hartsReleased = true → c < 2 → o < 4096 → o % 8 = 0 →
     (peerV (s.codec c) (o / 64) = true → exec (.controlRegisterWrite (0x100000 + 0x1000 * c + o) 8 w true) s = .next s) ∧
     (peerV (s.codec c) (o / 64) = false → ∃ u, exec (.controlRegisterWrite (0x100000 + 0x1000 * c + o) 8 w true) s = .next u ∧
       ∀ i, mget 0 (u.codec c).peers i = if o ≤ i ∧ i < o + 8 then .ofNat 8 (w.toNat / 256 ^ (i - o)) else mget 0 (s.codec c).peers i)) ∧
   (∀ s n (v : Word), s.sys.hartsReleased = true → n < 256 → v.toNat % 2 ^ 31 < 2 ^ 6 → ∃ u, exec (.vectorRouteWrite n v) s = .next u ∧ mget 0 u.sys.routes n = v ∧
     (v.getLsbD 31 = true → n ∈ s.sys.vecPending → u.sys.msis = s.sys.msis ++ [(v.toNat % 64, n + 1)] ∧ n ∉ u.sys.vecPending) ∧
     (v.getLsbD 31 = false ∨ n ∉ s.sys.vecPending → u.sys.msis = s.sys.msis ∧ u.sys.vecPending = s.sys.vecPending)) ∧
   (∀ s hyp (w : DWord), s.sys.hartsReleased = true →
     (s.sys.den = false → w.toNat < 2 ^ 12 → exec (.controlRegisterWrite 0x500000 4 w hyp) s = .next { s with sys := { s.sys with partno := w.toNat } }) ∧
     (s.sys.den = true → exec (.controlRegisterWrite 0x500000 4 w hyp) s = .next s) ∧
     (∀ p, p < 4096 → s.sys.den = false → w.toNat < 2 ^ 16 → ∃ u, exec (.controlRegisterWrite (0x501000 + 4 * p) 4 w hyp) s = .next u ∧
       ∀ q, mget 0 u.sys.portRoutes q = if q = p then w.toNat else mget 0 s.sys.portRoutes q)) ∧
   (∀ s p, s.sys.hartsReleased = true → p < 2 ^ 12 → (s.sys.den = true → exec (.domainEnable (.ofNat 32 (2 ^ 31 + p))) s = .next s) ∧
     (s.sys.den = false → ∃ u, exec (.domainEnable (.ofNat 32 (2 ^ 31 + p))) s = .next u ∧ u.sys.den = true ∧ u.part = p ∧
       (∀ q, q < 16 → (u.port q).st = if (s.port q).st = 0 then 1 else (s.port q).st) ∧
       (∀ k, (u.core k).l1 = [] ∧ (u.core k).smp = []) ∧ (∀ k, (u.cluster k).lines = []) ∧ u.llc = []))) ∧
  ((∀ x ∈ ([(.invalidatePage, 0), (.invalidateAsid, 1), (.invalidateGuestPage, 2), (.invalidateVmid, 3), (.invalidateAll, 4)] : List ((Word → Bool → Instr) × Nat)),
     (∀ s asid vmid, s.sys.hartsReleased = true → asid < 2 ^ 16 → vmid < 2 ^ 8 → s.sys.invals.length < 16 →
     exec (x.1 (.ofNat 32 (asid * 2 ^ 16 + vmid * 2 ^ 8 + x.2)) true) s =
       .next { s with sys := { s.sys with invals := s.sys.invals ++ [⟨x.2, asid, vmid, s.sys.invaddr.toNat⟩] } }) ∧
     ∀ s w, exec (x.1 w false) s = .next s) ∧
   (∀ s i rest, s.sys.invals = i :: rest → i.kind ≤ 4 → ∃ u, exec .invalidationAck s = .next u ∧ u.sys.invals = rest ∧
     u.sys.invdone = (s.sys.invdone + 1) % 2 ^ 64 ∧
     let gone (t : Tlb) : Prop := i.kind = 4 ∨ (t.vmid = i.vmid ∧ (i.kind = 3 ∨ (i.kind = 1 ∧ t.asid = i.asid) ∨
       (i.kind = 0 ∧ (t.glob = true ∨ t.asid = i.asid) ∧ t.va / t.s1 = i.addr / t.s1) ∨ (i.kind = 2 ∧ t.gpa / t.s2 = i.addr / t.s2)))
     (∀ k t, t ∈ (u.core k).tlb ↔ t ∈ (s.core k).tlb ∧ ¬ gone t) ∧ ∀ k t, t ∈ (u.cluster k).tlb ↔ t ∈ (s.cluster k).tlb ∧ ¬ gone t))

/-- R304, R317, R321, R348: an answer to a stopped group sends the path that stopped on past the instruction, or kills the group with the trap's code; one to a walker or a ring slot lets it try
again, or halts the walk and voids the slot; outside LIVE an answer waits, but for one to a group that a save waits for; a token that names nothing
or is of an older generation, or another mode, does nothing more than use it up.
The model's choices in it: log 34 and log 62. -/
def Obligations.AnswersToTokens : Prop :=
  (∀ x ∈ ([.frespRetry, .frespAbort, .frespContinue, .frespKill] : List (Nat → Nat → Bool → Instr)), ∀ s v tok, exec (x v tok false) s = .next s ∧
    (find? (s.vdev v).tokens tok = none → exec (x v tok true) s = .next s)) ∧
  (∀ s v tok t, s.sys.hartsReleased = true → v < 256 → find? (s.vdev v).tokens tok = some t → t.gen = (s.vdev v).gen →
    (∀ gid g k code, t.kind = .trap gid → s.group? gid = some g → g.c.wait = .trapped k code →
      (s.vdev v).st = .live ∨ ((s.vdev v).st = .saving ∧ inChain s g = true) →
      (∃ u h, exec (.frespContinue v tok true) s = .next u ∧ u.group? gid = some h ∧ h.c.wait = .none ∧
        h.c.paths = g.c.paths.map (fun p => if p.stamp = t.note then { p with pc := (p.pc + 4) % 2 ^ 64 } else p) ∧ h.r = g.r ∧
        find? (u.vdev v).tokens tok = none) ∧
      ∀ p, g.c.paths.find? (fun p => decide (p.stamp = t.note)) = some p →
        ∃ u, exec (.frespKill v tok true) s = .next u ∧ Killed s u gid code p.pc 0 p.mask) ∧
    ((s.vdev v).st = .live →
    (∀ n fe, t.kind = .walker n → feOf s v = some fe → (s.fe fe).parked = tok →
      (∃ u, exec (.frespRetry v tok true) s = .next u ∧ u.fe fe = { s.fe fe with parked := 0 } ∧ find? (u.vdev v).tokens tok = none) ∧
      ∃ u, exec (.frespAbort v tok true) s = .next u ∧ (u.fe fe).st = .halt ∧ (u.fe fe).parked = 0 ∧
        (u.fe fe).err = if nodeKind ((find? (s.fe fe).nodes (s.fe fe).node).getD []) = 1 then 7 else 5) ∧
    (∀ k q e, t.kind = .slot k q → find? s.edges k = some e →
      (∃ u x, exec (.frespRetry v tok true) s = .next u ∧ find? u.edges k = some x ∧ x = { e with parkedAt := ndel e.parkedAt q }) ∧
      ∃ u x, exec (.frespAbort v tok true) s = .next u ∧ find? u.edges k = some x ∧ q ∈ x.voided))) ∧
  (∀ s v tok t, s.sys.hartsReleased = true → v < 256 → find? (s.vdev v).tokens tok = some t →
    ((s.vdev v).st ≠ .live → endsChainStop s v t.kind = false →
      let waits (a : Nat) : Host.Outcome State Fault Refusal := .next (s.updVdev v fun d => { d with pendFresp := d.pendFresp ++ [(tok, a)] })
      ((∃ gid, t.kind = .trap gid) → exec (.frespContinue v tok true) s = waits 0 ∧ exec (.frespKill v tok true) s = waits 1) ∧
      ((∀ gid, t.kind ≠ .trap gid) → exec (.frespRetry v tok true) s = waits 0 ∧ exec (.frespAbort v tok true) s = waits 1)) ∧
    ((s.vdev v).st = .live → t.gen ≠ (s.vdev v).gen → (∀ gid, t.kind ≠ .trap gid) →
      exec (.frespRetry v tok true) s = .next (s.updVdev v fun d => { d with tokens := merase d.tokens tok })))

/-- R318, R319: each command is taken in the states the table gives it, and else leaves only its status: 1 BAD_STATE, 2 NO_BIND, 3 TOO_SMALL, 4
NO_FIT. A restore of a region whose hardware-owned areas something has written in between, undefined for that context, never completes.
The model's choices in it: log 48 (the save area) and log 89 (such a restore). -/
def Obligations.DeviceCommands : Prop :=
  ∀ s v, s.sys.hartsReleased = true → v < 256 → let d := s.vdev v
    (∀ x ∈ ([.create, .save, .restore, .reset, .destroy] : List (Nat → Bool → Instr)), exec (x v false) s = .next s) ∧
    (d.st ≠ .free → ∃ u, exec (.create v true) s = .next u ∧ u.vdev v = { d with status := 1 }) ∧
    (d.st = .free → d.crsz < 1 + 112 * (d.maxcl + 1) → ∃ u, exec (.create v true) s = .next u ∧ u.vdev v = { d with status := 3 }) ∧
    (d.st = .free → 1 + 112 * (d.maxcl + 1) ≤ d.crsz → ∃ u, exec (.create v true) s = .next u ∧ (u.vdev v).st = .saved ∧ (u.vdev v).status = 0 ∧ (u.vdev v).frame = 0) ∧
    (∃ u, exec (.save v true) s = .next u ∧ u.vdev v = if d.st = .live then { d with st := .saving, status := 0 } else { d with status := 1 }) ∧
    (d.st ≠ .saved → ∃ u, exec (.restore v true) s = .next u ∧ u.vdev v = { d with status := 1 }) ∧
    (d.st = .saved → feOf s v = none → ∃ u, exec (.restore v true) s = .next u ∧ u.vdev v = { d with status := 2 }) ∧
    (∀ fe, d.st = .saved → feOf s v = some fe → ∃ u, exec (.restore v true) s = .next u ∧
      u.vdev v = if restoreFits s v (s.fe fe) then { d with st := .restoring, status := 0 } else { d with status := 4 }) ∧
    (ownedCells s v ≠ d.image → exec (.restoreComplete v) s = .next s) ∧
    (∃ u, exec (.reset v true) s = .next u ∧ u.vdev v = if d.st = .live ∨ d.st = .saved then { d with st := .resetting, status := 0 } else { d with status := 1 }) ∧
    (d.st ≠ .saved → ∃ u, exec (.destroy v true) s = .next u ∧ u.vdev v = { d with status := 1 }) ∧
    (d.st = .saved → ∃ u, exec (.destroy v true) s = .next u ∧ (u.vdev v).st = .free ∧ (u.vdev v).status = 0 ∧ ∀ e ∈ u.groups, e.2.info.vdev ≠ v)

/-- R313 to R316, R318, R321: a save takes every group of its context off the part with its registers and paths, its latch dropped, its PROGRESS 0
unless an instruction is left part-way; a restore puts them back on the new partition; a reset leaves nothing of the context but its TAGS and counts
GEN; a held event is logged when there is room, or dropped when its generation is old.
The model's choices in it: log 48, log 62 and log 68 (PROGRESS). -/
def Obligations.SavesAndRestores : Prop :=
  (∀ s v fe, (s.vdev v).st = .saving → feOf s v = some fe → (∀ e ∈ s.groups, e.2.info.vdev = v → groupStops s e.2 = true) → ∃ u x, exec (.saveComplete v) s = .next u ∧
    (u.vdev v).st = .saved ∧ (u.vdev v).saved = some x ∧ (∀ e ∈ u.groups, e.2.info.vdev ≠ v) ∧ (∀ k g, s.group? k = some g → g.info.vdev = v →
      ∃ h n, find? x.groups k = some h ∧ h.r = { g.r with latch := [], progress := n } ∧
        ((s.core g.info.core).rules = [] → (s.core g.info.core).mmars = [] → nextLine g = none → n = 0) ∧
        h.c.paths = g.c.paths ∧ h.info = { g.info with core := g.info.core - 4 * (s.fe fe).base })) ∧
  (∀ s v fe x, (s.vdev v).st = .restoring → ownedCells s v = (s.vdev v).image → feOf s v = some fe → (s.vdev v).saved = some x →
    (s.vdev v).pendFresp = [] → (x.groups.map (·.1)).Nodup →
    ∃ u, exec (.restoreComplete v) s = .next u ∧ (u.vdev v).st = .live ∧ (u.vdev v).saved = none ∧ ∀ k h, find? x.groups k = some h →
      ∃ g, u.group? k = some g ∧ g.r = h.r ∧ g.c.paths = h.c.paths ∧ g.info = { h.info with core := h.info.core + 4 * (s.fe fe).base, frame := (s.vdev v).frame }) ∧
  (∀ s v, (s.vdev v).st = .resetting → ∃ u x, exec (.resetComplete v) s = .next u ∧ (u.vdev v).st = .saved ∧ (u.vdev v).gen = ((s.vdev v).gen + 1) % 2 ^ 32 ∧
    (∀ e ∈ u.groups, e.2.info.vdev ≠ v) ∧ (∀ e ∈ u.wgs, e.2.vdev ≠ v) ∧ (∀ e ∈ u.grids, e.2.vdev ≠ v) ∧ (∀ e ∈ u.ops, e.2.vdev ≠ v) ∧
    (∀ e ∈ u.edges, e.2.vdev ≠ v) ∧ (u.vdev v).tokens = [] ∧ (u.vdev v).heldEvents = [] ∧ (u.vdev v).saved = some (tagsOnly x)) ∧
  (∀ s v e rest, (s.vdev v).heldEvents = e :: rest →
    (e.gen ≠ (s.vdev v).gen → ∃ u, exec (.eventHeldRelease v) s = .next u ∧ (u.vdev v).heldEvents = rest ∧ u.mem = s.mem) ∧
    (e.gen = (s.vdev v).gen → evRoom s v = false → exec (.eventHeldRelease v) s = .next s) ∧
    (e.gen = (s.vdev v).gen → evRoom s v = true → ∃ u, exec (.eventHeldRelease v) s = .next u ∧ (u.vdev v).heldEvents = rest ∧
      u.num (crb s v + 0x20) 4 = (s.num (crb s v + 0x20) 4 + 1) % 2 ^ 32))

/-! ## The system die (R340 to R346) -/

/-- R340 to R342, R183: a flit is sent again until its eighth retry, then its port is down; training brings it up. Another part of the domain reads,
writes and updates local memory, and so does an endpoint whose address the IOMMU translates; a read's bytes, and what an atomic found, are the reply;
an endpoint's access to another part's memory leaves over Ivmar.
The model's choices in it: log 16 to log 18 and log 66 (counters). -/
def Obligations.PortsAndRequests : Prop :=
  (∀ s p, p < 16 → (s.port p).st = 2 →
    ((s.port p).retries < 8 → ∃ u, exec (.flitRetry p) s = .next u ∧ u.port p = { s.port p with retries := (s.port p).retries + 1, sent := (s.port p).sent + 1 }) ∧
    (8 ≤ (s.port p).retries → ∃ u, exec (.ivmarPortDown p) s = .next u ∧ u.port p = { s.port p with st := 0, retries := 0 })) ∧
  (∀ s p, p < 16 → (s.port p).st ≠ 2 → ∃ u, exec (.ivmarPortUp p) s = .next u ∧ u.port p = { s.port p with st := 2, retries := 0 }) ∧
  (∀ s src pa (data : List Byte), s.sys.den = true → src ≠ 0 → src ≤ 3072 → src ≠ s.sys.partno → pa / 2 ^ 44 = s.sys.partno →
    let counted (u : State) : Prop := upPorts s src ≠ [] →
      let p := outPort s (src * 2 ^ 44 + loc pa)
      (u.port p).received = (s.port p).received + 1
    ((∀ i, i < data.length → region s (pa + i) = .hbm) →
      (∃ u, exec (.ivmarRequest src pa .write data) s = .next u ∧ counted u ∧
        ∀ a, u.byte a = if loc pa ≤ a ∧ a < loc pa + data.length then data.getD (a - loc pa) 0 else s.byte a) ∧
      ((∀ i, i < data.length → s.poisoned (pa + i) = false) → ∃ u, exec (.ivmarRequest src pa .read data) s = .next u ∧ counted u ∧ u.mem = s.mem ∧
        u.sys.replies = s.sys.replies ++ [(List.range data.length).map fun i => s.byte (loc pa + i)])) ∧
    (∀ op wide, pa % aopSize wide = 0 → (∀ i, i < aopSize wide → region s (pa + i) = .hbm ∧ s.poisoned (pa + i) = false) →
      let old := s.bytes (loc pa) (aopSize wide)
      let new := aopBytes op wide old (bytesWords (data.length / 4) data)
      ∃ u, exec (.ivmarRequest src pa (.atomic op wide) data) s = .next u ∧ counted u ∧ u.sys.replies = s.sys.replies ++ [old] ∧
        ∀ a, u.byte a = if loc pa ≤ a ∧ a < loc pa + aopSize wide then new.getD (a - loc pa) 0 else s.byte a)) ∧
  (∀ s ep addr (data : List Byte), s.sys.powered = true →
    (Config.iommu s.tick ep addr = none → ∀ w, ∃ u, exec (.pcieInboundRequest ep addr w data) s = .next u ∧ u.mem = s.mem ∧ u.sys.replies = s.sys.replies ++ [[]]) ∧
    (∀ pa, Config.iommu s.tick ep addr = some pa →
      ((∀ i, i < data.length → region s (pa + i) = .hbm) →
        (∃ u, exec (.pcieInboundRequest ep addr true data) s = .next u ∧
          ∀ a, u.byte a = if loc pa ≤ a ∧ a < loc pa + data.length then data.getD (a - loc pa) 0 else s.byte a) ∧
        ((∀ i, i < data.length → s.poisoned (pa + i) = false) → ∃ u, exec (.pcieInboundRequest ep addr false data) s = .next u ∧ u.mem = s.mem ∧
          u.sys.replies = s.sys.replies ++ [(List.range data.length).map fun i => s.byte (loc pa + i)])) ∧
      (data ≠ [] → (∀ i, i < data.length → region s (pa + i) = .remote) →
        ∃ u, exec (.pcieInboundRequest ep addr true data) s = .next u ∧ u.mem = s.mem ∧ u.sys.outbox = s.sys.outbox ++ [⟨outPort s pa, false, pa, data⟩]) ∧
      ((∃ i j, i < data.length ∧ j < data.length ∧ region s (pa + i) ≠ .hbm ∧ region s (pa + j) ≠ .remote) →
        ∀ w, ∃ u, exec (.pcieInboundRequest ep addr w data) s = .next u ∧ u.mem = s.mem ∧ u.sys.replies = s.sys.replies ++ [[]])))

/-- R336, R343 to R346: standby starts the controller; main power on boots, and the compute dies' cycle counters start with it; off leaves the part as
after reset with what standby power holds; a module reset does both. A die at 220 trips; coolant out of its bounds is logged. New firmware lies in the
flash; a cap of 400 to 1,100 W is taken; a measurement register becomes the digest of itself and the new digest; a quote is the signed nonce, part,
versions, serial and registers.
The model's choices in it: log 19 and log 35 (layouts and refusal codes). -/
def Obligations.PowerBootAndAttestation : Prop :=
  (∀ s, s.sys.mcUp = false → ∃ u, exec .mcStandbyStart s = .next u ∧ u = { s with sys := { s.sys with mcUp := true } }) ∧
  (∀ s, s.sys.mcUp = true →
    (s.sys.powered = false → ∃ u, exec .mainPowerOn s = .next u ∧ Booted s.sys u) ∧
    (s.sys.powered = true → ∃ u, exec .mainPowerOff s = .next u ∧ PoweredOff s u ∧ u.sys.log = s.sys.log) ∧
    (∃ u, exec .moduleReset s = .next u ∧ Booted s.sys u ∧ u.groups = [] ∧ u.vdevs = [] ∧ u.fes = []) ∧
    (∀ addr (im : List Byte), ∃ u, exec (.firmwareUpdate addr im) s = .next u ∧
      ∀ a, mget 0 u.sys.flash a = if addr ≤ a ∧ a < addr + im.length then im.getD (a - addr) 0 else mget 0 s.sys.flash a) ∧
    (∀ n, 400 ≤ n → n ≤ 1100 → exec (.computeCapSet n) s = .next { s with sys := { s.sys with cap := some n } }) ∧
    (∀ inlet flow, 45 < inlet ∨ flow < 1000 → ∃ u, exec (.coolantAlarm inlet flow) s = .next u ∧ u.sys.log.length = s.sys.log.length + 1)) ∧
  (∀ s die, die < 5 → 220 ≤ (s.die die).heat → s.sys.powered = true → ∃ u, exec (.thermalTrip die) s = .next u ∧ PoweredOff s u ∧
    u.sys.log = s.sys.log ++ [(evThermal, die)]) ∧
  (∀ s i (digest : List Byte), s.sys.mcUp = true ∨ s.sys.powered = true → i < 16 → digest.length = 64 → ∃ u, exec (.measurementExtend i digest) s = .next u ∧
    measured u.sys i = shake256 (measured s.sys i ++ digest) 64 ∧ ∀ k, k ≠ i → measured u.sys k = measured s.sys k) ∧
  (∀ s byMc (nonce : List Byte), (if byMc then s.sys.mcUp else s.sys.hartsReleased) = true → nonce.length = 32 →
    let q := nonce ++ leBytes 4 s.sys.partno ++ leBytes 4 s.sys.fusedSvn ++ leBytes 8 s.sys.serial ++ (List.range 16).flatMap (measured s.sys)
    ∃ u, exec (.quoteRequest byMc nonce) s = .next u ∧ u.sys.quotes = s.sys.quotes ++ [q ++ Config.falconSign (shake256 q 64)])

/-! ## Decoding, one step, what every step keeps (R48, R49, R51, R64, R338) -/

/-- R49, R64: words written out in the manual decode to the instructions they stand for, their literal with them; the words 0 and all ones are illegal. -/
def Obligations.WordsDecode : Prop :=
  ∀ x ∈ ([(0x02010103, 0, some (.iadd (.v 4) (.v 2) (.v 3))), (0x0201017F, 1000, some (.iadd (.v 4) (.v 2) (.lit 1000))),
      (0x243D0409, 0, some (.fmul .rne .latch (.v 8) (.v 9))), (0x4900C104, 0, some (.ld .b32 0 6 (.v 4) 4)),
      (0x54161810, 0, some (.atom .add false .dev .rel 12 (.v 4))), (0x6851000C, 0, some (.brd 20 2 12)),
      (0x62880008, 0, some (.mmar .e4m3 false 32 0 4 false)), (0xA643FFFD, 0, some (.brc .nez (.g 3) (.ofInt 16 (-3)))),
      (0xC3414080, 0, some (.fenceX .dev 5 2)), (0xD0085020, 0, some (.copyLin 8 20)), (0xDE38083A, 0, some (.cond .dev (.g 2) (.g 3))),
      (0, 0, none), (0xFFFFFFFF, 0, none)] : List (Word × Word × Option Instr)), decodeWord x.1 x.2.1 = x.2.2

/-- R48 to R64: the words of a well-formed instruction, wherever they stand in memory, decode to that instruction and to nothing more. -/
def Obligations.EncodeThenDecode : Prop :=
  ∀ i, encode i ≠ [] → i.wellFormed = true → ∀ rest, decode (wordBytes (encode i) ++ rest) = some (i, rest)

/-- R48, R49: bytes that decode hold exactly the words of a well-formed instruction: no word has two meanings and no field is dropped. -/
def Obligations.DecodeThenEncode : Prop :=
  ∀ b i rest, decode b = some (i, rest) → i.wellFormed = true ∧ wordBytes (encode i) ++ rest = b

/-- R48, R49, R51, R68: when a group may run and the bytes at its path's program counter decode, a step is exec of that instruction for that group;
bytes that decode to nothing are its illegal word; two narrow groups at one program counter issue together, the older first; a step of another agent
is exec of its event.
The model's choices in it: log 3 and log 45. -/
def Obligations.StepRunsTheInstruction : Prop :=
  (∀ s gid rest g p, s.agenda = .issue gid :: rest → s.group? gid = some g → curPath g.c.paths = some p →
    let s1 : State := { s with agenda := rest, cur := some gid }
    mayRun s1 gid g = true →
    (∀ i u, fetchInstr s1 g.info.core g.info.vdev p.pc = (u, .instr i) → step s = exec i u) ∧
    (∀ w u, fetchInstr s1 g.info.core g.info.vdev p.pc = (u, .illegal w) → step s = exec (.illegalWord w) u)) ∧
  (∀ s u core vdev pc pa mt, addrClass pc = .translated → translate s core vdev pc 4 = (u, .ok pa mt) → mt ≠ 2 → region u pa = .hbm → u.poisoned pa = false →
    let here := u.bytes (loc pa) 4
    (∀ i r, decode (here ++ [0, 0, 0, 0]) = some (i, r) → i.lits = [] → fetchInstr s core vdev pc = (u, .instr i)) ∧
    (decode (here ++ [0, 0, 0, 0]) = none → fetchInstr s core vdev pc = (u, .illegal (.ofNat 32 (leNat here)))) ∧
    (∀ j r i q v pb nt, decode (here ++ [0, 0, 0, 0]) = some (j, r) → j.lits ≠ [] → addrClass (pc + 4) = .translated →
      translate u core vdev (pc + 4) 4 = (v, .ok pb nt) → nt ≠ 2 → region v pb = .hbm → v.poisoned pb = false →
      decode (here ++ v.bytes (loc pb) 4) = some (i, q) → fetchInstr s core vdev pc = (v, .instr i))) ∧
  (∀ s a b rest f g, s.agenda = .packed [a, b] :: rest → s.groups = [(a, f), (b, g)] → a ≠ b → f.info.age < g.info.age → f.info.width + g.info.width ≤ 64 →
    let s1 : State := { s with agenda := rest }
    sameFetch f g = true → nextPerLane s1 f = true → inChain s1 g = false → isReady s1 b = true →
    step s = match runOne [a, b] a s1 with
      | .next t => runOne [a, b] b t
      | o => o) ∧
  (∀ s e rest, s.agenda = .event e :: rest → encode e = [] → (∀ w, e ≠ .illegalWord w) → step s = exec e { s with agenda := rest })

/-- R12: exec stops where the manual calls the behaviour undefined and nowhere else: EMIT, RESV or a codec's placement on an edge that did not start
with R12's values; and it refuses nothing. -/
def Obligations.StopsOnlyWhereUndefined : Prop :=
  (∀ i s r, exec i s ≠ .refused r) ∧
  (∀ i s f, exec i s = .fault f →
    f = .edgeInitial ∧ ((∃ d a e, i = .emit d a e) ∨ (∃ d e, i = .resv d e) ∨ ∃ e, i = .recordPlacement e ∧ (find? s.edges e).any (·.undef) = true))

/-- After reset (R24, R311, R317, R338, R341; registers without a reset value by logs 1, 2 and 10) every partition is disabled and its walker idle, every virtual device
is FREE with no GEN counted, the domain is off, INVDONE is 0, nothing runs, memory reads 0, and the invariant holds. -/
def Obligations.ResetState : Prop :=
  Machine.Inv State.reset ∧ (∀ fe, (State.reset.fe fe).en = false ∧ (State.reset.fe fe).st = .idle ∧ (State.reset.fe fe).err = 0) ∧
  (∀ v, (State.reset.vdev v).st = .free ∧ (State.reset.vdev v).gen = 0) ∧ State.reset.sys.den = false ∧ State.reset.part = 0 ∧
  State.reset.sys.invdone = 0 ∧ State.reset.groups = [] ∧ State.reset.wgs = [] ∧ State.reset.ops = [] ∧ (∀ a, State.reset.byte a = 0) ∧ State.reset.now = 0

/-- Every step keeps the invariant, from any state that has it: local memory stays in its canonical form.
The model's choices in it: log 2 (an unlisted byte reads 0). -/
def Obligations.InvariantKept : Prop := ∀ s, Machine.Inv s → ∀ t, step s = .next t → Machine.Inv t
end

