-- ==== Sys2Proof/Laws/Maps.lean ====
section
/-! SUPPORT. Laws of sparse maps: read after write, and the canonical form is kept. -/
namespace Sys2Proof.Machine

variable {α : Type}

@[simp] theorem find?_nil (k : Nat) : find? ([] : AMap α) k = none := rfl

@[simp] theorem find?_merase_same (m : AMap α) (k : Nat) : find? (merase m k) k = none := by
  induction m with
  | nil => rfl
  | cons e r ih => obtain ⟨j, v⟩ := e; by_cases h : j = k <;> simp [merase, find?, h, ih]

@[simp] theorem find?_mset_same (m : AMap α) (k : Nat) (v : α) : find? (mset m k v) k = some v := by
  induction m with
  | nil => simp [mset, find?]
  | cons e r ih =>
    obtain ⟨j, w⟩ := e
    by_cases h1 : k < j
    · simp [mset, find?, h1]
    · by_cases h : j = k <;> simp [mset, find?, h1, h, ih]

theorem find?_merase_of_ne (m : AMap α) {k j : Nat} (h : j ≠ k) : find? (merase m k) j = find? m j := by
  induction m with
  | nil => rfl
  | cons e r ih =>
    obtain ⟨i, v⟩ := e
    by_cases h1 : i = k
    · subst h1; simp [merase, find?, ih, h.symm]
    · by_cases h2 : i = j
      · subst h2; simp [merase, find?, h]
      · simp [merase, find?, h1, h2, ih]

theorem find?_mset_of_ne (m : AMap α) {k j : Nat} (v : α) (h : j ≠ k) : find? (mset m k v) j = find? m j := by
  induction m with
  | nil => simp [mset, find?, h.symm]
  | cons e r ih =>
    obtain ⟨i, w⟩ := e
    by_cases h1 : k < i
    · simp [mset, find?, h1, h.symm]
    · by_cases h2 : i = k
      · subst h2; simp [mset, find?, h.symm]
      · by_cases h3 : i = j
        · subst h3; simp [mset, find?, h1, h2]
        · simp [mset, find?, h1, h2, h3, ih]

theorem find?_mset (m : AMap α) (k j : Nat) (v : α) : find? (mset m k v) j = if j = k then some v else find? m j := by
  by_cases h : j = k
  · subst h; simp
  · simp [h, find?_mset_of_ne m v h]

theorem find?_merase (m : AMap α) (k j : Nat) : find? (merase m k) j = if j = k then none else find? m j := by
  by_cases h : j = k
  · subst h; simp
  · simp [h, find?_merase_of_ne m h]

theorem find?_mupd (m : AMap α) (k j : Nat) (f : α → α) : find? (mupd m k f) j = if j = k then (find? m k).map f else find? m j := by
  induction m with
  | nil => simp [mupd]
  | cons e r ih =>
    obtain ⟨i, w⟩ := e
    by_cases h2 : i = k
    · subst h2
      by_cases h3 : j = i
      · subst h3; simp [mupd, find?]
      · simp [mupd, find?, h3, Ne.symm h3]
    · by_cases h3 : i = j
      · subst h3; simp [mupd, find?, h2]
      · simp [mupd, find?, h2, h3, ih]

@[simp] theorem find?_mupd_same (m : AMap α) (k : Nat) (f : α → α) : find? (mupd m k f) k = (find? m k).map f := by
  simp [find?_mupd]

theorem find?_mupd_of_ne (m : AMap α) {k j : Nat} (f : α → α) (h : j ≠ k) : find? (mupd m k f) j = find? m j := by
  simp [find?_mupd, h]

@[simp] theorem find?_mmapv (m : AMap α) (f : Nat → α → α) (k : Nat) : find? (mmapv m f) k = (find? m k).map (f k) := by
  induction m with
  | nil => rfl
  | cons e r ih =>
    obtain ⟨i, w⟩ := e
    by_cases h : i = k
    · subst h; simp [mmapv, find?]
    · simp [mmapv, find?, h, ih]

@[simp] theorem mget_nil (d : α) (k : Nat) : mget d ([] : AMap α) k = d := rfl

theorem mget_mset (d : α) (m : AMap α) (k j : Nat) (v : α) : mget d (mset m k v) j = if j = k then v else mget d m j := by
  by_cases h : j = k <;> simp [mget, find?_mset, h]

@[simp] theorem mget_mset_same (d : α) (m : AMap α) (k : Nat) (v : α) : mget d (mset m k v) k = v := by simp [mget]

theorem mget_dset [DecidableEq α] (d : α) (m : AMap α) (k j : Nat) (v : α) :
    mget d (dset d m k v) j = if j = k then v else mget d m j := by
  unfold dset
  by_cases hv : v = d
  · by_cases h : j = k <;> simp [hv, mget, find?_merase, h]
  · simp [hv, mget_mset]

@[simp] theorem mget_dset_same [DecidableEq α] (d : α) (m : AMap α) (k : Nat) (v : α) : mget d (dset d m k v) k = v := by
  simp [mget_dset]

theorem mget_dset_of_ne [DecidableEq α] (d : α) (m : AMap α) {k j : Nat} (v : α) (h : j ≠ k) :
    mget d (dset d m k v) j = mget d m j := by simp [mget_dset, h]

/-! ## The canonical form -/

theorem mem_merase {m : AMap α} {k : Nat} {e : Nat × α} (h : e ∈ merase m k) : e ∈ m := by
  induction m with
  | nil => exact h
  | cons f r ih =>
    obtain ⟨j, v⟩ := f
    by_cases h1 : j = k
    · simp only [merase, h1, if_true] at h
      exact List.mem_cons_of_mem _ (ih (by simpa [h1] using h))
    · simp only [merase, h1, if_false, List.mem_cons] at h
      rcases h with h | h
      · exact h ▸ List.mem_cons_self
      · exact List.mem_cons_of_mem _ (ih h)

theorem mem_mset {m : AMap α} {k : Nat} {v : α} {e : Nat × α} (h : e ∈ mset m k v) : e = (k, v) ∨ e ∈ m := by
  induction m with
  | nil => simpa [mset] using h
  | cons f r ih =>
    obtain ⟨j, w⟩ := f
    by_cases h1 : k < j
    · simpa [mset, h1] using h
    · by_cases h2 : j = k
      · simp only [mset, h2, if_true, List.mem_cons] at h ⊢
        simp at h
        tauto
      · simp only [mset, h1, h2, if_false, List.mem_cons] at h ⊢
        rcases h with h | h
        · exact .inr (.inl h)
        · rcases ih h with h | h
          · exact .inl h
          · exact .inr (.inr h)

theorem KeysRise.merase {m : AMap α} (h : KeysRise m) (k : Nat) : KeysRise (merase m k) := by
  induction m with
  | nil => exact h
  | cons f r ih =>
    obtain ⟨j, v⟩ := f
    have hr := (List.pairwise_cons.1 h)
    by_cases h1 : j = k
    · simpa [Machine.merase, h1] using ih hr.2
    · simp only [Machine.merase, h1, if_false]
      exact List.pairwise_cons.2 ⟨fun e he => hr.1 e (mem_merase he), ih hr.2⟩

theorem KeysRise.mset {m : AMap α} (h : KeysRise m) (k : Nat) (v : α) : KeysRise (mset m k v) := by
  induction m with
  | nil => simp [Machine.mset]
  | cons f r ih =>
    obtain ⟨j, w⟩ := f
    have hr := (List.pairwise_cons.1 h)
    by_cases h1 : k < j
    · simp only [Machine.mset, h1, if_true]
      refine List.pairwise_cons.2 ⟨fun e he => ?_, h⟩
      rcases List.mem_cons.1 he with rfl | he
      · exact h1
      · exact lt_trans h1 (hr.1 e he)
    · by_cases h2 : j = k
      · subst h2; simp only [Machine.mset, h1, if_true, if_false]
        exact List.pairwise_cons.2 ⟨hr.1, hr.2⟩
      · simp only [Machine.mset, h1, h2, if_false]
        refine List.pairwise_cons.2 ⟨fun e he => ?_, ih hr.2⟩
        rcases mem_mset he with rfl | he
        · show j < k; omega
        · exact hr.1 e he

theorem Canonical.dset [DecidableEq α] {d : α} {m : AMap α} (h : Canonical d m) (k : Nat) (v : α) : Canonical d (dset d m k v) := by
  unfold Machine.dset
  by_cases hv : v = d
  · simp only [hv, if_true]
    exact ⟨KeysRise.merase h.1 k, fun e he => h.2 e (mem_merase he)⟩
  · simp only [hv, if_false]
    refine ⟨KeysRise.mset h.1 k v, fun e he => ?_⟩
    rcases mem_mset he with rfl | he
    · exact hv
    · exact h.2 e he

end Sys2Proof.Machine
end

