-- ==== Sys2Proof/Laws/State.lean ====
section
/-! SUPPORT. One law per field per update of the state: an update changes its own field only. -/
namespace Sys2Proof.Machine

/-! ### setCore -/
@[simp] theorem State.setCore_now (s : State) (c : Nat) (v : Core) : (s.setCore c v).now = s.now := rfl
@[simp] theorem State.setCore_epoch (s : State) (c : Nat) (v : Core) : (s.setCore c v).epoch = s.epoch := rfl
@[simp] theorem State.setCore_tick (s : State) (c : Nat) (v : Core) : (s.setCore c v).tick = s.tick := rfl
@[simp] theorem State.setCore_nextId (s : State) (c : Nat) (v : Core) : (s.setCore c v).nextId = s.nextId := rfl
@[simp] theorem State.setCore_nextTok (s : State) (c : Nat) (v : Core) : (s.setCore c v).nextTok = s.nextTok := rfl
@[simp] theorem State.setCore_agenda (s : State) (c : Nat) (v : Core) : (s.setCore c v).agenda = s.agenda := rfl
@[simp] theorem State.setCore_cur (s : State) (c : Nat) (v : Core) : (s.setCore c v).cur = s.cur := rfl
@[simp] theorem State.setCore_mem (s : State) (c : Nat) (v : Core) : (s.setCore c v).mem = s.mem := rfl
@[simp] theorem State.setCore_memPoison (s : State) (c : Nat) (v : Core) : (s.setCore c v).memPoison = s.memPoison := rfl
@[simp] theorem State.setCore_clusters (s : State) (c : Nat) (v : Core) : (s.setCore c v).clusters = s.clusters := rfl
@[simp] theorem State.setCore_dies (s : State) (c : Nat) (v : Core) : (s.setCore c v).dies = s.dies := rfl
@[simp] theorem State.setCore_fes (s : State) (c : Nat) (v : Core) : (s.setCore c v).fes = s.fes := rfl
@[simp] theorem State.setCore_groups (s : State) (c : Nat) (v : Core) : (s.setCore c v).groups = s.groups := rfl
@[simp] theorem State.setCore_wgs (s : State) (c : Nat) (v : Core) : (s.setCore c v).wgs = s.wgs := rfl
@[simp] theorem State.setCore_gangs (s : State) (c : Nat) (v : Core) : (s.setCore c v).gangs = s.gangs := rfl
@[simp] theorem State.setCore_grids (s : State) (c : Nat) (v : Core) : (s.setCore c v).grids = s.grids := rfl
@[simp] theorem State.setCore_edges (s : State) (c : Nat) (v : Core) : (s.setCore c v).edges = s.edges := rfl
@[simp] theorem State.setCore_remotes (s : State) (c : Nat) (v : Core) : (s.setCore c v).remotes = s.remotes := rfl
@[simp] theorem State.setCore_llc (s : State) (c : Nat) (v : Core) : (s.setCore c v).llc = s.llc := rfl
@[simp] theorem State.setCore_ops (s : State) (c : Nat) (v : Core) : (s.setCore c v).ops = s.ops := rfl
@[simp] theorem State.setCore_vdevs (s : State) (c : Nat) (v : Core) : (s.setCore c v).vdevs = s.vdevs := rfl
@[simp] theorem State.setCore_codecs (s : State) (c : Nat) (v : Core) : (s.setCore c v).codecs = s.codecs := rfl
@[simp] theorem State.setCore_sys (s : State) (c : Nat) (v : Core) : (s.setCore c v).sys = s.sys := rfl
@[simp] theorem State.setCore_otherClass (s : State) (c : Nat) (v : Core) : (s.setCore c v).otherClass = s.otherClass := rfl
@[simp] theorem State.setCore_breaking (s : State) (c : Nat) (v : Core) : (s.setCore c v).breaking = s.breaking := rfl
@[simp] theorem State.setCore_cores (s : State) (c : Nat) (v : Core) : (s.setCore c v).cores = mset s.cores c v := rfl
/-! ### updCore -/
@[simp] theorem State.updCore_now (s : State) (c : Nat) (f : Core → Core) : (s.updCore c f).now = s.now := rfl
@[simp] theorem State.updCore_epoch (s : State) (c : Nat) (f : Core → Core) : (s.updCore c f).epoch = s.epoch := rfl
@[simp] theorem State.updCore_tick (s : State) (c : Nat) (f : Core → Core) : (s.updCore c f).tick = s.tick := rfl
@[simp] theorem State.updCore_nextId (s : State) (c : Nat) (f : Core → Core) : (s.updCore c f).nextId = s.nextId := rfl
@[simp] theorem State.updCore_nextTok (s : State) (c : Nat) (f : Core → Core) : (s.updCore c f).nextTok = s.nextTok := rfl
@[simp] theorem State.updCore_agenda (s : State) (c : Nat) (f : Core → Core) : (s.updCore c f).agenda = s.agenda := rfl
@[simp] theorem State.updCore_cur (s : State) (c : Nat) (f : Core → Core) : (s.updCore c f).cur = s.cur := rfl
@[simp] theorem State.updCore_mem (s : State) (c : Nat) (f : Core → Core) : (s.updCore c f).mem = s.mem := rfl
@[simp] theorem State.updCore_memPoison (s : State) (c : Nat) (f : Core → Core) : (s.updCore c f).memPoison = s.memPoison := rfl
@[simp] theorem State.updCore_clusters (s : State) (c : Nat) (f : Core → Core) : (s.updCore c f).clusters = s.clusters := rfl
@[simp] theorem State.updCore_dies (s : State) (c : Nat) (f : Core → Core) : (s.updCore c f).dies = s.dies := rfl
@[simp] theorem State.updCore_fes (s : State) (c : Nat) (f : Core → Core) : (s.updCore c f).fes = s.fes := rfl
@[simp] theorem State.updCore_groups (s : State) (c : Nat) (f : Core → Core) : (s.updCore c f).groups = s.groups := rfl
@[simp] theorem State.updCore_wgs (s : State) (c : Nat) (f : Core → Core) : (s.updCore c f).wgs = s.wgs := rfl
@[simp] theorem State.updCore_gangs (s : State) (c : Nat) (f : Core → Core) : (s.updCore c f).gangs = s.gangs := rfl
@[simp] theorem State.updCore_grids (s : State) (c : Nat) (f : Core → Core) : (s.updCore c f).grids = s.grids := rfl
@[simp] theorem State.updCore_edges (s : State) (c : Nat) (f : Core → Core) : (s.updCore c f).edges = s.edges := rfl
@[simp] theorem State.updCore_remotes (s : State) (c : Nat) (f : Core → Core) : (s.updCore c f).remotes = s.remotes := rfl
@[simp] theorem State.updCore_llc (s : State) (c : Nat) (f : Core → Core) : (s.updCore c f).llc = s.llc := rfl
@[simp] theorem State.updCore_ops (s : State) (c : Nat) (f : Core → Core) : (s.updCore c f).ops = s.ops := rfl
@[simp] theorem State.updCore_vdevs (s : State) (c : Nat) (f : Core → Core) : (s.updCore c f).vdevs = s.vdevs := rfl
@[simp] theorem State.updCore_codecs (s : State) (c : Nat) (f : Core → Core) : (s.updCore c f).codecs = s.codecs := rfl
@[simp] theorem State.updCore_sys (s : State) (c : Nat) (f : Core → Core) : (s.updCore c f).sys = s.sys := rfl
@[simp] theorem State.updCore_otherClass (s : State) (c : Nat) (f : Core → Core) : (s.updCore c f).otherClass = s.otherClass := rfl
@[simp] theorem State.updCore_breaking (s : State) (c : Nat) (f : Core → Core) : (s.updCore c f).breaking = s.breaking := rfl
@[simp] theorem State.updCore_cores (s : State) (c : Nat) (f : Core → Core) : (s.updCore c f).cores = mset s.cores c (f (s.core c)) := rfl
/-! ### setCluster -/
@[simp] theorem State.setCluster_now (s : State) (c : Nat) (v : Cluster) : (s.setCluster c v).now = s.now := rfl
@[simp] theorem State.setCluster_epoch (s : State) (c : Nat) (v : Cluster) : (s.setCluster c v).epoch = s.epoch := rfl
@[simp] theorem State.setCluster_tick (s : State) (c : Nat) (v : Cluster) : (s.setCluster c v).tick = s.tick := rfl
@[simp] theorem State.setCluster_nextId (s : State) (c : Nat) (v : Cluster) : (s.setCluster c v).nextId = s.nextId := rfl
@[simp] theorem State.setCluster_nextTok (s : State) (c : Nat) (v : Cluster) : (s.setCluster c v).nextTok = s.nextTok := rfl
@[simp] theorem State.setCluster_agenda (s : State) (c : Nat) (v : Cluster) : (s.setCluster c v).agenda = s.agenda := rfl
@[simp] theorem State.setCluster_cur (s : State) (c : Nat) (v : Cluster) : (s.setCluster c v).cur = s.cur := rfl
@[simp] theorem State.setCluster_mem (s : State) (c : Nat) (v : Cluster) : (s.setCluster c v).mem = s.mem := rfl
@[simp] theorem State.setCluster_memPoison (s : State) (c : Nat) (v : Cluster) : (s.setCluster c v).memPoison = s.memPoison := rfl
@[simp] theorem State.setCluster_cores (s : State) (c : Nat) (v : Cluster) : (s.setCluster c v).cores = s.cores := rfl
@[simp] theorem State.setCluster_dies (s : State) (c : Nat) (v : Cluster) : (s.setCluster c v).dies = s.dies := rfl
@[simp] theorem State.setCluster_fes (s : State) (c : Nat) (v : Cluster) : (s.setCluster c v).fes = s.fes := rfl
@[simp] theorem State.setCluster_groups (s : State) (c : Nat) (v : Cluster) : (s.setCluster c v).groups = s.groups := rfl
@[simp] theorem State.setCluster_wgs (s : State) (c : Nat) (v : Cluster) : (s.setCluster c v).wgs = s.wgs := rfl
@[simp] theorem State.setCluster_gangs (s : State) (c : Nat) (v : Cluster) : (s.setCluster c v).gangs = s.gangs := rfl
@[simp] theorem State.setCluster_grids (s : State) (c : Nat) (v : Cluster) : (s.setCluster c v).grids = s.grids := rfl
@[simp] theorem State.setCluster_edges (s : State) (c : Nat) (v : Cluster) : (s.setCluster c v).edges = s.edges := rfl
@[simp] theorem State.setCluster_remotes (s : State) (c : Nat) (v : Cluster) : (s.setCluster c v).remotes = s.remotes := rfl
@[simp] theorem State.setCluster_llc (s : State) (c : Nat) (v : Cluster) : (s.setCluster c v).llc = s.llc := rfl
@[simp] theorem State.setCluster_ops (s : State) (c : Nat) (v : Cluster) : (s.setCluster c v).ops = s.ops := rfl
@[simp] theorem State.setCluster_vdevs (s : State) (c : Nat) (v : Cluster) : (s.setCluster c v).vdevs = s.vdevs := rfl
@[simp] theorem State.setCluster_codecs (s : State) (c : Nat) (v : Cluster) : (s.setCluster c v).codecs = s.codecs := rfl
@[simp] theorem State.setCluster_sys (s : State) (c : Nat) (v : Cluster) : (s.setCluster c v).sys = s.sys := rfl
@[simp] theorem State.setCluster_otherClass (s : State) (c : Nat) (v : Cluster) : (s.setCluster c v).otherClass = s.otherClass := rfl
@[simp] theorem State.setCluster_breaking (s : State) (c : Nat) (v : Cluster) : (s.setCluster c v).breaking = s.breaking := rfl
@[simp] theorem State.setCluster_clusters (s : State) (c : Nat) (v : Cluster) : (s.setCluster c v).clusters = mset s.clusters c v := rfl
/-! ### updCluster -/
@[simp] theorem State.updCluster_now (s : State) (c : Nat) (f : Cluster → Cluster) : (s.updCluster c f).now = s.now := rfl
@[simp] theorem State.updCluster_epoch (s : State) (c : Nat) (f : Cluster → Cluster) : (s.updCluster c f).epoch = s.epoch := rfl
@[simp] theorem State.updCluster_tick (s : State) (c : Nat) (f : Cluster → Cluster) : (s.updCluster c f).tick = s.tick := rfl
@[simp] theorem State.updCluster_nextId (s : State) (c : Nat) (f : Cluster → Cluster) : (s.updCluster c f).nextId = s.nextId := rfl
@[simp] theorem State.updCluster_nextTok (s : State) (c : Nat) (f : Cluster → Cluster) : (s.updCluster c f).nextTok = s.nextTok := rfl
@[simp] theorem State.updCluster_agenda (s : State) (c : Nat) (f : Cluster → Cluster) : (s.updCluster c f).agenda = s.agenda := rfl
@[simp] theorem State.updCluster_cur (s : State) (c : Nat) (f : Cluster → Cluster) : (s.updCluster c f).cur = s.cur := rfl
@[simp] theorem State.updCluster_mem (s : State) (c : Nat) (f : Cluster → Cluster) : (s.updCluster c f).mem = s.mem := rfl
@[simp] theorem State.updCluster_memPoison (s : State) (c : Nat) (f : Cluster → Cluster) : (s.updCluster c f).memPoison = s.memPoison := rfl
@[simp] theorem State.updCluster_cores (s : State) (c : Nat) (f : Cluster → Cluster) : (s.updCluster c f).cores = s.cores := rfl
@[simp] theorem State.updCluster_dies (s : State) (c : Nat) (f : Cluster → Cluster) : (s.updCluster c f).dies = s.dies := rfl
@[simp] theorem State.updCluster_fes (s : State) (c : Nat) (f : Cluster → Cluster) : (s.updCluster c f).fes = s.fes := rfl
@[simp] theorem State.updCluster_groups (s : State) (c : Nat) (f : Cluster → Cluster) : (s.updCluster c f).groups = s.groups := rfl
@[simp] theorem State.updCluster_wgs (s : State) (c : Nat) (f : Cluster → Cluster) : (s.updCluster c f).wgs = s.wgs := rfl
@[simp] theorem State.updCluster_gangs (s : State) (c : Nat) (f : Cluster → Cluster) : (s.updCluster c f).gangs = s.gangs := rfl
@[simp] theorem State.updCluster_grids (s : State) (c : Nat) (f : Cluster → Cluster) : (s.updCluster c f).grids = s.grids := rfl
@[simp] theorem State.updCluster_edges (s : State) (c : Nat) (f : Cluster → Cluster) : (s.updCluster c f).edges = s.edges := rfl
@[simp] theorem State.updCluster_remotes (s : State) (c : Nat) (f : Cluster → Cluster) : (s.updCluster c f).remotes = s.remotes := rfl
@[simp] theorem State.updCluster_llc (s : State) (c : Nat) (f : Cluster → Cluster) : (s.updCluster c f).llc = s.llc := rfl
@[simp] theorem State.updCluster_ops (s : State) (c : Nat) (f : Cluster → Cluster) : (s.updCluster c f).ops = s.ops := rfl
@[simp] theorem State.updCluster_vdevs (s : State) (c : Nat) (f : Cluster → Cluster) : (s.updCluster c f).vdevs = s.vdevs := rfl
@[simp] theorem State.updCluster_codecs (s : State) (c : Nat) (f : Cluster → Cluster) : (s.updCluster c f).codecs = s.codecs := rfl
@[simp] theorem State.updCluster_sys (s : State) (c : Nat) (f : Cluster → Cluster) : (s.updCluster c f).sys = s.sys := rfl
@[simp] theorem State.updCluster_otherClass (s : State) (c : Nat) (f : Cluster → Cluster) : (s.updCluster c f).otherClass = s.otherClass := rfl
@[simp] theorem State.updCluster_breaking (s : State) (c : Nat) (f : Cluster → Cluster) : (s.updCluster c f).breaking = s.breaking := rfl
@[simp] theorem State.updCluster_clusters (s : State) (c : Nat) (f : Cluster → Cluster) : (s.updCluster c f).clusters = mset s.clusters c (f (s.cluster c)) := rfl
/-! ### setDie -/
@[simp] theorem State.setDie_now (s : State) (d : Nat) (v : Die) : (s.setDie d v).now = s.now := rfl
@[simp] theorem State.setDie_epoch (s : State) (d : Nat) (v : Die) : (s.setDie d v).epoch = s.epoch := rfl
@[simp] theorem State.setDie_tick (s : State) (d : Nat) (v : Die) : (s.setDie d v).tick = s.tick := rfl
@[simp] theorem State.setDie_nextId (s : State) (d : Nat) (v : Die) : (s.setDie d v).nextId = s.nextId := rfl
@[simp] theorem State.setDie_nextTok (s : State) (d : Nat) (v : Die) : (s.setDie d v).nextTok = s.nextTok := rfl
@[simp] theorem State.setDie_agenda (s : State) (d : Nat) (v : Die) : (s.setDie d v).agenda = s.agenda := rfl
@[simp] theorem State.setDie_cur (s : State) (d : Nat) (v : Die) : (s.setDie d v).cur = s.cur := rfl
@[simp] theorem State.setDie_mem (s : State) (d : Nat) (v : Die) : (s.setDie d v).mem = s.mem := rfl
@[simp] theorem State.setDie_memPoison (s : State) (d : Nat) (v : Die) : (s.setDie d v).memPoison = s.memPoison := rfl
@[simp] theorem State.setDie_cores (s : State) (d : Nat) (v : Die) : (s.setDie d v).cores = s.cores := rfl
@[simp] theorem State.setDie_clusters (s : State) (d : Nat) (v : Die) : (s.setDie d v).clusters = s.clusters := rfl
@[simp] theorem State.setDie_fes (s : State) (d : Nat) (v : Die) : (s.setDie d v).fes = s.fes := rfl
@[simp] theorem State.setDie_groups (s : State) (d : Nat) (v : Die) : (s.setDie d v).groups = s.groups := rfl
@[simp] theorem State.setDie_wgs (s : State) (d : Nat) (v : Die) : (s.setDie d v).wgs = s.wgs := rfl
@[simp] theorem State.setDie_gangs (s : State) (d : Nat) (v : Die) : (s.setDie d v).gangs = s.gangs := rfl
@[simp] theorem State.setDie_grids (s : State) (d : Nat) (v : Die) : (s.setDie d v).grids = s.grids := rfl
@[simp] theorem State.setDie_edges (s : State) (d : Nat) (v : Die) : (s.setDie d v).edges = s.edges := rfl
@[simp] theorem State.setDie_remotes (s : State) (d : Nat) (v : Die) : (s.setDie d v).remotes = s.remotes := rfl
@[simp] theorem State.setDie_llc (s : State) (d : Nat) (v : Die) : (s.setDie d v).llc = s.llc := rfl
@[simp] theorem State.setDie_ops (s : State) (d : Nat) (v : Die) : (s.setDie d v).ops = s.ops := rfl
@[simp] theorem State.setDie_vdevs (s : State) (d : Nat) (v : Die) : (s.setDie d v).vdevs = s.vdevs := rfl
@[simp] theorem State.setDie_codecs (s : State) (d : Nat) (v : Die) : (s.setDie d v).codecs = s.codecs := rfl
@[simp] theorem State.setDie_sys (s : State) (d : Nat) (v : Die) : (s.setDie d v).sys = s.sys := rfl
@[simp] theorem State.setDie_otherClass (s : State) (d : Nat) (v : Die) : (s.setDie d v).otherClass = s.otherClass := rfl
@[simp] theorem State.setDie_breaking (s : State) (d : Nat) (v : Die) : (s.setDie d v).breaking = s.breaking := rfl
@[simp] theorem State.setDie_dies (s : State) (d : Nat) (v : Die) : (s.setDie d v).dies = mset s.dies d v := rfl
/-! ### setFe -/
@[simp] theorem State.setFe_now (s : State) (n : Nat) (v : FrontEnd) : (s.setFe n v).now = s.now := rfl
@[simp] theorem State.setFe_epoch (s : State) (n : Nat) (v : FrontEnd) : (s.setFe n v).epoch = s.epoch := rfl
@[simp] theorem State.setFe_tick (s : State) (n : Nat) (v : FrontEnd) : (s.setFe n v).tick = s.tick := rfl
@[simp] theorem State.setFe_nextId (s : State) (n : Nat) (v : FrontEnd) : (s.setFe n v).nextId = s.nextId := rfl
@[simp] theorem State.setFe_nextTok (s : State) (n : Nat) (v : FrontEnd) : (s.setFe n v).nextTok = s.nextTok := rfl
@[simp] theorem State.setFe_agenda (s : State) (n : Nat) (v : FrontEnd) : (s.setFe n v).agenda = s.agenda := rfl
@[simp] theorem State.setFe_cur (s : State) (n : Nat) (v : FrontEnd) : (s.setFe n v).cur = s.cur := rfl
@[simp] theorem State.setFe_mem (s : State) (n : Nat) (v : FrontEnd) : (s.setFe n v).mem = s.mem := rfl
@[simp] theorem State.setFe_memPoison (s : State) (n : Nat) (v : FrontEnd) : (s.setFe n v).memPoison = s.memPoison := rfl
@[simp] theorem State.setFe_cores (s : State) (n : Nat) (v : FrontEnd) : (s.setFe n v).cores = s.cores := rfl
@[simp] theorem State.setFe_clusters (s : State) (n : Nat) (v : FrontEnd) : (s.setFe n v).clusters = s.clusters := rfl
@[simp] theorem State.setFe_dies (s : State) (n : Nat) (v : FrontEnd) : (s.setFe n v).dies = s.dies := rfl
@[simp] theorem State.setFe_groups (s : State) (n : Nat) (v : FrontEnd) : (s.setFe n v).groups = s.groups := rfl
@[simp] theorem State.setFe_wgs (s : State) (n : Nat) (v : FrontEnd) : (s.setFe n v).wgs = s.wgs := rfl
@[simp] theorem State.setFe_gangs (s : State) (n : Nat) (v : FrontEnd) : (s.setFe n v).gangs = s.gangs := rfl
@[simp] theorem State.setFe_grids (s : State) (n : Nat) (v : FrontEnd) : (s.setFe n v).grids = s.grids := rfl
@[simp] theorem State.setFe_edges (s : State) (n : Nat) (v : FrontEnd) : (s.setFe n v).edges = s.edges := rfl
@[simp] theorem State.setFe_remotes (s : State) (n : Nat) (v : FrontEnd) : (s.setFe n v).remotes = s.remotes := rfl
@[simp] theorem State.setFe_llc (s : State) (n : Nat) (v : FrontEnd) : (s.setFe n v).llc = s.llc := rfl
@[simp] theorem State.setFe_ops (s : State) (n : Nat) (v : FrontEnd) : (s.setFe n v).ops = s.ops := rfl
@[simp] theorem State.setFe_vdevs (s : State) (n : Nat) (v : FrontEnd) : (s.setFe n v).vdevs = s.vdevs := rfl
@[simp] theorem State.setFe_codecs (s : State) (n : Nat) (v : FrontEnd) : (s.setFe n v).codecs = s.codecs := rfl
@[simp] theorem State.setFe_sys (s : State) (n : Nat) (v : FrontEnd) : (s.setFe n v).sys = s.sys := rfl
@[simp] theorem State.setFe_otherClass (s : State) (n : Nat) (v : FrontEnd) : (s.setFe n v).otherClass = s.otherClass := rfl
@[simp] theorem State.setFe_breaking (s : State) (n : Nat) (v : FrontEnd) : (s.setFe n v).breaking = s.breaking := rfl
@[simp] theorem State.setFe_fes (s : State) (n : Nat) (v : FrontEnd) : (s.setFe n v).fes = mset s.fes n v := rfl
/-! ### updFe -/
@[simp] theorem State.updFe_now (s : State) (n : Nat) (f : FrontEnd → FrontEnd) : (s.updFe n f).now = s.now := rfl
@[simp] theorem State.updFe_epoch (s : State) (n : Nat) (f : FrontEnd → FrontEnd) : (s.updFe n f).epoch = s.epoch := rfl
@[simp] theorem State.updFe_tick (s : State) (n : Nat) (f : FrontEnd → FrontEnd) : (s.updFe n f).tick = s.tick := rfl
@[simp] theorem State.updFe_nextId (s : State) (n : Nat) (f : FrontEnd → FrontEnd) : (s.updFe n f).nextId = s.nextId := rfl
@[simp] theorem State.updFe_nextTok (s : State) (n : Nat) (f : FrontEnd → FrontEnd) : (s.updFe n f).nextTok = s.nextTok := rfl
@[simp] theorem State.updFe_agenda (s : State) (n : Nat) (f : FrontEnd → FrontEnd) : (s.updFe n f).agenda = s.agenda := rfl
@[simp] theorem State.updFe_cur (s : State) (n : Nat) (f : FrontEnd → FrontEnd) : (s.updFe n f).cur = s.cur := rfl
@[simp] theorem State.updFe_mem (s : State) (n : Nat) (f : FrontEnd → FrontEnd) : (s.updFe n f).mem = s.mem := rfl
@[simp] theorem State.updFe_memPoison (s : State) (n : Nat) (f : FrontEnd → FrontEnd) : (s.updFe n f).memPoison = s.memPoison := rfl
@[simp] theorem State.updFe_cores (s : State) (n : Nat) (f : FrontEnd → FrontEnd) : (s.updFe n f).cores = s.cores := rfl
@[simp] theorem State.updFe_clusters (s : State) (n : Nat) (f : FrontEnd → FrontEnd) : (s.updFe n f).clusters = s.clusters := rfl
@[simp] theorem State.updFe_dies (s : State) (n : Nat) (f : FrontEnd → FrontEnd) : (s.updFe n f).dies = s.dies := rfl
@[simp] theorem State.updFe_groups (s : State) (n : Nat) (f : FrontEnd → FrontEnd) : (s.updFe n f).groups = s.groups := rfl
@[simp] theorem State.updFe_wgs (s : State) (n : Nat) (f : FrontEnd → FrontEnd) : (s.updFe n f).wgs = s.wgs := rfl
@[simp] theorem State.updFe_gangs (s : State) (n : Nat) (f : FrontEnd → FrontEnd) : (s.updFe n f).gangs = s.gangs := rfl
@[simp] theorem State.updFe_grids (s : State) (n : Nat) (f : FrontEnd → FrontEnd) : (s.updFe n f).grids = s.grids := rfl
@[simp] theorem State.updFe_edges (s : State) (n : Nat) (f : FrontEnd → FrontEnd) : (s.updFe n f).edges = s.edges := rfl
@[simp] theorem State.updFe_remotes (s : State) (n : Nat) (f : FrontEnd → FrontEnd) : (s.updFe n f).remotes = s.remotes := rfl
@[simp] theorem State.updFe_llc (s : State) (n : Nat) (f : FrontEnd → FrontEnd) : (s.updFe n f).llc = s.llc := rfl
@[simp] theorem State.updFe_ops (s : State) (n : Nat) (f : FrontEnd → FrontEnd) : (s.updFe n f).ops = s.ops := rfl
@[simp] theorem State.updFe_vdevs (s : State) (n : Nat) (f : FrontEnd → FrontEnd) : (s.updFe n f).vdevs = s.vdevs := rfl
@[simp] theorem State.updFe_codecs (s : State) (n : Nat) (f : FrontEnd → FrontEnd) : (s.updFe n f).codecs = s.codecs := rfl
@[simp] theorem State.updFe_sys (s : State) (n : Nat) (f : FrontEnd → FrontEnd) : (s.updFe n f).sys = s.sys := rfl
@[simp] theorem State.updFe_otherClass (s : State) (n : Nat) (f : FrontEnd → FrontEnd) : (s.updFe n f).otherClass = s.otherClass := rfl
@[simp] theorem State.updFe_breaking (s : State) (n : Nat) (f : FrontEnd → FrontEnd) : (s.updFe n f).breaking = s.breaking := rfl
@[simp] theorem State.updFe_fes (s : State) (n : Nat) (f : FrontEnd → FrontEnd) : (s.updFe n f).fes = mset s.fes n (f (s.fe n)) := rfl
/-! ### setVdev -/
@[simp] theorem State.setVdev_now (s : State) (n : Nat) (v : VDev) : (s.setVdev n v).now = s.now := rfl
@[simp] theorem State.setVdev_epoch (s : State) (n : Nat) (v : VDev) : (s.setVdev n v).epoch = s.epoch := rfl
@[simp] theorem State.setVdev_tick (s : State) (n : Nat) (v : VDev) : (s.setVdev n v).tick = s.tick := rfl
@[simp] theorem State.setVdev_nextId (s : State) (n : Nat) (v : VDev) : (s.setVdev n v).nextId = s.nextId := rfl
@[simp] theorem State.setVdev_nextTok (s : State) (n : Nat) (v : VDev) : (s.setVdev n v).nextTok = s.nextTok := rfl
@[simp] theorem State.setVdev_agenda (s : State) (n : Nat) (v : VDev) : (s.setVdev n v).agenda = s.agenda := rfl
@[simp] theorem State.setVdev_cur (s : State) (n : Nat) (v : VDev) : (s.setVdev n v).cur = s.cur := rfl
@[simp] theorem State.setVdev_mem (s : State) (n : Nat) (v : VDev) : (s.setVdev n v).mem = s.mem := rfl
@[simp] theorem State.setVdev_memPoison (s : State) (n : Nat) (v : VDev) : (s.setVdev n v).memPoison = s.memPoison := rfl
@[simp] theorem State.setVdev_cores (s : State) (n : Nat) (v : VDev) : (s.setVdev n v).cores = s.cores := rfl
@[simp] theorem State.setVdev_clusters (s : State) (n : Nat) (v : VDev) : (s.setVdev n v).clusters = s.clusters := rfl
@[simp] theorem State.setVdev_dies (s : State) (n : Nat) (v : VDev) : (s.setVdev n v).dies = s.dies := rfl
@[simp] theorem State.setVdev_fes (s : State) (n : Nat) (v : VDev) : (s.setVdev n v).fes = s.fes := rfl
@[simp] theorem State.setVdev_groups (s : State) (n : Nat) (v : VDev) : (s.setVdev n v).groups = s.groups := rfl
@[simp] theorem State.setVdev_wgs (s : State) (n : Nat) (v : VDev) : (s.setVdev n v).wgs = s.wgs := rfl
@[simp] theorem State.setVdev_gangs (s : State) (n : Nat) (v : VDev) : (s.setVdev n v).gangs = s.gangs := rfl
@[simp] theorem State.setVdev_grids (s : State) (n : Nat) (v : VDev) : (s.setVdev n v).grids = s.grids := rfl
@[simp] theorem State.setVdev_edges (s : State) (n : Nat) (v : VDev) : (s.setVdev n v).edges = s.edges := rfl
@[simp] theorem State.setVdev_remotes (s : State) (n : Nat) (v : VDev) : (s.setVdev n v).remotes = s.remotes := rfl
@[simp] theorem State.setVdev_llc (s : State) (n : Nat) (v : VDev) : (s.setVdev n v).llc = s.llc := rfl
@[simp] theorem State.setVdev_ops (s : State) (n : Nat) (v : VDev) : (s.setVdev n v).ops = s.ops := rfl
@[simp] theorem State.setVdev_codecs (s : State) (n : Nat) (v : VDev) : (s.setVdev n v).codecs = s.codecs := rfl
@[simp] theorem State.setVdev_sys (s : State) (n : Nat) (v : VDev) : (s.setVdev n v).sys = s.sys := rfl
@[simp] theorem State.setVdev_otherClass (s : State) (n : Nat) (v : VDev) : (s.setVdev n v).otherClass = s.otherClass := rfl
@[simp] theorem State.setVdev_breaking (s : State) (n : Nat) (v : VDev) : (s.setVdev n v).breaking = s.breaking := rfl
@[simp] theorem State.setVdev_vdevs (s : State) (n : Nat) (v : VDev) : (s.setVdev n v).vdevs = mset s.vdevs n v := rfl
/-! ### updVdev -/
@[simp] theorem State.updVdev_now (s : State) (n : Nat) (f : VDev → VDev) : (s.updVdev n f).now = s.now := rfl
@[simp] theorem State.updVdev_epoch (s : State) (n : Nat) (f : VDev → VDev) : (s.updVdev n f).epoch = s.epoch := rfl
@[simp] theorem State.updVdev_tick (s : State) (n : Nat) (f : VDev → VDev) : (s.updVdev n f).tick = s.tick := rfl
@[simp] theorem State.updVdev_nextId (s : State) (n : Nat) (f : VDev → VDev) : (s.updVdev n f).nextId = s.nextId := rfl
@[simp] theorem State.updVdev_nextTok (s : State) (n : Nat) (f : VDev → VDev) : (s.updVdev n f).nextTok = s.nextTok := rfl
@[simp] theorem State.updVdev_agenda (s : State) (n : Nat) (f : VDev → VDev) : (s.updVdev n f).agenda = s.agenda := rfl
@[simp] theorem State.updVdev_cur (s : State) (n : Nat) (f : VDev → VDev) : (s.updVdev n f).cur = s.cur := rfl
@[simp] theorem State.updVdev_mem (s : State) (n : Nat) (f : VDev → VDev) : (s.updVdev n f).mem = s.mem := rfl
@[simp] theorem State.updVdev_memPoison (s : State) (n : Nat) (f : VDev → VDev) : (s.updVdev n f).memPoison = s.memPoison := rfl
@[simp] theorem State.updVdev_cores (s : State) (n : Nat) (f : VDev → VDev) : (s.updVdev n f).cores = s.cores := rfl
@[simp] theorem State.updVdev_clusters (s : State) (n : Nat) (f : VDev → VDev) : (s.updVdev n f).clusters = s.clusters := rfl
@[simp] theorem State.updVdev_dies (s : State) (n : Nat) (f : VDev → VDev) : (s.updVdev n f).dies = s.dies := rfl
@[simp] theorem State.updVdev_fes (s : State) (n : Nat) (f : VDev → VDev) : (s.updVdev n f).fes = s.fes := rfl
@[simp] theorem State.updVdev_groups (s : State) (n : Nat) (f : VDev → VDev) : (s.updVdev n f).groups = s.groups := rfl
@[simp] theorem State.updVdev_wgs (s : State) (n : Nat) (f : VDev → VDev) : (s.updVdev n f).wgs = s.wgs := rfl
@[simp] theorem State.updVdev_gangs (s : State) (n : Nat) (f : VDev → VDev) : (s.updVdev n f).gangs = s.gangs := rfl
@[simp] theorem State.updVdev_grids (s : State) (n : Nat) (f : VDev → VDev) : (s.updVdev n f).grids = s.grids := rfl
@[simp] theorem State.updVdev_edges (s : State) (n : Nat) (f : VDev → VDev) : (s.updVdev n f).edges = s.edges := rfl
@[simp] theorem State.updVdev_remotes (s : State) (n : Nat) (f : VDev → VDev) : (s.updVdev n f).remotes = s.remotes := rfl
@[simp] theorem State.updVdev_llc (s : State) (n : Nat) (f : VDev → VDev) : (s.updVdev n f).llc = s.llc := rfl
@[simp] theorem State.updVdev_ops (s : State) (n : Nat) (f : VDev → VDev) : (s.updVdev n f).ops = s.ops := rfl
@[simp] theorem State.updVdev_codecs (s : State) (n : Nat) (f : VDev → VDev) : (s.updVdev n f).codecs = s.codecs := rfl
@[simp] theorem State.updVdev_sys (s : State) (n : Nat) (f : VDev → VDev) : (s.updVdev n f).sys = s.sys := rfl
@[simp] theorem State.updVdev_otherClass (s : State) (n : Nat) (f : VDev → VDev) : (s.updVdev n f).otherClass = s.otherClass := rfl
@[simp] theorem State.updVdev_breaking (s : State) (n : Nat) (f : VDev → VDev) : (s.updVdev n f).breaking = s.breaking := rfl
@[simp] theorem State.updVdev_vdevs (s : State) (n : Nat) (f : VDev → VDev) : (s.updVdev n f).vdevs = mset s.vdevs n (f (s.vdev n)) := rfl
/-! ### setCodec -/
@[simp] theorem State.setCodec_now (s : State) (n : Nat) (v : Codec) : (s.setCodec n v).now = s.now := rfl
@[simp] theorem State.setCodec_epoch (s : State) (n : Nat) (v : Codec) : (s.setCodec n v).epoch = s.epoch := rfl
@[simp] theorem State.setCodec_tick (s : State) (n : Nat) (v : Codec) : (s.setCodec n v).tick = s.tick := rfl
@[simp] theorem State.setCodec_nextId (s : State) (n : Nat) (v : Codec) : (s.setCodec n v).nextId = s.nextId := rfl
@[simp] theorem State.setCodec_nextTok (s : State) (n : Nat) (v : Codec) : (s.setCodec n v).nextTok = s.nextTok := rfl
@[simp] theorem State.setCodec_agenda (s : State) (n : Nat) (v : Codec) : (s.setCodec n v).agenda = s.agenda := rfl
@[simp] theorem State.setCodec_cur (s : State) (n : Nat) (v : Codec) : (s.setCodec n v).cur = s.cur := rfl
@[simp] theorem State.setCodec_mem (s : State) (n : Nat) (v : Codec) : (s.setCodec n v).mem = s.mem := rfl
@[simp] theorem State.setCodec_memPoison (s : State) (n : Nat) (v : Codec) : (s.setCodec n v).memPoison = s.memPoison := rfl
@[simp] theorem State.setCodec_cores (s : State) (n : Nat) (v : Codec) : (s.setCodec n v).cores = s.cores := rfl
@[simp] theorem State.setCodec_clusters (s : State) (n : Nat) (v : Codec) : (s.setCodec n v).clusters = s.clusters := rfl
@[simp] theorem State.setCodec_dies (s : State) (n : Nat) (v : Codec) : (s.setCodec n v).dies = s.dies := rfl
@[simp] theorem State.setCodec_fes (s : State) (n : Nat) (v : Codec) : (s.setCodec n v).fes = s.fes := rfl
@[simp] theorem State.setCodec_groups (s : State) (n : Nat) (v : Codec) : (s.setCodec n v).groups = s.groups := rfl
@[simp] theorem State.setCodec_wgs (s : State) (n : Nat) (v : Codec) : (s.setCodec n v).wgs = s.wgs := rfl
@[simp] theorem State.setCodec_gangs (s : State) (n : Nat) (v : Codec) : (s.setCodec n v).gangs = s.gangs := rfl
@[simp] theorem State.setCodec_grids (s : State) (n : Nat) (v : Codec) : (s.setCodec n v).grids = s.grids := rfl
@[simp] theorem State.setCodec_edges (s : State) (n : Nat) (v : Codec) : (s.setCodec n v).edges = s.edges := rfl
@[simp] theorem State.setCodec_remotes (s : State) (n : Nat) (v : Codec) : (s.setCodec n v).remotes = s.remotes := rfl
@[simp] theorem State.setCodec_llc (s : State) (n : Nat) (v : Codec) : (s.setCodec n v).llc = s.llc := rfl
@[simp] theorem State.setCodec_ops (s : State) (n : Nat) (v : Codec) : (s.setCodec n v).ops = s.ops := rfl
@[simp] theorem State.setCodec_vdevs (s : State) (n : Nat) (v : Codec) : (s.setCodec n v).vdevs = s.vdevs := rfl
@[simp] theorem State.setCodec_sys (s : State) (n : Nat) (v : Codec) : (s.setCodec n v).sys = s.sys := rfl
@[simp] theorem State.setCodec_otherClass (s : State) (n : Nat) (v : Codec) : (s.setCodec n v).otherClass = s.otherClass := rfl
@[simp] theorem State.setCodec_breaking (s : State) (n : Nat) (v : Codec) : (s.setCodec n v).breaking = s.breaking := rfl
@[simp] theorem State.setCodec_codecs (s : State) (n : Nat) (v : Codec) : (s.setCodec n v).codecs = mset s.codecs n v := rfl
/-! ### updCodec -/
@[simp] theorem State.updCodec_now (s : State) (n : Nat) (f : Codec → Codec) : (s.updCodec n f).now = s.now := rfl
@[simp] theorem State.updCodec_epoch (s : State) (n : Nat) (f : Codec → Codec) : (s.updCodec n f).epoch = s.epoch := rfl
@[simp] theorem State.updCodec_tick (s : State) (n : Nat) (f : Codec → Codec) : (s.updCodec n f).tick = s.tick := rfl
@[simp] theorem State.updCodec_nextId (s : State) (n : Nat) (f : Codec → Codec) : (s.updCodec n f).nextId = s.nextId := rfl
@[simp] theorem State.updCodec_nextTok (s : State) (n : Nat) (f : Codec → Codec) : (s.updCodec n f).nextTok = s.nextTok := rfl
@[simp] theorem State.updCodec_agenda (s : State) (n : Nat) (f : Codec → Codec) : (s.updCodec n f).agenda = s.agenda := rfl
@[simp] theorem State.updCodec_cur (s : State) (n : Nat) (f : Codec → Codec) : (s.updCodec n f).cur = s.cur := rfl
@[simp] theorem State.updCodec_mem (s : State) (n : Nat) (f : Codec → Codec) : (s.updCodec n f).mem = s.mem := rfl
@[simp] theorem State.updCodec_memPoison (s : State) (n : Nat) (f : Codec → Codec) : (s.updCodec n f).memPoison = s.memPoison := rfl
@[simp] theorem State.updCodec_cores (s : State) (n : Nat) (f : Codec → Codec) : (s.updCodec n f).cores = s.cores := rfl
@[simp] theorem State.updCodec_clusters (s : State) (n : Nat) (f : Codec → Codec) : (s.updCodec n f).clusters = s.clusters := rfl
@[simp] theorem State.updCodec_dies (s : State) (n : Nat) (f : Codec → Codec) : (s.updCodec n f).dies = s.dies := rfl
@[simp] theorem State.updCodec_fes (s : State) (n : Nat) (f : Codec → Codec) : (s.updCodec n f).fes = s.fes := rfl
@[simp] theorem State.updCodec_groups (s : State) (n : Nat) (f : Codec → Codec) : (s.updCodec n f).groups = s.groups := rfl
@[simp] theorem State.updCodec_wgs (s : State) (n : Nat) (f : Codec → Codec) : (s.updCodec n f).wgs = s.wgs := rfl
@[simp] theorem State.updCodec_gangs (s : State) (n : Nat) (f : Codec → Codec) : (s.updCodec n f).gangs = s.gangs := rfl
@[simp] theorem State.updCodec_grids (s : State) (n : Nat) (f : Codec → Codec) : (s.updCodec n f).grids = s.grids := rfl
@[simp] theorem State.updCodec_edges (s : State) (n : Nat) (f : Codec → Codec) : (s.updCodec n f).edges = s.edges := rfl
@[simp] theorem State.updCodec_remotes (s : State) (n : Nat) (f : Codec → Codec) : (s.updCodec n f).remotes = s.remotes := rfl
@[simp] theorem State.updCodec_llc (s : State) (n : Nat) (f : Codec → Codec) : (s.updCodec n f).llc = s.llc := rfl
@[simp] theorem State.updCodec_ops (s : State) (n : Nat) (f : Codec → Codec) : (s.updCodec n f).ops = s.ops := rfl
@[simp] theorem State.updCodec_vdevs (s : State) (n : Nat) (f : Codec → Codec) : (s.updCodec n f).vdevs = s.vdevs := rfl
@[simp] theorem State.updCodec_sys (s : State) (n : Nat) (f : Codec → Codec) : (s.updCodec n f).sys = s.sys := rfl
@[simp] theorem State.updCodec_otherClass (s : State) (n : Nat) (f : Codec → Codec) : (s.updCodec n f).otherClass = s.otherClass := rfl
@[simp] theorem State.updCodec_breaking (s : State) (n : Nat) (f : Codec → Codec) : (s.updCodec n f).breaking = s.breaking := rfl
@[simp] theorem State.updCodec_codecs (s : State) (n : Nat) (f : Codec → Codec) : (s.updCodec n f).codecs = mset s.codecs n (f (s.codec n)) := rfl
/-! ### setGroup -/
@[simp] theorem State.setGroup_now (s : State) (n : Nat) (v : Group) : (s.setGroup n v).now = s.now := rfl
@[simp] theorem State.setGroup_epoch (s : State) (n : Nat) (v : Group) : (s.setGroup n v).epoch = s.epoch := rfl
@[simp] theorem State.setGroup_tick (s : State) (n : Nat) (v : Group) : (s.setGroup n v).tick = s.tick := rfl
@[simp] theorem State.setGroup_nextId (s : State) (n : Nat) (v : Group) : (s.setGroup n v).nextId = s.nextId := rfl
@[simp] theorem State.setGroup_nextTok (s : State) (n : Nat) (v : Group) : (s.setGroup n v).nextTok = s.nextTok := rfl
@[simp] theorem State.setGroup_agenda (s : State) (n : Nat) (v : Group) : (s.setGroup n v).agenda = s.agenda := rfl
@[simp] theorem State.setGroup_cur (s : State) (n : Nat) (v : Group) : (s.setGroup n v).cur = s.cur := rfl
@[simp] theorem State.setGroup_mem (s : State) (n : Nat) (v : Group) : (s.setGroup n v).mem = s.mem := rfl
@[simp] theorem State.setGroup_memPoison (s : State) (n : Nat) (v : Group) : (s.setGroup n v).memPoison = s.memPoison := rfl
@[simp] theorem State.setGroup_cores (s : State) (n : Nat) (v : Group) : (s.setGroup n v).cores = s.cores := rfl
@[simp] theorem State.setGroup_clusters (s : State) (n : Nat) (v : Group) : (s.setGroup n v).clusters = s.clusters := rfl
@[simp] theorem State.setGroup_dies (s : State) (n : Nat) (v : Group) : (s.setGroup n v).dies = s.dies := rfl
@[simp] theorem State.setGroup_fes (s : State) (n : Nat) (v : Group) : (s.setGroup n v).fes = s.fes := rfl
@[simp] theorem State.setGroup_wgs (s : State) (n : Nat) (v : Group) : (s.setGroup n v).wgs = s.wgs := rfl
@[simp] theorem State.setGroup_gangs (s : State) (n : Nat) (v : Group) : (s.setGroup n v).gangs = s.gangs := rfl
@[simp] theorem State.setGroup_grids (s : State) (n : Nat) (v : Group) : (s.setGroup n v).grids = s.grids := rfl
@[simp] theorem State.setGroup_edges (s : State) (n : Nat) (v : Group) : (s.setGroup n v).edges = s.edges := rfl
@[simp] theorem State.setGroup_remotes (s : State) (n : Nat) (v : Group) : (s.setGroup n v).remotes = s.remotes := rfl
@[simp] theorem State.setGroup_llc (s : State) (n : Nat) (v : Group) : (s.setGroup n v).llc = s.llc := rfl
@[simp] theorem State.setGroup_ops (s : State) (n : Nat) (v : Group) : (s.setGroup n v).ops = s.ops := rfl
@[simp] theorem State.setGroup_vdevs (s : State) (n : Nat) (v : Group) : (s.setGroup n v).vdevs = s.vdevs := rfl
@[simp] theorem State.setGroup_codecs (s : State) (n : Nat) (v : Group) : (s.setGroup n v).codecs = s.codecs := rfl
@[simp] theorem State.setGroup_sys (s : State) (n : Nat) (v : Group) : (s.setGroup n v).sys = s.sys := rfl
@[simp] theorem State.setGroup_otherClass (s : State) (n : Nat) (v : Group) : (s.setGroup n v).otherClass = s.otherClass := rfl
@[simp] theorem State.setGroup_breaking (s : State) (n : Nat) (v : Group) : (s.setGroup n v).breaking = s.breaking := rfl
@[simp] theorem State.setGroup_groups (s : State) (n : Nat) (v : Group) : (s.setGroup n v).groups = mset s.groups n v := rfl
/-! ### updGroup -/
@[simp] theorem State.updGroup_now (s : State) (n : Nat) (f : Group → Group) : (s.updGroup n f).now = s.now := rfl
@[simp] theorem State.updGroup_epoch (s : State) (n : Nat) (f : Group → Group) : (s.updGroup n f).epoch = s.epoch := rfl
@[simp] theorem State.updGroup_tick (s : State) (n : Nat) (f : Group → Group) : (s.updGroup n f).tick = s.tick := rfl
@[simp] theorem State.updGroup_nextId (s : State) (n : Nat) (f : Group → Group) : (s.updGroup n f).nextId = s.nextId := rfl
@[simp] theorem State.updGroup_nextTok (s : State) (n : Nat) (f : Group → Group) : (s.updGroup n f).nextTok = s.nextTok := rfl
@[simp] theorem State.updGroup_agenda (s : State) (n : Nat) (f : Group → Group) : (s.updGroup n f).agenda = s.agenda := rfl
@[simp] theorem State.updGroup_cur (s : State) (n : Nat) (f : Group → Group) : (s.updGroup n f).cur = s.cur := rfl
@[simp] theorem State.updGroup_mem (s : State) (n : Nat) (f : Group → Group) : (s.updGroup n f).mem = s.mem := rfl
@[simp] theorem State.updGroup_memPoison (s : State) (n : Nat) (f : Group → Group) : (s.updGroup n f).memPoison = s.memPoison := rfl
@[simp] theorem State.updGroup_cores (s : State) (n : Nat) (f : Group → Group) : (s.updGroup n f).cores = s.cores := rfl
@[simp] theorem State.updGroup_clusters (s : State) (n : Nat) (f : Group → Group) : (s.updGroup n f).clusters = s.clusters := rfl
@[simp] theorem State.updGroup_dies (s : State) (n : Nat) (f : Group → Group) : (s.updGroup n f).dies = s.dies := rfl
@[simp] theorem State.updGroup_fes (s : State) (n : Nat) (f : Group → Group) : (s.updGroup n f).fes = s.fes := rfl
@[simp] theorem State.updGroup_wgs (s : State) (n : Nat) (f : Group → Group) : (s.updGroup n f).wgs = s.wgs := rfl
@[simp] theorem State.updGroup_gangs (s : State) (n : Nat) (f : Group → Group) : (s.updGroup n f).gangs = s.gangs := rfl
@[simp] theorem State.updGroup_grids (s : State) (n : Nat) (f : Group → Group) : (s.updGroup n f).grids = s.grids := rfl
@[simp] theorem State.updGroup_edges (s : State) (n : Nat) (f : Group → Group) : (s.updGroup n f).edges = s.edges := rfl
@[simp] theorem State.updGroup_remotes (s : State) (n : Nat) (f : Group → Group) : (s.updGroup n f).remotes = s.remotes := rfl
@[simp] theorem State.updGroup_llc (s : State) (n : Nat) (f : Group → Group) : (s.updGroup n f).llc = s.llc := rfl
@[simp] theorem State.updGroup_ops (s : State) (n : Nat) (f : Group → Group) : (s.updGroup n f).ops = s.ops := rfl
@[simp] theorem State.updGroup_vdevs (s : State) (n : Nat) (f : Group → Group) : (s.updGroup n f).vdevs = s.vdevs := rfl
@[simp] theorem State.updGroup_codecs (s : State) (n : Nat) (f : Group → Group) : (s.updGroup n f).codecs = s.codecs := rfl
@[simp] theorem State.updGroup_sys (s : State) (n : Nat) (f : Group → Group) : (s.updGroup n f).sys = s.sys := rfl
@[simp] theorem State.updGroup_otherClass (s : State) (n : Nat) (f : Group → Group) : (s.updGroup n f).otherClass = s.otherClass := rfl
@[simp] theorem State.updGroup_breaking (s : State) (n : Nat) (f : Group → Group) : (s.updGroup n f).breaking = s.breaking := rfl
@[simp] theorem State.updGroup_groups (s : State) (n : Nat) (f : Group → Group) : (s.updGroup n f).groups = mupd s.groups n f := rfl
/-! ### updWg -/
@[simp] theorem State.updWg_now (s : State) (n : Nat) (f : Wg → Wg) : (s.updWg n f).now = s.now := rfl
@[simp] theorem State.updWg_epoch (s : State) (n : Nat) (f : Wg → Wg) : (s.updWg n f).epoch = s.epoch := rfl
@[simp] theorem State.updWg_tick (s : State) (n : Nat) (f : Wg → Wg) : (s.updWg n f).tick = s.tick := rfl
@[simp] theorem State.updWg_nextId (s : State) (n : Nat) (f : Wg → Wg) : (s.updWg n f).nextId = s.nextId := rfl
@[simp] theorem State.updWg_nextTok (s : State) (n : Nat) (f : Wg → Wg) : (s.updWg n f).nextTok = s.nextTok := rfl
@[simp] theorem State.updWg_agenda (s : State) (n : Nat) (f : Wg → Wg) : (s.updWg n f).agenda = s.agenda := rfl
@[simp] theorem State.updWg_cur (s : State) (n : Nat) (f : Wg → Wg) : (s.updWg n f).cur = s.cur := rfl
@[simp] theorem State.updWg_mem (s : State) (n : Nat) (f : Wg → Wg) : (s.updWg n f).mem = s.mem := rfl
@[simp] theorem State.updWg_memPoison (s : State) (n : Nat) (f : Wg → Wg) : (s.updWg n f).memPoison = s.memPoison := rfl
@[simp] theorem State.updWg_cores (s : State) (n : Nat) (f : Wg → Wg) : (s.updWg n f).cores = s.cores := rfl
@[simp] theorem State.updWg_clusters (s : State) (n : Nat) (f : Wg → Wg) : (s.updWg n f).clusters = s.clusters := rfl
@[simp] theorem State.updWg_dies (s : State) (n : Nat) (f : Wg → Wg) : (s.updWg n f).dies = s.dies := rfl
@[simp] theorem State.updWg_fes (s : State) (n : Nat) (f : Wg → Wg) : (s.updWg n f).fes = s.fes := rfl
@[simp] theorem State.updWg_groups (s : State) (n : Nat) (f : Wg → Wg) : (s.updWg n f).groups = s.groups := rfl
@[simp] theorem State.updWg_gangs (s : State) (n : Nat) (f : Wg → Wg) : (s.updWg n f).gangs = s.gangs := rfl
@[simp] theorem State.updWg_grids (s : State) (n : Nat) (f : Wg → Wg) : (s.updWg n f).grids = s.grids := rfl
@[simp] theorem State.updWg_edges (s : State) (n : Nat) (f : Wg → Wg) : (s.updWg n f).edges = s.edges := rfl
@[simp] theorem State.updWg_remotes (s : State) (n : Nat) (f : Wg → Wg) : (s.updWg n f).remotes = s.remotes := rfl
@[simp] theorem State.updWg_llc (s : State) (n : Nat) (f : Wg → Wg) : (s.updWg n f).llc = s.llc := rfl
@[simp] theorem State.updWg_ops (s : State) (n : Nat) (f : Wg → Wg) : (s.updWg n f).ops = s.ops := rfl
@[simp] theorem State.updWg_vdevs (s : State) (n : Nat) (f : Wg → Wg) : (s.updWg n f).vdevs = s.vdevs := rfl
@[simp] theorem State.updWg_codecs (s : State) (n : Nat) (f : Wg → Wg) : (s.updWg n f).codecs = s.codecs := rfl
@[simp] theorem State.updWg_sys (s : State) (n : Nat) (f : Wg → Wg) : (s.updWg n f).sys = s.sys := rfl
@[simp] theorem State.updWg_otherClass (s : State) (n : Nat) (f : Wg → Wg) : (s.updWg n f).otherClass = s.otherClass := rfl
@[simp] theorem State.updWg_breaking (s : State) (n : Nat) (f : Wg → Wg) : (s.updWg n f).breaking = s.breaking := rfl
@[simp] theorem State.updWg_wgs (s : State) (n : Nat) (f : Wg → Wg) : (s.updWg n f).wgs = mupd s.wgs n f := rfl
/-! ### updGang -/
@[simp] theorem State.updGang_now (s : State) (n : Nat) (f : Gang → Gang) : (s.updGang n f).now = s.now := rfl
@[simp] theorem State.updGang_epoch (s : State) (n : Nat) (f : Gang → Gang) : (s.updGang n f).epoch = s.epoch := rfl
@[simp] theorem State.updGang_tick (s : State) (n : Nat) (f : Gang → Gang) : (s.updGang n f).tick = s.tick := rfl
@[simp] theorem State.updGang_nextId (s : State) (n : Nat) (f : Gang → Gang) : (s.updGang n f).nextId = s.nextId := rfl
@[simp] theorem State.updGang_nextTok (s : State) (n : Nat) (f : Gang → Gang) : (s.updGang n f).nextTok = s.nextTok := rfl
@[simp] theorem State.updGang_agenda (s : State) (n : Nat) (f : Gang → Gang) : (s.updGang n f).agenda = s.agenda := rfl
@[simp] theorem State.updGang_cur (s : State) (n : Nat) (f : Gang → Gang) : (s.updGang n f).cur = s.cur := rfl
@[simp] theorem State.updGang_mem (s : State) (n : Nat) (f : Gang → Gang) : (s.updGang n f).mem = s.mem := rfl
@[simp] theorem State.updGang_memPoison (s : State) (n : Nat) (f : Gang → Gang) : (s.updGang n f).memPoison = s.memPoison := rfl
@[simp] theorem State.updGang_cores (s : State) (n : Nat) (f : Gang → Gang) : (s.updGang n f).cores = s.cores := rfl
@[simp] theorem State.updGang_clusters (s : State) (n : Nat) (f : Gang → Gang) : (s.updGang n f).clusters = s.clusters := rfl
@[simp] theorem State.updGang_dies (s : State) (n : Nat) (f : Gang → Gang) : (s.updGang n f).dies = s.dies := rfl
@[simp] theorem State.updGang_fes (s : State) (n : Nat) (f : Gang → Gang) : (s.updGang n f).fes = s.fes := rfl
@[simp] theorem State.updGang_groups (s : State) (n : Nat) (f : Gang → Gang) : (s.updGang n f).groups = s.groups := rfl
@[simp] theorem State.updGang_wgs (s : State) (n : Nat) (f : Gang → Gang) : (s.updGang n f).wgs = s.wgs := rfl
@[simp] theorem State.updGang_grids (s : State) (n : Nat) (f : Gang → Gang) : (s.updGang n f).grids = s.grids := rfl
@[simp] theorem State.updGang_edges (s : State) (n : Nat) (f : Gang → Gang) : (s.updGang n f).edges = s.edges := rfl
@[simp] theorem State.updGang_remotes (s : State) (n : Nat) (f : Gang → Gang) : (s.updGang n f).remotes = s.remotes := rfl
@[simp] theorem State.updGang_llc (s : State) (n : Nat) (f : Gang → Gang) : (s.updGang n f).llc = s.llc := rfl
@[simp] theorem State.updGang_ops (s : State) (n : Nat) (f : Gang → Gang) : (s.updGang n f).ops = s.ops := rfl
@[simp] theorem State.updGang_vdevs (s : State) (n : Nat) (f : Gang → Gang) : (s.updGang n f).vdevs = s.vdevs := rfl
@[simp] theorem State.updGang_codecs (s : State) (n : Nat) (f : Gang → Gang) : (s.updGang n f).codecs = s.codecs := rfl
@[simp] theorem State.updGang_sys (s : State) (n : Nat) (f : Gang → Gang) : (s.updGang n f).sys = s.sys := rfl
@[simp] theorem State.updGang_otherClass (s : State) (n : Nat) (f : Gang → Gang) : (s.updGang n f).otherClass = s.otherClass := rfl
@[simp] theorem State.updGang_breaking (s : State) (n : Nat) (f : Gang → Gang) : (s.updGang n f).breaking = s.breaking := rfl
@[simp] theorem State.updGang_gangs (s : State) (n : Nat) (f : Gang → Gang) : (s.updGang n f).gangs = mupd s.gangs n f := rfl
/-! ### updGrid -/
@[simp] theorem State.updGrid_now (s : State) (n : Nat) (f : Grid → Grid) : (s.updGrid n f).now = s.now := rfl
@[simp] theorem State.updGrid_epoch (s : State) (n : Nat) (f : Grid → Grid) : (s.updGrid n f).epoch = s.epoch := rfl
@[simp] theorem State.updGrid_tick (s : State) (n : Nat) (f : Grid → Grid) : (s.updGrid n f).tick = s.tick := rfl
@[simp] theorem State.updGrid_nextId (s : State) (n : Nat) (f : Grid → Grid) : (s.updGrid n f).nextId = s.nextId := rfl
@[simp] theorem State.updGrid_nextTok (s : State) (n : Nat) (f : Grid → Grid) : (s.updGrid n f).nextTok = s.nextTok := rfl
@[simp] theorem State.updGrid_agenda (s : State) (n : Nat) (f : Grid → Grid) : (s.updGrid n f).agenda = s.agenda := rfl
@[simp] theorem State.updGrid_cur (s : State) (n : Nat) (f : Grid → Grid) : (s.updGrid n f).cur = s.cur := rfl
@[simp] theorem State.updGrid_mem (s : State) (n : Nat) (f : Grid → Grid) : (s.updGrid n f).mem = s.mem := rfl
@[simp] theorem State.updGrid_memPoison (s : State) (n : Nat) (f : Grid → Grid) : (s.updGrid n f).memPoison = s.memPoison := rfl
@[simp] theorem State.updGrid_cores (s : State) (n : Nat) (f : Grid → Grid) : (s.updGrid n f).cores = s.cores := rfl
@[simp] theorem State.updGrid_clusters (s : State) (n : Nat) (f : Grid → Grid) : (s.updGrid n f).clusters = s.clusters := rfl
@[simp] theorem State.updGrid_dies (s : State) (n : Nat) (f : Grid → Grid) : (s.updGrid n f).dies = s.dies := rfl
@[simp] theorem State.updGrid_fes (s : State) (n : Nat) (f : Grid → Grid) : (s.updGrid n f).fes = s.fes := rfl
@[simp] theorem State.updGrid_groups (s : State) (n : Nat) (f : Grid → Grid) : (s.updGrid n f).groups = s.groups := rfl
@[simp] theorem State.updGrid_wgs (s : State) (n : Nat) (f : Grid → Grid) : (s.updGrid n f).wgs = s.wgs := rfl
@[simp] theorem State.updGrid_gangs (s : State) (n : Nat) (f : Grid → Grid) : (s.updGrid n f).gangs = s.gangs := rfl
@[simp] theorem State.updGrid_edges (s : State) (n : Nat) (f : Grid → Grid) : (s.updGrid n f).edges = s.edges := rfl
@[simp] theorem State.updGrid_remotes (s : State) (n : Nat) (f : Grid → Grid) : (s.updGrid n f).remotes = s.remotes := rfl
@[simp] theorem State.updGrid_llc (s : State) (n : Nat) (f : Grid → Grid) : (s.updGrid n f).llc = s.llc := rfl
@[simp] theorem State.updGrid_ops (s : State) (n : Nat) (f : Grid → Grid) : (s.updGrid n f).ops = s.ops := rfl
@[simp] theorem State.updGrid_vdevs (s : State) (n : Nat) (f : Grid → Grid) : (s.updGrid n f).vdevs = s.vdevs := rfl
@[simp] theorem State.updGrid_codecs (s : State) (n : Nat) (f : Grid → Grid) : (s.updGrid n f).codecs = s.codecs := rfl
@[simp] theorem State.updGrid_sys (s : State) (n : Nat) (f : Grid → Grid) : (s.updGrid n f).sys = s.sys := rfl
@[simp] theorem State.updGrid_otherClass (s : State) (n : Nat) (f : Grid → Grid) : (s.updGrid n f).otherClass = s.otherClass := rfl
@[simp] theorem State.updGrid_breaking (s : State) (n : Nat) (f : Grid → Grid) : (s.updGrid n f).breaking = s.breaking := rfl
@[simp] theorem State.updGrid_grids (s : State) (n : Nat) (f : Grid → Grid) : (s.updGrid n f).grids = mupd s.grids n f := rfl
/-! ### updEdge -/
@[simp] theorem State.updEdge_now (s : State) (n : Nat) (f : Edge → Edge) : (s.updEdge n f).now = s.now := rfl
@[simp] theorem State.updEdge_epoch (s : State) (n : Nat) (f : Edge → Edge) : (s.updEdge n f).epoch = s.epoch := rfl
@[simp] theorem State.updEdge_tick (s : State) (n : Nat) (f : Edge → Edge) : (s.updEdge n f).tick = s.tick := rfl
@[simp] theorem State.updEdge_nextId (s : State) (n : Nat) (f : Edge → Edge) : (s.updEdge n f).nextId = s.nextId := rfl
@[simp] theorem State.updEdge_nextTok (s : State) (n : Nat) (f : Edge → Edge) : (s.updEdge n f).nextTok = s.nextTok := rfl
@[simp] theorem State.updEdge_agenda (s : State) (n : Nat) (f : Edge → Edge) : (s.updEdge n f).agenda = s.agenda := rfl
@[simp] theorem State.updEdge_cur (s : State) (n : Nat) (f : Edge → Edge) : (s.updEdge n f).cur = s.cur := rfl
@[simp] theorem State.updEdge_mem (s : State) (n : Nat) (f : Edge → Edge) : (s.updEdge n f).mem = s.mem := rfl
@[simp] theorem State.updEdge_memPoison (s : State) (n : Nat) (f : Edge → Edge) : (s.updEdge n f).memPoison = s.memPoison := rfl
@[simp] theorem State.updEdge_cores (s : State) (n : Nat) (f : Edge → Edge) : (s.updEdge n f).cores = s.cores := rfl
@[simp] theorem State.updEdge_clusters (s : State) (n : Nat) (f : Edge → Edge) : (s.updEdge n f).clusters = s.clusters := rfl
@[simp] theorem State.updEdge_dies (s : State) (n : Nat) (f : Edge → Edge) : (s.updEdge n f).dies = s.dies := rfl
@[simp] theorem State.updEdge_fes (s : State) (n : Nat) (f : Edge → Edge) : (s.updEdge n f).fes = s.fes := rfl
@[simp] theorem State.updEdge_groups (s : State) (n : Nat) (f : Edge → Edge) : (s.updEdge n f).groups = s.groups := rfl
@[simp] theorem State.updEdge_wgs (s : State) (n : Nat) (f : Edge → Edge) : (s.updEdge n f).wgs = s.wgs := rfl
@[simp] theorem State.updEdge_gangs (s : State) (n : Nat) (f : Edge → Edge) : (s.updEdge n f).gangs = s.gangs := rfl
@[simp] theorem State.updEdge_grids (s : State) (n : Nat) (f : Edge → Edge) : (s.updEdge n f).grids = s.grids := rfl
@[simp] theorem State.updEdge_remotes (s : State) (n : Nat) (f : Edge → Edge) : (s.updEdge n f).remotes = s.remotes := rfl
@[simp] theorem State.updEdge_llc (s : State) (n : Nat) (f : Edge → Edge) : (s.updEdge n f).llc = s.llc := rfl
@[simp] theorem State.updEdge_ops (s : State) (n : Nat) (f : Edge → Edge) : (s.updEdge n f).ops = s.ops := rfl
@[simp] theorem State.updEdge_vdevs (s : State) (n : Nat) (f : Edge → Edge) : (s.updEdge n f).vdevs = s.vdevs := rfl
@[simp] theorem State.updEdge_codecs (s : State) (n : Nat) (f : Edge → Edge) : (s.updEdge n f).codecs = s.codecs := rfl
@[simp] theorem State.updEdge_sys (s : State) (n : Nat) (f : Edge → Edge) : (s.updEdge n f).sys = s.sys := rfl
@[simp] theorem State.updEdge_otherClass (s : State) (n : Nat) (f : Edge → Edge) : (s.updEdge n f).otherClass = s.otherClass := rfl
@[simp] theorem State.updEdge_breaking (s : State) (n : Nat) (f : Edge → Edge) : (s.updEdge n f).breaking = s.breaking := rfl
@[simp] theorem State.updEdge_edges (s : State) (n : Nat) (f : Edge → Edge) : (s.updEdge n f).edges = mupd s.edges n f := rfl
/-! ### updRemote -/
@[simp] theorem State.updRemote_now (s : State) (n : Nat) (f : Remote → Remote) : (s.updRemote n f).now = s.now := rfl
@[simp] theorem State.updRemote_epoch (s : State) (n : Nat) (f : Remote → Remote) : (s.updRemote n f).epoch = s.epoch := rfl
@[simp] theorem State.updRemote_tick (s : State) (n : Nat) (f : Remote → Remote) : (s.updRemote n f).tick = s.tick := rfl
@[simp] theorem State.updRemote_nextId (s : State) (n : Nat) (f : Remote → Remote) : (s.updRemote n f).nextId = s.nextId := rfl
@[simp] theorem State.updRemote_nextTok (s : State) (n : Nat) (f : Remote → Remote) : (s.updRemote n f).nextTok = s.nextTok := rfl
@[simp] theorem State.updRemote_agenda (s : State) (n : Nat) (f : Remote → Remote) : (s.updRemote n f).agenda = s.agenda := rfl
@[simp] theorem State.updRemote_cur (s : State) (n : Nat) (f : Remote → Remote) : (s.updRemote n f).cur = s.cur := rfl
@[simp] theorem State.updRemote_mem (s : State) (n : Nat) (f : Remote → Remote) : (s.updRemote n f).mem = s.mem := rfl
@[simp] theorem State.updRemote_memPoison (s : State) (n : Nat) (f : Remote → Remote) : (s.updRemote n f).memPoison = s.memPoison := rfl
@[simp] theorem State.updRemote_cores (s : State) (n : Nat) (f : Remote → Remote) : (s.updRemote n f).cores = s.cores := rfl
@[simp] theorem State.updRemote_clusters (s : State) (n : Nat) (f : Remote → Remote) : (s.updRemote n f).clusters = s.clusters := rfl
@[simp] theorem State.updRemote_dies (s : State) (n : Nat) (f : Remote → Remote) : (s.updRemote n f).dies = s.dies := rfl
@[simp] theorem State.updRemote_fes (s : State) (n : Nat) (f : Remote → Remote) : (s.updRemote n f).fes = s.fes := rfl
@[simp] theorem State.updRemote_groups (s : State) (n : Nat) (f : Remote → Remote) : (s.updRemote n f).groups = s.groups := rfl
@[simp] theorem State.updRemote_wgs (s : State) (n : Nat) (f : Remote → Remote) : (s.updRemote n f).wgs = s.wgs := rfl
@[simp] theorem State.updRemote_gangs (s : State) (n : Nat) (f : Remote → Remote) : (s.updRemote n f).gangs = s.gangs := rfl
@[simp] theorem State.updRemote_grids (s : State) (n : Nat) (f : Remote → Remote) : (s.updRemote n f).grids = s.grids := rfl
@[simp] theorem State.updRemote_edges (s : State) (n : Nat) (f : Remote → Remote) : (s.updRemote n f).edges = s.edges := rfl
@[simp] theorem State.updRemote_llc (s : State) (n : Nat) (f : Remote → Remote) : (s.updRemote n f).llc = s.llc := rfl
@[simp] theorem State.updRemote_ops (s : State) (n : Nat) (f : Remote → Remote) : (s.updRemote n f).ops = s.ops := rfl
@[simp] theorem State.updRemote_vdevs (s : State) (n : Nat) (f : Remote → Remote) : (s.updRemote n f).vdevs = s.vdevs := rfl
@[simp] theorem State.updRemote_codecs (s : State) (n : Nat) (f : Remote → Remote) : (s.updRemote n f).codecs = s.codecs := rfl
@[simp] theorem State.updRemote_sys (s : State) (n : Nat) (f : Remote → Remote) : (s.updRemote n f).sys = s.sys := rfl
@[simp] theorem State.updRemote_otherClass (s : State) (n : Nat) (f : Remote → Remote) : (s.updRemote n f).otherClass = s.otherClass := rfl
@[simp] theorem State.updRemote_breaking (s : State) (n : Nat) (f : Remote → Remote) : (s.updRemote n f).breaking = s.breaking := rfl
@[simp] theorem State.updRemote_remotes (s : State) (n : Nat) (f : Remote → Remote) : (s.updRemote n f).remotes = mupd s.remotes n f := rfl
/-! ### updOp -/
@[simp] theorem State.updOp_now (s : State) (n : Nat) (f : EngOp → EngOp) : (s.updOp n f).now = s.now := rfl
@[simp] theorem State.updOp_epoch (s : State) (n : Nat) (f : EngOp → EngOp) : (s.updOp n f).epoch = s.epoch := rfl
@[simp] theorem State.updOp_tick (s : State) (n : Nat) (f : EngOp → EngOp) : (s.updOp n f).tick = s.tick := rfl
@[simp] theorem State.updOp_nextId (s : State) (n : Nat) (f : EngOp → EngOp) : (s.updOp n f).nextId = s.nextId := rfl
@[simp] theorem State.updOp_nextTok (s : State) (n : Nat) (f : EngOp → EngOp) : (s.updOp n f).nextTok = s.nextTok := rfl
@[simp] theorem State.updOp_agenda (s : State) (n : Nat) (f : EngOp → EngOp) : (s.updOp n f).agenda = s.agenda := rfl
@[simp] theorem State.updOp_cur (s : State) (n : Nat) (f : EngOp → EngOp) : (s.updOp n f).cur = s.cur := rfl
@[simp] theorem State.updOp_mem (s : State) (n : Nat) (f : EngOp → EngOp) : (s.updOp n f).mem = s.mem := rfl
@[simp] theorem State.updOp_memPoison (s : State) (n : Nat) (f : EngOp → EngOp) : (s.updOp n f).memPoison = s.memPoison := rfl
@[simp] theorem State.updOp_cores (s : State) (n : Nat) (f : EngOp → EngOp) : (s.updOp n f).cores = s.cores := rfl
@[simp] theorem State.updOp_clusters (s : State) (n : Nat) (f : EngOp → EngOp) : (s.updOp n f).clusters = s.clusters := rfl
@[simp] theorem State.updOp_dies (s : State) (n : Nat) (f : EngOp → EngOp) : (s.updOp n f).dies = s.dies := rfl
@[simp] theorem State.updOp_fes (s : State) (n : Nat) (f : EngOp → EngOp) : (s.updOp n f).fes = s.fes := rfl
@[simp] theorem State.updOp_groups (s : State) (n : Nat) (f : EngOp → EngOp) : (s.updOp n f).groups = s.groups := rfl
@[simp] theorem State.updOp_wgs (s : State) (n : Nat) (f : EngOp → EngOp) : (s.updOp n f).wgs = s.wgs := rfl
@[simp] theorem State.updOp_gangs (s : State) (n : Nat) (f : EngOp → EngOp) : (s.updOp n f).gangs = s.gangs := rfl
@[simp] theorem State.updOp_grids (s : State) (n : Nat) (f : EngOp → EngOp) : (s.updOp n f).grids = s.grids := rfl
@[simp] theorem State.updOp_edges (s : State) (n : Nat) (f : EngOp → EngOp) : (s.updOp n f).edges = s.edges := rfl
@[simp] theorem State.updOp_remotes (s : State) (n : Nat) (f : EngOp → EngOp) : (s.updOp n f).remotes = s.remotes := rfl
@[simp] theorem State.updOp_llc (s : State) (n : Nat) (f : EngOp → EngOp) : (s.updOp n f).llc = s.llc := rfl
@[simp] theorem State.updOp_vdevs (s : State) (n : Nat) (f : EngOp → EngOp) : (s.updOp n f).vdevs = s.vdevs := rfl
@[simp] theorem State.updOp_codecs (s : State) (n : Nat) (f : EngOp → EngOp) : (s.updOp n f).codecs = s.codecs := rfl
@[simp] theorem State.updOp_sys (s : State) (n : Nat) (f : EngOp → EngOp) : (s.updOp n f).sys = s.sys := rfl
@[simp] theorem State.updOp_otherClass (s : State) (n : Nat) (f : EngOp → EngOp) : (s.updOp n f).otherClass = s.otherClass := rfl
@[simp] theorem State.updOp_breaking (s : State) (n : Nat) (f : EngOp → EngOp) : (s.updOp n f).breaking = s.breaking := rfl
@[simp] theorem State.updOp_ops (s : State) (n : Nat) (f : EngOp → EngOp) : (s.updOp n f).ops = mupd s.ops n f := rfl
/-! ### setByte -/
@[simp] theorem State.setByte_now (s : State) (pa : Nat) (b : Byte) : (s.setByte pa b).now = s.now := rfl
@[simp] theorem State.setByte_epoch (s : State) (pa : Nat) (b : Byte) : (s.setByte pa b).epoch = s.epoch := rfl
@[simp] theorem State.setByte_tick (s : State) (pa : Nat) (b : Byte) : (s.setByte pa b).tick = s.tick := rfl
@[simp] theorem State.setByte_nextId (s : State) (pa : Nat) (b : Byte) : (s.setByte pa b).nextId = s.nextId := rfl
@[simp] theorem State.setByte_nextTok (s : State) (pa : Nat) (b : Byte) : (s.setByte pa b).nextTok = s.nextTok := rfl
@[simp] theorem State.setByte_agenda (s : State) (pa : Nat) (b : Byte) : (s.setByte pa b).agenda = s.agenda := rfl
@[simp] theorem State.setByte_cur (s : State) (pa : Nat) (b : Byte) : (s.setByte pa b).cur = s.cur := rfl
@[simp] theorem State.setByte_memPoison (s : State) (pa : Nat) (b : Byte) : (s.setByte pa b).memPoison = s.memPoison := rfl
@[simp] theorem State.setByte_cores (s : State) (pa : Nat) (b : Byte) : (s.setByte pa b).cores = s.cores := rfl
@[simp] theorem State.setByte_clusters (s : State) (pa : Nat) (b : Byte) : (s.setByte pa b).clusters = s.clusters := rfl
@[simp] theorem State.setByte_dies (s : State) (pa : Nat) (b : Byte) : (s.setByte pa b).dies = s.dies := rfl
@[simp] theorem State.setByte_fes (s : State) (pa : Nat) (b : Byte) : (s.setByte pa b).fes = s.fes := rfl
@[simp] theorem State.setByte_groups (s : State) (pa : Nat) (b : Byte) : (s.setByte pa b).groups = s.groups := rfl
@[simp] theorem State.setByte_wgs (s : State) (pa : Nat) (b : Byte) : (s.setByte pa b).wgs = s.wgs := rfl
@[simp] theorem State.setByte_gangs (s : State) (pa : Nat) (b : Byte) : (s.setByte pa b).gangs = s.gangs := rfl
@[simp] theorem State.setByte_grids (s : State) (pa : Nat) (b : Byte) : (s.setByte pa b).grids = s.grids := rfl
@[simp] theorem State.setByte_edges (s : State) (pa : Nat) (b : Byte) : (s.setByte pa b).edges = s.edges := rfl
@[simp] theorem State.setByte_remotes (s : State) (pa : Nat) (b : Byte) : (s.setByte pa b).remotes = s.remotes := rfl
@[simp] theorem State.setByte_llc (s : State) (pa : Nat) (b : Byte) : (s.setByte pa b).llc = s.llc := rfl
@[simp] theorem State.setByte_ops (s : State) (pa : Nat) (b : Byte) : (s.setByte pa b).ops = s.ops := rfl
@[simp] theorem State.setByte_vdevs (s : State) (pa : Nat) (b : Byte) : (s.setByte pa b).vdevs = s.vdevs := rfl
@[simp] theorem State.setByte_codecs (s : State) (pa : Nat) (b : Byte) : (s.setByte pa b).codecs = s.codecs := rfl
@[simp] theorem State.setByte_sys (s : State) (pa : Nat) (b : Byte) : (s.setByte pa b).sys = s.sys := rfl
@[simp] theorem State.setByte_otherClass (s : State) (pa : Nat) (b : Byte) : (s.setByte pa b).otherClass = s.otherClass := rfl
@[simp] theorem State.setByte_breaking (s : State) (pa : Nat) (b : Byte) : (s.setByte pa b).breaking = s.breaking := rfl
@[simp] theorem State.setByte_mem (s : State) (pa : Nat) (b : Byte) : (s.setByte pa b).mem = dset 0 s.mem pa b := rfl
/-! ### setPoison -/
@[simp] theorem State.setPoison_now (s : State) (pa : Nat) : (s.setPoison pa).now = s.now := rfl
@[simp] theorem State.setPoison_epoch (s : State) (pa : Nat) : (s.setPoison pa).epoch = s.epoch := rfl
@[simp] theorem State.setPoison_tick (s : State) (pa : Nat) : (s.setPoison pa).tick = s.tick := rfl
@[simp] theorem State.setPoison_nextId (s : State) (pa : Nat) : (s.setPoison pa).nextId = s.nextId := rfl
@[simp] theorem State.setPoison_nextTok (s : State) (pa : Nat) : (s.setPoison pa).nextTok = s.nextTok := rfl
@[simp] theorem State.setPoison_agenda (s : State) (pa : Nat) : (s.setPoison pa).agenda = s.agenda := rfl
@[simp] theorem State.setPoison_cur (s : State) (pa : Nat) : (s.setPoison pa).cur = s.cur := rfl
@[simp] theorem State.setPoison_mem (s : State) (pa : Nat) : (s.setPoison pa).mem = s.mem := rfl
@[simp] theorem State.setPoison_cores (s : State) (pa : Nat) : (s.setPoison pa).cores = s.cores := rfl
@[simp] theorem State.setPoison_clusters (s : State) (pa : Nat) : (s.setPoison pa).clusters = s.clusters := rfl
@[simp] theorem State.setPoison_dies (s : State) (pa : Nat) : (s.setPoison pa).dies = s.dies := rfl
@[simp] theorem State.setPoison_fes (s : State) (pa : Nat) : (s.setPoison pa).fes = s.fes := rfl
@[simp] theorem State.setPoison_groups (s : State) (pa : Nat) : (s.setPoison pa).groups = s.groups := rfl
@[simp] theorem State.setPoison_wgs (s : State) (pa : Nat) : (s.setPoison pa).wgs = s.wgs := rfl
@[simp] theorem State.setPoison_gangs (s : State) (pa : Nat) : (s.setPoison pa).gangs = s.gangs := rfl
@[simp] theorem State.setPoison_grids (s : State) (pa : Nat) : (s.setPoison pa).grids = s.grids := rfl
@[simp] theorem State.setPoison_edges (s : State) (pa : Nat) : (s.setPoison pa).edges = s.edges := rfl
@[simp] theorem State.setPoison_remotes (s : State) (pa : Nat) : (s.setPoison pa).remotes = s.remotes := rfl
@[simp] theorem State.setPoison_llc (s : State) (pa : Nat) : (s.setPoison pa).llc = s.llc := rfl
@[simp] theorem State.setPoison_ops (s : State) (pa : Nat) : (s.setPoison pa).ops = s.ops := rfl
@[simp] theorem State.setPoison_vdevs (s : State) (pa : Nat) : (s.setPoison pa).vdevs = s.vdevs := rfl
@[simp] theorem State.setPoison_codecs (s : State) (pa : Nat) : (s.setPoison pa).codecs = s.codecs := rfl
@[simp] theorem State.setPoison_sys (s : State) (pa : Nat) : (s.setPoison pa).sys = s.sys := rfl
@[simp] theorem State.setPoison_otherClass (s : State) (pa : Nat) : (s.setPoison pa).otherClass = s.otherClass := rfl
@[simp] theorem State.setPoison_breaking (s : State) (pa : Nat) : (s.setPoison pa).breaking = s.breaking := rfl
@[simp] theorem State.setPoison_memPoison (s : State) (pa : Nat) : (s.setPoison pa).memPoison = if region s pa = .hbm then nins s.memPoison (loc pa / 128) else s.memPoison := rfl
/-! ### clearPoison -/
@[simp] theorem State.clearPoison_now (s : State) (pa : Nat) : (s.clearPoison pa).now = s.now := rfl
@[simp] theorem State.clearPoison_epoch (s : State) (pa : Nat) : (s.clearPoison pa).epoch = s.epoch := rfl
@[simp] theorem State.clearPoison_tick (s : State) (pa : Nat) : (s.clearPoison pa).tick = s.tick := rfl
@[simp] theorem State.clearPoison_nextId (s : State) (pa : Nat) : (s.clearPoison pa).nextId = s.nextId := rfl
@[simp] theorem State.clearPoison_nextTok (s : State) (pa : Nat) : (s.clearPoison pa).nextTok = s.nextTok := rfl
@[simp] theorem State.clearPoison_agenda (s : State) (pa : Nat) : (s.clearPoison pa).agenda = s.agenda := rfl
@[simp] theorem State.clearPoison_cur (s : State) (pa : Nat) : (s.clearPoison pa).cur = s.cur := rfl
@[simp] theorem State.clearPoison_mem (s : State) (pa : Nat) : (s.clearPoison pa).mem = s.mem := rfl
@[simp] theorem State.clearPoison_cores (s : State) (pa : Nat) : (s.clearPoison pa).cores = s.cores := rfl
@[simp] theorem State.clearPoison_clusters (s : State) (pa : Nat) : (s.clearPoison pa).clusters = s.clusters := rfl
@[simp] theorem State.clearPoison_dies (s : State) (pa : Nat) : (s.clearPoison pa).dies = s.dies := rfl
@[simp] theorem State.clearPoison_fes (s : State) (pa : Nat) : (s.clearPoison pa).fes = s.fes := rfl
@[simp] theorem State.clearPoison_groups (s : State) (pa : Nat) : (s.clearPoison pa).groups = s.groups := rfl
@[simp] theorem State.clearPoison_wgs (s : State) (pa : Nat) : (s.clearPoison pa).wgs = s.wgs := rfl
@[simp] theorem State.clearPoison_gangs (s : State) (pa : Nat) : (s.clearPoison pa).gangs = s.gangs := rfl
@[simp] theorem State.clearPoison_grids (s : State) (pa : Nat) : (s.clearPoison pa).grids = s.grids := rfl
@[simp] theorem State.clearPoison_edges (s : State) (pa : Nat) : (s.clearPoison pa).edges = s.edges := rfl
@[simp] theorem State.clearPoison_remotes (s : State) (pa : Nat) : (s.clearPoison pa).remotes = s.remotes := rfl
@[simp] theorem State.clearPoison_llc (s : State) (pa : Nat) : (s.clearPoison pa).llc = s.llc := rfl
@[simp] theorem State.clearPoison_ops (s : State) (pa : Nat) : (s.clearPoison pa).ops = s.ops := rfl
@[simp] theorem State.clearPoison_vdevs (s : State) (pa : Nat) : (s.clearPoison pa).vdevs = s.vdevs := rfl
@[simp] theorem State.clearPoison_codecs (s : State) (pa : Nat) : (s.clearPoison pa).codecs = s.codecs := rfl
@[simp] theorem State.clearPoison_sys (s : State) (pa : Nat) : (s.clearPoison pa).sys = s.sys := rfl
@[simp] theorem State.clearPoison_otherClass (s : State) (pa : Nat) : (s.clearPoison pa).otherClass = s.otherClass := rfl
@[simp] theorem State.clearPoison_breaking (s : State) (pa : Nat) : (s.clearPoison pa).breaking = s.breaking := rfl
@[simp] theorem State.clearPoison_memPoison (s : State) (pa : Nat) : (s.clearPoison pa).memPoison = if region s pa = .hbm then ndel s.memPoison (loc pa / 128) else s.memPoison := rfl

/-! ### wroteAs -/
@[simp] theorem State.wroteAs_now (s : State) (b : Bool) (pa n : Nat) : (s.wroteAs b pa n).now = s.now := rfl
@[simp] theorem State.wroteAs_epoch (s : State) (b : Bool) (pa n : Nat) : (s.wroteAs b pa n).epoch = s.epoch := rfl
@[simp] theorem State.wroteAs_tick (s : State) (b : Bool) (pa n : Nat) : (s.wroteAs b pa n).tick = s.tick := rfl
@[simp] theorem State.wroteAs_nextId (s : State) (b : Bool) (pa n : Nat) : (s.wroteAs b pa n).nextId = s.nextId := rfl
@[simp] theorem State.wroteAs_nextTok (s : State) (b : Bool) (pa n : Nat) : (s.wroteAs b pa n).nextTok = s.nextTok := rfl
@[simp] theorem State.wroteAs_agenda (s : State) (b : Bool) (pa n : Nat) : (s.wroteAs b pa n).agenda = s.agenda := rfl
@[simp] theorem State.wroteAs_cur (s : State) (b : Bool) (pa n : Nat) : (s.wroteAs b pa n).cur = s.cur := rfl
@[simp] theorem State.wroteAs_mem (s : State) (b : Bool) (pa n : Nat) : (s.wroteAs b pa n).mem = s.mem := rfl
@[simp] theorem State.wroteAs_cores (s : State) (b : Bool) (pa n : Nat) : (s.wroteAs b pa n).cores = s.cores := rfl
@[simp] theorem State.wroteAs_clusters (s : State) (b : Bool) (pa n : Nat) : (s.wroteAs b pa n).clusters = s.clusters := rfl
@[simp] theorem State.wroteAs_dies (s : State) (b : Bool) (pa n : Nat) : (s.wroteAs b pa n).dies = s.dies := rfl
@[simp] theorem State.wroteAs_fes (s : State) (b : Bool) (pa n : Nat) : (s.wroteAs b pa n).fes = s.fes := rfl
@[simp] theorem State.wroteAs_groups (s : State) (b : Bool) (pa n : Nat) : (s.wroteAs b pa n).groups = s.groups := rfl
@[simp] theorem State.wroteAs_wgs (s : State) (b : Bool) (pa n : Nat) : (s.wroteAs b pa n).wgs = s.wgs := rfl
@[simp] theorem State.wroteAs_gangs (s : State) (b : Bool) (pa n : Nat) : (s.wroteAs b pa n).gangs = s.gangs := rfl
@[simp] theorem State.wroteAs_grids (s : State) (b : Bool) (pa n : Nat) : (s.wroteAs b pa n).grids = s.grids := rfl
@[simp] theorem State.wroteAs_edges (s : State) (b : Bool) (pa n : Nat) : (s.wroteAs b pa n).edges = s.edges := rfl
@[simp] theorem State.wroteAs_remotes (s : State) (b : Bool) (pa n : Nat) : (s.wroteAs b pa n).remotes = s.remotes := rfl
@[simp] theorem State.wroteAs_llc (s : State) (b : Bool) (pa n : Nat) : (s.wroteAs b pa n).llc = s.llc := rfl
@[simp] theorem State.wroteAs_ops (s : State) (b : Bool) (pa n : Nat) : (s.wroteAs b pa n).ops = s.ops := rfl
@[simp] theorem State.wroteAs_vdevs (s : State) (b : Bool) (pa n : Nat) : (s.wroteAs b pa n).vdevs = s.vdevs := rfl
@[simp] theorem State.wroteAs_codecs (s : State) (b : Bool) (pa n : Nat) : (s.wroteAs b pa n).codecs = s.codecs := rfl
@[simp] theorem State.wroteAs_sys (s : State) (b : Bool) (pa n : Nat) : (s.wroteAs b pa n).sys = s.sys := rfl
@[simp] theorem State.wroteAs_memPoison (s : State) (b : Bool) (pa n : Nat) : (s.wroteAs b pa n).memPoison = s.memPoison := rfl

/-! ### Reading an object after its own update -/

theorem State.setCore_core (s : State) (n k : Nat) (v : Core) : (s.setCore n v).core k = if k = n then v else s.core k :=
  mget_mset _ _ _ _ _
theorem State.updCore_core (s : State) (n k : Nat) (f : Core → Core) : (s.updCore n f).core k = if k = n then f (s.core n) else s.core k :=
  mget_mset _ _ _ _ _
theorem State.setCluster_cluster (s : State) (n k : Nat) (v : Cluster) : (s.setCluster n v).cluster k = if k = n then v else s.cluster k :=
  mget_mset _ _ _ _ _
theorem State.updCluster_cluster (s : State) (n k : Nat) (f : Cluster → Cluster) : (s.updCluster n f).cluster k = if k = n then f (s.cluster n) else s.cluster k :=
  mget_mset _ _ _ _ _
theorem State.setFe_fe (s : State) (n k : Nat) (v : FrontEnd) : (s.setFe n v).fe k = if k = n then v else s.fe k :=
  mget_mset _ _ _ _ _
theorem State.updFe_fe (s : State) (n k : Nat) (f : FrontEnd → FrontEnd) : (s.updFe n f).fe k = if k = n then f (s.fe n) else s.fe k :=
  mget_mset _ _ _ _ _
theorem State.setVdev_vdev (s : State) (n k : Nat) (v : VDev) : (s.setVdev n v).vdev k = if k = n then v else s.vdev k :=
  mget_mset _ _ _ _ _
theorem State.updVdev_vdev (s : State) (n k : Nat) (f : VDev → VDev) : (s.updVdev n f).vdev k = if k = n then f (s.vdev n) else s.vdev k :=
  mget_mset _ _ _ _ _
theorem State.setCodec_codec (s : State) (n k : Nat) (v : Codec) : (s.setCodec n v).codec k = if k = n then v else s.codec k :=
  mget_mset _ _ _ _ _
theorem State.updCodec_codec (s : State) (n k : Nat) (f : Codec → Codec) : (s.updCodec n f).codec k = if k = n then f (s.codec n) else s.codec k :=
  mget_mset _ _ _ _ _
theorem State.setDie_die (s : State) (n k : Nat) (v : Die) : (s.setDie n v).die k = if k = n then v else s.die k := mget_mset _ _ _ _ _
theorem State.setGroup_group? (s : State) (n k : Nat) (v : Group) : (s.setGroup n v).group? k = if k = n then some v else s.group? k :=
  find?_mset _ _ _ _
theorem State.updGroup_group? (s : State) (n k : Nat) (f : Group → Group) :
    (s.updGroup n f).group? k = if k = n then (s.group? n).map f else s.group? k := find?_mupd _ _ _ _
@[simp] theorem State.updGroup_group?_same (s : State) (n : Nat) (f : Group → Group) : (s.updGroup n f).group? n = (s.group? n).map f :=
  find?_mupd_same _ _ _
theorem State.updWg_wg? (s : State) (n k : Nat) (f : Wg → Wg) : (s.updWg n f).wg? k = if k = n then (s.wg? n).map f else s.wg? k :=
  find?_mupd _ _ _ _

/-! ### Derived readings that an update leaves alone -/

@[simp] theorem State.setCore_cluster_same (s : State) (c : Nat) (v : Core) (k : Nat) : (s.setCore c v).cluster k = s.cluster k := rfl
@[simp] theorem State.setCore_fe_same (s : State) (c : Nat) (v : Core) (k : Nat) : (s.setCore c v).fe k = s.fe k := rfl
@[simp] theorem State.setCore_vdev_same (s : State) (c : Nat) (v : Core) (k : Nat) : (s.setCore c v).vdev k = s.vdev k := rfl
@[simp] theorem State.setCore_codec_same (s : State) (c : Nat) (v : Core) (k : Nat) : (s.setCore c v).codec k = s.codec k := rfl
@[simp] theorem State.setCore_die_same (s : State) (c : Nat) (v : Core) (k : Nat) : (s.setCore c v).die k = s.die k := rfl
@[simp] theorem State.setCore_group? (s : State) (c : Nat) (v : Core) (k : Nat) : (s.setCore c v).group? k = s.group? k := rfl
@[simp] theorem State.setCore_wg? (s : State) (c : Nat) (v : Core) (k : Nat) : (s.setCore c v).wg? k = s.wg? k := rfl
@[simp] theorem State.setCore_byte (s : State) (c : Nat) (v : Core) (k : Nat) : (s.setCore c v).byte k = s.byte k := rfl
@[simp] theorem State.updCore_cluster_same (s : State) (c : Nat) (f : Core → Core) (k : Nat) : (s.updCore c f).cluster k = s.cluster k := rfl
@[simp] theorem State.updCore_fe_same (s : State) (c : Nat) (f : Core → Core) (k : Nat) : (s.updCore c f).fe k = s.fe k := rfl
@[simp] theorem State.updCore_vdev_same (s : State) (c : Nat) (f : Core → Core) (k : Nat) : (s.updCore c f).vdev k = s.vdev k := rfl
@[simp] theorem State.updCore_codec_same (s : State) (c : Nat) (f : Core → Core) (k : Nat) : (s.updCore c f).codec k = s.codec k := rfl
@[simp] theorem State.updCore_die_same (s : State) (c : Nat) (f : Core → Core) (k : Nat) : (s.updCore c f).die k = s.die k := rfl
@[simp] theorem State.updCore_group? (s : State) (c : Nat) (f : Core → Core) (k : Nat) : (s.updCore c f).group? k = s.group? k := rfl
@[simp] theorem State.updCore_wg? (s : State) (c : Nat) (f : Core → Core) (k : Nat) : (s.updCore c f).wg? k = s.wg? k := rfl
@[simp] theorem State.updCore_byte (s : State) (c : Nat) (f : Core → Core) (k : Nat) : (s.updCore c f).byte k = s.byte k := rfl
@[simp] theorem State.setCluster_core_same (s : State) (c : Nat) (v : Cluster) (k : Nat) : (s.setCluster c v).core k = s.core k := rfl
@[simp] theorem State.setCluster_fe_same (s : State) (c : Nat) (v : Cluster) (k : Nat) : (s.setCluster c v).fe k = s.fe k := rfl
@[simp] theorem State.setCluster_vdev_same (s : State) (c : Nat) (v : Cluster) (k : Nat) : (s.setCluster c v).vdev k = s.vdev k := rfl
@[simp] theorem State.setCluster_codec_same (s : State) (c : Nat) (v : Cluster) (k : Nat) : (s.setCluster c v).codec k = s.codec k := rfl
@[simp] theorem State.setCluster_die_same (s : State) (c : Nat) (v : Cluster) (k : Nat) : (s.setCluster c v).die k = s.die k := rfl
@[simp] theorem State.setCluster_group? (s : State) (c : Nat) (v : Cluster) (k : Nat) : (s.setCluster c v).group? k = s.group? k := rfl
@[simp] theorem State.setCluster_wg? (s : State) (c : Nat) (v : Cluster) (k : Nat) : (s.setCluster c v).wg? k = s.wg? k := rfl
@[simp] theorem State.setCluster_byte (s : State) (c : Nat) (v : Cluster) (k : Nat) : (s.setCluster c v).byte k = s.byte k := rfl
@[simp] theorem State.updCluster_core_same (s : State) (c : Nat) (f : Cluster → Cluster) (k : Nat) : (s.updCluster c f).core k = s.core k := rfl
@[simp] theorem State.updCluster_fe_same (s : State) (c : Nat) (f : Cluster → Cluster) (k : Nat) : (s.updCluster c f).fe k = s.fe k := rfl
@[simp] theorem State.updCluster_vdev_same (s : State) (c : Nat) (f : Cluster → Cluster) (k : Nat) : (s.updCluster c f).vdev k = s.vdev k := rfl
@[simp] theorem State.updCluster_codec_same (s : State) (c : Nat) (f : Cluster → Cluster) (k : Nat) : (s.updCluster c f).codec k = s.codec k := rfl
@[simp] theorem State.updCluster_die_same (s : State) (c : Nat) (f : Cluster → Cluster) (k : Nat) : (s.updCluster c f).die k = s.die k := rfl
@[simp] theorem State.updCluster_group? (s : State) (c : Nat) (f : Cluster → Cluster) (k : Nat) : (s.updCluster c f).group? k = s.group? k := rfl
@[simp] theorem State.updCluster_wg? (s : State) (c : Nat) (f : Cluster → Cluster) (k : Nat) : (s.updCluster c f).wg? k = s.wg? k := rfl
@[simp] theorem State.updCluster_byte (s : State) (c : Nat) (f : Cluster → Cluster) (k : Nat) : (s.updCluster c f).byte k = s.byte k := rfl
@[simp] theorem State.setDie_core_same (s : State) (d : Nat) (v : Die) (k : Nat) : (s.setDie d v).core k = s.core k := rfl
@[simp] theorem State.setDie_cluster_same (s : State) (d : Nat) (v : Die) (k : Nat) : (s.setDie d v).cluster k = s.cluster k := rfl
@[simp] theorem State.setDie_fe_same (s : State) (d : Nat) (v : Die) (k : Nat) : (s.setDie d v).fe k = s.fe k := rfl
@[simp] theorem State.setDie_vdev_same (s : State) (d : Nat) (v : Die) (k : Nat) : (s.setDie d v).vdev k = s.vdev k := rfl
@[simp] theorem State.setDie_codec_same (s : State) (d : Nat) (v : Die) (k : Nat) : (s.setDie d v).codec k = s.codec k := rfl
@[simp] theorem State.setDie_group? (s : State) (d : Nat) (v : Die) (k : Nat) : (s.setDie d v).group? k = s.group? k := rfl
@[simp] theorem State.setDie_wg? (s : State) (d : Nat) (v : Die) (k : Nat) : (s.setDie d v).wg? k = s.wg? k := rfl
@[simp] theorem State.setDie_byte (s : State) (d : Nat) (v : Die) (k : Nat) : (s.setDie d v).byte k = s.byte k := rfl
@[simp] theorem State.setFe_core_same (s : State) (n : Nat) (v : FrontEnd) (k : Nat) : (s.setFe n v).core k = s.core k := rfl
@[simp] theorem State.setFe_cluster_same (s : State) (n : Nat) (v : FrontEnd) (k : Nat) : (s.setFe n v).cluster k = s.cluster k := rfl
@[simp] theorem State.setFe_vdev_same (s : State) (n : Nat) (v : FrontEnd) (k : Nat) : (s.setFe n v).vdev k = s.vdev k := rfl
@[simp] theorem State.setFe_codec_same (s : State) (n : Nat) (v : FrontEnd) (k : Nat) : (s.setFe n v).codec k = s.codec k := rfl
@[simp] theorem State.setFe_die_same (s : State) (n : Nat) (v : FrontEnd) (k : Nat) : (s.setFe n v).die k = s.die k := rfl
@[simp] theorem State.setFe_group? (s : State) (n : Nat) (v : FrontEnd) (k : Nat) : (s.setFe n v).group? k = s.group? k := rfl
@[simp] theorem State.setFe_wg? (s : State) (n : Nat) (v : FrontEnd) (k : Nat) : (s.setFe n v).wg? k = s.wg? k := rfl
@[simp] theorem State.setFe_byte (s : State) (n : Nat) (v : FrontEnd) (k : Nat) : (s.setFe n v).byte k = s.byte k := rfl
@[simp] theorem State.updFe_core_same (s : State) (n : Nat) (f : FrontEnd → FrontEnd) (k : Nat) : (s.updFe n f).core k = s.core k := rfl
@[simp] theorem State.updFe_cluster_same (s : State) (n : Nat) (f : FrontEnd → FrontEnd) (k : Nat) : (s.updFe n f).cluster k = s.cluster k := rfl
@[simp] theorem State.updFe_vdev_same (s : State) (n : Nat) (f : FrontEnd → FrontEnd) (k : Nat) : (s.updFe n f).vdev k = s.vdev k := rfl
@[simp] theorem State.updFe_codec_same (s : State) (n : Nat) (f : FrontEnd → FrontEnd) (k : Nat) : (s.updFe n f).codec k = s.codec k := rfl
@[simp] theorem State.updFe_die_same (s : State) (n : Nat) (f : FrontEnd → FrontEnd) (k : Nat) : (s.updFe n f).die k = s.die k := rfl
@[simp] theorem State.updFe_group? (s : State) (n : Nat) (f : FrontEnd → FrontEnd) (k : Nat) : (s.updFe n f).group? k = s.group? k := rfl
@[simp] theorem State.updFe_wg? (s : State) (n : Nat) (f : FrontEnd → FrontEnd) (k : Nat) : (s.updFe n f).wg? k = s.wg? k := rfl
@[simp] theorem State.updFe_byte (s : State) (n : Nat) (f : FrontEnd → FrontEnd) (k : Nat) : (s.updFe n f).byte k = s.byte k := rfl
@[simp] theorem State.setVdev_core_same (s : State) (n : Nat) (v : VDev) (k : Nat) : (s.setVdev n v).core k = s.core k := rfl
@[simp] theorem State.setVdev_cluster_same (s : State) (n : Nat) (v : VDev) (k : Nat) : (s.setVdev n v).cluster k = s.cluster k := rfl
@[simp] theorem State.setVdev_fe_same (s : State) (n : Nat) (v : VDev) (k : Nat) : (s.setVdev n v).fe k = s.fe k := rfl
@[simp] theorem State.setVdev_codec_same (s : State) (n : Nat) (v : VDev) (k : Nat) : (s.setVdev n v).codec k = s.codec k := rfl
@[simp] theorem State.setVdev_die_same (s : State) (n : Nat) (v : VDev) (k : Nat) : (s.setVdev n v).die k = s.die k := rfl
@[simp] theorem State.setVdev_group? (s : State) (n : Nat) (v : VDev) (k : Nat) : (s.setVdev n v).group? k = s.group? k := rfl
@[simp] theorem State.setVdev_wg? (s : State) (n : Nat) (v : VDev) (k : Nat) : (s.setVdev n v).wg? k = s.wg? k := rfl
@[simp] theorem State.setVdev_byte (s : State) (n : Nat) (v : VDev) (k : Nat) : (s.setVdev n v).byte k = s.byte k := rfl
@[simp] theorem State.updVdev_core_same (s : State) (n : Nat) (f : VDev → VDev) (k : Nat) : (s.updVdev n f).core k = s.core k := rfl
@[simp] theorem State.updVdev_cluster_same (s : State) (n : Nat) (f : VDev → VDev) (k : Nat) : (s.updVdev n f).cluster k = s.cluster k := rfl
@[simp] theorem State.updVdev_fe_same (s : State) (n : Nat) (f : VDev → VDev) (k : Nat) : (s.updVdev n f).fe k = s.fe k := rfl
@[simp] theorem State.updVdev_codec_same (s : State) (n : Nat) (f : VDev → VDev) (k : Nat) : (s.updVdev n f).codec k = s.codec k := rfl
@[simp] theorem State.updVdev_die_same (s : State) (n : Nat) (f : VDev → VDev) (k : Nat) : (s.updVdev n f).die k = s.die k := rfl
@[simp] theorem State.updVdev_group? (s : State) (n : Nat) (f : VDev → VDev) (k : Nat) : (s.updVdev n f).group? k = s.group? k := rfl
@[simp] theorem State.updVdev_wg? (s : State) (n : Nat) (f : VDev → VDev) (k : Nat) : (s.updVdev n f).wg? k = s.wg? k := rfl
@[simp] theorem State.updVdev_byte (s : State) (n : Nat) (f : VDev → VDev) (k : Nat) : (s.updVdev n f).byte k = s.byte k := rfl
@[simp] theorem State.setCodec_core_same (s : State) (n : Nat) (v : Codec) (k : Nat) : (s.setCodec n v).core k = s.core k := rfl
@[simp] theorem State.setCodec_cluster_same (s : State) (n : Nat) (v : Codec) (k : Nat) : (s.setCodec n v).cluster k = s.cluster k := rfl
@[simp] theorem State.setCodec_fe_same (s : State) (n : Nat) (v : Codec) (k : Nat) : (s.setCodec n v).fe k = s.fe k := rfl
@[simp] theorem State.setCodec_vdev_same (s : State) (n : Nat) (v : Codec) (k : Nat) : (s.setCodec n v).vdev k = s.vdev k := rfl
@[simp] theorem State.setCodec_die_same (s : State) (n : Nat) (v : Codec) (k : Nat) : (s.setCodec n v).die k = s.die k := rfl
@[simp] theorem State.setCodec_group? (s : State) (n : Nat) (v : Codec) (k : Nat) : (s.setCodec n v).group? k = s.group? k := rfl
@[simp] theorem State.setCodec_wg? (s : State) (n : Nat) (v : Codec) (k : Nat) : (s.setCodec n v).wg? k = s.wg? k := rfl
@[simp] theorem State.setCodec_byte (s : State) (n : Nat) (v : Codec) (k : Nat) : (s.setCodec n v).byte k = s.byte k := rfl
@[simp] theorem State.updCodec_core_same (s : State) (n : Nat) (f : Codec → Codec) (k : Nat) : (s.updCodec n f).core k = s.core k := rfl
@[simp] theorem State.updCodec_cluster_same (s : State) (n : Nat) (f : Codec → Codec) (k : Nat) : (s.updCodec n f).cluster k = s.cluster k := rfl
@[simp] theorem State.updCodec_fe_same (s : State) (n : Nat) (f : Codec → Codec) (k : Nat) : (s.updCodec n f).fe k = s.fe k := rfl
@[simp] theorem State.updCodec_vdev_same (s : State) (n : Nat) (f : Codec → Codec) (k : Nat) : (s.updCodec n f).vdev k = s.vdev k := rfl
@[simp] theorem State.updCodec_die_same (s : State) (n : Nat) (f : Codec → Codec) (k : Nat) : (s.updCodec n f).die k = s.die k := rfl
@[simp] theorem State.updCodec_group? (s : State) (n : Nat) (f : Codec → Codec) (k : Nat) : (s.updCodec n f).group? k = s.group? k := rfl
@[simp] theorem State.updCodec_wg? (s : State) (n : Nat) (f : Codec → Codec) (k : Nat) : (s.updCodec n f).wg? k = s.wg? k := rfl
@[simp] theorem State.updCodec_byte (s : State) (n : Nat) (f : Codec → Codec) (k : Nat) : (s.updCodec n f).byte k = s.byte k := rfl
@[simp] theorem State.setGroup_core_same (s : State) (n : Nat) (v : Group) (k : Nat) : (s.setGroup n v).core k = s.core k := rfl
@[simp] theorem State.setGroup_cluster_same (s : State) (n : Nat) (v : Group) (k : Nat) : (s.setGroup n v).cluster k = s.cluster k := rfl
@[simp] theorem State.setGroup_fe_same (s : State) (n : Nat) (v : Group) (k : Nat) : (s.setGroup n v).fe k = s.fe k := rfl
@[simp] theorem State.setGroup_vdev_same (s : State) (n : Nat) (v : Group) (k : Nat) : (s.setGroup n v).vdev k = s.vdev k := rfl
@[simp] theorem State.setGroup_codec_same (s : State) (n : Nat) (v : Group) (k : Nat) : (s.setGroup n v).codec k = s.codec k := rfl
@[simp] theorem State.setGroup_die_same (s : State) (n : Nat) (v : Group) (k : Nat) : (s.setGroup n v).die k = s.die k := rfl
@[simp] theorem State.setGroup_wg? (s : State) (n : Nat) (v : Group) (k : Nat) : (s.setGroup n v).wg? k = s.wg? k := rfl
@[simp] theorem State.setGroup_byte (s : State) (n : Nat) (v : Group) (k : Nat) : (s.setGroup n v).byte k = s.byte k := rfl
@[simp] theorem State.updGroup_core_same (s : State) (n : Nat) (f : Group → Group) (k : Nat) : (s.updGroup n f).core k = s.core k := rfl
@[simp] theorem State.updGroup_cluster_same (s : State) (n : Nat) (f : Group → Group) (k : Nat) : (s.updGroup n f).cluster k = s.cluster k := rfl
@[simp] theorem State.updGroup_fe_same (s : State) (n : Nat) (f : Group → Group) (k : Nat) : (s.updGroup n f).fe k = s.fe k := rfl
@[simp] theorem State.updGroup_vdev_same (s : State) (n : Nat) (f : Group → Group) (k : Nat) : (s.updGroup n f).vdev k = s.vdev k := rfl
@[simp] theorem State.updGroup_codec_same (s : State) (n : Nat) (f : Group → Group) (k : Nat) : (s.updGroup n f).codec k = s.codec k := rfl
@[simp] theorem State.updGroup_die_same (s : State) (n : Nat) (f : Group → Group) (k : Nat) : (s.updGroup n f).die k = s.die k := rfl
@[simp] theorem State.updGroup_wg? (s : State) (n : Nat) (f : Group → Group) (k : Nat) : (s.updGroup n f).wg? k = s.wg? k := rfl
@[simp] theorem State.updGroup_byte (s : State) (n : Nat) (f : Group → Group) (k : Nat) : (s.updGroup n f).byte k = s.byte k := rfl
@[simp] theorem State.updWg_core_same (s : State) (n : Nat) (f : Wg → Wg) (k : Nat) : (s.updWg n f).core k = s.core k := rfl
@[simp] theorem State.updWg_cluster_same (s : State) (n : Nat) (f : Wg → Wg) (k : Nat) : (s.updWg n f).cluster k = s.cluster k := rfl
@[simp] theorem State.updWg_fe_same (s : State) (n : Nat) (f : Wg → Wg) (k : Nat) : (s.updWg n f).fe k = s.fe k := rfl
@[simp] theorem State.updWg_vdev_same (s : State) (n : Nat) (f : Wg → Wg) (k : Nat) : (s.updWg n f).vdev k = s.vdev k := rfl
@[simp] theorem State.updWg_codec_same (s : State) (n : Nat) (f : Wg → Wg) (k : Nat) : (s.updWg n f).codec k = s.codec k := rfl
@[simp] theorem State.updWg_die_same (s : State) (n : Nat) (f : Wg → Wg) (k : Nat) : (s.updWg n f).die k = s.die k := rfl
@[simp] theorem State.updWg_group? (s : State) (n : Nat) (f : Wg → Wg) (k : Nat) : (s.updWg n f).group? k = s.group? k := rfl
@[simp] theorem State.updWg_byte (s : State) (n : Nat) (f : Wg → Wg) (k : Nat) : (s.updWg n f).byte k = s.byte k := rfl
@[simp] theorem State.updGang_core_same (s : State) (n : Nat) (f : Gang → Gang) (k : Nat) : (s.updGang n f).core k = s.core k := rfl
@[simp] theorem State.updGang_cluster_same (s : State) (n : Nat) (f : Gang → Gang) (k : Nat) : (s.updGang n f).cluster k = s.cluster k := rfl
@[simp] theorem State.updGang_fe_same (s : State) (n : Nat) (f : Gang → Gang) (k : Nat) : (s.updGang n f).fe k = s.fe k := rfl
@[simp] theorem State.updGang_vdev_same (s : State) (n : Nat) (f : Gang → Gang) (k : Nat) : (s.updGang n f).vdev k = s.vdev k := rfl
@[simp] theorem State.updGang_codec_same (s : State) (n : Nat) (f : Gang → Gang) (k : Nat) : (s.updGang n f).codec k = s.codec k := rfl
@[simp] theorem State.updGang_die_same (s : State) (n : Nat) (f : Gang → Gang) (k : Nat) : (s.updGang n f).die k = s.die k := rfl
@[simp] theorem State.updGang_group? (s : State) (n : Nat) (f : Gang → Gang) (k : Nat) : (s.updGang n f).group? k = s.group? k := rfl
@[simp] theorem State.updGang_wg? (s : State) (n : Nat) (f : Gang → Gang) (k : Nat) : (s.updGang n f).wg? k = s.wg? k := rfl
@[simp] theorem State.updGang_byte (s : State) (n : Nat) (f : Gang → Gang) (k : Nat) : (s.updGang n f).byte k = s.byte k := rfl
@[simp] theorem State.updGrid_core_same (s : State) (n : Nat) (f : Grid → Grid) (k : Nat) : (s.updGrid n f).core k = s.core k := rfl
@[simp] theorem State.updGrid_cluster_same (s : State) (n : Nat) (f : Grid → Grid) (k : Nat) : (s.updGrid n f).cluster k = s.cluster k := rfl
@[simp] theorem State.updGrid_fe_same (s : State) (n : Nat) (f : Grid → Grid) (k : Nat) : (s.updGrid n f).fe k = s.fe k := rfl
@[simp] theorem State.updGrid_vdev_same (s : State) (n : Nat) (f : Grid → Grid) (k : Nat) : (s.updGrid n f).vdev k = s.vdev k := rfl
@[simp] theorem State.updGrid_codec_same (s : State) (n : Nat) (f : Grid → Grid) (k : Nat) : (s.updGrid n f).codec k = s.codec k := rfl
@[simp] theorem State.updGrid_die_same (s : State) (n : Nat) (f : Grid → Grid) (k : Nat) : (s.updGrid n f).die k = s.die k := rfl
@[simp] theorem State.updGrid_group? (s : State) (n : Nat) (f : Grid → Grid) (k : Nat) : (s.updGrid n f).group? k = s.group? k := rfl
@[simp] theorem State.updGrid_wg? (s : State) (n : Nat) (f : Grid → Grid) (k : Nat) : (s.updGrid n f).wg? k = s.wg? k := rfl
@[simp] theorem State.updGrid_byte (s : State) (n : Nat) (f : Grid → Grid) (k : Nat) : (s.updGrid n f).byte k = s.byte k := rfl
@[simp] theorem State.updEdge_core_same (s : State) (n : Nat) (f : Edge → Edge) (k : Nat) : (s.updEdge n f).core k = s.core k := rfl
@[simp] theorem State.updEdge_cluster_same (s : State) (n : Nat) (f : Edge → Edge) (k : Nat) : (s.updEdge n f).cluster k = s.cluster k := rfl
@[simp] theorem State.updEdge_fe_same (s : State) (n : Nat) (f : Edge → Edge) (k : Nat) : (s.updEdge n f).fe k = s.fe k := rfl
@[simp] theorem State.updEdge_vdev_same (s : State) (n : Nat) (f : Edge → Edge) (k : Nat) : (s.updEdge n f).vdev k = s.vdev k := rfl
@[simp] theorem State.updEdge_codec_same (s : State) (n : Nat) (f : Edge → Edge) (k : Nat) : (s.updEdge n f).codec k = s.codec k := rfl
@[simp] theorem State.updEdge_die_same (s : State) (n : Nat) (f : Edge → Edge) (k : Nat) : (s.updEdge n f).die k = s.die k := rfl
@[simp] theorem State.updEdge_group? (s : State) (n : Nat) (f : Edge → Edge) (k : Nat) : (s.updEdge n f).group? k = s.group? k := rfl
@[simp] theorem State.updEdge_wg? (s : State) (n : Nat) (f : Edge → Edge) (k : Nat) : (s.updEdge n f).wg? k = s.wg? k := rfl
@[simp] theorem State.updEdge_byte (s : State) (n : Nat) (f : Edge → Edge) (k : Nat) : (s.updEdge n f).byte k = s.byte k := rfl
@[simp] theorem State.updRemote_core_same (s : State) (n : Nat) (f : Remote → Remote) (k : Nat) : (s.updRemote n f).core k = s.core k := rfl
@[simp] theorem State.updRemote_cluster_same (s : State) (n : Nat) (f : Remote → Remote) (k : Nat) : (s.updRemote n f).cluster k = s.cluster k := rfl
@[simp] theorem State.updRemote_fe_same (s : State) (n : Nat) (f : Remote → Remote) (k : Nat) : (s.updRemote n f).fe k = s.fe k := rfl
@[simp] theorem State.updRemote_vdev_same (s : State) (n : Nat) (f : Remote → Remote) (k : Nat) : (s.updRemote n f).vdev k = s.vdev k := rfl
@[simp] theorem State.updRemote_codec_same (s : State) (n : Nat) (f : Remote → Remote) (k : Nat) : (s.updRemote n f).codec k = s.codec k := rfl
@[simp] theorem State.updRemote_die_same (s : State) (n : Nat) (f : Remote → Remote) (k : Nat) : (s.updRemote n f).die k = s.die k := rfl
@[simp] theorem State.updRemote_group? (s : State) (n : Nat) (f : Remote → Remote) (k : Nat) : (s.updRemote n f).group? k = s.group? k := rfl
@[simp] theorem State.updRemote_wg? (s : State) (n : Nat) (f : Remote → Remote) (k : Nat) : (s.updRemote n f).wg? k = s.wg? k := rfl
@[simp] theorem State.updRemote_byte (s : State) (n : Nat) (f : Remote → Remote) (k : Nat) : (s.updRemote n f).byte k = s.byte k := rfl
@[simp] theorem State.updOp_core_same (s : State) (n : Nat) (f : EngOp → EngOp) (k : Nat) : (s.updOp n f).core k = s.core k := rfl
@[simp] theorem State.updOp_cluster_same (s : State) (n : Nat) (f : EngOp → EngOp) (k : Nat) : (s.updOp n f).cluster k = s.cluster k := rfl
@[simp] theorem State.updOp_fe_same (s : State) (n : Nat) (f : EngOp → EngOp) (k : Nat) : (s.updOp n f).fe k = s.fe k := rfl
@[simp] theorem State.updOp_vdev_same (s : State) (n : Nat) (f : EngOp → EngOp) (k : Nat) : (s.updOp n f).vdev k = s.vdev k := rfl
@[simp] theorem State.updOp_codec_same (s : State) (n : Nat) (f : EngOp → EngOp) (k : Nat) : (s.updOp n f).codec k = s.codec k := rfl
@[simp] theorem State.updOp_die_same (s : State) (n : Nat) (f : EngOp → EngOp) (k : Nat) : (s.updOp n f).die k = s.die k := rfl
@[simp] theorem State.updOp_group? (s : State) (n : Nat) (f : EngOp → EngOp) (k : Nat) : (s.updOp n f).group? k = s.group? k := rfl
@[simp] theorem State.updOp_wg? (s : State) (n : Nat) (f : EngOp → EngOp) (k : Nat) : (s.updOp n f).wg? k = s.wg? k := rfl
@[simp] theorem State.updOp_byte (s : State) (n : Nat) (f : EngOp → EngOp) (k : Nat) : (s.updOp n f).byte k = s.byte k := rfl
@[simp] theorem State.setByte_core_same (s : State) (pa : Nat) (b : Byte) (k : Nat) : (s.setByte pa b).core k = s.core k := rfl
@[simp] theorem State.setByte_cluster_same (s : State) (pa : Nat) (b : Byte) (k : Nat) : (s.setByte pa b).cluster k = s.cluster k := rfl
@[simp] theorem State.setByte_fe_same (s : State) (pa : Nat) (b : Byte) (k : Nat) : (s.setByte pa b).fe k = s.fe k := rfl
@[simp] theorem State.setByte_vdev_same (s : State) (pa : Nat) (b : Byte) (k : Nat) : (s.setByte pa b).vdev k = s.vdev k := rfl
@[simp] theorem State.setByte_codec_same (s : State) (pa : Nat) (b : Byte) (k : Nat) : (s.setByte pa b).codec k = s.codec k := rfl
@[simp] theorem State.setByte_die_same (s : State) (pa : Nat) (b : Byte) (k : Nat) : (s.setByte pa b).die k = s.die k := rfl
@[simp] theorem State.setByte_group? (s : State) (pa : Nat) (b : Byte) (k : Nat) : (s.setByte pa b).group? k = s.group? k := rfl
@[simp] theorem State.setByte_wg? (s : State) (pa : Nat) (b : Byte) (k : Nat) : (s.setByte pa b).wg? k = s.wg? k := rfl
@[simp] theorem State.setPoison_core_same (s : State) (pa : Nat) (k : Nat) : (s.setPoison pa).core k = s.core k := rfl
@[simp] theorem State.setPoison_cluster_same (s : State) (pa : Nat) (k : Nat) : (s.setPoison pa).cluster k = s.cluster k := rfl
@[simp] theorem State.setPoison_fe_same (s : State) (pa : Nat) (k : Nat) : (s.setPoison pa).fe k = s.fe k := rfl
@[simp] theorem State.setPoison_vdev_same (s : State) (pa : Nat) (k : Nat) : (s.setPoison pa).vdev k = s.vdev k := rfl
@[simp] theorem State.setPoison_codec_same (s : State) (pa : Nat) (k : Nat) : (s.setPoison pa).codec k = s.codec k := rfl
@[simp] theorem State.setPoison_die_same (s : State) (pa : Nat) (k : Nat) : (s.setPoison pa).die k = s.die k := rfl
@[simp] theorem State.setPoison_group? (s : State) (pa : Nat) (k : Nat) : (s.setPoison pa).group? k = s.group? k := rfl
@[simp] theorem State.setPoison_wg? (s : State) (pa : Nat) (k : Nat) : (s.setPoison pa).wg? k = s.wg? k := rfl
@[simp] theorem State.setPoison_byte (s : State) (pa : Nat) (k : Nat) : (s.setPoison pa).byte k = s.byte k := rfl
@[simp] theorem State.clearPoison_core_same (s : State) (pa : Nat) (k : Nat) : (s.clearPoison pa).core k = s.core k := rfl
@[simp] theorem State.clearPoison_cluster_same (s : State) (pa : Nat) (k : Nat) : (s.clearPoison pa).cluster k = s.cluster k := rfl
@[simp] theorem State.clearPoison_fe_same (s : State) (pa : Nat) (k : Nat) : (s.clearPoison pa).fe k = s.fe k := rfl
@[simp] theorem State.clearPoison_vdev_same (s : State) (pa : Nat) (k : Nat) : (s.clearPoison pa).vdev k = s.vdev k := rfl
@[simp] theorem State.clearPoison_codec_same (s : State) (pa : Nat) (k : Nat) : (s.clearPoison pa).codec k = s.codec k := rfl
@[simp] theorem State.clearPoison_die_same (s : State) (pa : Nat) (k : Nat) : (s.clearPoison pa).die k = s.die k := rfl
@[simp] theorem State.clearPoison_group? (s : State) (pa : Nat) (k : Nat) : (s.clearPoison pa).group? k = s.group? k := rfl
@[simp] theorem State.clearPoison_wg? (s : State) (pa : Nat) (k : Nat) : (s.clearPoison pa).wg? k = s.wg? k := rfl
@[simp] theorem State.clearPoison_byte (s : State) (pa : Nat) (k : Nat) : (s.clearPoison pa).byte k = s.byte k := rfl

end Sys2Proof.Machine
end

