-- ==== Sys2Proof/Laws/Memory.lean ====
section
/-! SUPPORT. Laws of local memory: read after write, bytes outside a write, and every write keeps the canonical form. -/
namespace Sys2Proof.Machine

theorem State.byte_setByte (s : State) (pa a : Nat) (b : Byte) : (s.setByte pa b).byte a = if a = pa then b else s.byte a :=
  mget_dset _ _ _ _ _

theorem State.wf_setByte {s : State} (h : Memory.wf s.mem) (pa : Nat) (b : Byte) : Memory.wf (s.setByte pa b).mem :=
  Canonical.dset h pa b

theorem State.byte_setBytes (s : State) (pa a : Nat) (bs : List Byte) :
    (s.setBytes pa bs).byte a = if pa ≤ a ∧ a < pa + bs.length then bs.getD (a - pa) 0 else s.byte a := by
  induction bs generalizing s pa with
  | nil => rw [if_neg (by simp)]; rfl
  | cons b r ih =>
    simp only [State.setBytes, ih, State.byte_setByte, List.length_cons]
    by_cases h1 : a = pa
    · subst h1; simp
    · by_cases h2 : pa + 1 ≤ a ∧ a < pa + 1 + r.length
      · rw [if_pos h2, if_pos (by omega)]
        obtain ⟨k, rfl⟩ : ∃ k, a = pa + 1 + k := ⟨a - (pa + 1), by omega⟩
        rw [show pa + 1 + k - (pa + 1) = k by omega, show pa + 1 + k - pa = k + 1 by omega, List.getD_cons_succ]
      · rw [if_neg h2, if_neg h1, if_neg (by omega)]

/-- A byte outside a write reads as before. -/
theorem State.byte_setBytes_outside (s : State) {pa a : Nat} {bs : List Byte} (h : a < pa ∨ pa + bs.length ≤ a) :
    (s.setBytes pa bs).byte a = s.byte a := by rw [State.byte_setBytes, if_neg (by omega)]

theorem State.wf_setBytes {s : State} (h : Memory.wf s.mem) (pa : Nat) (bs : List Byte) : Memory.wf (s.setBytes pa bs).mem := by
  induction bs generalizing s pa with
  | nil => exact h
  | cons b r ih => exact ih (State.wf_setByte h pa b) (pa + 1)

theorem State.wf_setNum {s : State} (h : Memory.wf s.mem) (pa n v : Nat) : Memory.wf (s.setNum pa n v).mem := State.wf_setBytes h _ _

theorem State.mem_sendLines (s : State) (pa : Nat) (bs : List Byte) : (s.sendLines pa bs).mem = s.mem := by
  unfold State.sendLines
  generalize linesOf pa bs.length = l
  induction l generalizing s with
  | nil => rfl
  | cons a r ih => exact ih (s.sendOut a false _)

theorem State.wf_writeBelow {s : State} (h : Memory.wf s.mem) (pa : Nat) (bs : List Byte) : Memory.wf (s.writeBelow pa bs).mem := by
  unfold State.writeBelow
  split
  · exact State.wf_setBytes h _ bs
  · rw [State.mem_sendLines]; exact h
  · rw [State.mem_sendLines]; exact h
  · exact h

theorem State.wf_storeBelow {s : State} (h : Memory.wf s.mem) (pa : Nat) (bs : List Byte) (p : Bool) : Memory.wf (s.storeBelow pa bs p).mem :=
  State.wf_writeBelow h pa bs

theorem State.wf_writeSector {s : State} (h : Memory.wf s.mem) (sec : Nat) (l : List (Nat × Byte)) : Memory.wf (s.writeSector sec l).mem := by
  induction l generalizing s with
  | nil => exact h
  | cons e r ih => exact ih (State.wf_writeBelow h _ _)

/-! ### The coherent caches: what they do leaves everything but the caches and the charges alone -/

/-- A state that differs in its clusters and the last-level cache alone. -/
def OnlyCaches (s t : State) : Prop := t = { s with clusters := t.clusters, llc := t.llc }

theorem OnlyCaches.refl (s : State) : OnlyCaches s s := rfl
theorem OnlyCaches.trans {a b c : State} (h : OnlyCaches a b) (k : OnlyCaches b c) : OnlyCaches a c := by
  unfold OnlyCaches at *; rw [k, h]
theorem OnlyCaches.mem {s t : State} (h : OnlyCaches s t) : t.mem = s.mem := by rw [h]
theorem OnlyCaches.byte {s t : State} (h : OnlyCaches s t) (a : Nat) : t.byte a = s.byte a := by simp only [State.byte, h.mem]

theorem updCluster_onlyCaches (s : State) (c : Nat) (f : Cluster → Cluster) : OnlyCaches s (s.updCluster c f) := rfl
theorem moved_onlyCaches (s : State) (c n : Nat) : OnlyCaches s (s.moved c n) := rfl

theorem llcUse_onlyCaches (s : State) (cl pa : Nat) (w : Bool) : OnlyCaches s (s.llcUse cl pa w) := by
  unfold State.llcUse
  split
  · dsimp only; split <;> rfl
  · rfl

theorem llcAsk_onlyCaches (s : State) (cl pa ch : Nat) (w : Bool) : OnlyCaches s (s.llcAsk cl pa ch w) := by
  unfold State.llcAsk
  split
  · rfl
  · exact llcUse_onlyCaches _ _ _ _

theorem foldl_onlyCaches {β : Type} (f : State → β → State) (hf : ∀ s b, OnlyCaches s (f s b)) (l : List β) (s : State) : OnlyCaches s (l.foldl f s) := by
  induction l generalizing s with
  | nil => rfl
  | cons b r ih => exact (hf s b).trans (ih _)

theorem ccDrop_onlyCaches (s : State) (cl line : Nat) : OnlyCaches s (s.ccDrop cl line) := by
  unfold State.ccDrop
  split
  · rfl
  · dsimp only
    split <;> split
    · exact ((updCluster_onlyCaches _ _ _).trans ((moved_onlyCaches _ _ _).trans (llcUse_onlyCaches _ _ _ _))).trans
        ((moved_onlyCaches _ _ _).trans (llcUse_onlyCaches _ _ _ _))
    · exact (updCluster_onlyCaches _ _ _).trans ((moved_onlyCaches _ _ _).trans (llcUse_onlyCaches _ _ _ _))
    · exact (updCluster_onlyCaches _ _ _).trans ((moved_onlyCaches _ _ _).trans (llcUse_onlyCaches _ _ _ _))
    · rfl

theorem ccRoom_onlyCaches (s : State) (cl line : Nat) : OnlyCaches s (s.ccRoom cl line).1 := by
  unfold State.ccRoom
  dsimp only
  split
  · rfl
  · split
    · rfl
    · exact foldl_onlyCaches _ (fun s l => ccDrop_onlyCaches s cl l) _ _

theorem ccAlloc_onlyCaches (s : State) (cl pa : Nat) (w : Bool) (n : Option Nat) : OnlyCaches s (s.ccAlloc cl pa w n) := by
  have h := ccRoom_onlyCaches s cl (pa / 256)
  unfold State.ccAlloc
  split
  · simpa [*] using h
  · rename_i t b hr
    rw [hr] at h
    exact h.trans (updCluster_onlyCaches _ _ _)

theorem ccWrite_onlyCaches (s : State) (cl pa ch : Nat) : OnlyCaches s (s.ccWrite cl pa ch) := by
  unfold State.ccWrite
  repeat' split
  · rfl
  · rfl
  · exact llcAsk_onlyCaches _ _ _ _ _
  · exact ccAlloc_onlyCaches _ _ _ _ _

theorem ccRead_onlyCaches (s : State) (cl pa ch n : Nat) : OnlyCaches s (s.ccRead cl pa ch n) := by
  unfold State.ccRead
  split
  · rfl
  · split
    · dsimp only
      repeat' split
      all_goals first | rfl | exact ((llcUse_onlyCaches _ _ _ _).trans (moved_onlyCaches _ _ _)).trans (updCluster_onlyCaches _ _ _)
    · dsimp only
      split
      · exact llcAsk_onlyCaches _ _ _ _ _
      · split
        · exact (((llcAsk_onlyCaches _ _ _ _ _).trans (moved_onlyCaches _ _ _)).trans (ccAlloc_onlyCaches _ _ _ _ _)).trans (updCluster_onlyCaches _ _ _)
        · exact ((llcAsk_onlyCaches _ _ _ _ _).trans (moved_onlyCaches _ _ _)).trans (ccAlloc_onlyCaches _ _ _ _ _)

theorem ccFill_onlyCaches (s : State) (cl pa ch : Nat) : OnlyCaches s (s.ccFill cl pa ch) := by
  unfold State.ccFill
  repeat' split
  · rfl
  · rfl
  · exact ((llcUse_onlyCaches _ _ _ _).trans (moved_onlyCaches _ _ _)).trans (updCluster_onlyCaches _ _ _)
  · exact llcAsk_onlyCaches _ _ _ _ _

theorem askLine_onlyCaches (s : State) (cl ch rc : Nat) (l : List Nat) : OnlyCaches s (s.askLine cl ch rc l) := by
  cases l with
  | nil => rfl
  | cons pa t => exact (ccRead_onlyCaches _ _ _ _ _).trans (foldl_onlyCaches _ (fun s p => ccFill_onlyCaches s cl p ch) _ _)

/-! ### Writing L1 sectors back -/

theorem State.wf_writeBack {s : State} (h : Memory.wf s.mem) (cl sec : Nat) (l : L1Sector) : Memory.wf (s.writeBack cl sec l).mem := by
  unfold State.writeBack
  split
  · exact h
  · have hc : Memory.wf (s.ccWrite cl (sec * 128) 0).mem := by rw [(ccWrite_onlyCaches s cl (sec * 128) 0).mem]; exact h
    have := State.wf_writeSector hc sec (maskedBytes l.data l.dirty)
    simp only
    split
    · exact this
    · split <;> exact this

theorem foldl_wf {β : Type} (f : State → β → State) (hf : ∀ s b, Memory.wf s.mem → Memory.wf (f s b).mem) (l : List β) {s : State}
    (h : Memory.wf s.mem) : Memory.wf (l.foldl f s).mem := by
  induction l generalizing s with
  | nil => exact h
  | cons b r ih => exact ih (hf s b h)

theorem State.wf_writeBackAll {s : State} (h : Memory.wf s.mem) (c : Nat) : Memory.wf (s.writeBackAll c).mem :=
  foldl_wf (fun s (e : Nat × L1Sector) => s.writeBack (clusterOf c) e.1 e.2) (fun _ _ h => State.wf_writeBack h _ _ _) _ (s := s.moved _ _) h

theorem State.wf_flushSector {s : State} (h : Memory.wf s.mem) (c sec : Nat) : Memory.wf (s.flushSector c sec).mem := by
  unfold State.flushSector
  split
  · exact h
  · exact State.wf_writeBack (s := s.moved _ _) h _ _ _

/-- What storing bytes leaves alone: everything but memory. -/
theorem State.setBytes_frame (s : State) (pa : Nat) (bs : List Byte) : s.setBytes pa bs = { s with mem := (s.setBytes pa bs).mem } := by
  induction bs generalizing s pa with
  | nil => rfl
  | cons b r ih => show (s.setByte pa b).setBytes (pa + 1) r = _; rw [ih]; rfl

end Sys2Proof.Machine
end

