-- ==== Sys2Proof/Laws/Issue.lean ====
section
/-! SUPPORT. Laws of issue: what the gate answers leads to, what `account` changes, and the effects of results in lanes and in uniform
registers. -/
namespace Sys2Proof.Machine

/-! ## The gate -/

/-- What an open gate says: the group, its current path, and that nothing traps. -/
theorem gate_go {i : Instr} {n : Need} {w : Group → Bool} {e : Group → Mask → Mask} {s : State} {c : Ctx} {pm : Mask}
    (h : gate i n w e s = .go c pm) :
    s.cur = some c.gid ∧ s.group? c.gid = some c.g ∧ mayRun s c.gid c.g = true ∧ trapOf s c.g n = none ∧ sbHeld c.g n = false ∧
      powerHeld s c.g n = false ∧ w c.g = false ∧ c.size = i.size ∧
      ∃ p, curPath c.g.c.paths = some p ∧ c.pc = p.pc ∧ c.mask = p.mask ∧ pm = poisonLanes c.g n p.mask ||| (e c.g p.mask &&& p.mask) := by
  unfold gate at h
  split at h
  · cases h
  · rename_i gid hcur
    split at h
    · cases h
    · rename_i g hg
      split at h
      · cases h
      · rename_i p hp
        split at h
        · cases h
        · rename_i hm
          split at h
          · cases h
          · rename_i ht
            dsimp only at h
            split at h
            · cases h
            · rename_i hh
              simp only [Bool.or_eq_true, not_or, Bool.not_eq_true] at hh
              cases h
              exact ⟨hcur, hg, by simpa using hm, ht, hh.1.1.1.1.1, hh.1.1.1.1.2, hh.1.2, rfl, p, hp, rfl, rfl, rfl⟩

theorem issueW_go {i : Instr} {n : Need} {w : Group → Bool} {e : Group → Mask → Mask} {body : Ctx → State → State} {s : State} {c : Ctx}
    (h : gate i n w e s = .go c 0) : issueW i n w e body s = .next (body c (account n c s)) := by simp [issueW, h]

theorem issue_go {i : Instr} {n : Need} {body : Ctx → State → State} {s : State} {c : Ctx}
    (h : gate i n (fun _ => false) (fun _ _ => 0) s = .go c 0) : issue i n body s = .next (body c (account n c s)) := issueW_go h

theorem issueW_held {i : Instr} {n : Need} {w : Group → Bool} {e : Group → Mask → Mask} {body : Ctx → State → State} {s : State}
    (h : gate i n w e s = .held) : issueW i n w e body s = .next s := by simp [issueW, h]

theorem issueW_idle {i : Instr} {n : Need} {w : Group → Bool} {e : Group → Mask → Mask} {body : Ctx → State → State} {s : State}
    (h : gate i n w e s = .idle) : issueW i n w e body s = .next s := by simp [issueW, h]

theorem issueW_trap {i : Instr} {n : Need} {w : Group → Bool} {e : Group → Mask → Mask} {body : Ctx → State → State} {s : State}
    {gid code pc : Nat} (h : gate i n w e s = .trap gid code pc) : issueW i n w e body s = .next (takeKill s gid code pc 0) := by
  simp [issueW, h]

/-- An issue neither faults nor is refused. -/
theorem issueW_next (i : Instr) (n : Need) (w : Group → Bool) (e : Group → Mask → Mask) (body : Ctx → State → State) (s : State) :
    ∃ t, issueW i n w e body s = .next t := by
  unfold issueW
  split
  · exact ⟨_, rfl⟩
  · exact ⟨_, rfl⟩
  · exact ⟨_, rfl⟩
  · split
    · exact ⟨_, rfl⟩
    · simp only; split <;> exact ⟨_, rfl⟩

theorem issue_next (i : Instr) (n : Need) (body : Ctx → State → State) (s : State) : ∃ t, issue i n body s = .next t := issueW_next ..

theorem ofEvent_next (r : Option State) (s : State) : ∃ t, ofEvent r s = .next t := ⟨_, rfl⟩

/-! ## Accounting -/

/-- What an issue does to its group before its own effect. -/
def accounted (n : Need) (c : Ctx) (now : Nat) (g : Group) : Group :=
  { g with c := { g.c with
      reqs := mmapv g.c.reqs fun _ r => { r with skid := if r.token = 0 then r.skid + 1 else r.skid, younger := r.younger + 1 }
      chain := nextChain g.c.chain n c.ends
      packed := nextPacked g.c.packed n (nextChain g.c.chain n c.ends)
      readyCc := now + 1
      paths := setCur g.c.paths fun p => { p with pc := (p.pc + c.size) % 2 ^ 64 } } }

/-- A cluster after an issue was charged. -/
def spent (n : Need) (c : Ctx) (k : Cluster) : Cluster := { k with energy := k.energy - charge n c.mask }

theorem account_eq (n : Need) (c : Ctx) (s : State) :
    account n c s = { s with
      groups := mupd s.groups c.gid (accounted n c s.now)
      tick := s.tick + 1
      clusters := mset s.clusters (clusterOf c.g.info.core) (spent n c (s.cluster (clusterOf c.g.info.core))) } := rfl

@[simp] theorem account_group? (n : Need) (c : Ctx) (s : State) :
    (account n c s).group? c.gid = (s.group? c.gid).map (accounted n c s.now) := find?_mupd_same _ _ _

theorem account_onlyGroup (n : Need) (c : Ctx) (s : State) : OnlyGroup s (account n c s) c.gid where
  rest := rfl
  others k h := find?_mupd_of_ne _ _ h
  clusters k := by
    rw [account_eq]
    show mget _ (mset _ _ _) k = _
    simp only [State.cluster]
    rw [mget_mset]
    split
    · rename_i h; subst h; rfl
    · rfl

theorem OnlyGroup.trans {s t u : State} {gid : Nat} (h : OnlyGroup s t gid) (k : OnlyGroup t u gid) : OnlyGroup s u gid where
  rest := by
    have a := k.rest
    have b := h.rest
    rw [a]; rw [b]
  others j hj := (k.others j hj).trans (h.others j hj)
  clusters j := by
    have a := k.clusters j
    have b := h.clusters j
    rw [a]; rw [b]

theorem updGroup_onlyGroup (s : State) (gid : Nat) (f : Group → Group) : OnlyGroup s (s.updGroup gid f) gid :=
  ⟨rfl, fun _ h => find?_mupd_of_ne _ _ h, fun _ => rfl⟩

theorem takeSb_onlyGroup (s : State) (gid : Nat) (p : Pend) : OnlyGroup s (takeSb s gid p).1 gid :=
  ⟨rfl, fun _ h => find?_mupd_of_ne _ _ h, fun _ => rfl⟩

theorem takeSb_group? (s : State) (gid : Nat) (p : Pend) :
    (takeSb s gid p).1.group? gid = (s.group? gid).map fun g => { g with c := { g.c with sb := mset g.c.sb s.nextId p } } :=
  find?_mupd_same _ _ _

/-! ## Registers -/

theorem GRegs.getV_setV (r : GRegs) (l i : Nat) (v : Word) {l' k : Nat} (hi : i < 128) (hk : k < 128) :
    (r.setV l i v).getV l' k = if l' = l ∧ k = i then v else r.getV l' k := by
  simp only [GRegs.getV, GRegs.setV, mget_dset]
  by_cases h : l' = l ∧ k = i
  · simp [h]
  · rw [if_neg h, if_neg (by omega)]

theorem GRegs.setVs_v (r : GRegs) (l i : Nat) (ws : List Word) :
    r.setVs l i ws = { r with v := (r.setVs l i ws).v, vmark := (r.setVs l i ws).vmark } := by
  induction ws generalizing r i with
  | nil => rfl
  | cons w t ih => simp only [GRegs.setVs]; rw [ih]; rfl

theorem GRegs.getV_setVs (r : GRegs) (l i : Nat) (ws : List Word) {l' k : Nat} (hi : i + ws.length ≤ 128) (hk : k < 128) :
    (r.setVs l i ws).getV l' k = if l' = l ∧ i ≤ k ∧ k < i + ws.length then ws.getD (k - i) 0 else r.getV l' k := by
  induction ws generalizing r i with
  | nil => rw [if_neg (by simp)]; rfl
  | cons w t ih =>
    simp only [List.length_cons] at hi ⊢
    simp only [GRegs.setVs]
    rw [ih (r.setV l i w) (i + 1) (by omega), GRegs.getV_setV r l i w (by omega) hk]
    by_cases hl : l' = l
    · subst hl
      by_cases h : k = i
      · subst h; simp
      · by_cases h2 : i + 1 ≤ k ∧ k < i + 1 + t.length
        · rw [if_pos ⟨rfl, h2⟩, if_pos (by omega)]
          obtain ⟨j, rfl⟩ : ∃ j, k = i + 1 + j := ⟨k - (i + 1), by omega⟩
          rw [show i + 1 + j - (i + 1) = j by omega, show i + 1 + j - i = j + 1 by omega, List.getD_cons_succ]
        · rw [if_neg (by omega), if_neg (by omega), if_neg (by omega)]
    · simp [hl]

theorem writeLane_rest (r : GRegs) (l : Nat) (d : Option Nat) (p : Nat) (ws : List Word) :
    writeLane r l d p ws = { r with v := (writeLane r l d p ws).v, latch := (writeLane r l d p ws).latch, vmark := (writeLane r l d p ws).vmark } := by
  cases d with
  | none => rfl
  | some n => simp only [writeLane, GRegs.setLatch]; rw [GRegs.setVs_v]

theorem writeLane_getV (r : GRegs) (l : Nat) (d : Option Nat) (p : Nat) (ws : List Word) {l' k : Nat}
    (hd : ∀ n, d = some n → n + ws.length ≤ 128) (hk : k < 128) :
    (writeLane r l d p ws).getV l' k = if l' = l then destWord d ws.length ws k (r.getV l' k) else r.getV l' k := by
  cases d with
  | none => simp [writeLane, destWord, GRegs.setLatch, GRegs.getV]
  | some n =>
    show (r.setVs l n ws).getV l' k = _
    rw [GRegs.getV_setVs r l n ws (hd n rfl) hk]
    by_cases h : l' = l <;> simp [h, destWord]

/-- A latch as it stands in a register state. -/
def GRegs.getL (r : GRegs) (l i : Nat) : Word := mget 0 r.latch (l * 4 + i)

theorem writeLane_getL (r : GRegs) (l : Nat) (d : Option Nat) (p : Nat) (ws : List Word) {l' q : Nat} (hp : p < 4) (hq : q < 4) :
    (writeLane r l d p ws).getL l' q = if l' = l ∧ q = p then ws.headD 0 else r.getL l' q := by
  have key : ∀ r' : GRegs, (r'.setLatch l p (ws.headD 0)).getL l' q = if l' = l ∧ q = p then ws.headD 0 else r'.getL l' q := by
    intro r'
    simp only [GRegs.getL, GRegs.setLatch, mget_dset]
    by_cases h : l' = l ∧ q = p
    · simp [h]
    · rw [if_neg h, if_neg (by omega)]
  cases d with
  | none => exact key r
  | some n =>
    show ((r.setVs l n ws).setLatch l p (ws.headD 0)).getL l' q = _
    rw [key]
    have : (r.setVs l n ws).latch = r.latch := by rw [GRegs.setVs_v]
    simp [GRegs.getL, this]

theorem writeLanes_spec (d : Option Nat) (cnt pipe : Nat) (f : Nat → LaneOut) (hlen : ∀ l, (f l).words.length = cnt)
    (hd : ∀ n, d = some n → n + cnt ≤ 128) (hp : pipe < 4) (ls : List Nat) (r : GRegs) :
    (∀ l k, k < 128 → (writeLanes r d pipe f ls).getV l k = if l ∈ ls then destWord d cnt (f l).words k (r.getV l k) else r.getV l k) ∧
    (∀ l q, q < 4 → (writeLanes r d pipe f ls).getL l q = if l ∈ ls ∧ q = pipe then (f l).words.headD 0 else r.getL l q) ∧
    writeLanes r d pipe f ls = { r with v := (writeLanes r d pipe f ls).v, latch := (writeLanes r d pipe f ls).latch, vmark := (writeLanes r d pipe f ls).vmark } := by
  induction ls generalizing r with
  | nil => exact ⟨fun _ _ _ => by simp [writeLanes], fun _ _ _ => by simp [writeLanes], rfl⟩
  | cons j t ih =>
    obtain ⟨h1, h2, h3⟩ := ih (writeLane r j d pipe (f j).words)
    refine ⟨fun l k hk => ?_, fun l q hq => ?_, ?_⟩
    · simp only [writeLanes]
      rw [h1 l k hk, writeLane_getV r j d pipe _ (by rw [hlen]; exact hd) hk, hlen]
      by_cases hl : l = j
      · subst hl
        by_cases ht : l ∈ t
        · simp only [ht, if_true, List.mem_cons, or_true]
          cases d with
          | none => rfl
          | some n => simp only [destWord]; split <;> rfl
        · simp [ht]
      · by_cases ht : l ∈ t <;> simp [ht, hl]
    · simp only [writeLanes]
      rw [h2 l q hq, writeLane_getL r j d pipe _ hp hq]
      by_cases hl : l = j
      · subst hl; by_cases ht : l ∈ t <;> by_cases hq' : q = pipe <;> simp [ht, hq']
      · by_cases ht : l ∈ t <;> by_cases hq' : q = pipe <;> simp [ht, hl, hq']
    · simp only [writeLanes]
      rw [h3, writeLane_rest]

theorem mem_lanesOf (m : Mask) (l : Nat) : l ∈ lanesOf m ↔ l < 64 ∧ m.getLsbD l = true := by simp [lanesOf]

/-- A group with a scoreboard entry taken. -/
def withEntry (g : Group) (e : Nat) (p : Pend) : Group := { g with c := { g.c with sb := mset g.c.sb e p } }

/-- The entry that a result in the lanes takes. -/
def lanePend (d : Option Nat) (cnt pipe ready : Nat) (fl : Flags) : Pend :=
  ⟨(match d with | some r => (List.range cnt).map (r + ·) | none => []), [], fl, decide (pipe ≠ 0), some ready⟩

/-- A result in every active lane has the effect `LaneEffect` describes. -/
theorem laneResult_effect {i : Instr} {n : Need} {w : Group → Bool} {e : Group → Mask → Mask} {s : State} {c : Ctx} {pm : Mask}
    (h : gate i n w e s = .go c pm) (d : Option Nat) (cnt pipe lat : Nat) (f : Group → Nat → LaneOut)
    (hlen : ∀ l, (f c.g l).words.length = cnt) (hd : ∀ k, d = some k → k + cnt ≤ 128) (hp : pipe < 4) :
    LaneEffect s (laneResult d cnt pipe lat f c (account n c s)) c d cnt pipe lat (fun l => (f c.g l).words) (flagsOf (f c.g) (lanesOf c.mask)) := by
  obtain ⟨h1, h2, h3⟩ := writeLanes_spec d cnt pipe (f c.g) hlen hd hp (lanesOf c.mask) c.g.r
  have hg := (gate_go h).2.1
  constructor
  · exact ((account_onlyGroup n c s).trans (updGroup_onlyGroup _ _ _)).trans (takeSb_onlyGroup _ _ _)
  · have hG : (laneResult d cnt pipe lat f c (account n c s)).group? c.gid =
        some (withEntry ((accounted n c s.now c.g).updR fun r => writeLanes r d pipe (f c.g) (lanesOf c.mask)) s.nextId
          (lanePend d cnt pipe (s.now + lat) (flagsOf (f c.g) (lanesOf c.mask)))) := by
      unfold laneResult
      rw [takeSb_group?, State.updGroup_group?_same, account_group?, hg]
      rfl
    refine ⟨_, hG, ?_, ?_, ?_, ?_, ?_, ?_⟩
    · rfl
    · intro l k hk
      show (writeLanes c.g.r d pipe (f c.g) (lanesOf c.mask)).getV l k = _
      rw [h1 l k hk]; simp only [mem_lanesOf]
    · intro l q hq
      show (writeLanes c.g.r d pipe (f c.g) (lanesOf c.mask)).getL l q = _
      rw [h2 l q hq]; simp only [mem_lanesOf, and_assoc]; rfl
    · exact h3
    · rfl
    · exact ⟨_, find?_mset_same _ _ _⟩

/-! ## Uniform results -/

theorem GRegs.ug_setG (r : GRegs) (i k : Nat) (v : Word) : mget 0 (r.setG i v).g k = if k = i then v else mget 0 r.g k := mget_dset _ _ _ _ _

/-- A uniform result has the effect `UniEffect` describes. -/
theorem uniResult_effect {i : Instr} {n : Need} {w : Group → Bool} {e : Group → Mask → Mask} {s : State} {c : Ctx} {pm : Mask}
    (h : gate i n w e s = .go c pm) (d : UDst) (lat : Nat) (v : State → Group → Word) :
    UniEffect s (uniResult d lat v c (account n c s)) c d [v (account n c s) c.g] lat := by
  have hg := (gate_go h).2.1
  cases d with
  | zero =>
    refine ⟨account_onlyGroup n c s, accounted n c s.now c.g, ?_, rfl, fun k => rfl, rfl, rfl, rfl⟩
    show (account n c s).group? c.gid = _
    rw [account_group?, hg]; rfl
  | g r =>
    have hG : (uniResult (.g r) lat v c (account n c s)).group? c.gid =
        some (withEntry ((accounted n c s.now c.g).updR fun q => q.setG r.val (v (account n c s) c.g)) s.nextId
          ⟨[], [r.val], 0, false, some (s.now + lat)⟩) := by
      unfold uniResult
      dsimp only
      rw [takeSb_group?, State.updGroup_group?_same, account_group?, hg]
      rfl
    refine ⟨((account_onlyGroup n c s).trans (updGroup_onlyGroup _ _ _)).trans (takeSb_onlyGroup _ _ _), _, hG, rfl, fun k => ?_, rfl, rfl,
      _, find?_mset_same _ _ _⟩
    show mget 0 (c.g.r.setG r.val _).g k = _
    rw [GRegs.ug_setG]
    by_cases hk : k = r.val
    · subst hk; simp
    · rw [if_neg hk]; exact (if_neg (by simp; omega)).symm

/-- A uniform pair result has the effect `UniEffect` describes. -/
theorem uniResult64_effect {i : Instr} {n : Need} {w : Group → Bool} {e : Group → Mask → Mask} {s : State} {c : Ctx} {pm : Mask}
    (h : gate i n w e s = .go c pm) (d : UDst) (lat : Nat) (v : State → Group → DWord) :
    UniEffect s (uniResult64 d lat v c (account n c s)) c d [loWord (v (account n c s) c.g), hiWord (v (account n c s) c.g)] lat := by
  have hg := (gate_go h).2.1
  cases d with
  | zero =>
    refine ⟨account_onlyGroup n c s, accounted n c s.now c.g, ?_, rfl, fun k => rfl, rfl, rfl, rfl⟩
    show (account n c s).group? c.gid = _
    rw [account_group?, hg]; rfl
  | g r =>
    have hG : (uniResult64 (.g r) lat v c (account n c s)).group? c.gid =
        some (withEntry ((accounted n c s.now c.g).updR fun q => q.setU64 (.g r) (v (account n c s) c.g)) s.nextId
          ⟨[], [r.val, r.val + 1], 0, false, some (s.now + lat)⟩) := by
      unfold uniResult64
      dsimp only
      rw [takeSb_group?, State.updGroup_group?_same, account_group?, hg]
      rfl
    refine ⟨((account_onlyGroup n c s).trans (updGroup_onlyGroup _ _ _)).trans (takeSb_onlyGroup _ _ _), _, hG, rfl, fun k => ?_, rfl, rfl,
      s.nextId, ?_⟩
    · show mget 0 ((c.g.r.setG r.val _).setG (r.val + 1) _).g k = _
      rw [GRegs.ug_setG, GRegs.ug_setG]
      by_cases hk : k = r.val
      · subst hk; simp [loWord]
      · by_cases hk2 : k = r.val + 1
        · subst hk2; simp [hiWord]
        · rw [if_neg hk2, if_neg hk]; exact (if_neg (by simp; omega)).symm
    · exact (find?_mset_same _ _ _).trans (by simp [List.range_succ])

end Sys2Proof.Machine
end

