-- ==== Sys2Proof/Laws/Control.lean ====
section
/-! SUPPORT. Laws of requests, of the program counter and of control instructions. -/
namespace Sys2Proof.Machine

theorem pushReq_group? (s : State) (gid : Nat) (r : Req) :
    (pushReq s gid r).1.group? gid = (s.group? gid).map fun g => { g with c := { g.c with reqs := mset g.c.reqs s.nextId r } } :=
  find?_mupd_same _ _ _
theorem pushReq_onlyGroup (s : State) (gid : Nat) (r : Req) : OnlyGroup s (pushReq s gid r).1 gid :=
  ⟨rfl, fun _ h => find?_mupd_of_ne _ _ h, fun _ => rfl⟩

/-- A request entered at issue has the effect `RequestEffect` describes. -/
theorem request_effect {i : Instr} {n : Need} {w : Group → Bool} {e : Group → Mask → Mask} {s : State} {c : Ctx} {pm : Mask}
    (h : gate i n w e s = .go c pm) (p : Pend) (q : Nat → Req) :
    RequestEffect s (pushReq (takeSb (account n c s) c.gid p).1 c.gid (q (takeSb (account n c s) c.gid p).2)).1 c p q := by
  have hg := (gate_go h).2.1
  refine ⟨((account_onlyGroup n c s).trans (takeSb_onlyGroup _ _ _)).trans (pushReq_onlyGroup _ _ _), ?_⟩
  have hG := pushReq_group? (takeSb (account n c s) c.gid p).1 c.gid (q (takeSb (account n c s) c.gid p).2)
  rw [takeSb_group?, account_group?, hg] at hG
  exact ⟨_, s.nextId, _, hG, rfl, rfl, rfl, find?_mset_same _ _ _, find?_mset_same _ _ _⟩

theorem curIdx_spec (ps : List PathEntry) : ∀ i, curIdx ps = some i → ∃ p, ps[i]? = some p ∧ (p.st = .run ∨ p.st = .wait) := by
  induction ps with
  | nil => intro i h; simp [curIdx] at h
  | cons p r ih =>
    intro i h
    simp only [curIdx] at h
    split at h
    · rename_i hp; cases h; exact ⟨p, rfl, hp⟩
    · cases hr : curIdx r with
      | none => rw [hr] at h; simp at h
      | some j => rw [hr] at h; simp at h; subst h; simpa using ih j hr

theorem curIdx_modify (ps : List PathEntry) (f : PathEntry → PathEntry) (hf : ∀ p, (f p).st = p.st) (i : Nat) : curIdx (ps.modify i f) = curIdx ps := by
  induction ps generalizing i with
  | nil => simp
  | cons p r ih =>
    cases i with
    | zero => simp [List.modify, List.modifyHead, curIdx, hf]
    | succ j => simp [curIdx, ih]

theorem curPath_setCur (ps : List PathEntry) (f : PathEntry → PathEntry) (hf : ∀ p, (f p).st = p.st) : curPath (setCur ps f) = (curPath ps).map f := by
  unfold curPath setCur
  cases h : curIdx ps with
  | none => simp [h]
  | some i =>
    simp only
    rw [curIdx_modify ps f hf, h]
    simp [List.getElem?_modify]

theorem setPc_onlyGroup (s : State) (gid pc : Nat) : OnlyGroup s (setPc s gid pc) gid := updGroup_onlyGroup _ _ _

/-- A control instruction that sets the program counter. -/
theorem pc_effect {i : Instr} {n : Need} {w : Group → Bool} {e : Group → Mask → Mask} {s : State} {c : Ctx} {pm : Mask}
    (h : gate i n w e s = .go c pm) (pc : Nat) :
    CtlEffect s (setPc (account n c s) c.gid pc) c fun g => g.r = c.g.r ∧ AtPc c (pc % 2 ^ 64) g := by
  obtain ⟨h0, hg, -, -, -, -, -, -, p, hp, hpc, hm, -⟩ := gate_go h
  have hG : (setPc (account n c s) c.gid pc).group? c.gid = _ := State.updGroup_group?_same _ _ _
  rw [account_group?, hg] at hG
  refine ⟨(account_onlyGroup n c s).trans (setPc_onlyGroup _ _ _), _, hG, rfl, rfl, ?_⟩
  · unfold AtPc
    show Option.map _ (curPath (setCur (setCur c.g.c.paths _) _)) = _
    rw [curPath_setCur _ _ (by intro p; rfl), curPath_setCur _ _ (by intro p; rfl), hp]
    simp [hm]

/-- An instruction that only moves past itself. -/
theorem adv_effect {i : Instr} {n : Need} {w : Group → Bool} {e : Group → Mask → Mask} {s : State} {c : Ctx} {pm : Mask}
    (h : gate i n w e s = .go c pm)  :
    CtlEffect s (account n c s) c fun g => g.r = c.g.r ∧ AtPc c ((c.pc + c.size) % 2 ^ 64) g := by
  obtain ⟨h0, hg, -, -, -, -, -, -, p, hp, hpc, hm, -⟩ := gate_go h
  have hG := account_group? n c s
  rw [hg] at hG
  refine ⟨(account_onlyGroup n c s), _, hG, rfl, rfl, ?_⟩
  · unfold AtPc
    show Option.map _ (curPath (setCur c.g.c.paths _)) = _
    rw [curPath_setCur _ _ (by intro p; rfl), hp]
    simp [hm, hpc]

theorem target_mod (pc : Nat) (o : Int) : target pc o % 2 ^ 64 = target pc o := by
  unfold target; omega


/-- A result in the lanes, for an instruction whose meaning is `laneResult`. -/
theorem LaneResultOf.of_issue {i : Instr} {n : Need} {d : Option Nat} {cnt pipe lat : Nat} {out : Ctx → Nat → LaneOut} (f : Ctx → Group → Nat → LaneOut)
    (hex : ∀ s, exec i s = issue i n (fun x s => laneResult d cnt pipe lat (f x) x s) s)
    (hlen : ∀ c l, (f c c.g l).words.length = cnt) (hd : ∀ k, d = some k → k + cnt ≤ 128) (hp : pipe < 4)
    (heq : ∀ c, f c c.g = out c) : LaneResultOf i n d cnt pipe lat out := by
  intro s c h
  refine ⟨_, (hex s).trans (issue_go h), ?_⟩
  have := laneResult_effect h d cnt pipe lat (f c) (hlen c) hd hp
  rw [heq] at this
  exact this

theorem dstReg_le (d : LDst) : ∀ k, dstReg d = some k → k + 1 ≤ 128 := by
  intro k h; cases d <;> simp [dstReg] at h; omega

theorem fin112_le (d : Fin 112) (n : Nat) (hn : n ≤ 4) : ∀ k, some d.val = some k → k + n ≤ 128 := by
  intro k h; simp at h; omega

/-- A uniform result, for an instruction whose meaning is `uniResult`. -/
theorem UniResultOf.of_issue {i : Instr} {n : Need} {d : UDst} {lat : Nat} {w : State → Group → Word} {ws : State → Group → List Word}
    (hex : ∀ s, exec i s = issue i n (uniResult d lat w) s)
    (heq : ∀ s c, ws s c.g = [w (account n c s) c.g]) : UniResultOf i n d lat ws := by
  intro s c h
  refine ⟨_, (hex s).trans (issue_go h), ?_⟩
  have := uniResult_effect h d lat w
  rw [heq]; exact this

/-- A uniform pair result, for an instruction whose meaning is `uniResult64`. -/
theorem UniResultOf.of_issue64 {i : Instr} {n : Need} {d : UDst} {lat : Nat} {w : State → Group → DWord} {ws : State → Group → List Word}
    (hex : ∀ s, exec i s = issue i n (uniResult64 d lat w) s)
    (heq : ∀ s c, ws s c.g = [loWord (w (account n c s) c.g), hiWord (w (account n c s) c.g)]) : UniResultOf i n d lat ws := by
  intro s c h
  refine ⟨_, (hex s).trans (issue_go h), ?_⟩
  have := uniResult64_effect h d lat w
  rw [heq]; exact this

end Sys2Proof.Machine
end

