-- ==== Sys2Proof/Laws/Mem.lean ====
section
/-! SUPPORT. Laws of accesses: lanes that all pass, words written to a block, loads performed at issue. -/
namespace Sys2Proof.Machine

/-- Lanes whose access passes and leaves the state alone. -/
theorem performLanes_pure (f : LaneAcc) (g : Group) (r : Req) (w : Nat → List Word) (ls : List Nat) (s : State)
    (h : ∀ l ∈ ls, f s g r l = (s, .ok (w l))) : performLanes f g r ls s = (s, ls.map fun l => (l, w l), []) := by
  induction ls with
  | nil => rfl
  | cons l t ih =>
    have hl := h l List.mem_cons_self
    have ht := ih fun k hk => h k (List.mem_cons_of_mem _ hk)
    simp [performLanes, hl, ht]

theorem writeWords_spec (d cnt : Nat) (w : Nat → List Word) (hd : d + cnt ≤ 128) (ls : List Nat) (hw : ∀ l ∈ ls, (w l).length = cnt) (r : GRegs) :
    (∀ l k, k < 128 → (writeWords r d (ls.map fun l => (l, w l))).getV l k = if l ∈ ls then destWord (some d) cnt (w l) k (r.getV l k) else r.getV l k) ∧
    writeWords r d (ls.map fun l => (l, w l)) = { r with
      v := (writeWords r d (ls.map fun l => (l, w l))).v
      vmark := (writeWords r d (ls.map fun l => (l, w l))).vmark } := by
  induction ls generalizing r with
  | nil => exact ⟨fun _ _ _ => by simp [writeWords], rfl⟩
  | cons j t ih =>
    obtain ⟨h1, h2⟩ := ih (fun l hl => hw l (List.mem_cons_of_mem _ hl)) (r.setVs j d (w j))
    have hj := hw j List.mem_cons_self
    refine ⟨fun l k hk => ?_, ?_⟩
    · simp only [List.map_cons, writeWords]
      rw [h1 l k hk, GRegs.getV_setVs r j d (w j) (by omega) hk, hj]
      by_cases hl : l = j
      · subst hl
        by_cases ht : l ∈ t
        · simp only [ht, if_true, List.mem_cons, or_true, true_and, destWord]; split <;> rfl
        · simp [ht, destWord]
      · by_cases ht : l ∈ t <;> simp [ht, hl]
    · simp only [List.map_cons, writeWords]
      rw [h2, GRegs.setVs_v]

theorem mkReq_at (i : Instr) (c : Ctx) (addr : Group → Nat → Nat) (data : Group → Nat → List Word) (ops : List Nat) (e t l : Nat)
    (h : l ∈ lanesOf c.mask) : (mkReq i c addr data ops e t).at l = addr c.g l := by
  have : ∀ ls : List Nat, l ∈ ls → find? (ls.map fun l => (l, addr c.g l)) l = some (addr c.g l) := by
    intro ls hl
    induction ls with
    | nil => simp at hl
    | cons j u ih =>
      by_cases hj : j = l
      · subst hj; simp [find?]
      · rcases List.mem_cons.1 hl with h | h
        · exact absurd h.symm hj
        · simp [find?, hj, ih h]
  simp [Req.at, mkReq, mget, this _ h]

theorem mkReq_words (i : Instr) (c : Ctx) (addr : Group → Nat → Nat) (data : Group → Nat → List Word) (ops : List Nat) (e t l : Nat)
    (h : l ∈ lanesOf c.mask) : (mkReq i c addr data ops e t).words l = data c.g l := by
  have : ∀ ls : List Nat, l ∈ ls → find? (ls.map fun l => (l, data c.g l)) l = some (data c.g l) := by
    intro ls hl
    induction ls with
    | nil => simp at hl
    | cons j u ih =>
      by_cases hj : j = l
      · subst hj; simp [find?]
      · rcases List.mem_cons.1 hl with h | h
        · exact absurd h.symm hj
        · simp [find?, hj, ih h]
  simp [Req.words, mkReq, mget, this _ h]

/-- A load performed at issue all of whose lanes pass and leave the state alone. -/
theorem doLoad_effect {i : Instr} {n : Need} {wt : Group → Bool} {e : Group → Mask → Mask} {s : State} {c : Ctx} {pm : Mask}
    (h : gate i n wt e s = .go c pm) (f : LaneAcc) (d cnt : Nat) (lat : Group → Mask → Nat) (addr : Group → Nat → Nat)
    (data : Group → Nat → List Word) (w : Nat → List Word) (hd : d + cnt ≤ 128) (hw : ∀ l ∈ lanesOf c.mask, (w l).length = cnt)
    (hf : ∀ l ∈ lanesOf c.mask, f (account n c s) c.g (mkReq i c addr data [] 0 s.now) l = (account n c s, .ok (w l))) :
    LoadEffect s (doLoad i f d cnt lat addr data c (account n c s)) c d cnt w ∧ OnlyGroup s (doLoad i f d cnt lat addr data c (account n c s)) c.gid := by
  have hg := (gate_go h).2.1
  have hp := performLanes_pure f c.g (mkReq i c addr data [] 0 s.now) w (lanesOf c.mask) (account n c s) hf
  have hdo : doLoad i f d cnt lat addr data c (account n c s) =
      (takeSb ((account n c s).updGroup c.gid fun g => { g with r := writeWords g.r d ((lanesOf c.mask).map fun l => (l, w l)) }) c.gid
        ⟨(List.range cnt).map (d + ·), [], 0, false, some (s.now + lat c.g c.mask)⟩).1 := by
    unfold doLoad
    simp only [show (account n c s).now = s.now from rfl, hp, if_true]
    rfl
  have hO : OnlyGroup s (doLoad i f d cnt lat addr data c (account n c s)) c.gid := by
    rw [hdo]
    exact ((account_onlyGroup n c s).trans (updGroup_onlyGroup _ _ _)).trans (takeSb_onlyGroup _ _ _)
  refine ⟨⟨?_, hO.others, fun a => ?_⟩, hO⟩
  · have hG := takeSb_group? ((account n c s).updGroup c.gid fun g => { g with r := writeWords g.r d ((lanesOf c.mask).map fun l => (l, w l)) }) c.gid
        ⟨(List.range cnt).map (d + ·), [], 0, false, some (s.now + lat c.g c.mask)⟩
    rw [State.updGroup_group?_same, account_group?, hg] at hG
    rw [hdo]
    obtain ⟨h1, h2⟩ := writeWords_spec d cnt w hd (lanesOf c.mask) hw c.g.r
    refine ⟨_, hG, rfl, fun l k hk => ?_, h2, rfl, _, _, find?_mset_same _ _ _, rfl⟩
    show (writeWords c.g.r d _).getV l k = _
    rw [h1 l k hk]; simp only [mem_lanesOf]
  · have := hO.rest
    show mget 0 (doLoad i f d cnt lat addr data c (account n c s)).mem a = _
    rw [this]; rfl

theorem bytesWords_length (n : Nat) (b : List Byte) : (bytesWords n b).length = n := by simp [bytesWords]

theorem loadWords_length (sz : LdSize) (b : List Byte) : (loadWords sz b).length = sz.regs := by
  cases sz <;> simp [loadWords, bytesWords_length, LdSize.regs]

end Sys2Proof.Machine
end

