-- ==== Sys2Proof/Tests/Slice0.lean ====
section
/-! SUPPORT. Tests: an ill-formed term for each check of WellFormed, a word of the manual's encoding tables for each constructor, worked
examples of the manual, and for each statement a state and operands that meet its hypotheses. -/
namespace Sys2Proof.Tests

set_option Elab.async false
open Sys2Proof Sys2Proof.Machine

/-! ## Well-formedness: one term that each check refuses (R48, R53 to R59, R148, R182) -/

theorem test_illformed : ∀ i ∈ ([.iadd (.v 0) (.lit 1) (.lit 2), .ucmp .eq (.g 0) (.lit 1) (.lit 2), .cvt (.toQ .s8) .rne (.v 0) (.v 1), .cvt .f16x2f32 .rne .latch (.v 1),
    .cvt .f32f16x2 .rne (.v 0) .lane, .cvtq .e2m1 .latch (.v 0) (.v 4), .st .b64 0 .lane (.v 2) 0, .stl .b128 (.b 0) (.v 2) 0,
    .sto .b64 (.lit 1) (.v 2) 0, .smp .b32 2 0 (.v 2) 0, .atom .fadd true .dev .rlx 0 (.v 2), .atoml .add false .dev .rlx 0 (.v 2),
    .atoml .fadd true .wkg .rlx 0 (.v 2), .red .swap false .dev .rlx (.v 0) (.v 2), .red .cas false .dev .rlx (.v 0) (.v 2),
    .red .add true .dev .rlx .lane (.v 2), .red .fadd true .dev .rlx (.v 0) (.v 2)] : List Instr), i.wellFormed = false := by decide +kernel

theorem test_illformed_uniform : ∀ i ∈ ([.uld .b128 (.g 0) (.g 2) 0, .ust .b128 (.g 0) (.g 2) 0, .ust .b64 .cyc (.g 2) 0, .dispatch 3 (.g 0) (.g 53) (.g 8),
    .dispatch 0 (.g 0) .zero (.g 8), .wrsr .core (.g 0), .wrsr .seedkey .role, .fenceX .wkg 0 1, .fenceX .wkg 1 0, .mwait .ge true .dev (.g 0) (.g 2) .role,
    .cond .wkg (.g 0) (.g 1), .launch 51 0, .launch 3 0, .copyLin 4 0, .copyTile 50 0, .copyCb 1 0, .copyGath 52 0, .hread 2 0,
    .gridRestrict 4 0, .gridProlong 4 0, .gridConvert 4 0, .mtile 4 0, .obresRsv 4 0] ++
    [.obresRel 4 0, .obresQry 4 0, .ruleLoad 3 0, .ruleStep 53 0, .ruleXch 1 0, .ruleQuery 54 0, .edgeFrame 1 0, .edgeCutmove 1 0, .edgeStatus 1 0,
    .edgeFlush 1 0] : List Instr), i.wellFormed = false := by decide +kernel

/-! ## Decoding: one word of every encoding, its fields placed as the opcode table places them (R52 to R64) -/

/-- Each word decodes to its instruction. -/
abbrev Reads (l : List (Nat × Instr)) : Prop := ∀ x ∈ l, decodeTableWord 32 x.1 = some x.2

theorem test_words_int : Reads (
    [(0x02014491, .iadd (.v 5) (.v 9) (.v 17)), (0x02414491, .isub (.v 5) (.v 9) (.v 17)), (0x02814491, .imul (.v 5) (.v 9) (.v 17)),
     (0x02C14491, .imulhS (.v 5) (.v 9) (.v 17)), (0x03014491, .imulhN (.v 5) (.v 9) (.v 17)), (0x03410491, .imad 4 (.v 9) (.v 17)),
     (0x03814491, .iminS (.v 5) (.v 9) (.v 17)), (0x03C14491, .iminN (.v 5) (.v 9) (.v 17)), (0x04014491, .imaxS (.v 5) (.v 9) (.v 17)),
     (0x04414491, .imaxN (.v 5) (.v 9) (.v 17)), (0x048144F4, .iabs (.v 5) (.v 9)), (0x04C144F4, .ineg (.v 5) (.v 9)),
     (0x050144F4, .popc (.v 5) (.v 9)), (0x054144F4, .clz (.v 5) (.v 9)), (0x058144F4, .brev (.v 5) (.v 9)),
     (0x05C14491, .idiffN (.v 5) (.v 9) (.v 17)), (0x06014491, .and (.v 5) (.v 9) (.v 17)), (0x06414491, .or (.v 5) (.v 9) (.v 17)),
     (0x06814491, .xor (.v 5) (.v 9) (.v 17)), (0x06C14491, .andn (.v 5) (.v 9) (.v 17))] ++
    [(0x070144F4, .not (.v 5) (.v 9)), (0x074144F4, .mov (.v 5) (.v 9)), (0x07810491, .sel 4 (.v 9) (.v 17)),
     (0x08014491, .shl (.v 5) (.v 9) (.v 17)), (0x08414491, .shr (.v 5) (.v 9) (.v 17)), (0x08814491, .sar (.v 5) (.v 9) (.v 17)),
     (0x08C14491, .rotl (.v 5) (.v 9) (.v 17)), (0x09014491, .bfeN (.v 5) (.v 9) (.v 17)), (0x09414491, .bfeS (.v 5) (.v 9) (.v 17)),
     (0x09810491, .bfi 4 (.v 9) (.v 17)), (0x09C10491, .fshr 4 (.v 9) (.v 17)), (0x0AC14491, .icmp .leS (.v 5) (.v 9) (.v 17))]) := by decide +kernel

theorem test_words_pair_and_immediate : Reads (
    [(0x0C010311, .iadd64 4 (.v 6) (.v 17)), (0x0C410311, .isub64 4 (.v 6) (.v 17)), (0x0C810311, .shl64 4 (.v 6) (.v 17)),
     (0x0CC10311, .shr64 4 (.v 6) (.v 17)), (0x0D010491, .imadwN 4 (.v 9) (.v 17)), (0x0D410491, .imadwS 4 (.v 9) (.v 17)),
     (0x0D814311, .icmp64Eq (.v 5) (.v 6) (.v 17)), (0x0DC14311, .icmp64LtN (.v 5) (.v 6) (.v 17)), (0x0E0A2405, .iaddi (.v 5) (.v 9) 5),
     (0x100A2405, .andi (.v 5) (.v 9) 5), (0x120A2405, .ori (.v 5) (.v 9) 5), (0x1411D405, .shli (.v 8) .lane 5),
     (0x1605DC18, .shri (.v 2) .widHi 24), (0x180BD3FF, .movi (.v 5) (.ofInt 10 (-1))), (0x1AC1FA74, .wfld 3 (.v 7))]) := by decide +kernel

theorem test_words_float : Reads (
    [(0x207D38F5, .fadd .rtz .latch (.b 1) .lane), (0x22817B77, .fsub .rdn (.v 5) .widLo .widHi), (0x24C144F8, .fmul .rup (.v 5) (.v 9) (.g 0)),
     (0x26414307, .fma .rtz 5 (.v 6) (.v 7)), (0x28014491, .fmin (.v 5) (.v 9) (.v 17)), (0x28414491, .fmax (.v 5) (.v 9) (.v 17)),
     (0x288144F4, .fabs (.v 5) (.v 9)), (0x28C144F4, .fneg (.v 5) (.v 9)), (0x29014491, .fcopysign (.v 5) (.v 9) (.v 17)),
     (0x294144F4, .fclass (.v 5) (.v 9)), (0x298144F4, .fsat (.v 5) (.v 9)), (0x2B814491, .fcmp .un (.v 5) (.v 9) (.v 17)),
     (0x2C4144F4, .frnd .rtz (.v 5) (.v 9)), (0x2D0144F4, .ffract (.v 5) (.v 9)), (0x2E0144F4, .frcp (.v 5) (.v 9)),
     (0x2E4144F4, .frsq (.v 5) (.v 9)), (0x2E8144F4, .fsqrt (.v 5) (.v 9)), (0x2EC144F4, .fexp2 (.v 5) (.v 9)), (0x2F0144F4, .flog2 (.v 5) (.v 9)),
     (0x2F4144F4, .fsin (.v 5) (.v 9))] ++
    [(0x2F8144F4, .fcos (.v 5) (.v 9)), (0x2FC144F4, .ftanh (.v 5) (.v 9)), (0x30814491, .fdiv .rdn (.v 5) (.v 9) (.v 17)),
     (0x32414491, .pkadd true (.v 5) (.v 9) (.v 17)), (0x32C14491, .pkmul true (.v 5) (.v 9) (.v 17)), (0x33410491, .pkfma true 4 (.v 9) (.v 17)),
     (0x33C14491, .pkmax true (.v 5) (.v 9) (.v 17)), (0x34414491, .pkmin true (.v 5) (.v 9) (.v 17)), (0x34C10491, .pkdot true 4 (.v 9) (.v 17))]) := by decide +kernel

theorem test_words_convert_and_exchange : Reads (
    [(0x39414492, .cvt (.toQ .e3m2) .rsr (.v 5) (.v 9)), (0x3B414611, .cvtq .lns6 (.v 5) (.v 12) (.v 17)), (0x3D820491, .cvtdq .s8 8 (.v 9) (.v 17)),
     (0x3E414492, .hadm true (.v 5) (.v 9) (.v 18)), (0x40814491, .shfl 2 (.v 5) (.v 9) (.v 17)), (0x420104F4, .ballot 4 (.v 9)),
     (0x424144F4, .vany (.v 5) (.v 9)), (0x428144F4, .vall (.v 5) (.v 9)), (0x42C104F4, .match_ 4 (.v 9)), (0x430144F4, .pfxadd (.v 5) (.v 9)),
     (0x434144F4, .rdcadd (.v 5) (.v 9)), (0x438144F4, .rdcmax (.v 5) (.v 9)), (0x43C144F4, .rdcmin (.v 5) (.v 9))]) := by decide +kernel

theorem test_words_memory_and_record : Reads (
    [(0x496081BD, .ld .b64 2 4 (.v 6) 0x3D), (0x4B9E8183, .st .b128 1 .zero (.v 6) 3), (0x4C408183, .ldl .s8 4 (.v 6) 3),
     (0x4E408183, .stl .b16 (.v 4) (.v 6) 3), (0x51308183, .ldp .b32 3 4 (.v 6) 3), (0x52D08183, .smp .s16 1 4 (.v 6) 3),
     (0x55370819, .atom .cas true .dev .ar 4 (.v 6)), (0x57490818, .red .fadd false .wkg .acq (.v 4) (.v 6)),
     (0x590A0818, .atoml .swap false .wkg .rel 4 (.v 6)), (0x5B820080, .ldo .b128 16 (.v 2) 0), (0x5D020085, .sto .b32 (.v 16) (.v 2) 5),
     (0x6001043F, .emit 4 8 63), (0x60413A3E, .resv 4 62), (0x6081043D, .wrec 4 8 61), (0x60C13A01, .publ 4 1), (0x61010402, .spawn 4 8 2),
     (0x63280429, .mmar .e2m1 true 32 8 20 true)]) := by decide +kernel

theorem test_words_branch_and_uniform : Reads (
    [(0x6852FFFD, .brd 20 5 (.ofInt 15 (-3))), (0x6A500009, .brs 20 9), (0x6C528000, .brxd 20 5), (0x80052510, .uadd (.g 5) (.g 9) (.g 17)),
     (0x80452510, .usub (.g 5) (.g 9) (.g 17)), (0x80852510, .umul (.g 5) (.g 9) (.g 17)), (0x80C52510, .uand (.g 5) (.g 9) (.g 17)),
     (0x81052510, .uor (.g 5) (.g 9) (.g 17)), (0x81452510, .uxor (.g 5) (.g 9) (.g 17)), (0x81852510, .uminS (.g 5) (.g 9) (.g 17)),
     (0x81C52510, .umaxS (.g 5) (.g 9) (.g 17)), (0x82052510, .ushl (.g 5) (.g 9) (.g 17)), (0x82452510, .ushr (.g 5) (.g 9) (.g 17)),
     (0x82852510, .usar (.g 5) (.g 9) (.g 17)), (0x82C52510, .uminN (.g 5) (.g 9) (.g 17)), (0x83052510, .umaxN (.g 5) (.g 9) (.g 17)),
     (0x83452510, .usel (.g 5) (.g 9) (.g 17)), (0x83C52780, .umov (.g 5) (.g 9)), (0x85C52510, .ucmp .gtN (.g 5) (.g 9) (.g 17)),
     (0x86292005, .uaddi (.g 5) (.g 9) 5)] ++
    [(0x88292005, .uandi (.g 5) (.g 9) 5), (0x8A2F1FFF, .umovi (.g 5) (.ofInt 13 (-1))), (0x8C052920, .uadd64 (.g 5) (.g 10) (.g 18)),
     (0x8C452920, .usub64 (.g 5) (.g 10) (.g 18)), (0x8C842910, .ushl64 (.g 4) (.g 10) (.g 17)), (0x8CC42B90, .ushr64 (.g 4) (.g 10) .wbaseLo),
     (0x8D052920, .umul64 (.g 5) (.g 10) (.g 18)), (0x8EC52BFF, .uld .s16 (.g 5) (.g 10) 0x3FF), (0x91052803, .ust .b32 (.g 5) (.g 10) 3),
     (0x93488006, .uldp true (.g 8) 2 6)]) := by decide +kernel

theorem test_words_control_and_sharing : Reads (
    [(0xA1FFFFFE, .bra (.ofInt 25 (-2))), (0xA2000003, .call 3), (0xA4000000, .ret), (0xA749FFFF, .brc .lez (.g 9) (.ofInt 16 (-1))),
     (0xA8382B80, .jmpi (.g 10)), (0xABC00000, .join 7), (0xAC8A1080, .dispatch 2 (.g 10) (.g 4) (.g 8)), (0xAE000000, .exit), (0xB0000000, .yield),
     (0xB2000000, .acq), (0xB4452510, .give .ls (.g 5) (.g 9) (.g 17)), (0xB6852780, .claim .ob (.g 5) (.g 9)),
     (0xB8052780, .mtokPass (.g 5) (.g 9)), (0xB845E380, .mtokTake (.g 5)), (0xBA1E6018, .launch 30 24), (0xBC370006, .rdsr (.g 6) .cluster),
     (0xBFC0800C, .wrsr .seedkey (.g 4))]) := by decide +kernel

theorem test_words_synchronisation : Reads (
    [(0xC0385B86, .bar .clu .zero (.g 22) .zero), (0xC0452514, .bara .wkg (.g 5) (.g 9) (.g 17)), (0xC0852514, .barw .wkg (.g 5) (.g 9) (.g 17)),
     (0xC3800000, .fence .sys), (0xC2810200, .fenceX .wkg 4 8), (0xC4000000, .efence), (0xC645292B, .mwait .eq true .dev (.g 5) (.g 10) (.g 18)),
     (0xC8052B80, .tagwAny (.g 5) (.g 10)), (0xC8452B80, .tagwAll (.g 5) (.g 10)), (0xC8852B80, .tagwFirst (.g 5) (.g 10)),
     (0xC8C52B80, .tagwClear (.g 5) (.g 10))]) := by decide +kernel

theorem test_words_engine : Reads (
    [(0xD0085020, .copyLin 8 20), (0xD0485020, .copyTile 8 20), (0xD0885020, .copyCb 8 20), (0xD0C85020, .copyGath 8 20), (0xD2085020, .hread 8 20),
     (0xD4085020, .gridRestrict 8 20), (0xD4485020, .gridProlong 8 20), (0xD4885020, .gridConvert 8 20), (0xD6085020, .mtile 8 20),
     (0xD8085020, .obresRsv 8 20), (0xD8485020, .obresRel 8 20), (0xD8885020, .obresQry 8 20), (0xDA085010, .ruleLoad 8 20),
     (0xDA485010, .ruleStep 8 20), (0xDA885010, .ruleXch 8 20), (0xDAC85010, .ruleQuery 8 20), (0xDC085010, .edgeFrame 8 20),
     (0xDC485010, .edgeCutmove 8 20), (0xDC885010, .edgeStatus 8 20), (0xDCC85010, .edgeFlush 8 20)]) := by decide +kernel

theorem test_words_other : Reads (
    [(0xDE38083A, .cond .dev (.g 2) (.g 3)), (0xE1C71234, .trap 0x1234), (0xE3C70007, .bkpt 7), (0xE400004D, .unop 77),
     (0xE6052510, .bank (.g 5) (.g 9) (.g 17))]) := by decide +kernel

/-- R49, R53, R55, R58: words that decode to nothing: the two illegal words, a latch destination that is not 116, a reserved operand code, a
store size between codes, a reserved bit, an unused op. -/
theorem test_words_illegal : ∀ w ∈ ([0x00000000, 0xFFFFFFFF, 0x02214491, 0x0201007E, 0x4B800180 + 2 ^ 22, 0xAE000001, 0x0F000000, 0x44000000,
    0x2D8004F4, 0xA4000004, 0x85000002, 0xDE380001, 0xB8C0E380, 0xFC000000] : List Nat), decodeTableWord 32 w = none := by decide +kernel

/-! ## Hypotheses that can be met: a state with one group that may issue -/

/-- Group 0 of a LIVE device stands on core 0 and is about to issue (DESIGN CHOICE, log 10). -/
def base : State := { placeBytes State.reset [] with cur := some 0 }

/-- A gate that lets the instruction through with no lane poisoned. -/
def goes : Gate → Bool
  | .go _ p => decide (p = 0)
  | _ => false

/-- The issue context of a gate that lets through. -/
def ctxOf : Gate → Ctx
  | .go c _ => c
  | _ => ⟨0, placedGroup, 0, 4, 0, false⟩

/-- Nothing held, nothing poisoned: the gate of most instructions. -/
abbrev gate0 (i : Instr) (n : Need) (s : State) : Gate := gate i n (fun _ => false) (fun _ _ => 0) s

theorem test_hyp_IntegerResults :
    (∀ x ∈ Spec.intTwo, goes (gate0 (x.1 (.v 111) (.v 0) (.lit 33)) (((needB0.src (.v 0)).src (.lit 33)).dst (.v 111)) base) = true) ∧
    (∀ x ∈ Spec.intOne, goes (gate0 (x.1 .latch .lane) ((needB0.src .lane).dst .latch) base) = true) ∧
    (∀ x ∈ Spec.intThree, goes (gate0 (x.1 5 (.v 5) (.g 5)) ((((needB0.src (.v 5)).src (.g 5)).vblk 5 1 1).dstN 5 1 1) base) = true) := by
  decide +kernel

theorem test_hyp_IntegerCompare :
    goes (gate0 (.icmp .ltS (.v 1) .zero .widHi) (((needB0.src .zero).src .widHi).dst (.v 1)) base) = true := by decide +kernel

theorem test_hyp_PairArithmetic :
    (∀ x ∈ Spec.pairOne, goes (gate0 (x.1 110 (.v 0) (.lit 64)) (((needB0.pair (.v 0)).src (.lit 64)).dstN 110 2 2) base) = true) ∧
    (∀ x ∈ Spec.pairAcc, goes (gate0 (x.1 2 (.v 2) (.v 3)) ((((needB0.src (.v 2)).src (.v 3)).vblk 2 2 2).dstN 2 2 2) base) = true) ∧
    (∀ x ∈ Spec.pairCmp, goes (gate0 (x.1 .latch .zero .lane) (((needB0.pair .zero).src .lane).dst .latch) base) = true) := by decide +kernel

theorem test_hyp_ImmediateForms :
    (∀ x ∈ Spec.intImm, goes (gate0 (x.1 (.v 1) .lane 0x3FF) ((needB0.src .lane).dst (.v 1)) base) = true) ∧
    (∀ x ∈ Spec.intShift, goes (gate0 (x.1 (.v 1) .lane 31) ((needB0.src .lane).dst (.v 1)) base) = true) ∧
    goes (gate0 (.movi (.v 0) 0x200) (needB0.dst (.v 0)) base) = true ∧
    (let w := 0x0E000000 + 2 ^ 24 + 2 ^ 17 * 115; w < 2 ^ 31 ∧ 7 ≤ w / 2 ^ 25 ∧ w / 2 ^ 25 ≤ 12 ∧ w / 2 ^ 24 % 2 = 1 ∧ w / 2 ^ 17 % 128 ≠ 116) ∧
    (let w := 0x1801D000 + 2 ^ 24; w < 2 ^ 31 ∧ 7 ≤ w / 2 ^ 25 ∧ w / 2 ^ 25 ≤ 12 ∧ w / 2 ^ 24 % 2 = 1 ∧ w / 2 ^ 17 % 128 ≠ 116) := by decide +kernel

theorem test_hyp_FloatResults :
    (∀ x ∈ Spec.floatTwo .rup .un, goes (gate0 (x.1 (.v 0) (.v 1) (.lit 0x7FC00000)) ((((needFp x.2.1).src (.v 1)).src (.lit 0x7FC00000)).dst (.v 0)) base) = true) ∧
    (∀ x ∈ Spec.floatOne .rtz, goes (gate0 (x.1 .latch (.v 1)) (((needFp x.2.1).src (.v 1)).dst .latch) base) = true) ∧
    (∀ x ∈ Spec.packedTwo true, goes (gate0 (x.1 (.v 0) (.v 1) (.v 0)) ((((needFp 1).src (.v 1)).src (.v 0)).dst (.v 0)) base) = true) ∧
    (∀ x ∈ Spec.floatThree .rne false, goes (gate0 (x.1 0 (.v 1) (.v 0)) (((((needFp 1).src (.v 1)).src (.v 0)).vblk 0 1 1).dstN 0 1 1) base) = true) := by
  decide +kernel

theorem test_hyp_FloatNanInvalidAndSelection : Spec.isNan 0x7F800001 = true ∧ Spec.isNan 0xFFFFFFFF = true ∧ Spec.isNan 0x7F800000 = false ∧
    Spec.isNan 0x807FFFFF = false := by decide +kernel

theorem test_hyp_SpecialFunctionCases : Spec.isNan 0xFFFFFFFF = true ∧ 0x80000000 < (0x80000001 : Word).toNat ∧ (0xFF800000 : Word).toNat ≤ 0xFF800000 :=
  ⟨by decide +kernel, by decide, by decide⟩

theorem test_hyp_Conversions :
    goes (gate0 (.cvt .f32n32 .rsr .latch (.v 1)) ((needCvt.srcN 1 (.v 1)).dst .latch) base) = true ∧
    goes (gate0 (.cvt .f16x2f32 .rne (.v 2) (.v 1)) ((needCvt.srcN 1 (.v 1)).dstN 2 2 2) base) = true ∧
    goes (gate0 (.cvt .s64f32 .rne (.v 2) .zero) ((needCvt.srcN 2 .zero).dst (.v 2)) base) = true ∧
    goes (gate0 (.cvtq .e2m1 (.v 3) (.v 4) (.lit 0x80)) ((((needCvt.vblk 4 4 4).src (.lit 0x80)).vblk 3 1 1).dst (.v 3)) base) = true ∧
    goes (gate0 (.cvtq .s8 .latch .zero .zero) ((needCvt.src .zero).dst .latch) base) = true ∧
    goes (gate0 (.cvtdq .s8 108 (.v 1) (.v 2)) (((needCvt.src (.v 1)).src (.v 2)).dstN 108 4 4) base) = true := by decide +kernel

theorem test_hyp_LaneExchange :
    (∀ m : Fin 4, goes (gate0 (.shfl m (.v 1) (.v 2) (.lit 1)) (((needXch.src (.v 2)).src (.lit 1)).dst (.v 1)) base) = true) ∧
    (∀ x ∈ Spec.exchange, goes (gate0 (x.1 .latch .lane) ((needXch.src .lane).dst .latch) base) = true) ∧
    goes (gate0 (.ballot 110 .lane) ((needXch.src .lane).dstN 110 2 2) base) = true ∧
    goes (gate0 (.match_ 0 (.v 1)) ((needXch.src (.v 1)).dstN 0 2 2) base) = true ∧
    goes (gate0 (.hadm true (.v 1) (.v 1) (.v 2)) (((needCvt.src (.v 1)).pair (.v 2)).dst (.v 1)) base) = true := by decide +kernel

theorem test_hyp_UniformResults :
    (∀ x ∈ Spec.uniTwo, goes (gate0 (x.1 (.g 55) (.g 0) (.lit 32)) (((Need.ofUni.usrc (.g 0)).usrc (.lit 32)).udst (.g 55)) base) = true ∧
      goes (gate0 (x.1 .zero .cyc .role) (((Need.ofUni.usrc .cyc).usrc .role).udst .zero) base) = true) ∧
    goes (gate0 (.ucmp .gtN (.g 0) .zero .frame) (((Need.ofUni.usrc .zero).usrc .frame).udst (.g 0)) base) = true ∧
    goes (gate0 (.usel (.g 1) (.g 2) (.g 3)) ((((Need.ofUni.usrc (.g 2)).usrc (.g 3)).ublk 1 1).udst (.g 1)) base) = true ∧
    goes (gate0 (.usel .zero (.g 2) (.g 3)) (((Need.ofUni.usrc (.g 2)).usrc (.g 3)).udst .zero) base) = true ∧
    goes (gate0 (.umov (.g 1) .wbaseLo) ((Need.ofUni.usrc .wbaseLo).udst (.g 1)) base) = true ∧
    goes (gate0 (.uaddi (.g 1) .gang 0x1FFF) ((Need.ofUni.usrc .gang).udst (.g 1)) base) = true ∧
    goes (gate0 (.uandi (.g 1) (.g 1) 0x1FFF) ((Need.ofUni.usrc (.g 1)).udst (.g 1)) base) = true ∧
    goes (gate0 (.umovi (.g 1) 0x1000) (Need.ofUni.udst (.g 1)) base) = true := by decide +kernel

theorem test_hyp_UniformPairs :
    (∀ x ∈ Spec.uniPairs, goes (gate0 (x.1 (.g 54) (.g 0) .zero) (((Need.ofUni.upair (.g 0)).upair .zero).udstPair (.g 54)) base) = true) ∧
    (∀ x ∈ Spec.uniShifts, goes (gate0 (x.1 .zero (.g 2) (.lit 64)) (((Need.ofUni.upair (.g 2)).usrc (.lit 64)).udstPair .zero) base) = true) := by
  decide +kernel

/-- A group of a workgroup of two with LS, OB, room to claim and rights to write its page; lane 0 alone is active where `one`. -/
def grp (one : Bool) : Group := { placedGroup with
  info := { placedGroup.info with prog := { (default : Program) with e1 := 2, full := 14, pro := 10, wbar := 2, width := 64, fields := [6, 1, 0, 0, 0, 0] } }
  c := { placedGroup.c with alloc := 10, lsLen := 4096, lsQuota := 16, obQuota := 16,
                            paths := [⟨0x100, if one then 1 else BitVec.allOnes 64, .run, 0⟩] } }

/-- Its workgroup. -/
def wg0 : Wg where
  vdev := 0
  core := 0
  owner := .grid 0
  prog := (grp false).info.prog
  gang := none
  rank := 0
  coords := [0, 0, 0]
  lsBase := 0
  lsLen := 4096
  obBase := 0
  obLen := 16
  former := false
  bars := []
  boxes := []
  token := some 0
  tokenWait := []
  killed := false

/-- A machine with group 0 as given and group 1 beside it. -/
def world (g : Group) : State := { base with
  groups := [(0, g), (1, { grp true with info := { (grp true).info with f1 := 1, age := 1, slot := 1 } })]
  wgs := [(0, wg0)]
  cores := [(0, { Core.initial with tlb := [{ placedPage with perms := 7 }] })] }

/-- Group 0 with words in lane 0's registers, and in its uniform registers. -/
def withV (g : Group) (l : List (Nat × Word)) : Group := { g with r := { g.r with v := l } }
def withG (g : Group) (l : List (Nat × Word)) : Group := { g with r := { g.r with g := l } }

theorem test_hyp_RequestsEnter :
    goes (gate (.ld .b128 3 76 .zero 0x20) ((needLoad.pair .zero).dstN 76 4 4) (fun _ => false) (pageExtra (pairEa .zero 0x20 16)) (world (grp false))) = true ∧
    goes (gate (.smp .s8 0 0 (.v 2) 0) ((needLoad.pair (.v 2)).dstN 0 1 1) (fun _ => false) (pageExtra (pairEa (.v 2) 0 1)) (world (grp false))) = true ∧
    (let s := world { grp true with info := { (grp true).info with prog := { (grp true).info.prog with wins := [(0, 0), (0, 0), (0, 0), (0x40, 8)] } } }
     goes (gate (.ldp .b64 3 0 (.v 3) 1) { (needLoad.src (.v 3)).dstN 0 2 2 with win := some 3 } (fun _ => false)
      (fun g m => samePage g (ldpEa .b64 3 (.v 3) 1 g) (ldpNear .b64 3 (.v 3) 1 g m)) s) = true) ∧
    goes (gate (.atom .cas true .sys .ar 4 (.v 0)) (((needLoad.pair (.v 0)).vblk 4 (atomRegs .cas true) (atomRegs .cas true)).dstN 4 (atomBack true) (atomBack true))
      (fun g => Ord4.releases .ar && outstanding g [clsLSU]) (pageExtra (atomEa (.v 0))) (world (grp true))) = true ∧
    goes (gate (.uld .b64 (.g 2) (.g 4) 0x3FF) { (Need.ofUni.upair (.g 4)).udstPair (.g 2) with entry := true, mem := true } (fun _ => false)
      (uniExtra (uniEa (.g 4) 0x3FF 8)) (world (grp true))) = true ∧
    (let s := world { grp true with info := { (grp true).info with prog := { (grp true).info.prog with wins := [(0x40, 16)] } } }
     goes (gate (.uldp true (.g 8) 0 2) { Need.ofUni.udstPair (.g 8) with entry := true, mem := true, win := some 0 } (fun _ => false) (uniExtra (uldpEa 0 8)) s) = true) ∧
    goes (gate (.dispatch 3 (.g 10) (.g 4) (.g 8)) { ((Need.ofUni.ublk 4 4).upair (.g 8)).udstPair (.g 10) with entry := true, mem := true } (fun _ => false)
      (dispatchExtra (world (grp true)) (.g 8)) (world (grp true))) = true := by decide +kernel

theorem test_hyp_LocalLoadsAndStores :
    (let s := world (withV (grp true) [(2, 4080)])
     let k := gate (.ldl .b128 4 (.v 2) 0) ((needLoad.src (.v 2)).dstN 4 4 4) (storeWait s (.ldl .b128 4 (.v 2) 0) (singleEa (.v 2) 0 16)) (fun _ _ => 0) s
     goes k = true ∧ ∀ l ∈ lanesOf (ctxOf k).mask, loadLs s (ctxOf k).g l (singleEa (.v 2) 0 16 (ctxOf k).g l) 16 = .ok (List.replicate 16 0)) ∧
    (let s := world (withV (grp true) [(2, 4080)])
     let k := gate (.ldo .b128 4 (.v 2) 0) ((needLoad.src (.v 2)).dstN 4 4 4) (storeWait s (.ldo .b128 4 (.v 2) 0) (singleEa (.v 2) 0 16)) (fun _ _ => 0) s
     goes k = true ∧ ∀ l ∈ lanesOf (ctxOf k).mask, loadOb s (ctxOf k).g l (singleEa (.v 2) 0 16 (ctxOf k).g l) 16 = .ok (List.replicate 16 0)) ∧
    (let s := world (withV (grp true) [(2, 4092)])
     let k := gate (.stl .b32 (.v 1) (.v 2) 0) ((needStore.src (.v 2)).srcN 1 (.v 1)) (storeWait s (.stl .b32 (.v 1) (.v 2) 0) (singleEa (.v 2) 0 4)) (fun _ _ => 0) s
     goes k = true ∧ lanesOf (ctxOf k).mask = [0] ∧ lsPlace (ctxOf k).g 0 (singleEa (.v 2) 0 4 (ctxOf k).g 0) 4 = .ok 4092) ∧
    (let s := world (withV (grp true) [(2, 4080)])
     let k := gate (.sto .b128 .zero (.v 2) 0) ((needStore.src (.v 2)).srcN 4 .zero) (storeWait s (.sto .b128 .zero (.v 2) 0) (singleEa (.v 2) 0 16)) (fun _ _ => 0) s
     goes k = true ∧ lanesOf (ctxOf k).mask = [0] ∧ obPlace s (ctxOf k).g 0 (singleEa (.v 2) 0 16 (ctxOf k).g 0) 16 = .ok 4080) ∧
    (let s := world (withV (grp true) [(2, 4088)])
     let k := gate (.atoml .cas true .wkg .rel 4 (.v 2)) (((needLoad.src (.v 2)).vblk 4 4 4).dstN 4 2 2)
        (fun g => storeWait s (.atoml .cas true .wkg .rel 4 (.v 2)) (singleEa (.v 2) 0 1) g || (Ord4.releases .rel && outstanding g [clsLSU])) (fun _ _ => 0) s
     goes k = true ∧ lanesOf (ctxOf k).mask = [0] ∧ lsPlace (ctxOf k).g 0 (singleEa (.v 2) 0 1 (ctxOf k).g 0) 8 = .ok 4088 ∧ (s.core 0).lsBad 4088 8 = false) := by
  decide +kernel

theorem test_hyp_GlobalStores :
    (let s := world (withV (grp true) [(2, 4080)])
     let i : Instr := .st .b128 0 .zero (.v 2) 0
     let ea := pairEa (.v 2) 0 16
     let n := (needStore.pair (.v 2)).dataN 4 .zero
     let k := gate i n (storeWait s i ea) (pageExtra ea) s
     let c := ctxOf k
     let r := (mkReq i c ea (stData 4 .zero) [] 0 s.now).only ((lineSets (ea c.g) c.mask).headD 0) 0
     goes k = true ∧ (performLanes (stLane .b128 0) c.g r (lanesOf r.lanes) (account n c s)).2.2 = [] ∧ lanesOf r.lanes = [0] ∧
       storedAt (stLane .b128 0) c.g r 16 2 (ioSize 16) (lanesOf r.lanes) (account n c s) = [.phys 0x100FF0 0] ∧ region s 0x100FF0 = .hbm) ∧
    (let s := world (withG (grp true) [(4, 4088)])
     let i : Instr := .ust .b64 (.g 2) (.g 4) 0
     let ea := uniEa (.g 4) 0 8
     let n := { (Need.ofUni.upair (.g 4)).usrcPair (.g 2) with mem := true }
     let k := gate i n (uniWait s i ea) (uniExtra ea) s
     let c := ctxOf k
     let r := mkUniReq i c (ea c.g) (ustWords s c.g 2 (.g 2)) [] 0 s.now
     goes k = true ∧ (performLanes (ustAcc .b64) c.g r [64] (account n c s)).2.2 = [] ∧
       storedAt (ustAcc .b64) c.g r 8 2 (ioSize 8) [64] (account n c s) = [.phys 0x100FF8 0]) ∧
    (let s := world (withV (grp true) [(2, 4)])
     let i : Instr := .red .add false .wkg .ar (.v 1) (.v 2)
     let n := (needStore.pair (.v 2)).srcN 1 (.v 1)
     let k := gate i n (fun g => storeWait s i (atomEa (.v 2)) g || (Ord4.releases .ar && outstanding g [clsLSU])) (pageExtra (atomEa (.v 2))) s
     let c := ctxOf k
     let r := (mkReq i c (atomEa (.v 2)) (fun g l => lsrcWords g l 1 (.v 1)) [] 0 s.now).only ((lineSets (atomEa (.v 2) c.g) c.mask).headD 0) 0
     let u := (redAcc .add false .wkg).pre (releaseLsu (account n c s) 0 .wkg) c.g r
     goes k = true ∧ (performLanes (redLane .add false .wkg) c.g r (lanesOf r.lanes) u).2.2 = [] ∧
       storedAt (redLane .add false .wkg) c.g r 4 3 false (lanesOf r.lanes) u = [.phys 0x100004 0] ∧ find? (s.core 0).l1 (0x100004 / 128) = none) := by
  decide +kernel

theorem test_hyp_MemoryValuesOfLoadsAndAtomics :
    (let x := place (world (grp true)) (grp true) 0 124 4 1 true true
     x.2 = .ok (.phys 0x10007C 0) ∧ region x.1 0x10007C = .hbm ∧ x.1.poisoned 0x10007C = false ∧ 0x10007C % 128 + 4 ≤ 128 ∧
       find? (x.1.core 0).l1 (0x10007C / 128) = none) ∧
    region (world (grp true)) 0x100000 = .hbm ∧ (world (grp true)).poisoned 0x100000 = false := by decide +kernel

theorem test_hyp_UnopChangesNothing : goes (gate0 (.unop 0x1FFFFFF) Need.ofUni base) = true ∧
    (let s := world { grp true with c := { (grp true).c with chain := some ⟨8, 2, true⟩ } }
     goes (gate0 (.unop 0) Need.ofUni s) = true ∧ (ctxOf (gate0 (.unop 0) Need.ofUni s)).g.c.chain = some ⟨8, 2, true⟩) := by decide +kernel

theorem test_hyp_BranchesCallsAndReturns :
    goes (gate0 (.bra 0x1000000) needCtl base) = true ∧ goes (gate0 (.brc .lez (.g 0) 0x8000) (needCtl.usrc (.g 0)) base) = true ∧
    goes (gate0 (.jmpi (.g 54)) (needCtl.upair (.g 54)) base) = true ∧
    (let k := gate0 (.call 1) needCtl (world (grp true)); goes k = true ∧ stackFull (ctxOf k).g (ctxOf k).mask = false) ∧
    (let k := gate0 (.call 1) needCtl (world { grp true with r := { (grp true).r with stack := [(0, [1, 2, 3, 4, 5, 6, 7, 8])] } })
     goes k = true ∧ stackFull (ctxOf k).g (ctxOf k).mask = true) ∧
    (let s := world { grp true with r := { (grp true).r with stack := [(0, [0x200])] } }
     let k := gate .ret needCtl (fun g => match curPath g.c.paths with
      | some p => lanesBusy g (retExits g p.mask) || exitHeld s g (retExits g p.mask) || leaveBusy g ((retSets g p.mask).length - 1)
      | none => false) (fun g m => exitStops g (retExits g m)) s
     goes k = true ∧ (ctxOf k).mask ≠ 0 ∧ (∀ l ∈ lanesOf (ctxOf k).mask, (mget [] (ctxOf k).g.r.stack l).head? = some 0x200) ∧
       (ctxOf k).g.c.paths.length ≤ 8) := by decide +kernel

/-- The hypotheses of BRD and BRS with lane 0 taken and lane 1 not, those of one side empty, a BRXD, and a JOIN with and without its record. -/
theorem test_hyp_DivergenceJoinAndSplit :
    (let two := { grp true with c := { (grp true).c with paths := [⟨0x100, 3, .run, 0⟩] } }
     let s := world (withV two [(5, 1)])
     let k := gate (.brd 5 7 1) (needBr 5) (onPath fun g p => decide (brsOut g 5 p.mask ≠ 0) && leaveBusy g 1) (fun _ _ => 0) s
     goes k = true ∧ takenLanes (ctxOf k).g 5 (ctxOf k).mask = 1 ∧ (ctxOf k).mask &&& ~~~(1 : Mask) ≠ 0 ∧ (ctxOf k).g.c.paths.length < 8 ∧
       roomFor s (ctxOf k).g 0 = true ∧ find? (ctxOf k).g.c.joins 7 = none ∧
       (let q := gate (.brs 5 1) (needBr 5) (onPath fun g p => lanesBusy g (brsOut g 5 p.mask)) (fun _ _ => 0) s
        goes q = true ∧ roomFor s (ctxOf q).g 1 = true)) ∧
    (let k := gate (.brd 5 0 1) (needBr 5) (onPath fun g p => decide (brsOut g 5 p.mask ≠ 0) && leaveBusy g 1) (fun _ _ => 0) (world (grp true))
     goes k = true ∧ takenLanes (ctxOf k).g 5 (ctxOf k).mask = 0) ∧
    (let k := gate (.brd 5 0 1) (needBr 5) (onPath fun g p => decide (brsOut g 5 p.mask ≠ 0) && leaveBusy g 1) (fun _ _ => 0) (world (withV (grp true) [(5, 1)]))
     goes k = true ∧ takenLanes (ctxOf k).g 5 (ctxOf k).mask ≠ 0 ∧ (ctxOf k).mask &&& ~~~takenLanes (ctxOf k).g 5 (ctxOf k).mask = 0) ∧
    (let k := gate (.brxd 5 0) (needBr 5) (onPath fun g p => leaveBusy g ((brxdSets g 5 p.pc p.mask).length - 1)) (fun _ _ => 0) (world (withV (grp true) [(5, 8)]))
     goes k = true ∧ (ctxOf k).mask ≠ 0 ∧ ∀ l ∈ lanesOf (ctxOf k).mask, target (ctxOf k).pc (((ctxOf k).g.r.getV l 5).toInt / 4) = 0x108) ∧
    goes (gate0 (.join 0) needCtl base) = true ∧
    (let k := gate0 (.join 7) needCtl (world { grp true with c := { (grp true).c with joins := [(7, ⟨3, 2⟩)] } })
     goes k = true ∧ find? (ctxOf k).g.c.joins 7 = some ⟨3, 2⟩ ∧ (2 : Mask) ||| (ctxOf k).mask = 3 ∧ (2 : Mask) ||| (ctxOf k).mask ≠ 7) := by decide +kernel

/-- Group 0 with lanes 0 and 1 on one path, and seven more paths in a state. -/
def fullTable (g : Group) (st : PathSt) : Group :=
  { g with c := { g.c with paths := ⟨0x100, 3, .run, 0⟩ :: (List.range 7).map fun i => ⟨0x200, laneBit (i + 2), st, i + 1⟩ } }

/-- The gates of RET, BRD and BRXD. -/
def retGate (s : State) : Gate := gate .ret needCtl (fun g => match curPath g.c.paths with
  | some p => lanesBusy g (retExits g p.mask) || exitHeld s g (retExits g p.mask) || leaveBusy g ((retSets g p.mask).length - 1)
  | none => false) (fun g m => exitStops g (retExits g m)) s
def brdGate (s : State) : Gate := gate (.brd 5 7 1) (needBr 5) (onPath fun g p => decide (brsOut g 5 p.mask ≠ 0) && leaveBusy g 1) (fun _ _ => 0) s
def brxdGate (s : State) : Gate := gate (.brxd 5 0) (needBr 5) (onPath fun g p => leaveBusy g ((brxdSets g 5 p.pc p.mask).length - 1)) (fun _ _ => 0) s

/-- Group 0 with return stacks. -/
def withStacks (g : Group) (l : List (Nat × List Nat)) : Group := { g with r := { g.r with stack := l } }

/-- RET with lanes that disagree, with one that ends, with all that end (R90). -/
theorem test_hyp_ReturnsThatSplitAndEnd :
    (let two := { grp true with c := { (grp true).c with paths := [⟨0x100, 3, .run, 0⟩] } }
     let k := retGate (world (withStacks two [(0, [0x200]), (1, [0x300])]))
     let j := retGate (world (withStacks two [(1, [0x300])]))
     let e := retGate (world two)
     goes k = true ∧ retExits (ctxOf k).g (ctxOf k).mask = 0 ∧ (ctxOf k).g.c.paths.length + (retSets (ctxOf k).g (ctxOf k).mask).length ≤ 9 ∧
       goes j = true ∧ retExits (ctxOf j).g (ctxOf j).mask = 1 ∧ retSets (ctxOf j).g (ctxOf j).mask = [(0x300, 2)] ∧
       goes e = true ∧ retExits (ctxOf e).g (ctxOf e).mask = (ctxOf e).mask ∧ (ctxOf e).mask ≠ 0 ∧ (ctxOf e).g.c.paths = [⟨0x100, 3, .run, 0⟩]) := by decide +kernel

/-- Splits in a full table: the oldest WAIT entry leaves, or, where every other is PARKED, the new side (R74). -/
theorem test_hyp_FullTablesSplit :
    (∀ st ∈ [PathSt.wait, .parked],
      let r := world (withStacks (fullTable (grp true) st) [(0, [0x200]), (1, [0x300])])
      let b := world (fullTable (withV (grp true) [(5, 1)]) st)
      let x := world (fullTable (withV (grp true) [(5, 8), (133, 16)]) st)
      goes (retGate r) = true ∧ retSets (ctxOf (retGate r)).g (ctxOf (retGate r)).mask = [(0x200, 1), (0x300, 2)] ∧
      goes (brdGate b) = true ∧ takenLanes (ctxOf (brdGate b)).g 5 (ctxOf (brdGate b)).mask = 1 ∧
      goes (brxdGate x) = true ∧ (brxdSets (ctxOf (brxdGate x)).g 5 0x100 (ctxOf (brxdGate x)).mask).length = 2 ∧
      ∀ s ∈ [r, b, x], ((s.group? 0).map fun g => (g.c.paths.length, roomFor s g 1)) = some (8, true)) ∧
    (let ps := (fullTable (grp true) .wait).c.paths
     (∀ p ∈ ps, p.st ≠ .run → p.stamp = 1 ∨ 1 < p.stamp) ∧ (laneBit 2 &&& (3 : Mask)) = 0) ∧
    (∀ p ∈ (fullTable (grp true) .parked).c.paths, p.st = .run ∨ p.st = .parked) := by decide +kernel

theorem test_hyp_YieldAcquireExitAndIssueEvents :
    (let k := gate .exit needCtl (onPath fun g p => lanesBusy g p.mask || exitHeld (world (grp false)) g p.mask) exitStops (world (grp false))
     goes k = true ∧ (ctxOf k).g.c.paths = [⟨0x100, BitVec.allOnes 64, .run, 0⟩]) ∧
    goes (gate0 .yield needCtl base) = true ∧ goes (gate0 .acq needCtl (world (grp false))) = true ∧ goes (gate0 .acq needCtl base) = true ∧
    (let s := { world { grp true with c := { (grp true).c with sb := [(7, ⟨[3], [], 31, true, some 9⟩)] } } with now := 9 }
     (s.group? 0).map (fun g => find? g.c.sb 7) = some (some ⟨[3], [], 31, true, some 9⟩)) ∧
    (let s := { world { grp true with c := { (grp true).c with wait := .yielding 9 } } with now := 9 }
     (s.group? 0).map (·.c.wait) = some (.yielding 9)) ∧
    (let g := { grp false with c := { (grp false).c with wait := .acq } }
     let s := world g
     s.group? 0 = some g ∧ (s.vdev 0).st = .live ∧ (∀ e ∈ s.groups, e.2.info.core = 0 → e.2.c.wait = .acq → e = (0, g) ∨ g.info.age < e.2.info.age) ∧
       8 * (g.info.prog.full - g.c.alloc) * g.info.width ≤ regsFree s 0) ∧
    (let s := { world (grp true) with now := 256 }
     s.group? 0 = some (grp true) ∧ (curPath (grp true).c.paths).isSome = true ∧ mayRun s 0 (grp true) = true ∧ (grp true).c.readyCc + 256 ≤ s.now ∧
       ∀ e ∈ s.groups, e.2.info.core = 0 → e.2.info.slot = 0 → nextPerLane s e.2 = nextPerLane s (grp true) → starved s e.1 e.2 = true → (grp true).info.age ≤ e.2.info.age) := by
  decide +kernel

theorem test_hyp_IssueConditionsAndPoison :
    (let n := ((needB0.src (.v 1)).src (.v 2)).dst (.v 79)
     let g := grp true
     let s := world g
     s.cur = some 0 ∧ s.group? 0 = some g ∧ curPath g.c.paths = some ⟨0x100, 1, .run, 0⟩ ∧ g.c.wait = .none ∧ (s.vdev 0).st = .live ∧ trapOf s g n = none ∧
       sbHeld g n = false ∧ 0 < (s.cluster 0).energy ∧ (s.die 0).c210 = false ∧ slotChained s 0 g = false ∧ mmarPending g = false ∧ g.r.vmark = [] ∧ g.r.gmark = []) ∧
    (let n := ((needB0.src (.v 1)).src (.v 2)).dst (.v 3)
     ∀ x ∈ Spec.intTwo, gate0 (x.1 (.v 3) (.v 1) (.v 2)) n (world { grp true with c := { (grp true).c with sb := [(0, ⟨[3], [], 0, false, none⟩)] } }) = .held) ∧
    (let n := ((needB0.src (.v 1)).src (.v 2)).dst (.v 80)
     ∀ x ∈ Spec.intTwo, gate0 (x.1 (.v 80) (.v 1) (.v 2)) n (world (grp true)) = .trap 0 0x31 0x100) ∧
    (privileged (world (grp true)) 0 = false) ∧
    (let g := { grp true with r := { (grp true).r with vmark := [(1, ⟨0x20, 4, 0, 0⟩)] } }
     let n := ((needB0.src (.v 1)).src (.v 2)).dst (.v 3)
     (∀ x ∈ Spec.intTwo, gate0 (x.1 (.v 3) (.v 1) (.v 2)) n (world g) = .go ⟨0, g, 0x100, 4, 1, endsChain (.iadd (.v 3) (.v 1) (.v 2))⟩ 1) ∧ settleMarks n 1 g.c g.r = g.c ∧ g.c.fatal = []) := by
  decide +kernel

/-- Each trap condition, alone (R50): PRIV, allotment, alignment, latch, window. -/
theorem test_hyp_TrapConditions :
    (let g := grp true
     let s := world g
     trapOf s g { Need.ofUni with priv := true } = some 0x30 ∧ trapOf s g (needB0.dst (.v 80)) = some 0x31 ∧ trapOf s g (needB0.pair (.v 3)) = some 0x32 ∧
       trapOf s g { Need.ofUni with even := [3] } = some 0x32 ∧ trapOf s g { needB0 with latches := [1] } = some 0x33 ∧
       trapOf s g { needLoad with win := some 0 } = some 0x34 ∧ trapOf s g (needB0.dst (.v 79)) = none) := by decide +kernel

/-- Held, trapping and parking instructions are among those that the gate's statement speaks of. -/
theorem test_hyp_Gated (s : State) : Gated s (.iadd (.v 80) (.v 1) (.v 2)) (((needB0.src (.v 1)).src (.v 2)).dst (.v 80)) noWait noLanes ∧
    Gated s .yield needCtl noWait noLanes ∧ Gated s (.copyLin 48 47) ((Need.ofUni.ublk 48 8).udst (.g 47)) noWait noLanes :=
  ⟨.intTwo _ (List.Mem.head _) (.v 80) (.v 1) (.v 2), .yield, .engine .copyLin (by simp) 48 47⟩

/-- All lanes poisoned, with a fatal mark. -/
theorem test_hyp_FatalPoison :
    (let g := { grp true with r := { (grp true).r with vmark := [(1, ⟨0x23, 0, 2, 0x40⟩)] }, c := { (grp true).c with fatal := [(0, ⟨0x23, 2, 0x40⟩)] } }
     let n := ((needB0.src (.v 1)).src (.v 2)).dst (.v 3)
     gate (.iadd (.v 3) (.v 1) (.v 2)) n noWait noLanes (world g) = .go ⟨0, g, 0x100, 4, 1, endsChain (.iadd (.v 3) (.v 1) (.v 2))⟩ 1 ∧
       ((settleMarks n 1 g.c g.r).fatal.filter fun f => (1 : Mask).getLsbD f.1) = [(0, ⟨0x23, 2, 0x40⟩)]) := by decide +kernel

/-- A region that no dirty byte of core 0 lies in; an event log with room, one without, and an event of the present generation. -/
theorem test_hyp_RegionApart (g : Group) : RegionApart (world g) 0 0 := by
  intro x l h
  have : ((world g).core 0).l1 = [] := rfl
  rw [this] at h
  cases h

theorem test_hyp_Logged :
    ((world (grp true)).vdev 0).gen = (grp true).info.gen ∧
    (∀ n ∈ [1919, 1920], let s := (world (grp true)).setNum (crb (world (grp true)) 0 + 0x20) 4 n
     decide ((s.num (crb s 0 + 0x20) 4 + 2 ^ 32 - s.num (crb s 0 + 0x24) 4) % 2 ^ 32 < 1920) = decide (n = 1919)) := by decide +kernel

/-- A context with TRAPMODE STOP: CTL bit 1. -/
def stopMode : State := (world (grp true)).setNum 0x100000000 4 2

theorem test_hyp_TrapsAndIllegalWords :
    goes (gate0 (.trap 0x1FFF) Need.ofUni stopMode) = true ∧ goes (gate0 (.bkpt 0) Need.ofUni stopMode) = true ∧ trapStops stopMode 0 = true ∧
    goes (gate0 (.trap 0) Need.ofUni base) = true ∧ goes (gate0 (.bkpt 0) Need.ofUni base) = true ∧ trapStops base 0 = false ∧
    goes (gate0 (.unop 0) Need.ofUni base) = true := by decide +kernel

theorem test_hyp_SpecialRegisters :
    (∀ r ∈ ([.fstat, .progress, .errst, .readcount, .core, .cluster, .die, .part, .vdev, .gen, .cutgen] : List SReg), r.wide = false ∧
      goes (gate (.rdsr (.g 55) r) (Need.ofUni.udst (.g 55)) (fun g => decide (r = .fstat) && flagsPending g) (fun _ _ => 0) base) = true) ∧
    (∀ r ∈ ([.tags, .seedkey] : List SReg), r.wide = true ∧ goes (gate0 (.rdsr (.g 54) r) (Need.ofUni.udstPair (.g 54)) base) = true) ∧
    goes (gate0 (.wrsr .fstat (.g 1)) (Need.ofUni.usrc (.g 1)) base) = true ∧ goes (gate0 (.wrsr .readcount .zero) (Need.ofUni.usrc .zero) base) = true ∧
    goes (gate0 (.wrsr .seedkey (.g 2)) (Need.ofUni.usrcPair (.g 2)) base) = true ∧
    goes (gate0 (.wfld 5 .latch) (needB0.dst .latch) base) = true := by decide +kernel

/-- The gate of GIVE. -/
def giveGate (res : Resource) (d : UDst) (a b : USrc) (s : State) : Gate := gate (.give res d a b) (((Need.ofUni.usrc a).usrc b).udst d)
  (fun g => decide (res = .reg) && decide (giveStatus g res (usrc s g a).toNat (usrc s g b).toNat = 0) && decide ((usrc s g a).toNat ≠ 0)
    && pendingFrom g (8 * (g.c.alloc - (usrc s g a).toNat))) (fun _ _ => 0) s

/-- A group of split threads. -/
def splitGroup : Group := { grp true with info := { (grp true).info with source := .split } }

theorem test_hyp_GivingAndClaimingUnits :
    (goes (giveGate .reg (.g 0) (.lit 9) (.g 1) (world (withG (grp true) [(1, 1)]))) = true ∧ (grp true).formerBuilt = false ∧ givable (grp true) .reg = 9) ∧
    (goes (giveGate .reg (.g 0) (.lit 10) (.g 1) (world (withG (grp true) [(1, 1)]))) = true ∧ goes (giveGate .ls (.g 0) (.lit 17) (.g 1) (world (withG (grp true) [(1, 1)]))) = true) ∧
    (goes (giveGate .ob (.g 0) (.lit 1) (.g 1) (world (withG (grp true) [(1, 2)]))) = true ∧ goes (giveGate .reg (.g 0) (.lit 1) .zero (world (grp true))) = true) ∧
    (goes (giveGate .ls .zero .zero .zero (world (grp true))) = true) ∧ (goes (giveGate .reg (.g 0) (.lit 1) .zero (world splitGroup)) = true ∧ splitGroup.formerBuilt = true) ∧
    (let n := ((Need.ofUni.usrc (.lit 4)).udst (.g 0))
     let s : State := { world (grp true) with wgs := [(0, { wg0 with boxes := [(0, [4, 4, 4])] })] }
     goes (gate0 (.claim .reg (.g 0) (.lit 4)) n s) = true ∧ (grp true).c.alloc + 4 = 14 ∧ boxHas s (grp true) .reg 4 = true ∧
       goes (gate0 (.claim .ob (.g 0) (.lit 4)) n s) = true ∧ boxHas (world (grp true)) (grp true) .ob 4 = false ∧ goes (gate0 (.claim .ob (.g 0) (.lit 4)) n (world (grp true))) = true ∧
       goes (gate0 (.claim .reg (.g 0) (.lit 5)) ((Need.ofUni.usrc (.lit 5)).udst (.g 0)) s) = true ∧
       goes (gate0 (.claim .reg (.g 0) (.lit 4)) n (world splitGroup)) = true) ∧
    (let g := { grp true with c := { (grp true).c with wait := .claim .ls 4 (.g 3) } }
     let s : State := { world g with wgs := [(0, { wg0 with boxes := [(0, [0, 4, 0])] })] }
     s.group? 0 = some g ∧ (s.vdev 0).st = .live ∧ boxHas s g .ls 4 = true) := by decide +kernel

theorem test_hyp_MatrixToken :
    (let n := ((Need.ofUni.usrc (.lit 1)).udst (.g 0))
     goes (gate0 (.mtokPass (.g 0) (.lit 1)) n (world (grp true))) = true ∧ (world (grp true)).wg? 0 = some wg0 ∧ wg0.token = some 0 ∧
       groupOf (world (grp true)) 0 1 = some 1 ∧ groupOf (world (grp true)) 0 2 = none ∧ goes (gate0 (.mtokPass (.g 0) (.lit 1)) n (world splitGroup)) = true) ∧
    ([0xFFFFFFFF, 2].all fun a => goes (gate0 (.mtokPass (.g 0) (.lit a)) ((Need.ofUni.usrc (.lit a)).udst (.g 0)) (world (grp true)))) = true ∧
    (let s : State := { world (grp true) with wgs := [(0, { wg0 with token := some 1 })] }
     goes (gate0 (.mtokPass (.g 0) (.lit 1)) ((Need.ofUni.usrc (.lit 1)).udst (.g 0)) s) = true ∧
       goes (gate0 (.mtokTake (.g 0)) (Need.ofUni.udst (.g 0)) s) = true) ∧
    goes (gate0 (.mtokTake (.g 0)) (Need.ofUni.udst (.g 0)) (world (grp true))) = true ∧
    goes (gate0 (.mtokTake (.g 0)) (Need.ofUni.udst (.g 0)) (world splitGroup)) = true ∧
    (let g := { grp true with c := { (grp true).c with wait := .take (.g 3) } }
     let s : State := { world g with wgs := [(0, { wg0 with token := none, tokenWait := [0] })] }
     s.wg? 0 = some { wg0 with token := none, tokenWait := [0] } ∧ (s.vdev 0).st = .live ∧ s.group? 0 = some g) := by decide +kernel

/-- A world whose workgroup has barrier object 0 as given. -/
def barWorld (k : Barrier) : State := { world (grp true) with wgs := [(0, { wg0 with bars := [(0, k)] })] }

theorem test_hyp_Barriers :
    (∀ x ∈ ([.bar, .bara] : List (Scope → UDst → USrc → USrc → Instr)), ∀ s ∈ [barWorld ⟨2, 1, 0xFFFF, false, false⟩, barWorld ⟨2, 1, 0, true, false⟩, barWorld ⟨0, 0, 0, false, false⟩],
      goes (gate (x .wkg (.g 1) .zero (.lit 2)) (needBar (.g 1) .zero (.lit 2)) (barHeld s .zero (.lit 2)) (fun _ _ => 0) s) = true ∧ (barObj s (grp true) 0).isSome = true) ∧
    (barValid (grp true) 0 = true ∧ barValid (grp true) 1 = true ∧ barValid (grp true) 2 = false) ∧
    goes (gate (.bar .wkg (.g 1) (.lit 2) .zero) (needBar (.g 1) (.lit 2) .zero) (barHeld (world (grp true)) (.lit 2) .zero) (fun _ _ => 0) (world (grp true))) = true ∧
    (goes (gate (.bar .wkg (.g 1) .zero (.lit 2049)) (needBar (.g 1) .zero (.lit 2049)) (barHeld (world (grp true)) .zero (.lit 2049)) (fun _ _ => 0) (world (grp true))) = true ∧
      goes (gate (.bar .wkg (.g 1) .zero (.lit 2048)) (needBar (.g 1) .zero (.lit 2048)) (barHeld (world (grp true)) .zero (.lit 2048)) (fun _ _ => 0) (world (grp true))) = true) ∧
    ([0, 0xFFFF, 0x10000].all fun b => goes (gate0 (.barw .wkg (.g 1) .zero (.lit b)) (needBar (.g 1) .zero (.lit b)) (barWorld ⟨2, 1, 0xFFFF, false, false⟩))) = true ∧
    goes (gate0 (.barw .wkg (.g 1) .zero .zero) (needBar (.g 1) .zero .zero) (barWorld ⟨2, 1, 0, true, false⟩)) = true := by decide +kernel

/-- Group 0 of `world` in a wait. -/
def waiting (w : Wait) : Group := { grp true with c := { (grp true).c with wait := w } }

/-- A machine whose core 0 has tags 3 and 7 set. -/
def tagged (g : Group) : State := { world g with cores := [(0, { Core.initial with tlb := [{ placedPage with perms := 7 }], tags := 0x88 })] }

theorem test_hyp_FencesWaitsAndTags :
    goes (gate0 (.fence .sys) needCtl base) = true ∧ goes (gate0 (.fenceX .dev 0x80 1) needCtl base) = true ∧ goes (gate0 .efence needCtl base) = true ∧
    (∀ w : Bool, goes (gate (.mwait .ge w .dev (.g 0) (.g 2) (.g 4))
      (if w then ((Need.ofUni.upair (.g 2)).usrcPair (.g 4)).udstPair (.g 0) else ((Need.ofUni.upair (.g 2)).usrc (.g 4)).udst (.g 0))
      (fun _ => false) (uniExtra fun g => (upair g (.g 2)).toNat) base) = true) ∧
    (let g := waiting (.fence .clu 0 0)
     (world g).group? 0 = some g ∧ ((world g).vdev 0).st = .live ∧ outstanding g (fenceFrom 0) = false ∧ 3 ≤ scopeCode .clu ∧ scopeCode .wkg < 3) ∧
    (let g := waiting .efence
     (world g).group? 0 = some g ∧ curPath g.c.paths = some ⟨0x100, 1, .run, 0⟩ ∧ ((world g).vdev 0).st = .live ∧ inFlight g = false ∧ exitStops g 1 = 0) ∧
    (let q : Req := { (default : Req) with instr := .ld .b32 0 1 (.v 2) 0, pc := 0xFC, lanes := 1, addr := [(0, 0)], token := 5, sent := true }
     let g := { waiting .efence with c := { (waiting .efence).c with reqs := [(3, q)] } }
     inFlight g = false ∧ exitStops g 1 = 1 ∧ g.c.fatal = []) ∧
    (let g := waiting (.mwait .ne true .dev (.g 2) 8 1)
     let x := mwaitRead (world g) g 0x100 8 (aopSize true) .dev
     (world g).group? 0 = some g ∧ waitPacket g = false ∧ x.2 = .ok (List.replicate 8 0) ∧ BitVec.ofNat 64 (leNat (List.replicate 8 0)) ≠ (1 : DWord) ∧
       (x.1.group? 0).isSome = true ∧
       (let u := (mwaitRead { world g with otherClass := [0x40002, 0x40003] } g 0x100 8 (aopSize true) .dev).1
        observedOther u g 0x100 8 (aopSize true) = true ∧ (u.group? 0).isSome = true)) ∧
    (∀ x ∈ ([.tagwAny, .tagwFirst] : List (UDst → UDst → Instr)), ∀ m : Fin 3, goes (gate0 (x (.g 0) (.g 2)) (needTagw (.g 0) (.g 2))
      (tagged (withG (grp true) [(2, if m = 0 then 0 else if m = 1 then 0x20 else 0x80)]))) = true) ∧
    (let s := tagged (withG (grp true) [(2, 0x80)])
     (s.core 0).tags &&& upair (ctxOf (gate0 (.tagwFirst (.g 0) (.g 2)) (needTagw (.g 0) (.g 2)) s)).g (.g 2) = laneBit 7 ∧ olderFirstWaits s (grp true) 7 = false) ∧
    goes (gate0 (.tagwAll .zero (.g 2)) (needTagw .zero (.g 2)) (tagged (withG (grp true) [(2, 0x80)]))) = true ∧
    goes (gate0 (.tagwAll .zero (.g 2)) (needTagw .zero (.g 2)) (tagged (withG (grp true) [(2, 0xA0)]))) = true ∧
    goes (gate0 (.tagwClear (.g 0) (.g 2)) (needTagw (.g 0) (.g 2)) (tagged (withG (grp true) [(2, 0xA0)]))) = true ∧
    (let g := waiting (.tagw false true 0x88 (.g 1))
     (tagged g).group? 0 = some g ∧ ((tagged g).vdev 0).st = .live ∧ tagwValue (tagged g) g false true 0x88 = some 3) := by decide +kernel

/-- A machine whose virtual device 0 is bound to front end 0, its condition words at address 0x3000 (R25, R34). -/
def fe0 : FrontEnd := { FrontEnd.initial with en := true, vdevV := true, cwb := 0x80 }
def withFe (s : State) : State := { s with fes := [(0, fe0)] }

theorem test_hyp_ConditionWords :
    (let s := withFe (world (grp true))
     let n := (Need.ofUni.usrc (.lit 2)).usrc (.g 1)
     let k := gate (.cond .dev (.lit 2) (.g 1)) n (fun g => outstanding g [0, 1, 2, 3, 4, 5, 6, 7])
       (fun g m => uniExtra (fun g => cwEa s g.info.vdev (usrc s g (.lit 2)).toNat) g m) s
     let c := ctxOf k
     let x := place (releaseLsu (account n c s) c.g.info.core .dev) c.g c.pc (((s.fe 0).cwb.toNat + 4 * (2 % 256)) % 2 ^ 64) 4 2 false false
     goes k = true ∧ feOf s c.g.info.vdev = some 0 ∧ (usrc s c.g (.lit 2)).toNat = 2 ∧ x.2 = .ok (.phys 0x100088 0) ∧ region x.1 0x100088 = .hbm) := by decide +kernel

/-- Virtual device 0 with the first GiB of its addresses mapped to the same physical addresses by both stages (R172, R173). -/
def paged (s : State) : State :=
  ((((((((s.setNum 0x200000 8 0x81001).setNum 0x204000 8 0x81401).setNum 0x205000 8 0xDF).setNum 0x206000 8 0x81C01).setNum 0x207000 8 0x82001).setNum
    0x208000 8 0xDF).setNum 0x100000008 8 (10 * 2 ^ 60 + 0x206)).updVdev 0 fun d => { d with hgatp := .ofNat 64 (10 * 2 ^ 60 + 0x200) })

/-- A load of a word in flight, of lane 0 at address `va` in entry 4, that may return. -/
def ldReq (va : Nat) : Req :=
  { (default : Req) with instr := .ld .b32 0 5 (.v 2) 0, pc := 0xFC, lanes := 1, addr := [(0, va)], entry := 4, sent := true }
def loading (i : Req) : Group := { grp true with c := { (grp true).c with reqs := [(9, i)], sb := [(4, loadPend 5 1)] } }

theorem test_hyp_LoadReturnsFaultsAndWalks :
    (let g := loading (ldReq 0x40)
     let s := world g
     s.group? 0 = some g ∧ answered (ldReq 0x40).instr = true ∧ find? g.c.stray 9 = none ∧ reqReady s g 9 (ldReq 0x40) = true ∧
       (runReq s g (ldReq 0x40)).2.1 = [(0, [0])] ∧ (runReq s g (ldReq 0x40)).2.2 = [] ∧ (runReq s g (ldReq 0x40)).1.group? 0 = some g) ∧
    (let r : Req := { ldReq 0x40 with instr := .uld .b64 (.g 2) (.g 4) 0, addr := [(64, 0x40)] }
     let g := loading r
     (runReq (world g) g r).2.1 = [(64, [0, 0])] ∧ (runReq (world g) g r).2.2 = [] ∧ reqDst r.instr = .u [2, 3]) := by decide +kernel

theorem test_hyp_LoadFaults :
    (let g := loading (ldReq 0x2000)
     let x := runReq (world g) g (ldReq 0x2000)
     reqReady (world g) g 9 (ldReq 0x2000) = true ∧ reqDst (ldReq 0x2000).instr = .v 5 1 ∧ x.2.2 = [(0, .xlate 0x2000)] ∧
       (reqAcquire x.1 0 (ldReq 0x2000).instr).group? 0 = some g) ∧
    (let g := loading (ldReq 0x0200000000000000)
     let x := runReq (world g) g (ldReq 0x0200000000000000)
     x.2.2 = [(0, .fatal 0x23)] ∧ (allLanes g.c.paths).getLsbD 0 = true ∧ find? g.c.fatal 0 = none ∧ (reqAcquire x.1 0 (ldReq 0).instr).group? 0 = some g) := by
  decide +kernel

theorem test_hyp_PageWalks :
    (let s := paged (world (grp true))
     (s.core 0).tlb.any (·.hits (satpOf s 0 / 2 ^ 44 % 2 ^ 16) 0 0x5123 3) = false ∧ (s.vdev 0).st = .live ∧
       walkVa s 0 0x5123 = .entry ⟨0, 0, false, 0, 2 ^ 30, 0, 0, 7, 0, 2 ^ 30, 2 ^ 30⟩ ∧ walkVa s 0 0x40000000 = .fault ∧
       (s.core 0).tlb.any (·.hits (satpOf s 0 / 2 ^ 44 % 2 ^ 16) 0 0x40000000 3) = false) := by decide +kernel

/-- The stage that consumes edge 0x4000 of virtual device 0, and a program whose output 0 is that edge and whose output 1 has none. -/
def stage0 : Program := { (default : Program) with entry := 0x400, width := 64, full := 4, pro := 2, stage := 1, inEdge := 0x4000 }
def feeder : Program := { (grp true).info.prog with outs := [0x4000, 0] }

/-- An edge of eight slots of two double words, its ring at 0x5000 (R9, R10). -/
def edge0 : Edge where
  vdev := 0
  desc := 0x4000
  pa := 0x4000
  graph := 0x6000
  base := 0x5000
  capl := 3
  rs := 2
  ord := 0
  loc := false
  rmt := false
  late := 0
  nf := 0
  consumer := 1
  nprod := 1
  producers := []
  role := 0
  runs := true
  opened := true
  fe := 0
  walk := 0
  prodDone := []
  frames := []
  ready := []
  given := []
  alive := []
  keyCore := []
  finished := []
  voided := []
  rr := 0
  batch := none
  undef := false
  born := 0x6000
  parkedAt := []
  second := none

/-- A machine whose group 0 feeds an edge. -/
def ringWorld (g : Group) (e : Edge) : State :=
  let s := withFe (paged (world { g with info := { g.info with prog := feeder } }))
  { s with edges := [(edgeKey 0 0x4000, e)], vdevs := [(0, { s.vdev 0 with graphs := [(0x6000, ⟨[stage0]⟩)] })] }

theorem test_hyp_ReservationsAndHomes :
    (∀ r ∈ [roleLocal, roleSender], ∀ u : Bool, let s := ringWorld (grp true) { edge0 with role := r, undef := u }
     recRegs s 0 = 4 ∧ goes (gate0 (.emit 20 76 0) (((needLoad.recBlk 76 (recRegs s 0)).vblk 21 1 1).dstN 20 1 2) s) = true ∧ badEdge s 0 = u ∧
       goes (gate0 (.emit 20 76 1) (((needLoad.recBlk 76 (recRegs s 1)).vblk 21 1 1).dstN 20 1 2) s) = true ∧ badEdge s 1 = false ∧
       goes (gate0 (.resv 20 0) (needLoad.dstN 20 1 1) s) = true ∧ goes (gate0 (.resv 20 63) (needLoad.dstN 20 1 1) s) = true ∧
       laneEdge s (ctxOf (gate0 (.resv 20 0) (needLoad.dstN 20 1 1) s)).g 0 0 = some (edgeKey 0 0x4000, { edge0 with role := r, undef := u }) ∧
       reserves s (ctxOf (gate0 (.resv 20 0) (needLoad.dstN 20 1 1) s)).g 0 0 = true ∧
       laneEdge s (ctxOf (gate0 (.resv 20 1) (needLoad.dstN 20 1 1) s)).g 0 1 = none) ∧
    (∀ i ∈ ([.resv 20 0, .emit 20 30 0] : List Instr), let r : Req := { ldReq 0 with instr := i, addr := [], data := [(0, [7, 1, 2, 3, 4])] }
     let s := ringWorld (loading r) edge0
     s.now = 0 ∧ ((s.group? 0).bind fun g => find? g.c.reqs 9) = some r ∧ (s.group? 0).map (fun g => (laneEdge s g (lowLane r.lanes) 0, earlierOut g (r.order 9) [clsLSU, clsEDG])) =
       some (some (edgeKey 0 0x4000, edge0), false) ∧ (∀ x ∈ (loading r).c.reqs, x.1 = 9) ∧ deviceActive s 0 = true ∧ edge0.stuck s = false ∧ edgeFree s edge0 = 8) := by decide +kernel

/-- Group 0 holds slot 3 of the edge in lane 0, whose v20 names it. -/
def holder : Group := { withV (grp true) [(20, 3)] with c := { (grp true).c with slots := [(0, edgeKey 0 0x4000, 3)] } }

/-- The three that a ring access needs of its addresses. -/
def isEntry : SlotRead → Bool
  | .entry _ _ => true
  | .stop _ => false

/-- The ring of `edge0` with one slot reserved. -/
def reserved1 (e : Edge) : State := (ringWorld (grp true) e).setNum 0x4010 4 1

theorem test_hyp_RingSlotsMoveOn :
    (let s := ringWorld holder edge0
     let n := (needStore.recBlk 30 (recRegs s 0)).vblk 20 1 1
     let k := gate (.wrec 20 30 0) n slotBusy (slotPages s 20 0) s
     let c := ctxOf k
     goes k = true ∧ lanesOf c.mask = [0] ∧ laneEdge s c.g 0 0 = some (edgeKey 0 0x4000, edge0) ∧ heldSeq c.g (edgeKey 0 0x4000) edge0 0 (c.g.r.getV 0 20) = some 3 ∧
       (∀ j, j < 2 → region s (0x5050 + 8 * j) = .hbm) ∧
       ringAt (account n c s) 0 ((edge0.slotEa 3 + 8) % 2 ^ 64) 2 2 = .ok ((List.range 2).map fun j => 0x5050 + 8 * j)) ∧
    (let s := ringWorld holder edge0
     let n := needStore.vblk 20 2 2
     let k := gate (.publ 20 0) n pubWait (slotPages s 20 0) s
     let c := ctxOf k
     let u := (account n c s).writeBackAll c.g.info.core
     goes k = true ∧ lanesOf c.mask = [0] ∧ laneEdge s c.g 0 0 = some (edgeKey 0 0x4000, edge0) ∧ heldSeq c.g (edgeKey 0 0x4000) edge0 0 (c.g.r.getV 0 20) = some 3 ∧
       region u 0x5048 = .hbm ∧ ringAt u 0 (edge0.slotEa 3 % 2 ^ 64) 2 1 = .ok [0x5048]) ∧
    (∀ o ∈ [0, 1], let s := ringWorld (grp true) edge0
     let k := gate (.spawn 20 30 o) (((needLoad.recBlk 30 (recRegs s o.val)).vblk 21 1 1).dstN 20 1 2) (fun g => outstanding g [clsLSU]) (fun _ _ => 0) s
     goes k = true ∧ (laneEdge s (ctxOf k).g 0 o.val).isNone = decide (o = 1)) ∧
    (let s := ringWorld (grp true) edge0
     stageOf s edge0 = some stage0 ∧ edge0.runs = true ∧ spawnRoom s 0 0 1 (entryBytes 16) = true) := by decide +kernel

theorem test_hyp_RingEvents :
    (∀ e ∈ [{ edge0 with finished := [0] }, { edge0 with voided := [0] }], let s := reserved1 e
     find? s.edges (edgeKey 0 0x4000) = some e ∧ edgeRcl s e = 0 ∧ edgeRsv s e = 1 ∧ edgePa (setRcl s e 1) e = edgePa s e) ∧
    (let e := { edge0 with ready := [0] }
     let s := reserved1 e
     stageOf s e = some stage0 ∧ edgeOpen s e = true ∧ isPublished s e 0 = true ∧ nextCore s e (entryBytes 16) = some (0, 1) ∧ spawnRoom s 0 0 1 (entryBytes 16) = true ∧
       isEntry (readSlot s (edgeKey 0 0x4000) e stage0 0 0 0) = true) ∧
    (let e := { edge0 with ord := 2, ready := [0] }
     let s := reserved1 e
     stageOf s e = some stage0 ∧ edgeOpen s e = true ∧ batchCore s e (64 * entryBytes 16) = some (0, 1) ∧ spawnRoom s 0 0 1 (entryBytes 16) = true ∧
       (takeBatch (edgeKey 0 0x4000) stage0 0 s.nextId 9 64 [] (edgeDlv s e) { s with nextId := s.nextId + 1 }).2.1.length = 1) := by decide +kernel

/-- A machine whose core 0 holds one task in its former. -/
def forming (f : FEntry) (now : Nat) : State :=
  let s := ringWorld (grp true) edge0
  { s with now := now, cores := [(0, { s.core 0 with entries := [f] })] }
def task0 : FEntry := { taskEntry (world (grp true)) (grp true) 0 0 (edgeKey 0 0x4000) edge0 stage0 7 [] with order := 5 }

theorem test_hyp_FormerBuildsGroups :
    (let s := forming { task0 with due := true } 0
     (readyBins s 0).contains 5 = true ∧ blockedBin s 0 = none ∧ (readyBins s 0).takeWhile (fun b => decide (b ≠ 5)) = [] ∧ (binFit s 0 5).isSome = true ∧
       binEntries (s.core 0) 5 = [{ task0 with due := true }] ∧ task0.pkts = []) ∧
    (let s := forming task0 64
     binEntries (s.core 0) 5 = [task0] ∧ task0.due = false ∧ task0.at_ + (s.vdev 0).window ≤ s.now) ∧
    (let f := forming { task0 with due := true, alloc := 5000 } 5000
     let s : State := { f with cores := [(0, { f.core 0 with blockedSince := some (5, 0) })] }
     readyBins s 0 = [5] ∧ blockedBin s 0 = none ∧ binFit s 0 5 = none ∧ (s.core 0).blockedSince = some (5, 0) ∧ 0 + 4096 ≤ s.now) := by decide +kernel

/-- An operation of group 0 with a block: its LS window is 4096 bytes, its OB region 4096. -/
def opOf (i : Instr) (b : List Word) (st : OpSt) : EngOp :=
  { newOp (world (grp true)) i ⟨0, grp true, 0x100, 4, 1, false⟩ b with st := st }

/-- A machine with translation and one operation, number 5. -/
def opWorld (o : EngOp) : State := { ringWorld (grp true) edge0 with ops := [(5, o)] }

/-- Block words with a control word at place 5. -/
def ctl (l : List (Nat × Word)) : List Word := (List.range 8).map fun i => (find? l i).getD 0

theorem test_hyp_EngineOperationsRun :
    (∀ x ∈ ([.copyLin, .copyTile, .copyCb, .copyGath, .hread, .gridRestrict, .gridProlong, .gridConvert, .mtile] : List (Fin 56 → Fin 56 → Instr)),
      goes (gate0 (x 48 47) ((Need.ofUni.ublk 48 8).udst (.g 47)) (world (grp true))) = true) ∧
    (let c : Ctx := ⟨0, grp true, 0x100, 4, 1, false⟩
     let s := world (grp true)
     checkLin s c (ublock (grp true) 8 8) = 0 ∧ queueLen s (.copyLin 8 0) 0 < queueCap (.copyLin 8 0) ∧ checkLin s c (ctl [(5, 1)]) = 2 ∧
       (let o := opOf (.copyLin 8 0) [] .queued
        let s := { s with ops := (List.range 16).map fun i => (i, o) }
        checkLin s c [] = 0 ∧ queueCap (.copyLin 8 0) ≤ queueLen s (.copyLin 8 0) 0)) ∧
    (∀ x ∈ ([.copyLin 8 0, .copyGath 8 0, .copyCb 8 0, .hread 8 0, .gridRestrict 8 0, .gridProlong 8 0, .gridConvert 8 0] : List Instr),
      let o := opOf x (ctl []) .queued
      let s := opWorld o
      find? s.ops 5 = some o ∧ (s.vdev o.vdev).st = .live ∧ mayStart s 5 o = true ∧ releaseDone s 5 o = true) ∧
    rFmt ([0, 2] : List Word) = 2 ∧ rFmt ([0, 3] : List Word) ≠ 2 ∧ hList (ctl []) = false ∧
    (let o := opOf (.gridProlong 8 0) (ctl [(0, 0x9000)]) .queued
     let s := opWorld o
     let w := s.writeBackAll 0
     engRuns w o.vdev o.gang 1 2 (blkP o.block 0) 64 = .ok [.phys 0x9000 64] ∧
       (readRuns w (clusterOf o.core) 0 0 [.phys 0x9000 64]).2 = (List.replicate 64 0, false) ∧ gdescOk (List.replicate 64 0) (gridFn o.instr) o.block = false) := by decide +kernel

theorem test_hyp_EngineBeats :
    (let b := ctl [(0, 16), (2, 256), (4, 64), (5, BitVec.ofNat 32 (2 ^ 19 + 2 ^ 17))]
     let o := opOf (.copyLin 8 0) b .running
     let s := opWorld { o with units := 64 }
     cSsp b = 1 ∧ cDsp b = 1 ∧ min 64 (beatEnd (blkW b 2) 0) = 64 ∧ (s.core 0).lsBad (o.lim.getD 0 0 + blkW b 0 + 0) 64 = false ∧ (s.vdev 0).st = .live) ∧
    (∀ va : Fin 2, let b := ctl [(0, if va = 0 then 0x9000 else 0x40000000), (2, 256), (4, 64), (5, BitVec.ofNat 32 (2 ^ 17))]
     let o := opOf (.copyLin 8 0) b .running
     let s := opWorld { o with units := 64 }
     cSsp b = 0 ∧ cDsp b = 1 ∧ engRuns s o.vdev o.gang 1 2 (blkP b 0) 64 = if va = 0 then .ok [.phys 0x9000 64] else .xlate 0x40000000) ∧
    (∀ i, i < 64 → region (opWorld (opOf (.copyLin 8 0) [] .running)) (0x9000 + i) = .hbm ∧
      (opWorld (opOf (.copyLin 8 0) [] .running)).poisoned (0x9000 + i) = false) ∧
    (∀ w ∈ [ctl [(5, 0xFE000000)], ctl [(5, 0xFF000000), (6, 0x9000)]], let o := opOf (.copyLin 8 0) w .done
     let s := opWorld o
     find? s.ops 5 = some o ∧ o.tv = true ∧ (s.vdev 0).st = .live ∧ o.stampPending = false ∧ (o.sv = true → engRuns s o.vdev o.gang 3 2 o.stampVa 8 = .ok [.phys 0x9000 8])) := by decide +kernel

/-- A block in the uniform registers from g8 up. -/
def blockG (g : Group) (l : List (Nat × Word)) : Group := withG g (l.map fun x => (x.1 + 8, x.2))

theorem test_hyp_TablesAndBufferReservations :
    (let o := opOf (.copyCb 8 0) (ctl []) .waitTag
     let s : State := { opWorld o with cores := [(0, { (opWorld o).core 0 with tags := 1 })] }
     find? s.ops 5 = some o ∧ o.abort = false ∧ (s.vdev 0).st = .live ∧
       (s.core o.core).tags.getLsbD ((bitsAt (blkW o.block 4) 31 26 + o.unit_ / (bitsAt (blkW o.block 4) 21 16 + 1)) % 64) = true) ∧
    (let o := { opOf (.hread 8 0) (ctl [(0, 0x9000)]) .running with unit_ := 1, units := 1, bursts := [0] }
     let s := opWorld o
     find? s.ops 5 = some o ∧ o.bursts.contains 0 = true ∧ find? o.parkedBursts 0 = none ∧ burstRuns s o 0 = .ok [.phys 0x9000 32] ∧
       spawnRoom s 0 0 1 (entryBytes (hBsz o.block)) = true) ∧
    (let o := { opOf (.hread 8 0) (ctl [(0, 0x9000)]) .running with unit_ := 1, units := 1 }
     handlersAlive (opWorld o) 5 = false ∧ o.bursts = []) := by decide +kernel

/-- A record image of one unit of operand buffer, BF16, without scales and mask. -/
def image1 : List (Nat × Word) := [(0, 0x10000), (1, 2), (3, 0xFFFF), (4, 0x3F800000)]

/-- A machine whose group 0 holds reservation slot 0. -/
def reserved (g : Group) : State :=
  let s := world g
  { s with cores := [(0, { s.core 0 with resv := [(0, ⟨[0x10000, 2, 0, 0xFFFF, 0x3F800000], 0, 0, 0, false⟩)] })] }

theorem test_hyp_BufferReservations :
    (∀ g ∈ [splitGroup, blockG (grp true) [], blockG (grp true) image1], goes (gate0 (.obresRsv 8 0) ((Need.ofUni.ublk 8 8).udst (.g 0)) (world g)) = true) ∧
    splitGroup.formerBuilt = true ∧ (grp true).formerBuilt = false ∧ imageOk (ctl []) = false ∧
    (let g := blockG (grp true) image1
     rsvStatus (world g) g (ublock g 8 8) = 0 ∧ rsvStatus (reserved g) g (ublock g 8 8) = 3) ∧
    (∀ w : Fin 3, let g := blockG (grp true) [(0, if w = 0 then 0x18000 else if w = 1 then 0x8000 else 0x8001)]
     goes (gate0 (.obresRel 8 0) ((Need.ofUni.ublk 8 1).udst (.g 0)) (reserved g)) = true ∧
       goes (gate0 (.obresQry 8 0) { (Need.ofUni.ublk 8 1).udst (.g 0) with gdst := [(0, 1), (8, 8)] } (reserved g)) = true ∧
       (heldSlot (reserved g) 0 g (blkW (ublock g 8 8) 0 % 2 ^ 16)).isSome = decide (w ≠ 2) ∧ (2 ^ 16 ≤ blkW (ublock g 8 8) 0 ↔ w = 0) ∧
       (liveSlot (reserved g) 0 0 ((g.ug 8).toNat % 2 ^ 16)).map (·.2.words.length) = if w = 2 then none else some 5) ∧
    (let g := waiting (.obrel 0)
     (reserved g).group? 0 = some g ∧ ((reserved g).vdev 0).st = .live ∧ slotBusyAt (reserved g) 0 0 = false) := by decide +kernel

/-- A machine whose matrix engine holds an MMAR of BF16 of group 0, with a record or without. -/
def mmarReq (ops : List Nat) : Req := { ldReq 0 with instr := .mmar .bf16 false 16 0 8 true, addr := [], data := [(0, List.replicate 8 0)], ops := ops }
def mmarWorld (ops : List Nat) : State :=
  let s := world (loading (mmarReq ops))
  { s with cores := [(0, { s.core 0 with mmars := [⟨0, 9, 0, 0, none, true, 0, 0⟩] })] }

theorem test_hyp_MatrixQuartersAndTileUnits :
    (∀ z : Bool, goes (gate0 (.mmar .bf16 false 16 0 8 z) (mmarNeed (world (grp true)) .bf16 16 0 8 z) (world (grp true))) = true) ∧
    (∀ v : Bool, let ops := if v then [0, 0, 0x3F800000, 0, 0x2000000, 2, 0, 0xFFFF, 0x3F800000] else [0, 0, 0x3F800000]
     let s := mmarWorld ops
     let r := mmarReq ops
     (s.core 0).mmars.length = 1 ∧ (s.group? 0).bind (fun g => find? g.c.reqs 9) = some r ∧ (s.vdev 0).st = .live ∧ find? (s.core 0).blatch 0 = none ∧
       mmarCheck (s.core 0) .bf16 r (((s.wg? (((find? (s.core 0).resv 0).map (·.wg)).getD 0)).map fun w => w.obBase * 256).getD 0 + rBase r.recWords) = (if v then 0 else 0x17) ∧
       (quartersOf r.lanes).filter (fun q => decide (0 ≤ q)) = [0]) ∧
    (let o := opOf (.mtile 8 0) (ctl []) .running
     let s := opWorld o
     (s.ops.find? fun e => decide (e.2.core = 0) && decide (e.2.st = .running) && !e.2.abort && (match e.2.instr with | .mtile .. => true | _ => false)) = some (5, o) ∧
       (s.core 0).mmars = [] ∧ 0 < (s.cluster 0).energy ∧ (s.die (dieOf 0)).c210 = false) := by decide +kernel

/-- A RULE of group 0 that heads Lyre's queue. -/
def ruleRun (mode : Nat) (started : Bool) : RuleRun := ⟨0, 7, 0x100, mode, 8, 0, ctl [], started, 0, 0, false, none, false⟩
def ruleWorld (x : RuleRun) : State :=
  let s := world (waiting .rule)
  { s with cores := [(0, { s.core 0 with rules := [x] })] }
def ruleEnds : RuleEnd → Bool
  | .done u _ => (u.group? 0).isSome
  | .park .. => false
  | .stall .. => false

theorem test_hyp_RuleMode :
    (∀ x ∈ ([(.ruleLoad, 0), (.ruleStep, 1), (.ruleXch, 2), (.ruleQuery, 3)] : List ((Fin 56 → Fin 56 → Instr) × Nat)),
      let n : Need := { (Need.ofUni.ublk 52 4).udst (.g 0) with even := [52] }
      goes (gate0 (x.1 52 0) (if x.2 = 3 then { n with gdst := [(0, 1), (53, 3)] } else n) (world (grp true))) = true) ∧
    (let x := ruleRun 1 false
     ((ruleWorld x).core 0).rules = [x] ∧ (ruleWorld x).group? 0 = some (waiting .rule) ∧ ((ruleWorld x).vdev 0).st = .live ∧
       outstanding (waiting .rule) [clsLSU] = false ∧ 0 < ((ruleWorld x).cluster 0).energy) ∧
    ruleEnds (ruleLoad (ruleWorld (ruleRun 0 true)) (waiting .rule) (ruleRun 0 true)) = true ∧
    ruleEnds (ruleStep (ruleWorld (ruleRun 1 true)) (waiting .rule) (ruleRun 1 true)) = true ∧
    ruleEnds (ruleXch (ruleWorld (ruleRun 2 true)) (waiting .rule) (ruleRun 2 true)) = true ∧
    (let s := ruleWorld (ruleRun 3 true)
     lsRangeOk (limOf s (waiting .rule)) 0 64 = true ∧ (s.core 0).lsBad ((limOf s (waiting .rule)).getD 0 0 + 0) 64 = false) ∧
    (([[(1, false), (2, true)]] : List (List TileCell)).getD 0 [])[1]? = some (2, true) := by decide +kernel

/-- The tile of the example at the end of 12, a blinker. -/
def blinker : Core :=
  let k := Core.initial
  let k := k.lsSet 0 (leBytes 4 0x0404010C ++ leBytes 4 0x55 ++ leBytes 4 0x40 ++ leBytes 4 0x20010 ++ leBytes 4 0x90 ++ leBytes 4 0xA0)
  (k.lsSet 0x60 [0x0E]).lsSet 0x90 [0, 0x10, 0, 0, 0, 0, 0, 0, 0, 0x11]

/-- A machine whose Lyre runs a RULE of mode `m` with block words `b` on that tile, interrupted where `act`. -/
def tileRun (m : Nat) (b : List (Nat × Word)) : RuleRun := { ruleRun m true with block := ctl b }
def tileWorld (act : Bool) (x : RuleRun) : State :=
  let s := paged (ruleWorld x)
  { s with cores := [(0, { s.core 0 with ls := (if act then blinker.lsSet 0x1C (leBytes 4 0x80010000) else blinker).ls })] }

/-- The header that a RULE reads: whether it is interrupted, in how many generations, and its table's bytes. -/
def headOf (s : State) : Option (Bool × Nat × Nat × Bool) :=
  match ruleHdr (s.core 0) (limOf s (waiting .rule)) 0 with
  | .ok (_, h, bad) => some (h.act, h.gtot, h.tb, bad)
  | .error _ => none
def readsOf (s : State) (va n : Nat) : Option (Nat × Bool) :=
  match lyrRead s (waiting .rule) va n with
  | (_, .ok bs) => some (bs.length, bs.any (·.2))
  | _ => none

theorem test_hyp_RuleTiles :
    (∀ act : Bool, headOf (tileWorld act (tileRun 0 [])) = some (act, if act then 1 else 0, 16, false)) ∧ readsOf (tileWorld false (tileRun 0 [(2, 0x200)])) 0x200 16 = some (16, false) ∧
    (tileRun 1 [(1, 1)]).step = none ∧ (tileRun 1 [(1, 1)]).unit_ = 0 ∧ bitsAt (blkW (tileRun 1 [(1, 1)]).block 1) 31 4 = 0 ∧ bitsAt (blkW (tileRun 1 [(1, 1)]).block 1) 3 0 = 1 ∧
    (let s := tileWorld false (tileRun 1 [(1, 1)])
     let t := stepBegin (s.core 0) 0 0 1
     0 < (s.cluster 0).energy ∧ (stepOn (s.core 0) t t.rowsLeft (stepCc s 0)).2 = (none, 2, false)) ∧
    (let s := tileWorld false (tileRun 2 [(1, 23)])
     blkW (tileRun 2 [(1, 23)]).block 1 = 3 + 4 * 1 + 16 ∧ ∀ side, side < 4 → lsRangeOk (limOf s (waiting .rule)) 0 (1 * cellPitch (lineLen (tileHdr (blinker.lsBytes 0 64)) side) 1) = true) ∧
    (let h := tileHdr (blinker.lsBytes 0 64)
     h.checker = false ∧ (region_ h 1).2.1 + 1 - (region_ h 1).1 ≤ 3 ∧ (region_ h 1).2.1 + 1 - (region_ h 1).1 ≤ 2 * 2) := by decide +kernel

/-- The image of a CUTMOVE node at address 0x7000: one edge number in a list at 0x7100. -/
def moveImage (s : State) : State := ((s.setNum 0x7000 4 7).setNum 0x7004 4 1).setNum 0x7008 8 0x7100

theorem test_hyp_EdgeInstructions :
    (∀ x ∈ ([.edgeFrame, .edgeCutmove, .edgeStatus, .edgeFlush] : List (Fin 56 → Fin 56 → Instr)), ∀ g ∈ [blockG (grp true) [], blockG (grp true) [(0, 0x4000), (2, 0x9000)]],
      goes (gate (x 8 0) { (Need.ofUni.ublk 8 4).udst (.g 0) with even := [8] } (fun g => outstanding g [clsLSU, clsEDG]) (fun _ _ => 0) (ringWorld g edge0)) = true ∧
      goes (gate0 (x 8 0) { (Need.ofUni.ublk 8 4).udst (.g 0) with even := [8] } (ringWorld g edge0)) = true) ∧
    find? (ringWorld (grp true) edge0).edges (edgeKey 0 0) = none ∧ find? (ringWorld (grp true) edge0).edges (edgeKey 0 0x4000) = some edge0 ∧
    engRuns (ringWorld (grp true) edge0) 0 none 2 2 0x9000 64 = .ok [.phys 0x9000 64] ∧ region (ringWorld (grp true) edge0) 0x9000 = .hbm ∧
    sysBytes (ringWorld (grp true) edge0) 0 1 2 0x40000000 32 = .xlate 0x40000000 := by decide +kernel

/-- Where a cut move begins. -/
def movesOn : Except Nat State → Bool
  | .ok v => (v.group? 0).isSome
  | .error _ => false

theorem test_hyp_EdgeCutmove :
    (let s := moveImage (ringWorld (blockG (grp true) [(0, 0x7000)]) edge0)
     goes (gate0 (.edgeCutmove 8 0) { (Need.ofUni.ublk 8 4).udst (.g 0) with even := [8] } s) = true ∧
     (match sysBytes s 0 1 2 0x7000 32 with
       | .ok bs => let w := bytesWords 8 bs
         let s1 := s.sysReads 0 [(0x7000, 32)]
         nodeKind w == 7 && nodeOk (fun _ => true) w && !moveUnfinished s1 0 && (blkP w 2 == 0x7100 && blkW w 1 == 1)
           && movesOn (startMove (s1.sysReads 0 [(0x7100, 8)]) 0 (blkW w 4) (blkP w 6) [0])
       | _ => false) = true ∧ sysBytes s 0 1 2 0x7100 8 = .ok (List.replicate 8 0)) := by decide +kernel

/-- Group 0 of a context with PRIV, in a cluster whose bank 3 is as given. -/
def bankWorld (mode stage : Nat) : State :=
  let s := (world (grp true)).setNum 0x100000000 4 1
  { s with clusters := [(0, { s.cluster 0 with bankMode := [(3, mode)], bankReqs := if stage = 0 then [] else [⟨3, 1, none, stage, 0⟩] })], now := 600 }

theorem test_hyp_BankModes :
    (∀ b ∈ [3, 32], ∀ d ∈ ([.g 55, .zero] : List UDst), goes (gate0 (.bank d (.lit (.ofNat 32 b)) (.lit 1)) { ((Need.ofUni.usrc (.lit (.ofNat 32 b))).usrc (.lit 1)).udst d with priv := true }
      (bankWorld 0 0)) = true) ∧
    bankStep (bankWorld 1 0) 0 3 1 = .status 0 ∧ bankStep (bankWorld 0 0) 0 3 1 = .work 1 ∧ bankStep (bankWorld 1 0) 0 3 2 = .work 2 ∧
    (bankWorld 0 0).sys.hartsReleased = true ∧ ((bankWorld 0 0).cluster 0).bankBusy = false ∧ (0x301 : Word).toNat < 2 ^ 13 ∧ bitsAt (0x301 : Word).toNat 7 2 = 0 ∧
    ((bankWorld 0 1).cluster 0).bankReqs = [⟨3, 1, none, 1, 0⟩] ∧ ((bankWorld 0 2).cluster 0).bankReqs = [⟨3, 1, none, 2, 0⟩] ∧ (bankWorld 0 2).now = 600 := by decide +kernel

/-- A machine with translation and front end 0 as given. -/
def feWorld (f : FrontEnd) : State := { ringWorld (grp true) edge0 with fes := [(0, f)] }

theorem test_hyp_FrontEndRegistersAndStarts :
    (let s := feWorld { FrontEnd.initial with color := 1 }
     let t := feWorld { FrontEnd.initial with color := 1, en := true }
     s.sys.hartsReleased = true ∧ bit (0x10000 : Word).toNat 16 = true ∧ (s.fe 0).en = false ∧ partitionOk s 0 0 0 = true ∧ partitionOk s 0 1 0 = false ∧
       bit (0 : Word).toNat 16 = false ∧ (t.fe 0).en = true ∧ (t.fe 0).st = .idle ∧ partitionBusy { t with edges := [] } 0 = false ∧ (t.fe 0).quiet = true) ∧
    (let s := (feWorld { fe0 with graph := 0x9000 }).setNum 0x9100 8 0x30000
     feContext s (s.fe 0) = true ∧ walkRead s 0 0x9100 8 = .ok 0x30000 ∧ (s.fe 0).pending = none ∧
       sysBytes s 0 1 (64 / 4096 + 2) (s.fe 0).graph.toNat 64 = .ok (List.replicate 64 0)) ∧
    (∀ st ∈ [GwSt.idle, .walk], ∀ v ∈ [0x30000, 0x30001, 0x31000],
      let s := (feWorld { fe0 with watch := 0x9100, nodes := [(0, [8, 0, 0, 0, 0, 0, 0, 0])], st := st }).setNum 0x9100 8 v
      feActs s (s.fe 0) = true ∧ walkRead s 0 0x9100 8 = .ok v ∧ v / 2 ^ 16 ≠ (s.fe 0).accepted ∧ (s.fe 0).has (v % 2 ^ 12) = decide (v ≠ 0x30001) ∧
        (bitsAt v 15 12 = 0 ↔ v ≠ 0x31000)) := by decide +kernel

/-- A walker at node 0, which is `w`. -/
def atW (w : List Word) : State := feWorld { fe0 with st := .walk, nodes := [(0, w)], fenced := true }

theorem test_hyp_AtNode : ∀ k : Fin 7, AtNode (atW [.ofNat 32 (k + 1), if k = 6 then 1 else 0, 0, 0, 0, 0, 0, 0]) 0 (k + 1)
    [.ofNat 32 (k + 1), if k = 6 then 1 else 0, 0, 0, 0, 0, 0, 0] := fun k =>
  ⟨by revert k; decide +kernel, by revert k; decide +kernel, by revert k; decide +kernel, by revert k; decide +kernel, by revert k; decide +kernel,
    by revert k; decide +kernel, by revert k; decide +kernel⟩

theorem test_hyp_AtNode_end : AtNode (atW [8, 0, 0, 0, 0, 0, 0, 0]) 0 8 [8, 0, 0, 0, 0, 0, 0, 0] :=
  ⟨by decide +kernel, by decide +kernel, by decide +kernel, by decide +kernel, by decide +kernel, by decide +kernel, by decide +kernel⟩

theorem test_hyp_WalkerNodesAndWaits :
    (let s := atW [1, 0, 0, 0, 0, 0, 0, 0]
     walkCount s 0 < 64 ∧ (s.fe 0).queue.length < 64 ∧ walkRead s 0 0x80 4 = .ok 0 ∧ ccHolds 0 (signed 32 0) = true ∧ ccHolds 1 (signed 32 0) = false ∧
       walkRead s 0 0 8 = .ok 0 ∧ waitHolds 0 0 0 = true ∧ waitHolds 2 0 0 = false ∧ engRuns s 0 none 2 2 0 8 = .ok [.phys 0 8] ∧ region s 0 = .hbm ∧
       moveUnfinished s 0 = false ∧ sysBytes s 0 1 2 0 8 = .ok (List.replicate 8 0) ∧ movesOn (startMove (s.sysReads 0 [(0, 8)]) 0 0 0 [0]) = true) ∧
    (let s := atW [9, 0, 0, 0, 0, 0, 0, 0]
     nodeOk (s.fe 0).has ((find? (s.fe 0).nodes (s.fe 0).node).getD []) = false) ∧
    (let f := { fe0 with st := .wait, nodes := [(0, [4, 0, 0, 0, 0, 0, 1, 0])], deadline := some 0 }
     let s := feWorld f
     feActs s f = true ∧ walkRead s 0 0 8 = .ok 0 ∧ waitHolds 0 0 0 = true ∧ f.parked = 0 ∧ f.deadline = some 0) ∧
    (let s := { feWorld { fe0 with st := .walk, nodes := [(0, [5, 0, 0, 0, 0, 0, 0, 0])] } with edges := [] }
     feActs s (s.fe 0) = true ∧ nodeOk (s.fe 0).has [5, 0, 0, 0, 0, 0, 0, 0] = true ∧ nodeDep [5, 0, 0, 0, 0, 0, 0, 0] = true ∧ walkBusy s 0 = false) ∧
    (∀ a ∈ [0, 8], let f := { fe0 with st := .walk, endWait := true, fenced := true, nodes := [(0, [8, 0, .ofNat 32 a, 0, 0, 0, 0, 0])] }
     feActs (feWorld f) f = true ∧ f.pending = none ∧ (a ≠ 0 → engRuns (feWorld f) 0 none 2 2 a 8 = .ok [.phys a 8])) := by decide +kernel

/-- A remote edge of two 32-bit fields without deltas, its history table at 0xA000, its peer entry 0. -/
def remote0 : Remote where
  codec := 0
  peer := 0
  eid := 5
  lb := 10
  pw := 1
  rwl := 0
  kcl := 4
  kht := 0xA000
  fields := [⟨0, 0, false, 8, 0, 0, 0⟩, ⟨0, 0, false, 8, 0, 0, 0⟩]
  admFrame := 0
  admAt := 0
  dseq := 0
  next := 0
  packFrom := 0
  packFrame := 0
  packAt := 0
  pack := []
  sentSince := false
  members := []
  sentKeys := []
  sentVoids := []
  closeSent := false
  np := 0
  known := []
  keys := []
  decided := []
  top := none
  fin := none
  seen := []
  rx := []
  par := []
  lastKey := []
  late := []
  closed := false
  cnt := []

/-- A machine with that edge in a role and one slot reserved. -/
def remoteWorld (e : Edge) (m : Remote) : State := { reserved1 e with remotes := [(edgeKey 0 0x4000, m)] }

theorem test_hyp_EdgeSends :
    (let e := { edge0 with role := roleSender, voided := [0] }
     let s := remoteWorld e remote0
     find? s.edges (edgeKey 0 0x4000) = some e ∧ find? s.remotes (edgeKey 0 0x4000) = some remote0 ∧ ringServes s e = true ∧ remote0.next ≠ edgeRsv s e ∧
       remote0.next ∈ e.voided) ∧
    (let e := { edge0 with role := roleSender, ready := [0] }
     let s := remoteWorld e remote0
     (ringRead s none e 0 3).2 = .ok (List.replicate 24 0, List.replicate 3 false) ∧ (histGet s 0 remote0 0).isSome = true ∧ remote0.next ≠ edgeRsv s e ∧
       ringServes s e = true ∧ ((histGet s 0 remote0 0).bind fun x => (histPut x.1 0 remote0 (encodeRec remote0.fields x.2.1 0 0 [0, 0, 0, 0]).2).map fun u =>
         find? u.remotes (edgeKey 0 0x4000)) = some (some remote0)) ∧
    (let m := { remote0 with pack := [[1]] }
     let s := { remoteWorld { edge0 with role := roleSender } m with now := 800 }
     codecServes s edge0 = true ∧ m.packAt + 800 * m.pw ≤ s.now ∧ m.members.length < 3) ∧
    (let e := { edge0 with role := roleSender, prodDone := [0] }
     let m := { remote0 with next := 1 }
     producersDone (remoteWorld e m) (edgeKey 0 0x4000) e = true ∧ m.next = edgeRsv (remoteWorld e m) e) := by decide +kernel

/-- That machine as a receiver, with peer entry 0 of codec 0 valid: session 9. -/
def peered (m : Remote) : State :=
  { remoteWorld { edge0 with role := roleReceiver } m with codecs := [(0, { Codec.initial with peers := [(0x2C, 9), (0x35, 1)] })] }

/-- A payload as it arrives for peer entry 0 of that machine. -/
def arrives (b : List Byte) : Arrived := ⟨List.replicate 16 0, 0, b⟩

theorem test_hyp_DatagramsArrive :
    (∀ b ∈ [dgHead 0 0 6 9, dgHead 0 0 5 9], arrivedOf (frameOf ((peered remote0).codec 0) 0 0 b) = some (arrives b) ∧ b.length ≤ 8960) ∧ arrivedOf [1, 2, 3] = none ∧
    (∀ k : Fin 2, field (dgHead k 0 6 9) 0 1 % 16 = k ∧
      matchEdge (peered remote0) 0 (arrives (dgHead k 0 6 9)) (field (dgHead k 0 6 9) 2 2) (field (dgHead k 0 6 9) 4 4) = none) ∧
    (let b := dgHead 0 0 5 9
     matchEdge (peered remote0) 0 (arrives b) (field b 2 2) (field b 4 4) = some (edgeKey 0 0x4000) ∧ b.length < 0x38 ∧ remote0.par = []) ∧
    (let b := dataDg 0 5 9 0 1 0 1 0 (List.replicate 8 0) (List.replicate 15 0)
     0x38 ≤ b.length ∧ field b 0 1 = 0x10 ∧ field b 1 1 % 16 = 0 ∧ field b 0x16 2 = b.length - 0x38 ∧ remote0.seen.contains (field b 8 4) = false ∧
       ({ remote0 with seen := [0] } : Remote).seen.contains (field b 8 4) = true ∧ (readEntries remote0.fields (field b 0xC 4) (field b 1 1 / 16) (field b 0x14 1) (b.drop 0x38)).isSome = true) ∧
    (let b := parityDg 0 5 9 0 [[1, 2], [3], [4], [5]]
     field b 0 1 = 0x11 ∧ field b 8 4 % 4 = 0 ∧ 0x14 ≤ b.length ∧ b.length = 0x14 + ((List.range 4).map fun i => field b (0x0C + 2 * i) 2).foldl max 0 ∧
       field b 1 1 % 16 = 0 ∧ matchEdge (peered remote0) 0 (arrives b) (field b 2 2) (field b 4 4) = some (edgeKey 0 0x4000) ∧
       ({ remote0 with par := mset remote0.par (field b 8 4 / 4) b } : Remote).rebuild (field b 8 4 / 4) = none) := by decide +kernel

/-- The peered machine with a session that expects message 3 and has message 1 unacknowledged. -/
def talking : State :=
  let s := peered remote0
  { s with codecs := [(0, { s.codec 0 with sessions := [(0, ⟨2, [(1, [7], 0, 80000)], 3, []⟩)] })] }

theorem test_hyp_MessagesArrive :
    (∀ k : Fin 5, ∀ q ∈ [2, 3], let b := reliableMsg k 0 9 q 0 (if k = 1 then 8 else 4) 0 (List.replicate (if k = 1 then 8 else 4) 0)
     messageOk b = true ∧ field b 1 1 = k ∧ peerOf (talking.codec 0) (arrives b) (field b 4 4) = some 0 ∧ (mget Session.new (talking.codec 0).sessions 0).store = [] ∧
       (if q = 2 then precedes (field b 8 4) 3 = true else field b 8 4 = 3)) ∧
    (let b := ackMsg 9 2
     b.length = 16 ∧ field b 0 1 = 0x13 ∧ field b 1 3 = 0 ∧ field b 0xC 4 = 0 ∧ peerOf (talking.codec 0) (arrives b) (field b 4 4) = some 0) ∧
    peerOfSid (talking.codec 0) 9 = some 0 ∧ (mget Session.new (talking.codec 0).sessions 0).unacked = [(1, [7], 0, 80000)] ∧ talking.now = 0 := by decide +kernel

theorem test_hyp_Settlement :
    (let m := { remote0 with known := [(0, 0)] }
     let s := { peered m with now := 8000 }
     (find? s.edges (edgeKey 0 0x4000)).map (fun e => codecServes s e) = some true ∧ deadlinePassed s 0 m 0 = true ∧ find? m.decided 0 = none) ∧
    (∀ u : Bool, let m := { remote0 with decided := [(0, .void)] }
     let e := { edge0 with role := roleReceiver, undef := u }
     let s := { peered m with edges := [(edgeKey 0 0x4000, e)] }
     ringServes s e = true ∧ edgeFree s e ≠ 0 ∧ awaitsTake s e = false ∧ m.late = [] ∧ find? m.decided m.np = some .void) ∧
    (∀ l : Bool, let r : WireRec := ⟨3, 0, 0, [1, 2], 0, 0⟩
     let m := { remote0 with decided := [(0, .received r)] }
     let e := { edge0 with role := roleReceiver, loc := l, base := if l then 0x200 else edge0.base }
     let s := { peered m with edges := [(edgeKey 0 0x4000, e)] }
     ringServes s e = true ∧ edgeFree s e ≠ 0 ∧ awaitsTake s e = false ∧ belowTake s e 0 = false ∧
       ((histGet s 0 m 3).bind fun x => (histPut x.1 0 m (histAfter x.2.1 0 0 (placeFields m.fields x.2.1 0 0 (some r)))).map fun u =>
         let v := (reserveOne u (edgeKey 0 0x4000) 0).1
         (find? u.edges (edgeKey 0 0x4000), find? u.remotes (edgeKey 0 0x4000), l || decide (engRuns v 0 none 2 1 (e.slotEa (edgeRsv u e)) 24 = .ok [.phys 0x5018 24]),
           region v 0x5018)) = some (some e, some m, true, .hbm)) := by decide +kernel

/-- Numbers of four bytes written one after another. -/
def put4 (s : State) (l : List (Nat × Nat)) : State := l.foldl (fun s x => s.setNum x.1 4 x.2) s

/-- A launch header at 0x8000: width 8, one group, one workgroup, PRO = FULL = 1 (R15); its second form asks for cluster scratch. -/
def header1 : List (Nat × Nat) := [(0x8008, 0x1100000), (0x8010, 0x10100), (0x8018, 3), (0x8020, 1), (0x8024, 1), (0x8028, 1), (0x802C, 1)]

/-- A graph at 0xB000 with that header as stage 1, fed by the edge at 0xC000 where `fed` (R7, R9). -/
def graph1 (fed : Bool) : List (Nat × Nat) :=
  header1 ++ [(0xB000, 1), (0xB008, 0x80), (0xB010, 0x8000), (0xB018, if fed then 0xC000 else 0), (0xB028, 1), (0xC000, 0x5000), (0xC008, 0x41), (0xC00C, 1)]

/-- A machine whose front end 0 has one launch in its queue. -/
def queued (l : LaunchReq) (m : List (Nat × Nat)) : State := put4 (feWorld { fe0 with queue := [l] }) m
def launch1 (graph : Nat) : LaunchReq := ⟨0, false, 0, 9, graph, 0x8000, 1, false⟩

/-- What a header's and a graph's reading comes to. -/
def headerFits (s : State) (va : Nat) : Option Bool :=
  match readHeader s 0 va .hdr with
  | .ok p => some (noFit s (s.fe 0) 0 p false)
  | .error _ => none
def headerErr (s : State) (va : Nat) : Option AdmErr :=
  match readHeader s 0 va .hdr with
  | .ok _ => none
  | .error e => some e
def graphFits (s : State) : Option (Bool × List (Nat × Nat)) :=
  match readGraph s 0 0xB000 1 0x80 with
  | .ok (ps, es) => (ps.find? fun p => decide (p.stage = 1)).map fun p => (noFit s (s.fe 0) 0 p (decide (p.inEdge ≠ 0)), es.map fun r => (r.edge.desc, p.inEdge))
  | .error _ => none

theorem test_hyp_LaunchesWaitAndAreDecided :
    (∀ n ∈ [63, 64], let s := feWorld { fe0 with queue := List.replicate n (launch1 0) }
     goes (gate (.launch 50 0) { (Need.ofUni.ublk 50 6).udst (.g 0) with even := [50] } (fun g => outstanding g [clsLSU]) (fun _ _ => 0) s) = true ∧ feOf s 0 = some 0) ∧
    (let s := queued (launch1 0) header1
     (s.fe 0).queue = [launch1 0] ∧ deviceLive s 0 = true ∧ headerFits s 0x8000 = some false ∧ headerErr s 0x9000 = some .hdr ∧
       headerErr s 0x40000000 = some (.xlate 0x40000000)) ∧
    headerFits (queued (launch1 0) (header1 ++ [(0x8014, 1)])) 0x8000 = some true ∧
    graphFits (queued (launch1 0xB000) (graph1 false)) = some (false, []) ∧ graphFits (queued (launch1 0xB000) (graph1 true)) = some (false, [(0xC000, 0xC000)]) ∧
    (match readGraph (queued (launch1 0xB000) []) 0 0xB000 1 0x80 with | .error .graph => true | _ => false) = true ∧ sideHere (queued (launch1 0) []) 0 0 = true := by
  decide +kernel

/-- A grid of two workgroups of one group of width 8, gangs of two. -/
def pair8 : Program := { (default : Program) with entry := 0x400, width := 8, pro := 1, full := 1, pgs := 2, fgs := 1, e1 := 1, ext := [2, 1, 1], lim := [0, 0, 0], fields := [3, 1, 1, 1, 0, 0] }
def gridWorld (p : Program) (from_ : Option Nat) : State := { feWorld fe0 with groups := [], wgs := [], grids := [(3, ⟨0, 0, p, 0, from_, false, 0⟩)], now := 4096 }

theorem test_hyp_GangsArePlaced :
    (let s := gridWorld pair8 none
     placing s 0 = [(3, ⟨0, 0, pair8, 0, none, false, 0⟩)] ∧ (s.fe 0).limit = (s.fe 0).base ∧ pair8.pgs ≤ (unplaced ⟨0, 0, pair8, 0, none, false, 0⟩).length ∧
       (placeGang s 0 0 pair8 (.grid 3) (((unplaced ⟨0, 0, pair8, 0, none, false, 0⟩).take 2).map (coordsAt pair8))).isSome = true) ∧
    (let p := { pair8 with csz := 1 }
     placeNext (gridWorld p none) fe0 3 ⟨0, 0, p, 0, none, false, 0⟩ = none ∧
       placing (gridWorld p (some 0)) 0 = [(3, ⟨0, 0, p, 0, some 0, false, 0⟩)] ∧ 0 + 4096 ≤ (gridWorld p (some 0)).now) := by decide +kernel

theorem test_hyp_WorkCompletes :
    (∀ n ∈ [1, 2], let s : State := { feWorld fe0 with groups := [], wgs := [(7, { wg0 with gang := some 2 })], gangs := [(2, ⟨0, 0, [], 0, n, []⟩)] }
     s.wg? 7 = some { wg0 with gang := some 2 } ∧ s.groups = [] ∧ (s.cores.all fun k => k.2.entries.isEmpty) = true ∧ (s.core 0).resv = [] ∧ s.ops = []) ∧
    (∀ g ∈ [0, 0x6000], let p := { pair8 with graph := g, stage := 2, outs := [0x4000] }
     let s : State := { feWorld fe0 with groups := [], wgs := [], grids := [(3, ⟨0, 0, p, 2, none, false, 0⟩)] }
     unplaced ⟨0, 0, p, 2, none, false, 0⟩ = [] ∧ ownerBusy s (.grid 3) = false ∧ deviceLive s 0 = true ∧ find? s.edges (edgeKey 0 0x4000) = some edge0) ∧
    (let e := { edge0 with prodDone := [0], producers := [0] }
     let s := { ringWorld (grp true) e with groups := [] }
     e.opened = true ∧ producersDone s (edgeKey 0 0x4000) e = true ∧ edgeRsv s e = edgeRcl s e ∧ ownerBusy s (.stage (edgeKey 0 0x4000)) = false ∧
       stageOf s e = some stage0 ∧ e.role ≠ roleReceiver) := by decide +kernel

theorem test_hyp_PowerHeatAndErrors :
    (let s := feWorld fe0
     800 * s.epoch ≤ s.now ∧ s.fes.filter (fun x => x.2.en && (clustersOf x.2).contains 0) = [(0, fe0)] ∧ s.fes.filter (fun x => x.2.en && (clustersOf x.2).contains 1) = [] ∧
       fe0.power = none ∧ fe0.base ≤ fe0.limit ∧ budgetSum2 s ≤ 2 * computeShare s) ∧
    region base 0x9000 = .hbm ∧
    (let l : L1Sector := ⟨5, 1, 1, false⟩
     let s : State := { base with cores := [(0, { base.core 0 with l1 := [(8, l), (9, { l with dirty := 0 })], smp := [(8, ⟨5, false⟩)] })] }
     find? (s.core 0).l1 (0x400 / 128) = some l ∧ find? (s.core 0).l1 (0x480 / 128) = some { l with dirty := 0 } ∧ find? (s.core 0).smp (0x400 / 128) = some ⟨5, false⟩) ∧
    (base.group? 0).map (fun g => (g.info.born.getLsbD 63, g.c.alloc)) = some (true, 14) := by decide +kernel

/-- A machine whose virtual device 3 is as given. -/
def devWorld (d : VDev) : State := { feWorld { fe0 with vdev := 3 } with vdevs := [(3, d)] }

theorem test_hyp_ControlRegistersAndInvalidations :
    (∀ st ∈ [DevSt.free, .saved, .live], let s := devWorld { VDev.initial with st := st }
     s.sys.hartsReleased = true ∧ (s.vdev 3).st = st ∧ (0x10000 : DWord).toNat % 65536 = 0 ∧ 1 ≤ (64 : DWord).toNat ∧ (64 : DWord).toNat < 2 ^ 12) ∧
    (∀ o ∈ [0, 64], let s := peered remote0
     o < 4096 ∧ o % 8 = 0 ∧ peerV (s.codec 0) (o / 64) = decide (o = 0)) ∧
    ([0x80000005, 0x3F].all fun (v : Word) => decide (v.toNat % 2 ^ 31 < 2 ^ 6)) = true ∧ (0x80000005 : Word).getLsbD 31 = true ∧ (0x3F : Word).getLsbD 31 = false ∧
    (let s : State := { State.reset with sys := { State.reset.sys with vecPending := [7], invals := [⟨0, 2, 3, 0x5000⟩] } }
     7 ∈ s.sys.vecPending ∧ s.sys.den = false ∧ s.sys.hartsReleased = true ∧ s.sys.invals = ⟨0, 2, 3, 0x5000⟩ :: [] ∧ s.sys.invals.length < 16) := by decide +kernel

/-- A machine with one token of device 0 of a kind. -/
def tokened (k : TokKind) (g : Group) (e : Edge) (st : DevSt) : State :=
  let s := ringWorld g e
  { s with vdevs := [(0, { s.vdev 0 with tokens := [(5, ⟨k, 0, 0⟩)], st := st })] }

theorem test_hyp_AnswersToTokens :
    (let s := tokened (.trap 0) (waiting (.trapped 5 3)) edge0 .live
     find? (s.vdev 0).tokens 5 = some ⟨.trap 0, 0, 0⟩ ∧ (s.vdev 0).gen = 0 ∧ (s.vdev 0).st = .live ∧ (s.group? 0).map (·.c.wait) = some (.trapped 5 3) ∧
       (waiting (.trapped 5 3)).c.paths.find? (fun p => decide (p.stamp = 0)) = some ⟨0x100, 1, .run, 0⟩ ∧ find? (s.vdev 0).tokens 6 = none) ∧
    (let g := { waiting (.trapped 5 3) with c := { (waiting (.trapped 5 3)).c with chain := some ⟨8, 2, true⟩ } }
     let s := (tokened (.trap 0) g edge0 .saving).setNum 0x100100 4 ((encode (.umovi (.g 1) 3)).headD 0).toNat
     (s.vdev 0).st = .saving ∧ inChain s g = true ∧ endsChainStop s 0 (.trap 0) = true) ∧
    (let s : State := { tokened (.walker 0) (grp true) edge0 .live with fes := [(0, { fe0 with parked := 5 })] }
     find? (s.vdev 0).tokens 5 = some ⟨.walker 0, 0, 0⟩ ∧ feOf s 0 = some 0 ∧ (s.fe 0).parked = 5) ∧
    (let e := { edge0 with parkedAt := [2], ready := [2] }
     let s := tokened (.slot (edgeKey 0 0x4000) 2) (grp true) e .live
     find? (s.vdev 0).tokens 5 = some ⟨.slot (edgeKey 0 0x4000) 2, 0, 0⟩ ∧ find? s.edges (edgeKey 0 0x4000) = some e) ∧
    (let s := tokened (.trap 0) (grp true) edge0 .saved
     (s.vdev 0).st = .saved ∧ find? (s.vdev 0).tokens 5 = some ⟨.trap 0, 0, 0⟩ ∧ endsChainStop s 0 (.trap 0) = false) ∧
    (let s := tokened (.walker 0) (grp true) edge0 .saved
     (s.vdev 0).st ≠ .live ∧ endsChainStop s 0 (.walker 0) = false) ∧
    (let s := tokened (.walker 0) (grp true) edge0 .live
     let t : State := { s with vdevs := [(0, { s.vdev 0 with gen := 1 })] }
     find? (t.vdev 0).tokens 5 = some ⟨.walker 0, 0, 0⟩ ∧ (0 : Nat) ≠ (t.vdev 0).gen) := by decide +kernel

theorem test_hyp_DeviceCommands :
    (∀ n ∈ [112, 113], ((devWorld { VDev.initial with crsz := n }).vdev 3).st = .free ∧ decide (n < 1 + 112 * (0 + 1)) = decide (n = 112)) ∧
    (∀ k ∈ [0, 1], let s := devWorld { VDev.initial with crb := 0x200000000, st := .saved, crsz := 113, maxcl := k - 1 }
     (s.vdev 3).st = .saved ∧ feOf s 3 = some 0 ∧ restoreFits s 3 (s.fe 0) = true ∧ ownedCells s 3 = (s.vdev 3).image) ∧
    (let s := devWorld { VDev.initial with st := .saved, saved := some ⟨[], [], [], [], [], [], [], [], 4, none⟩ }
     restoreFits s 3 (s.fe 0) = false ∧ feOf { s with fes := [] } 3 = none) ∧
    (let s := devWorld { VDev.initial with crb := 0x200000000, st := .saved, crsz := 113, image := [(1, 1)] }
     ownedCells s 3 ≠ (s.vdev 3).image) ∧
    (∀ st ∈ [DevSt.free, .live, .saving, .resetting], ((devWorld { VDev.initial with st := st }).vdev 3).st ≠ .saved) := by decide +kernel

theorem test_hyp_SavesAndRestores :
    (let s := ringWorld (grp true) edge0
     let t : State := { s with vdevs := [(0, { s.vdev 0 with st := .saving })] }
     (t.vdev 0).st = .saving ∧ feOf t 0 = some 0 ∧ (t.groups.all fun e => groupStops t e.2) = true ∧ (t.group? 0).isSome = true ∧ (t.core 0).rules = [] ∧ (t.core 0).mmars = []) ∧
    (let s := ringWorld (grp true) edge0
     let x : Saved := ⟨[(0, grp true)], [], [], [], [], [], [], [], 0, none⟩
     let t : State := { s with vdevs := [(0, { s.vdev 0 with st := .restoring, saved := some x })], groups := [] }
     (t.vdev 0).st = .restoring ∧ feOf t 0 = some 0 ∧ (t.vdev 0).saved = some x ∧ (t.vdev 0).pendFresp = [] ∧ (x.groups.map (·.1)).Nodup) ∧
    ((devWorld { VDev.initial with st := .resetting }).vdev 3).st = .resetting ∧
    (∀ g ∈ [0, 1], let s := devWorld { VDev.initial with crb := 0x100000000, heldEvents := [⟨[1], g⟩] }
     (s.vdev 3).heldEvents = ⟨[1], g⟩ :: [] ∧ (s.vdev 3).gen = 0 ∧ evRoom s 3 = true ∧ evRoom (s.setNum 0x100000020 4 1920) 3 = false) := by decide +kernel

theorem test_hyp_PortsAndRequests :
    (∀ n ∈ [7, 8], let s : State := { base with sys := { base.sys with ports := [(3, ⟨2, n, 0, 0⟩)] } }
     (s.port 3).st = 2 ∧ (s.port 3).retries = n ∧ (s.port 4).st ≠ 2) ∧
    (let s : State := { base with sys := { base.sys with den := true, partno := 2 } }
     s.sys.den = true ∧ (2 * 2 ^ 44 + 0x9000) / 2 ^ 44 = s.sys.partno ∧ (∀ i, i < 8 → region s (2 * 2 ^ 44 + 0x9000 + i) = .hbm) ∧
       (∀ i, i < 8 → s.poisoned (2 * 2 ^ 44 + 0x9000 + i) = false) ∧ (1 : Nat) ≠ s.sys.partno) ∧ base.sys.powered = true := by decide +kernel

theorem test_hyp_PowerBootAndAttestation :
    (let off : State := { State.reset with sys := { State.reset.sys with mcUp := false } }
     off.sys.mcUp = false ∧ State.reset.sys.mcUp = true) ∧
    (∀ p : Bool, ({ State.reset.sys with powered := p } : Sys).powered = p) ∧
    (let s : State := { State.reset with dies := [(2, { Die.initial with heat := 220 })] }
     220 ≤ (s.die 2).heat ∧ s.sys.powered = true ∧ s.sys.hartsReleased = true ∧ s.sys.mcUp = true) ∧
    (List.replicate 64 (5 : Byte)).length = 64 ∧ (List.replicate 32 (5 : Byte)).length = 32 := by decide +kernel

/-- Core 0's spawn buffer full, the spawn area of size 0. -/
def crowded (s : State) : State := { s with cores := mset s.cores 0 { s.core 0 with entries := [{ (default : FEntry) with bytes := 131072, order := 5 }] } }

/-- BRXD with two sets, and what the room for leaving threads decides (R74, R75, R80). -/
theorem test_hyp_RoomForLeavers :
    (let two := { grp true with c := { (grp true).c with paths := [⟨0x100, 3, .run, 0⟩] } }
     let k := gate (.brxd 5 0) (needBr 5) (onPath fun g p => leaveBusy g ((brxdSets g 5 p.pc p.mask).length - 1)) (fun _ _ => 0) (world (withV two [(5, 8), (133, 16)]))
     goes k = true ∧ (brxdSets (ctxOf k).g 5 (ctxOf k).pc (ctxOf k).mask).length = 2 ∧ (ctxOf k).g.c.paths.length + 2 ≤ 9) ∧
    (let full := { withV (grp true) [(5, 8), (133, 16)] with c := { (grp true).c with paths := ⟨0x100, 3, .run, 0⟩ :: (List.range 7).map fun i => ⟨0x200, laneBit (i + 2), .wait, i + 1⟩ } }
     let s := crowded (world full)
     let k := gate (.brxd 5 0) (needBr 5) (onPath fun g p => leaveBusy g ((brxdSets g 5 p.pc p.mask).length - 1)) (fun _ _ => 0) s
     goes k = true ∧ (brxdSets (ctxOf k).g 5 (ctxOf k).pc (ctxOf k).mask).length = 2 ∧
       roomFor s (ctxOf k).g (splitLeavers (ctxOf k).g (brxdSets (ctxOf k).g 5 (ctxOf k).pc (ctxOf k).mask)) = false) ∧
    (let full := { withV (grp true) [(5, 1)] with c := { (grp true).c with paths := ⟨0x100, 3, .run, 0⟩ :: (List.range 7).map fun i => ⟨0x200, laneBit (i + 2), .wait, i + 1⟩ } }
     let s := crowded (world full)
     let k := gate (.brd 5 7 1) (needBr 5) (onPath fun g p => decide (brsOut g 5 p.mask ≠ 0) && leaveBusy g 1) (fun _ _ => 0) s
     goes k = true ∧ takenLanes (ctxOf k).g 5 (ctxOf k).mask = 1 ∧ roomFor s (ctxOf k).g (splitLeavers (ctxOf k).g [(0x104, 2), (0x104, 1)]) = false ∧
       (let q := gate (.brs 5 1) (needBr 5) (onPath fun g p => lanesBusy g (brsOut g 5 p.mask)) (fun _ _ => 0) s
        goes q = true ∧ roomFor s (ctxOf q).g 1 = false)) ∧
    (let s := crowded (ringWorld (grp true) edge0)
     stageOf s edge0 = some stage0 ∧ spawnRoom s 0 0 1 (entryBytes 16) = false) := by decide +kernel

/-- An answer that a save overtook; a page that the cluster's translation cache alone holds (R174, R315). -/
theorem test_hyp_StrayAnswersAndClusterPages :
    (let g := { grp true with c := { (grp true).c with stray := [(9, 2)] } }
     (world g).group? 0 = some g ∧ find? g.c.stray 9 = some 2) ∧
    (let s := paged (world (grp true))
     let e : Tlb := ⟨0, 0, false, 0x4000000, 4096, 0x4000000, 0x4000000, 7, 0, 4096, 4096⟩
     let t : State := { s with clusters := [(0, { s.cluster 0 with tlb := [e] })] }
     translates t 0 = true ∧ deviceActive t 0 = true ∧ tlbHit t 0 0 0x4000123 3 = some (false, e) ∧ tlbHit s 0 0 0x5123 3 = none ∧ tlbHit s 0 0 0x40000000 3 = none) := by
  decide +kernel

theorem test_hyp_IssueAndTokens :
    releaseHeld (world (grp true)) 0 (grp true) = false ∧ unsentLines (grp true) = false ∧
    (let g := { grp true with c := { (grp true).c with wait := .take (.g 3) } }
     let s : State := { world g with wgs := [(0, { wg0 with token := some 0, tokenWait := [0] })] }
     s.wg? 0 = some { wg0 with token := some 0, tokenWait := [0] } ∧ s.group? 0 = some g ∧ (0 : Nat) ∈ [0] ∧ (grp true).info.age < ((world g).group? 1).elim 0 (·.info.age)) := by
  decide +kernel

theorem test_hyp_SendsOfASlot :
    (let e := { edge0 with role := roleSender, ready := [0] }
     let s := remoteWorld e remote0
     isPublished s e 0 = true ∧ (0 : Nat) ∉ e.parkedAt ∧ (0 : Nat) ∉ e.voided ∧ remote0.pack = []) := by decide +kernel

/-- Launches of a device without a front end, of a stage number that names no entry, of a stage that runs elsewhere; errors of each kind. -/
theorem test_hyp_LaunchesRefused :
    feOf { feWorld fe0 with fes := [] } 0 = none ∧
    goes (gate (.launch 50 0) { (Need.ofUni.ublk 50 6).udst (.g 0) with even := [50] } (fun g => outstanding g [clsLSU]) (fun _ _ => 0)
      { feWorld fe0 with fes := [] }) = true ∧ { launch1 0 with bad := true }.bad = true ∧
    headerErr ((queued (launch1 0) header1).setPoison 0x205000) 0x8000 = some (.poison true none 0x205000) ∧
    (match readGraph (queued (launch1 0xB000) (graph1 false)) 0 0xB000 2 0x80 with | .ok (ps, _) => ps.map (fun p : Program => p.stage) | .error _ => []) = [1] ∧
    (match readGraph (queued (launch1 0x40000000) []) 0 0x40000000 1 0x80 with | .error (.xlate _) => true | _ => false) = true ∧
    { launch1 0 with walk := true }.walk = true ∧ sideHere (queued (launch1 0) []) 0 1 = false := by decide +kernel

theorem test_hyp_StagesAndDies :
    (let e : Edge := { edge0 with prodDone := [0], producers := [0] }
     let w := ringWorld (grp true) e
     let s : State := { w with groups := [], vdevs := [(0, { w.vdev 0 with cut := 0x6000 })] }
     find? s.edges (edgeKey 0 0x4000) = some e ∧ deviceLive s 0 = true ∧ e.stuck s = false ∧ e.graph = (s.vdev 0).cut) ∧
    base.sys.cycBase + 800 * base.epoch ≤ base.now ∧
    (∀ d : Fin 2, let l : CcLine := ⟨0, 3, BitVec.ofNat 2 d, none⟩
     let s : State := { base with clusters := [(0, { base.cluster 0 with lines := [(0x90, l)] })], llc := [(0x90, l)] }
     find? (s.cluster 0).lines (0x9000 / 256) = some l ∧ find? s.llc (0x9000 / 256) = some l ∧ region s 0x9000 = .hbm ∧ decide (l.dirty &&& sectorBit 0x9000 = 0) = decide (d = 0)) ∧
    (let s := crowded (world (grp true))
     ((s.core 0).entries.map (·.order)) = [5]) := by decide +kernel

/-- VSIDE, the domain, a read of control space; invalidations that name and do not name an entry. -/
theorem test_hyp_ControlSpace :
    (∀ b : Bool, let s := devWorld { VDev.initial with st := .saved, vside := 0 }
     let t : State := { s with edges := if b then [(edgeKey 3 0x4000, { edge0 with vdev := 3 })] else [] }
     (t.vdev 3).st = .saved ∧ sideInUse t 3 = b ∧ (1 : DWord).toNat < 2) ∧
    (∀ b : Bool, ({ State.reset.sys with den := b } : Sys).den = b) ∧ (5 : DWord).toNat < 2 ^ 12 ∧ (2 : Nat) % 4 ≠ 0 ∧ 0x200002 % 4 ≠ 0 ∧
    (placedPage.vmid = 0 ∧ placedPage.asid = 0) := by decide +kernel

/-- A save, and a restore of the region as it was left. -/
theorem test_hyp_SavedRegions :
    (let s := ringWorld (grp true) edge0
     let t : State := { s with vdevs := [(0, { s.vdev 0 with st := .restoring, image := ownedCells s 0 })] }
     ownedCells t 0 = (t.vdev 0).image ∧ nextLine (grp true) = none) := by decide +kernel

/-- A domain of part 2, part 1 reached over port 3. -/
theorem test_hyp_PartsOfADomain :
    (let s : State := { base with sys := { base.sys with den := true, partno := 2, portRoutes := [(1, 8)], ports := [(3, ⟨2, 0, 0, 0⟩)] } }
     (upPorts s 1 = [3] ∧ (2 * 2 ^ 44 + 0x9000) / 2 ^ 44 = s.sys.partno ∧ (2 * 2 ^ 44 + 0x9000) % aopSize true = 0) ∧
       (∀ i : Fin 8, region s (2 * 2 ^ 44 + 0x9000 + i) = .hbm ∧ s.poisoned (2 * 2 ^ 44 + 0x9000 + i) = false ∧ region s (2 ^ 44 + 0x9000 + i) = .remote)) := by decide +kernel

/-- Two narrow groups at one program counter, the word there IADD v5, v9, v17 (R68). -/
def pairWorld : State :=
  let s := State.reset.withFetchWord 32 0x02014491
  let g : Group := { placedGroup with info := { placedGroup.info with width := 8 } }
  { s with groups := [(0, g), (1, { g with info := { g.info with age := g.info.age + 1 } })], agenda := [.packed [0, 1]] }

theorem test_hyp_PackedPair :
    (match pairWorld.groups with
      | [(a, f), (b, g)] => decide (a ≠ b) && decide (f.info.age < g.info.age) && decide (f.info.width + g.info.width ≤ 64) && sameFetch f g && nextPerLane pairWorld f
          && !inChain pairWorld g && isReady pairWorld b
      | _ => false) = true := by decide +kernel

theorem test_hyp_EncodeThenDecode : ∀ i ∈ ([.iadd (.v 5) (.lit 7) (.v 17), .exit, .uld .b64 (.g 2) (.g 4) 0x3FF] : List Instr), encode i ≠ [] ∧ i.wellFormed = true := by
  decide +kernel

theorem test_hyp_DecodeThenEncode : decode (leBytes 4 0x02014491 ++ [1, 2]) = some (.iadd (.v 5) (.v 9) (.v 17), [1, 2]) := by decide +kernel

/-- What a fetch gives, by name. -/
def fetched (x : State × Fetched) : Option Instr × Option Word :=
  match x.2 with
  | .instr i => (some i, none)
  | .illegal w => (none, some w)
  | _ => (none, none)

theorem test_hyp_StepRunsTheInstruction :
    (let s := State.reset.withFetchWord 32 0x02014491
     s.agenda = [.issue 0] ∧ (s.group? 0).map (fun g => (curPath g.c.paths, mayRun s 0 g)) = some (some ⟨0, BitVec.allOnes 64, .run, 0⟩, true) ∧
       fetched (fetchInstr s 0 0 0) = (some (.iadd (.v 5) (.v 9) (.v 17)), none) ∧ (translate s 0 0 0 4).2 = .ok 0x100000 0 ∧ region s 0x100000 = .hbm ∧
       s.poisoned 0x100000 = false ∧ addrClass 0 = .translated) ∧
    fetched (fetchInstr (State.reset.withFetchWord 32 0) 0 0 0) = (none, some 0) ∧
    (let s := State.reset.withFetchWord 64 (0x0201017F + 1000 * 2 ^ 32)
     fetched (fetchInstr s 0 0 0) = (some (.iadd (.v 4) (.v 2) (.lit 1000)), none) ∧ (Instr.iadd (.v 4) (.v 2) (.lit 1000)).lits ≠ [] ∧
       (translate s 0 0 4 4).2 = .ok 0x100004 0) ∧
    encode (.formWindowExpiry 0 0) = [] := by decide +kernel

/-- The fault an outcome is. -/
def faultOf : Host.Outcome State Fault Refusal → Option Fault
  | .fault f => some f
  | _ => none

/-- The stop is met, by an instruction and by a codec. -/
theorem test_hyp_StopsOnlyWhereUndefined :
    faultOf (exec (.resv 20 0) (ringWorld (grp true) { edge0 with undef := true })) = some .edgeInitial ∧
    faultOf (exec (.recordPlacement (edgeKey 0 0x4000)) { peered { remote0 with decided := [(0, .void)] } with
      edges := [(edgeKey 0 0x4000, { edge0 with role := roleReceiver, undef := true })] }) = some .edgeInitial := by decide +kernel

theorem test_hyp_InvariantKept : Memory.wf (State.reset.withFetchWord 32 0x02014491).mem ∧
    (match step (State.reset.withFetchWord 32 0x02014491) with | .next _ => true | _ => false) = true := by decide +kernel

/-! ## Worked examples of the manual -/

/-- What an instruction leaves (the state as it was where it stops). -/
def after (i : Instr) (s : State) : State :=
  match exec i s with
  | .next t => t
  | _ => s
def vreg (s : State) (lane r : Nat) : Option Word := (s.group? 0).map fun g => g.r.getV lane r
def greg (s : State) (r : Nat) : Option Word := (s.group? 0).map fun g => g.ug r

/-- The words that the manual's text writes out (R109, R185, R186, R250 and the examples of 09; SMP's as R55 lays its fields out, log 40). -/
theorem test_words_examples : Reads
    [(0x4D0061C2, .ldl .b32 3 (.v 7) 2), (0x4B410101, .st .b64 0 (.v 8) (.v 4) 1), (0x5310C100, .smp .b32 1 6 (.v 4) 0), (0x5B820080, .ldo .b128 16 (.v 2) 0),
     (0xE6020C40, .bank (.g 2) (.g 3) (.g 4)), (0x60028002, .emit 10 0 2), (0x60433A02, .resv 12 2), (0x60830002, .wrec 12 0 2), (0x60C33A02, .publ 12 2),
     (0x61038005, .spawn 14 0 5), (0xDA485010, .ruleStep 8 20), (0x1AC1FA74, .wfld 3 (.v 7))] := by decide +kernel

/-- The work identifiers of the example under R19, and WFLD.F3 of it (R109). -/
theorem test_work_identifiers :
    widOf { (default : Program) with fields := [4, 2, 2, 7, 3, 0] } [9, 3, 1, 57, 5, 0] = 0x2B979 ∧ leNat (slotHeader 0x31 5 0x103) = 0x3100000500000103 ∧
    (let g := { grp true with info := { (grp true).info with fields := [4, 2, 2, 7, 3, 0] }, r := { (grp true).r with wid := [(0, 0x2B979)] } }
     vreg (after (.wfld 3 (.v 7)) (world g)) 0 7 = some 57) := by decide +kernel

/-- R134: BFE.N v6, v7, #0x0804 with v7 = 0x0000_ABCD gives 0xBC. R138: FMA of −0, 5 and +0 is +0 in RNE, −0 in RDN. -/
theorem test_bfe_and_fma :
    vreg (after (.bfeN (.v 6) (.v 7) (.lit 0x0804)) (world (withV (grp true) [(7, 0xABCD)]))) 0 6 = some 0xBC ∧
    (let s := world (withV (grp true) [(1, 0x80000000), (2, 0x40A00000)])
     vreg (after (.fma .rne 3 (.v 1) (.v 2)) s) 0 3 = some 0 ∧ vreg (after (.fma .rdn 3 (.v 1) (.v 2)) s) 0 3 = some 0x80000000) := by decide +kernel

/-- R140: FFRACT of −2^−30; R143: FRCP of 2^127 and of 2^−127. -/
theorem test_fract_and_reciprocal : (ffract32 0xB0800000).1 = 0x3F7FFFFF ∧ (specRcp 0x7F000000).1 = 0x00400000 ∧ (specRcp 0x00400000).1 = 0x7F000000 := by
  decide +kernel

/-- The E2M1 example under R150: two CVTQs pack eight values under e = 0x80, two CVTDQs restore them. -/
theorem test_cvtq_e2m1 :
    (let s := world (withV (grp true) [(12, 0x3F666666), (13, 0xC0266666), (14, 0x40A00000), (15, 0x42C80000), (16, 0x3F800000), (17, 0x80000000), (18, 0x41400000),
        (19, 0x40466666)])
     let t := after (.cvtq .e2m1 (.v 9) (.v 12) (.lit 0x80)) s
     vreg t 0 9 = some 0x74B10000 ∧ (t.group? 0).map (fun g => g.c.sb.map fun e => e.2.flags) = some [0x1C]) ∧
    (let s := world (withV (grp true) [(9, 0x74B10000), (16, 0x3F800000), (17, 0x80000000), (18, 0x41400000), (19, 0x40466666)])
     vreg (after (.cvtq .e2m1 (.v 9) (.v 16) (.lit 0x80)) s) 0 9 = some 0x378174B1) := by decide +kernel

theorem test_cvtdq_e2m1 :
    (let s := world (withV (grp true) [(9, 0x378174B1)])
     let t := after (.cvtdq .e2m1 20 (.v 9) (.lit 0x80)) s
     [20, 21, 22, 23].map (vreg t 0) = [some 0x3F800000, some 0xC0400000, some 0x40800000, some 0x41400000] ∧
       [24, 25, 26, 27].map (vreg (after (.cvtdq .e2m1 24 (.v 9) (.lit 0x180)) s) 0) = [some 0x3F800000, some 0x80000000, some 0x41400000, some 0x40400000]) := by
  decide +kernel

/-- The example under R126: two chunks of 0.75 each leave 16,777,216 unchanged, because each is rounded on its own. -/
theorem test_chunks_round_one_by_one :
    let step (acc : Word) : Word := (chunkAcc acc [Ex.mul (f32 0x3F800000) (f32 0x40000000)] 0x7C 0x80 0x3FC00000).1
    step (step 0x4B800000) = 0x4B800000 := by decide +kernel

/-- The example at the end of 12: one generation of a blinker, three rows in two cc. -/
theorem test_blinker :
    let h := tileHdr (blinker.lsBytes 0 64)
    let t := stepBegin blinker 0 0 1
    let x := stepOn blinker t t.rowsLeft 100
    tileHdrOk 0 (blinker.lsBytes 0 64) = true ∧ h.bw = 5 ∧ h.tb = 16 ∧ t.rowsLeft = 3 ∧ x.2 = (none, 2, false) ∧
      [0x40, 0x50, 0x60, 0x70, 0x80].map (fun a => x.1.lsByte a) = [0, 4, 4, 4, 0] ∧ leNat (x.1.lsBytes 0x18 4) = 1 ∧ leNat (x.1.lsBytes 0x1C 4) = 0 := by
  decide +kernel

/-- The admission example under R43: with 16,384 registers free the workgroup of four groups is admitted, with 4,608 it is refused. -/
theorem test_admission_keeps_room_to_acquire :
    (let g1 : Group := { placedGroup with info := { placedGroup.info with width := 64, prog := { (default : Program) with full := 8 } }, c := { placedGroup.c with alloc := 2 } }
     let fill (n : Nat) : Group := { placedGroup with info := { placedGroup.info with width := n, slot := 3 }, c := { placedGroup.c with alloc := 16 } }
     let s (n : Nat) : State := { base with groups := [(0, g1), (1, fill n)] }
     let w : CoreNeed := ⟨0, 0, 0, 4, 16, 4, 12⟩
     regsFree (s 888) 0 = 16384 ∧ (fitCore (s 888) 0 w).isSome = true ∧ regsFree (s 980) 0 = 4608 ∧ (fitCore (s 980) 0 w).isNone = true) := by decide +kernel

/-- R174 and R305: a request in flight before a fault on the page is detected shares its token and logs no second event; a later one gets its own. -/
theorem test_merged_walks_share_a_token :
    (let tok (s : State) : Nat := s.nextTok
     let s := world (grp true)
     let s1 := (parkPacket s 0 (ldReq 0x5000) s.nextId 1 0x5000).1
     let s2 := (parkPacket s1 0 (ldReq 0x5008) s.nextId 1 0x5008).1
     let s3 := (parkPacket s2 0 (ldReq 0x5010) (s1.nextId + 1) 1 0x5010).1
     decide (tok s1 ≠ tok s) && decide (tok s2 = tok s1) && decide (tok s3 ≠ tok s2)) = true := by decide +kernel

/-- R215: byte 0x3C of a grid descriptor is the destination scale, byte 0x3D the source scale. -/
theorem test_grid_scales :
    (let g := gdescOf (List.replicate 60 0 ++ [7, 9, 0, 0])
     (g.dscale, g.sscale)) = (7, 9) := by decide

/-- One step from reset with a word placed: IADD v5, v9, v17 of zeros and of a literal. -/
theorem test_step_runs_a_placed_word :
    (match step (State.reset.withFetchWord 64 (0x0201017F + 1000 * 2 ^ 32)) with
      | .next t => (vreg t 63 4, (t.group? 0).map fun g => g.c.paths.map (·.pc))
      | _ => (none, none)) = (some 1000, some [8]) := by decide +kernel

end Sys2Proof.Tests
end

section
/-! PROOFS. What an open gate says of the latch chain (R70), and that UNOP changes nothing (R108). -/
namespace Sys2Proof.Machine

theorem gate_go_ends {i : Instr} {n : Need} {w : Group → Bool} {e : Group → Mask → Mask} {s : State} {c : Ctx} {pm : Mask}
    (h : gate i n w e s = .go c pm) : c.ends = endsChain i := by
  obtain ⟨hcur, hg, hrun, htrap, -, -, -, -, p, hp, -, -, -⟩ := gate_go h
  simp only [gate, hcur, hg, hp, hrun, htrap, Bool.not_true, Bool.false_eq_true, if_false] at h
  split at h
  · cases h
  · simp only [Gate.go.injEq] at h
    exact congrArg Ctx.ends h.1.symm

/-- A firm chain outlasts every uniform instruction that does not end chains (R70). -/
theorem nextChain_of_firm {n : Need} {k : Chain} (hn : n.lane = false) (hk : k.firm = true) : nextChain (some k) n false = some k := by
  simp [nextChain, hn, hk]

end Sys2Proof.Machine

namespace Sys2Proof

/-- The op field of a uniform word whose top bit, op and remaining 25 bits are given. -/
theorem fld_op_of_parts {op x : Nat} (hop : op < 2 ^ 6) (hx : x < 2 ^ 25) : fld (2 ^ 31 + op * 2 ^ 25 + x) 25 6 = op := by
  unfold fld; omega

theorem fld_low_of_parts {op x : Nat} (hx : x < 2 ^ 25) : fld (2 ^ 31 + op * 2 ^ 25 + x) 0 25 = x := by
  unfold fld; omega

theorem decodeUni_of_op_unop {w : Nat} {lit : Word} (h : fld w 25 6 = 0x32) : decodeUni w lit = some (.unop (.ofNat 25 (fld w 0 25))) := by
  unfold decodeUni; rw [h]; rfl

theorem decodeWord_of_uniform {w : Nat} {lit : Word} (hlo : 2 ^ 31 ≤ w) (hhi : w < 2 ^ 32) :
    decodeWord (.ofNat 32 w) lit = (decodeUni w lit).bind fun i => if i.wellFormed then some i else none := by
  have hw : (BitVec.ofNat 32 w).toNat = w := by rw [BitVec.toNat_ofNat, Nat.mod_eq_of_lt hhi]
  have htop : ¬ w / 2 ^ 31 = 0 := by omega
  simp only [decodeWord, hw, if_neg htop]

end Sys2Proof

namespace Sys2Proof.Machine

theorem decodeWord_unop (x : BitVec 25) (lit : Word) : decodeWord (.ofNat 32 (2 ^ 31 + 0x32 * 2 ^ 25 + x.toNat)) lit = some (.unop x) := by
  have hx := x.isLt
  rw [decodeWord_of_uniform (by omega) (by omega), decodeUni_of_op_unop (fld_op_of_parts (by decide) hx), fld_low_of_parts hx,
    BitVec.ofNat_toNat, BitVec.setWidth_eq]
  rfl

/-- Settles O16: an open gate leaves UNOP nothing but the accounting of its issue, which moves the program counter and keeps a firm chain; its
words decode by the op alone. -/
theorem unopChangesNothing : Obligations.UnopChangesNothing := by
  unfold Obligations.UnopChangesNothing
  refine ⟨fun x s c h => ?_, decodeWord_unop⟩
  have hg : (account Need.ofUni c s).group? c.gid = some (accounted Need.ofUni c s.now c.g) := by
    rw [account_group?, (gate_go h).2.1]; rfl
  have hends : c.ends = false := gate_go_ends h
  have hexec : exec (.unop x) s = .next (account Need.ofUni c s) :=
    (show exec (.unop x) s = execUnop x s from rfl).trans (issue_go h)
  refine ⟨_, _, hexec, account_onlyGroup Need.ofUni c s, hg, rfl, rfl, rfl, rfl, rfl, rfl, rfl, fun k hk hfirm => ?_⟩
  show nextChain c.g.c.chain Need.ofUni c.ends = some k
  rw [hk, hends, nextChain_of_firm rfl hfirm]

end Sys2Proof.Machine
end

section
/-! PROOFS. Uniform arithmetic (R83 to R86): the model's words are the values of the manual's tables, and each instruction form leaves its
result. -/
namespace Sys2Proof.Machine

/-! ## The values -/

theorem add_value_eq (a b : Word) : .ofNat 32 (a.toNat + b.toNat) = a + b := by
  simp [BitVec.ofNat_add]

theorem mul_value_eq (a b : Word) : .ofNat 32 (a.toNat * b.toNat) = a * b := by
  simp [BitVec.ofNat_mul]

theorem sub_value_eq (a b : Word) : .ofInt 32 (a.toInt - b.toInt) = a - b := by
  rw [← BitVec.toInt_inj, BitVec.toInt_ofInt, BitVec.toInt_sub]

theorem minS_value_eq (a b : Word) : (if a.toInt ≤ b.toInt then a else b) = if a.slt b then a else b := by
  simp only [BitVec.slt_iff_toInt_lt]
  rcases lt_trichotomy a.toInt b.toInt with h | h | h
  · rw [if_pos h.le, if_pos h]
  · rw [BitVec.eq_of_toInt_eq h, ite_self, ite_self]
  · rw [if_neg h.not_ge, if_neg h.not_gt]

theorem maxS_value_eq (a b : Word) : (if a.toInt ≥ b.toInt then a else b) = if a.slt b then b else a := by
  simp only [BitVec.slt_iff_toInt_lt, ge_iff_le, ← not_lt, ite_not]

theorem minN_value_eq (a b : Word) : (if a.toNat ≤ b.toNat then a else b) = if a < b then a else b := by
  simp only [BitVec.lt_def]
  rcases lt_trichotomy a.toNat b.toNat with h | h | h
  · rw [if_pos h.le, if_pos h]
  · rw [BitVec.eq_of_toNat_eq h, ite_self, ite_self]
  · rw [if_neg h.not_ge, if_neg h.not_gt]

theorem maxN_value_eq (a b : Word) : (if a.toNat ≥ b.toNat then a else b) = if a < b then b else a := by
  simp only [BitVec.lt_def, ge_iff_le, ← not_lt, ite_not]

theorem ofNat_mul_two_pow (a : Word) (k : Nat) : .ofNat 32 (a.toNat * 2 ^ k) = a <<< k := by
  rw [← BitVec.toNat_inj, BitVec.toNat_ofNat, BitVec.toNat_shiftLeft, Nat.shiftLeft_eq]

theorem ofNat_div_two_pow (a : Word) (k : Nat) : .ofNat 32 (a.toNat / 2 ^ k) = a >>> k := by
  rw [← Nat.shiftRight_eq_div_pow, ← BitVec.toNat_ushiftRight, BitVec.ofNat_toNat, BitVec.setWidth_eq]

/-- A count of 32 or more gives 0 (R84). -/
theorem shl_value_eq (a b : Word) : (if b.toNat < 32 then .ofNat 32 (a.toNat * 2 ^ b.toNat) else 0) = if b < 32 then a <<< b.toNat else 0 := by
  rw [ofNat_mul_two_pow]; rfl

theorem shr_value_eq (a b : Word) : (if b.toNat < 32 then .ofNat 32 (a.toNat / 2 ^ b.toNat) else 0) = a >>> b.toNat := by
  rw [ofNat_div_two_pow]
  split
  · rfl
  · next h => exact (BitVec.ushiftRight_eq_zero (not_lt.mp h)).symm

/-- From a count of 31 up an arithmetic shift leaves copies of the sign only (R84). -/
theorem toInt_ediv_two_pow_of_ge (a : Word) {k : Nat} (hk : 31 ≤ k) : a.toInt / 2 ^ k = a.toInt / 2 ^ 31 := by
  have hlo : -2 ^ 31 ≤ a.toInt := BitVec.le_toInt a
  have hhi : a.toInt < 2 ^ 31 := BitVec.toInt_lt
  have hpow : (2 : Int) ^ 31 ≤ 2 ^ k := by gcongr; decide
  rcases Int.lt_or_le a.toInt 0 with h | h
  · rw [Int.ediv_eq_neg_one_of_neg_of_le h (by omega), Int.ediv_eq_neg_one_of_neg_of_le h (by omega)]
  · rw [Int.ediv_eq_zero_of_lt h (by omega), Int.ediv_eq_zero_of_lt h hhi]

theorem sar_value_eq (a b : Word) : .ofInt 32 (a.toInt / 2 ^ min b.toNat 31) = a.sshiftRight b.toNat := by
  rw [BitVec.sshiftRight, Int.shiftRight_eq_div_pow]
  rcases Nat.le_total b.toNat 31 with h | h
  · rw [min_eq_left h]; rfl
  · rw [min_eq_right h, ← toInt_ediv_two_pow_of_ge a h]; rfl

theorem cond_eq_ucond (cc : ICond) (a b : Word) : Spec.cond cc a b = ucond cc a b := by
  cases cc with
  | eq | ne => simp [Spec.cond, ucond, BitVec.toNat_inj]
  | ltS | gtS => simp [Spec.cond, ucond, BitVec.slt_eq_decide]
  | leS => simp [Spec.cond, ucond, BitVec.sle_eq_decide]
  | ltN | gtN => simp [Spec.cond, ucond, BitVec.lt_def]
  | leN => simp [Spec.cond, ucond, BitVec.le_def]

/-! ## The forms -/

/-- Accounting moves nothing that a uniform source reads. -/
theorem usrc_account (n : Need) (c : Ctx) (s : State) (g : Group) (a : USrc) : usrc (account n c s) g a = usrc s g a := by
  cases a <;> rfl

/-- An instruction of two uniform sources leaves the value `v` of them. -/
theorem uni2_result {i : Instr} {lat : Nat} {d : UDst} {a b : USrc} {f v : Word → Word → Word}
    (hex : ∀ s, exec i s = uni2 i lat d a b f s) (hv : ∀ x y, v x y = f x y) :
    UniResultOf i (((Need.ofUni.usrc a).usrc b).udst d) d lat fun s g => [v (usrc s g a) (usrc s g b)] :=
  .of_issue hex fun s c => by simp only [usrc_account, hv]

/-- An instruction of one uniform source leaves the value `v` of it. -/
theorem uni1_result {i : Instr} {lat : Nat} {d : UDst} {a : USrc} {f v : Word → Word}
    (hex : ∀ s, exec i s = uni1 i lat d a f s) (hv : ∀ x, v x = f x) :
    UniResultOf i ((Need.ofUni.usrc a).udst d) d lat fun s g => [v (usrc s g a)] :=
  .of_issue hex fun s c => by simp only [usrc_account, hv]

/-- The two-source instructions of R84, each by the value of its row of the table. -/
theorem uniTwo_result : ∀ x ∈ Spec.uniTwo, ∀ d a b,
    UniResultOf (x.1 d a b) (((Need.ofUni.usrc a).usrc b).udst d) d x.2.1 fun s g => [x.2.2 (usrc s g a) (usrc s g b)] := by
  simp only [Spec.uniTwo, List.forall_mem_cons, List.not_mem_nil, false_implies, implies_true, and_true]
  refine ⟨?add, ?sub, ?mul, ?and, ?or, ?xor, ?minS, ?maxS, ?shl, ?shr, ?sar, ?minN, ?maxN⟩ <;> intro d a b
  case add => exact uni2_result (fun s => show exec (.uadd d a b) s = execUadd d a b s from rfl) add_value_eq
  case sub => exact uni2_result (fun s => show exec (.usub d a b) s = execUsub d a b s from rfl) sub_value_eq
  case mul => exact uni2_result (fun s => show exec (.umul d a b) s = execUmul d a b s from rfl) mul_value_eq
  case and => exact uni2_result (fun s => show exec (.uand d a b) s = execUand d a b s from rfl) fun _ _ => rfl
  case or => exact uni2_result (fun s => show exec (.uor d a b) s = execUor d a b s from rfl) fun _ _ => rfl
  case xor => exact uni2_result (fun s => show exec (.uxor d a b) s = execUxor d a b s from rfl) fun _ _ => rfl
  case minS => exact uni2_result (fun s => show exec (.uminS d a b) s = execUminS d a b s from rfl) minS_value_eq
  case maxS => exact uni2_result (fun s => show exec (.umaxS d a b) s = execUmaxS d a b s from rfl) maxS_value_eq
  case shl => exact uni2_result (fun s => show exec (.ushl d a b) s = execUshl d a b s from rfl) shl_value_eq
  case shr => exact uni2_result (fun s => show exec (.ushr d a b) s = execUshr d a b s from rfl) shr_value_eq
  case sar => exact uni2_result (fun s => show exec (.usar d a b) s = execUsar d a b s from rfl) sar_value_eq
  case minN => exact uni2_result (fun s => show exec (.uminN d a b) s = execUminN d a b s from rfl) minN_value_eq
  case maxN => exact uni2_result (fun s => show exec (.umaxN d a b) s = execUmaxN d a b s from rfl) maxN_value_eq

theorem ucmp_result (cc : ICond) (d : UDst) (a b : USrc) : UniResultOf (.ucmp cc d a b) (((Need.ofUni.usrc a).usrc b).udst d) d 2
    fun s g => [Spec.truth (Spec.cond cc (usrc s g a) (usrc s g b))] :=
  uni2_result (v := fun x y => Spec.truth (Spec.cond cc x y)) (fun s => show exec (.ucmp cc d a b) s = execUcmp cc d a b s from rfl)
    fun x y => by rw [cond_eq_ucond]; rfl

/-- USEL takes its selector from its destination before it writes it (R84); one of 56 selects by zero. -/
theorem usel_result (d : UDst) (a b : USrc) : UniResultOf (.usel d a b)
    ((match d with | .g r => ((Need.ofUni.usrc a).usrc b).ublk r.val 1 | .zero => (Need.ofUni.usrc a).usrc b).udst d) d 2
    fun s g => [if (match d with | .g r => g.ug r.val | .zero => 0) ≠ 0 then usrc s g a else usrc s g b] := by
  cases d with
  | g r =>
    exact .of_issue (fun s => show exec (.usel (.g r) a b) s = execUsel (.g r) a b s from rfl)
      fun s c => by simp only [usrc_account]
  | zero =>
    exact .of_issue (fun s => show exec (.usel .zero a b) s = execUsel .zero a b s from rfl)
      fun s c => by simp only [usrc_account]

theorem uaddi_result (d : UDst) (a : USrc) (i : BitVec 13) : UniResultOf (.uaddi d a i) ((Need.ofUni.usrc a).udst d) d 2
    fun s g => [.ofInt 32 ((usrc s g a).toInt + i.toInt)] :=
  uni1_result (v := fun x => .ofInt 32 (x.toInt + i.toInt)) (fun s => show exec (.uaddi d a i) s = execUaddi d a i s from rfl)
    fun x => by rw [BitVec.ofInt_add, BitVec.ofInt_toInt]; rfl

theorem uandi_result (d : UDst) (a : USrc) (i : BitVec 13) : UniResultOf (.uandi d a i) ((Need.ofUni.usrc a).udst d) d 2
    fun s g => [.ofNat 32 ((usrc s g a).toNat &&& i.toNat)] :=
  uni1_result (v := fun x => .ofNat 32 (x.toNat &&& i.toNat)) (fun s => show exec (.uandi d a i) s = execUandi d a i s from rfl) fun x => by
    rw [BitVec.ofNat_and, BitVec.ofNat_toNat, BitVec.ofNat_toNat, BitVec.setWidth_eq]

/-- Settles O10: each instruction issues its form's result, and the form's word is the table's value of the sources. -/
theorem uniformResults : Obligations.UniformResults := by
  unfold Obligations.UniformResults
  refine ⟨uniTwo_result, ucmp_result, usel_result, fun d a => ?mov, uaddi_result, uandi_result, fun d i => ?movi⟩
  case mov => exact uni1_result (v := fun x => x) (fun s => show exec (.umov d a) s = execUmov d a s from rfl) fun _ => rfl
  case movi => exact .of_issue (fun s => show exec (.umovi d i) s = execUmovi d i s from rfl) fun _ _ => rfl

end Sys2Proof.Machine
end
